-- ==== Sys2Proof/Word.lean ====
section
/-! DEFINITION. The words of the block: bytes, 64-bit command and response words, 32-bit values (R58, R75, R76). -/

namespace Sys2Proof

/-- One byte of a bus transaction or of a register image. -/
abbrev Byte := BitVec 8

/-- A command word or a response word (R75, R76). -/
abbrev Word := BitVec 64

/-- A VALUE, a detail word or a register image (R76, R64, R31). -/
abbrev Value := BitVec 32

end Sys2Proof
end

