-- ==== Sys2Proof/Config.lean ====
section
/-! DEFINITION. What an instance of the block fixes (rules R6 to R16, R53; 93_implementation_defined.md section P),
what the environment draws (R20, R64), and the free values: constants with no body that no proof can see. -/

namespace Sys2Proof

/-- An expander channel, 0 to 15 (R6). -/
abbrev ChannelId := Fin 16

/-- A stepper unit. NUM_UNITS is 1 or 2 (R11), so two names suffice. -/
abbrev UnitId := Fin 2

/-- The legal values of NUM_UNITS (R11). -/
inductive UnitCount where
  | one
  | two
  deriving DecidableEq, Repr

/-- NUM_UNITS as a number (R11). -/
def UnitCount.toNat : UnitCount → Nat
  | .one => 1
  | .two => 2

/-- The three expander channels of one motor port (R12): the coil's magnitude and its two polarity outputs. -/
structure PortTriple where
  pwm : ChannelId
  inP : ChannelId
  inN : ChannelId
  deriving DecidableEq, Repr, Inhabited

/-- The channels of a port, in the order of R12. -/
def PortTriple.channels (t : PortTriple) : List ChannelId := [t.pwm, t.inP, t.inN]

/-- PORT_MAP: the triple of each motor port 1 to 4 (R12). -/
structure PortMap where
  port1 : PortTriple
  port2 : PortTriple
  port3 : PortTriple
  port4 : PortTriple
  deriving DecidableEq, Repr

/-- The twelve channels that PORT_MAP names (R12). -/
def PortMap.channels (m : PortMap) : List ChannelId :=
  m.port1.channels ++ m.port2.channels ++ m.port3.channels ++ m.port4.channels

/-- The parameters of one instance of the block. They never change while it runs (assumption log 1). -/
structure Config where
  /-- CLOCK_HZ, the expander's reference clock (R9). -/
  clockHz : Nat
  /-- TIMER_HZ, the ticks of TIME per second (R10). -/
  timerHz : Nat
  /-- NUM_UNITS (R11). -/
  units : UnitCount
  /-- PORT_MAP (R12). -/
  portMap : PortMap
  /-- MODE1_ADDR (R53). -/
  mode1Addr : Nat
  /-- PRESCALE_ADDR (R53). -/
  prescaleAddr : Nat
  /-- LED_BASE (R53, R54). -/
  ledBase : Nat
  /-- LED_STRIDE (R53, R54). -/
  ledStride : Nat
  deriving DecidableEq, Repr

/-- The legal parameter values: R9 and R10 (positive), R12 (twelve distinct channels), item P6 (8-bit addresses,
stride at least 4). That the registers named by R53 do not overlap is DEDUCED from its table (assumption log 16). -/
abbrev Config.Legal (c : Config) : Prop :=
  0 < c.clockHz ∧ 0 < c.timerHz ∧ c.portMap.channels.Nodup ∧
  4 ≤ c.ledStride ∧ c.ledBase + c.ledStride * 15 + 3 < 256 ∧
  c.mode1Addr < 256 ∧ c.prescaleAddr < 256 ∧ c.mode1Addr ≠ c.prescaleAddr ∧
  (c.mode1Addr < c.ledBase ∨ c.ledBase + c.ledStride * 15 + 3 < c.mode1Addr) ∧
  (c.prescaleAddr < c.ledBase ∨ c.ledBase + c.ledStride * 15 + 3 < c.prescaleAddr)

/-- The informational PORT_MAP of 93_implementation_defined.md item G3 (assumption log 1). -/
def PortMap.informational : PortMap where
  port1 := ⟨8, 10, 9⟩
  port2 := ⟨13, 11, 12⟩
  port3 := ⟨2, 4, 3⟩
  port4 := ⟨7, 5, 6⟩

/-- The instance that State.reset holds. CLOCK_HZ, NUM_UNITS and the register addresses are the defaults of R9, R11
and R53. DESIGN CHOICE: TIMER_HZ is the test vectors' 1 000 000 and PORT_MAP is item G3 (assumption log 1, unsafe). -/
def Config.standard : Config where
  clockHz := 25000000
  timerHz := 1000000
  units := .two
  portMap := PortMap.informational
  mode1Addr := 0x00
  prescaleAddr := 0xFE
  ledBase := 0x06
  ledStride := 4

/-- What the environment answers to one bus transaction (R64). -/
inductive Answer where
  /-- Every byte was accepted. -/
  | ack
  /-- The address was not acknowledged. -/
  | nack
  /-- Any other transport failure, with its detail word. -/
  | err (detail : Value)
  deriving DecidableEq, Repr, Inhabited

/-- Who takes the next step (R20): the environment's tick, the command port, or a unit's pacing loop. -/
inductive Choice where
  | tick
  | port
  | loop (u : UnitId)
  deriving DecidableEq, Repr, Inhabited

/-- Free value: the turns that round number `n` of the scheduler begins with, any agents in any order and any number
(R20, R69; assumption log 2). -/
opaque Config.schedule : Nat → List Choice

/-- Free value: the answer to draw number `n` once State's own list of answers is used up (R64; assumption log 3). -/
opaque Config.busAnswer : Nat → Answer

/-- Free value: what the 16-bit FREQ_ACTUAL holds when the actual frequency does not fit it, which takes a CLOCK_HZ
other than the default (R27, R89, item P2; assumption log 11). -/
opaque Config.freqOutOfRange : Nat → BitVec 16

/-- Free value: the triple of a port number outside 1..4, which R12 does not map (assumption log 12). -/
opaque Config.unmappedPort : Nat → PortTriple

/-- Free value: the step-table entry outside the table, which R108 does not define. The arguments are the table's
length and the index (assumption log 12). -/
opaque Config.undefinedEntry : Nat → Nat → Int × Int

end Sys2Proof
end

