-- ==== Sys2Proof/Syntax.lean ====
section
/-! DEFINITION. The commands: one constructor for each row of the opcode table (R79). Operands are the unsigned
integers of R78; enumerated fields and single bits are named values. -/

namespace Sys2Proof

/-- STY (R78): the stepping style. -/
inductive Style where
  | full
  | half
  | wave
  | micro
  deriving DecidableEq, Repr, Inhabited

/-- DIR (R78): Forward (+1) or Backward (-1). -/
inductive Dir where
  | forward
  | backward
  deriving DecidableEq, Repr, Inhabited

/-- A command with its operands (R77 to R79). -/
inductive Instr where
  /-- INIT addr7 (R95). -/
  | init (addr7 : Nat)
  /-- SETFREQ hz (R96). -/
  | setfreq (hz : Nat)
  /-- ACQ ch (R97). -/
  | acq (ch : ChannelId)
  /-- REL ch (R98). -/
  | rel (ch : ChannelId)
  /-- SETDUTY ch, frac, inv (R99). -/
  | setduty (ch : ChannelId) (frac : Nat) (inv : Bool)
  /-- DISABLE ch (R100). -/
  | disable (ch : ChannelId)
  /-- ENABLE ch (R101). -/
  | enable (ch : ChannelId)
  /-- CFGMOTOR u, pa, pb, spr (R119). -/
  | cfgmotor (unit pa pb spr : Nat)
  /-- SELSTYLE u, sty, nms (R120). -/
  | selstyle (unit : Nat) (sty : Style) (nms : Nat)
  /-- NEXTSTEP u, dir (R121). -/
  | nextstep (unit : Nat) (dir : Dir)
  /-- SETPF u, pf (R122). -/
  | setpf (unit pf : Nat)
  /-- DISPOSE u (R123). -/
  | dispose (unit : Nat)
  /-- SETSPEED u, rpm (R132). -/
  | setspeed (unit rpm : Nat)
  /-- STEPFOR u, dir, cont, count (R133). -/
  | stepfor (unit : Nat) (dir : Dir) (cont : Bool) (count : Nat)
  /-- CANCEL u (R134). -/
  | cancel (unit : Nat)
  /-- STOP u (R135). -/
  | stop (unit : Nat)
  /-- SETPOLICY u, endfull (R136). -/
  | setpolicy (unit : Nat) (endFull : Bool)
  /-- RDSTAT u, sel (R137). -/
  | rdstat (unit sel : Nat)
  deriving DecidableEq, Repr

end Sys2Proof
end

