-- ==== Sys2Proof/WellFormed.lean ====
section
/-! DEFINITION. A command is well formed when every operand fits the bits its format gives it (R77). A value that fits
its bits but lies outside the operation's legal range is well formed: the command's rule rejects it (R78). -/

namespace Sys2Proof

/-- Every operand fits its field of R77. -/
abbrev Instr.WellFormed : Instr → Prop
  | .init addr7 => addr7 < 2 ^ 7
  | .setfreq hz => hz < 2 ^ 16
  | .acq _ => True
  | .rel _ => True
  | .setduty _ frac _ => frac < 2 ^ 17
  | .disable _ => True
  | .enable _ => True
  | .cfgmotor unit pa pb spr => unit < 2 ^ 4 ∧ pa < 2 ^ 3 ∧ pb < 2 ^ 3 ∧ spr < 2 ^ 16
  | .selstyle unit _ nms => unit < 2 ^ 4 ∧ nms < 2 ^ 8
  | .nextstep unit _ => unit < 2 ^ 4
  | .setpf unit pf => unit < 2 ^ 4 ∧ pf < 2 ^ 17
  | .dispose unit => unit < 2 ^ 4
  | .setspeed unit rpm => unit < 2 ^ 4 ∧ rpm < 2 ^ 16
  | .stepfor unit _ _ count => unit < 2 ^ 4 ∧ count < 2 ^ 32
  | .cancel unit => unit < 2 ^ 4
  | .stop unit => unit < 2 ^ 4
  | .setpolicy unit _ => unit < 2 ^ 4
  | .rdstat unit sel => unit < 2 ^ 4 ∧ sel < 2 ^ 8

end Sys2Proof
end

