-- ==== Sys2Proof/Decode.lean ====
section
/-! DEFINITION. The command decoder of R80, total on every word and every byte string and rejecting by name, and the
encoder, both from the formats of R77 and the opcode map of R79. -/

namespace Sys2Proof

/-- `v[hi:lo]` of R17: bits hi down to lo, inclusive, as an unsigned number. -/
def bitField (w : Word) (hi lo : Nat) : Nat := w.toNat / 2 ^ lo % 2 ^ (hi + 1 - lo)

/-- The formats of R77. -/
inductive Format where
  | fa | fh | fc | fd | fm | fs | ft | fp | fu | fv | fr | fy | fq
  deriving DecidableEq, Repr

/-- The reserved bit ranges (hi, lo) of each format: the `r` bits of R77's layout lines, from the top down. -/
def Format.reserved : Format → List (Nat × Nat)
  | .fa => [(63, 23), (15, 8)]
  | .fh => [(63, 32), (15, 8)]
  | .fc => [(63, 16), (11, 8)]
  | .fd => [(63, 49), (31, 17), (11, 8)]
  | .fm => [(63, 39), (35, 35), (15, 12)]
  | .fs => [(63, 40), (31, 18), (15, 12)]
  | .ft => [(63, 17), (15, 12)]
  | .fp => [(63, 49), (31, 12)]
  | .fu => [(63, 12)]
  | .fv => [(63, 32), (15, 12)]
  | .fr => [(31, 18), (15, 12)]
  | .fy => [(63, 17), (15, 12)]
  | .fq => [(63, 24), (15, 12)]

/-- Every reserved bit of the format is 0 (R77, R80). -/
def reservedClear (f : Format) (w : Word) : Bool :=
  f.reserved.all fun r => bitField w r.1 r.2 == 0

/-- The opcodes of R79, by mnemonic. -/
inductive Opcode where
  | init | setfreq | acq | rel | setduty | disable | enable
  | cfgmotor | selstyle | nextstep | setpf | dispose
  | setspeed | stepfor | cancel | stop | setpolicy
  | rdstat
  deriving DecidableEq, Repr

/-- The OPC value of each command (R79). -/
def Opcode.code : Opcode → Nat
  | .init => 0x01
  | .setfreq => 0x02
  | .acq => 0x03
  | .rel => 0x04
  | .setduty => 0x05
  | .disable => 0x06
  | .enable => 0x07
  | .cfgmotor => 0x10
  | .selstyle => 0x11
  | .nextstep => 0x12
  | .setpf => 0x13
  | .dispose => 0x14
  | .setspeed => 0x20
  | .stepfor => 0x21
  | .cancel => 0x22
  | .stop => 0x23
  | .setpolicy => 0x24
  | .rdstat => 0x30

/-- The command an OPC value names, if any (R79, R81). -/
def opcodeOf : Nat → Option Opcode
  | 0x01 => some .init
  | 0x02 => some .setfreq
  | 0x03 => some .acq
  | 0x04 => some .rel
  | 0x05 => some .setduty
  | 0x06 => some .disable
  | 0x07 => some .enable
  | 0x10 => some .cfgmotor
  | 0x11 => some .selstyle
  | 0x12 => some .nextstep
  | 0x13 => some .setpf
  | 0x14 => some .dispose
  | 0x20 => some .setspeed
  | 0x21 => some .stepfor
  | 0x22 => some .cancel
  | 0x23 => some .stop
  | 0x24 => some .setpolicy
  | 0x30 => some .rdstat
  | _ => none

/-- The format of each command (R79). -/
def Opcode.format : Opcode → Format
  | .init => .fa
  | .setfreq => .fh
  | .acq => .fc
  | .rel => .fc
  | .setduty => .fd
  | .disable => .fc
  | .enable => .fc
  | .cfgmotor => .fm
  | .selstyle => .fs
  | .nextstep => .ft
  | .setpf => .fp
  | .dispose => .fu
  | .setspeed => .fv
  | .stepfor => .fr
  | .cancel => .fu
  | .stop => .fu
  | .setpolicy => .fy
  | .rdstat => .fq

/-- STY values (R78). -/
def Style.ofCode : Nat → Style
  | 0 => .full
  | 1 => .half
  | 2 => .wave
  | _ => .micro

/-- STY values (R78), as RDSTAT reads them back (R34). -/
def Style.code : Style → Nat
  | .full => 0
  | .half => 1
  | .wave => 2
  | .micro => 3

/-- DIR values (R78). -/
def Dir.ofCode : Nat → Dir
  | 0 => .forward
  | _ => .backward

/-- DIR values (R78). -/
def Dir.code : Dir → Nat
  | .forward => 0
  | .backward => 1

/-- The UNIT field (R75). -/
def unitField (w : Word) : Nat := bitField w 11 8

/-- The CH field, four bits and so always a channel (R75, R93). -/
def channelField (w : Word) : ChannelId := ⟨bitField w 15 12, Nat.mod_lt _ (by decide)⟩

/-- A one-bit field. -/
def bitFlag (w : Word) (i : Nat) : Bool := bitField w i i == 1

/-- The operands of a command word, by the fields of R77 and R78. -/
def Opcode.operands (o : Opcode) (w : Word) : Instr :=
  match o with
  | .init => .init (bitField w 22 16)
  | .setfreq => .setfreq (bitField w 31 16)
  | .acq => .acq (channelField w)
  | .rel => .rel (channelField w)
  | .setduty => .setduty (channelField w) (bitField w 48 32) (bitFlag w 16)
  | .disable => .disable (channelField w)
  | .enable => .enable (channelField w)
  | .cfgmotor => .cfgmotor (unitField w) (bitField w 34 32) (bitField w 38 36) (bitField w 31 16)
  | .selstyle => .selstyle (unitField w) (Style.ofCode (bitField w 17 16)) (bitField w 39 32)
  | .nextstep => .nextstep (unitField w) (Dir.ofCode (bitField w 16 16))
  | .setpf => .setpf (unitField w) (bitField w 48 32)
  | .dispose => .dispose (unitField w)
  | .setspeed => .setspeed (unitField w) (bitField w 31 16)
  | .stepfor => .stepfor (unitField w) (Dir.ofCode (bitField w 16 16)) (bitFlag w 17) (bitField w 63 32)
  | .cancel => .cancel (unitField w)
  | .stop => .stop (unitField w)
  | .setpolicy => .setpolicy (unitField w) (bitFlag w 16)
  | .rdstat => .rdstat (unitField w) (bitField w 23 16)

/-- Why a word is not a command (R80, R81). The port answers each of these with IllegalCommand. -/
inductive DecodeError where
  /-- The OPC value is not in the map of R79. -/
  | undefinedOpcode (op : Nat)
  /-- A reserved bit of the command's format is set. -/
  | reservedBits (f : Format)
  /-- The byte string is not one whole command word (R58). -/
  | notOneWord (length : Nat)
  deriving DecidableEq, Repr

/-- R80: the opcode, then the reserved bits, then the operands. -/
def decode (w : Word) : Except DecodeError Instr :=
  match opcodeOf (bitField w 7 0) with
  | none => .error (.undefinedOpcode (bitField w 7 0))
  | some o => if reservedClear o.format w then .ok (o.operands w) else .error (.reservedBits o.format)

/-- Little-endian transfer of a word: byte k is `word[8k+7:8k]` (R58). -/
def wordBytes (w : Word) : List Byte :=
  (List.range 8).map fun k => BitVec.ofNat 8 (bitField w (8 * k + 7) (8 * k))

/-- The number that bytes spell, least significant byte first (R58). -/
def littleEndian : List Byte → Nat
  | [] => 0
  | b :: bs => b.toNat + 256 * littleEndian bs

/-- A whole word from its bytes (R58): the port takes nothing shorter and nothing longer. -/
def wordOfBytes (bs : List Byte) : Option Word :=
  if bs.length = 8 then some (BitVec.ofNat 64 (littleEndian bs)) else none

/-- Decode the bytes of one command. -/
def decodeBytes (bs : List Byte) : Except DecodeError Instr :=
  match wordOfBytes bs with
  | none => .error (.notOneWord bs.length)
  | some w => decode w

/-- The opcode of a command (R79). -/
def Instr.opcode : Instr → Opcode
  | .init _ => .init
  | .setfreq _ => .setfreq
  | .acq _ => .acq
  | .rel _ => .rel
  | .setduty _ _ _ => .setduty
  | .disable _ => .disable
  | .enable _ => .enable
  | .cfgmotor _ _ _ _ => .cfgmotor
  | .selstyle _ _ _ => .selstyle
  | .nextstep _ _ => .nextstep
  | .setpf _ _ => .setpf
  | .dispose _ => .dispose
  | .setspeed _ _ => .setspeed
  | .stepfor _ _ _ _ => .stepfor
  | .cancel _ => .cancel
  | .stop _ => .stop
  | .setpolicy _ _ => .setpolicy
  | .rdstat _ _ => .rdstat

/-- The operand bits of a command word, each operand at its place in R77. -/
def Instr.operandBits : Instr → Nat
  | .init addr7 => addr7 * 2 ^ 16
  | .setfreq hz => hz * 2 ^ 16
  | .acq ch => ch.val * 2 ^ 12
  | .rel ch => ch.val * 2 ^ 12
  | .setduty ch frac inv => ch.val * 2 ^ 12 + inv.toNat * 2 ^ 16 + frac * 2 ^ 32
  | .disable ch => ch.val * 2 ^ 12
  | .enable ch => ch.val * 2 ^ 12
  | .cfgmotor unit pa pb spr => unit * 2 ^ 8 + spr * 2 ^ 16 + pa * 2 ^ 32 + pb * 2 ^ 36
  | .selstyle unit sty nms => unit * 2 ^ 8 + sty.code * 2 ^ 16 + nms * 2 ^ 32
  | .nextstep unit dir => unit * 2 ^ 8 + dir.code * 2 ^ 16
  | .setpf unit pf => unit * 2 ^ 8 + pf * 2 ^ 32
  | .dispose unit => unit * 2 ^ 8
  | .setspeed unit rpm => unit * 2 ^ 8 + rpm * 2 ^ 16
  | .stepfor unit dir cont count => unit * 2 ^ 8 + dir.code * 2 ^ 16 + cont.toNat * 2 ^ 17 + count * 2 ^ 32
  | .cancel unit => unit * 2 ^ 8
  | .stop unit => unit * 2 ^ 8
  | .setpolicy unit endFull => unit * 2 ^ 8 + endFull.toNat * 2 ^ 16
  | .rdstat unit sel => unit * 2 ^ 8 + sel * 2 ^ 16

/-- The command word of a well-formed command (R77, R79): its opcode and its operands, every reserved bit 0. -/
def encode (i : Instr) : Word := BitVec.ofNat 64 (i.opcode.code + i.operandBits)

/-- The eight bytes of the word whose low `nbits` bits are those of `w` and whose other bits are 0. -/
def tableBytes (nbits w : Nat) : List Byte :=
  wordBytes (BitVec.ofNat 64 (w % 2 ^ nbits))

/-- The instruction that the decoder reads from a row of the opcode table (bit 0 least significant, as R17). -/
def decodeTableWord (nbits w : Nat) : Option Instr :=
  (decodeBytes (tableBytes nbits w)).toOption

end Sys2Proof
end

