-- ==== Sys2Proof/Machine/State.lean ====
section
/-! DEFINITION. Everything the block holds (10_state.md), what its agents have still to do at a step point (R20), and
what the outside has given it and taken from it. Plain data throughout. -/

namespace Sys2Proof.Machine

/-- A memory in canonical form: addresses strictly rising. An address that is not listed has no known value. -/
abbrev Memory := List Host.Cell

/-- OWNER[ch] (R28). -/
inductive Owner where
  | free
  | host
  | unit (u : UnitId)
  deriving DecidableEq, Repr

/-- One expander channel as the driver knows it (R28 to R31). -/
structure Channel where
  /-- OWNER[ch] (R28). -/
  owner : Owner
  /-- DISABLED[ch] (R29). -/
  disabled : Bool
  /-- SPEC_RATIO[ch], legal values 0..4096 (R30). -/
  specRatio : BitVec 13
  /-- SPEC_INV[ch] (R30). -/
  specInv : Bool
  /-- IMAGE[ch]: ON_L in bits [7:0], OFF_H in bits [31:24] (R31). -/
  image : Value
  /-- IMAGE_VALID[ch] (R31). -/
  imageValid : Bool
  deriving DecidableEq, Repr

/-- The two coils of a stepper (glossary of 00_scope.md). -/
inductive Coil where
  | a
  | b
  deriving DecidableEq, Repr

/-- A coil polarity (R38, R112). The encoding value 3 is never written (item U13). -/
inductive Pol where
  | off
  | pos
  | neg
  deriving DecidableEq, Repr

/-- LAST[u][c] (R38): what was last applied to a coil. -/
structure Last where
  valid : Bool
  ratio : BitVec 13
  pol : Pol
  deriving DecidableEq, Repr

/-- RUN[u] (R39). The encoding value 3 is never written (item U13). -/
inductive RunState where
  | stopped
  | running
  | braking
  deriving DecidableEq, Repr

/-- PHASE[u] (R46). -/
inductive Phase where
  | accum
  | spin
  deriving DecidableEq, Repr

/-- One operation of the Step procedure (R115): an ApplyChannel with inv = 0, or the recording of a coil's LAST once
its writes have succeeded. -/
inductive StepOp where
  | apply (ch : ChannelId) (ratio : BitVec 13)
  | record (c : Coil) (ratio : BitVec 13) (pol : Pol)
  deriving DecidableEq, Repr

/-- A WriteImage under way (R91): `locked` says whether its agent has passed Lock(). -/
structure PendingWrite where
  ch : ChannelId
  image : Value
  locked : Bool
  deriving DecidableEq, Repr

/-- A paced Step under way (R128): the channel write in progress and the operations after it. -/
structure StepJob where
  write : PendingWrite
  rest : List StepOp
  deriving DecidableEq, Repr

/-- One stepper unit (R33 to R47). -/
structure UnitState where
  /-- BOUND[u] (R33). -/
  bound : Bool
  /-- PA[u], legal 1..4 while bound (R33). -/
  portA : BitVec 3
  /-- PB[u], legal 1..4 while bound (R33). -/
  portB : BitVec 3
  /-- SPR[u] (R33). -/
  spr : BitVec 16
  /-- READY[u] (R34). -/
  ready : Bool
  /-- STYLE[u] (R34). -/
  style : Style
  /-- NMS[u] (R34). -/
  nms : BitVec 8
  /-- INDEX[u] (R36). -/
  index : BitVec 8
  /-- PF[u], in units of 2^-16 (R37). -/
  pf : BitVec 17
  /-- LAST[u][A] (R38). -/
  lastA : Last
  /-- LAST[u][B] (R38). -/
  lastB : Last
  /-- RUN[u] (R39). -/
  run : RunState
  /-- TPS[u] (R40). -/
  tps : BitVec 32
  /-- DEADLINE[u] (R41). -/
  deadline : BitVec 64
  /-- REMAINING[u] (R42). -/
  remaining : BitVec 32
  /-- CONT[u] (R42). -/
  cont : Bool
  /-- DIR[u] (R42). -/
  dir : Dir
  /-- CANCEL_REQ[u] (R43). -/
  cancelReq : Bool
  /-- END_FULL[u] (R44). -/
  endFull : Bool
  /-- COOLING[u] (R45). -/
  cooling : Bool
  /-- PHASE[u] (R46). -/
  phase : Phase
  /-- BUSERR[u] (R47). -/
  busErr : Bool
  /-- The model's own: the paced Step under way, if any (R20, R128). -/
  stepJob : Option StepJob
  deriving DecidableEq, Repr

/-- BUS_LOCK (R32). -/
inductive BusLock where
  | free
  | port
  | loop (u : UnitId)
  deriving DecidableEq, Repr

/-- The agents that issue transactions (R20). -/
inductive Agent where
  | port
  | loop (u : UnitId)
  deriving DecidableEq, Repr

/-- The two kinds of bus transaction (R63). -/
inductive BusOp where
  /-- BusGeneralCall(data). -/
  | generalCall (data : Byte)
  /-- BusWrite(addr, reg, data). -/
  | write (addr : BitVec 7) (reg : Byte) (data : List Byte)
  deriving DecidableEq, Repr

/-- One entry of the bus trace (R67): the transaction and its answer. The agent and the TIME, which the traces of
95_test_vectors.md also show, are kept beside them (assumption log 10). -/
structure Transaction where
  agent : Agent
  time : BitVec 64
  op : BusOp
  answer : Answer
  deriving DecidableEq, Repr

/-- What a host command does once its one channel write is answered (R98 to R101). -/
inductive WriteEnd where
  /-- REL: free the channel, whatever the answer (R98). -/
  | release
  /-- SETDUTY, DISABLE, ENABLE: respond with this VALUE (R99 to R101). -/
  | reply (value : Value)
  deriving DecidableEq, Repr

/-- Which command runs ProgramPrescale (R90, R95, R96). -/
inductive PrescaleFor where
  | init
  | setfreq
  deriving DecidableEq, Repr

/-- What ProgramPrescale does next (R90): one of its four transactions, or its return. -/
inductive PrescaleStage where
  | sleep
  | value
  | wake
  | restart
  | done
  deriving DecidableEq, Repr

/-- The commands that wait for a pacing loop to end (R123, R134, R135). -/
inductive HoldFor where
  | cancel
  | stop
  | dispose
  deriving DecidableEq, Repr

/-- The commands that de-energize (R117, R123, R135). -/
inductive DeEnergizeFor where
  | stop
  | dispose
  deriving DecidableEq, Repr

/-- What a Busy port has still to do: where its command stands at a step point (R20). -/
inductive PortJob where
  /-- REL, SETDUTY, DISABLE, ENABLE: one channel write (R98 to R101). -/
  | channelWrite (w : PendingWrite) (fin : WriteEnd)
  /-- INIT before its general call to the expander to be used at address `addr` (R95). -/
  | generalCall (addr : BitVec 7) (locked : Bool)
  /-- SETFREQ before Lock() (R96). -/
  | prescaleLock (p : Byte)
  /-- ProgramPrescale(addr, p) at `stage`, with `wait` ticks of TIME still to pass before it (R90, R15). -/
  | prescale (addr : BitVec 7) (p : Byte) (stage : PrescaleStage) (wait : Nat) (why : PrescaleFor)
  /-- A hold until RUN[u] is not Running (R123, R134, R135). -/
  | hold (u : UnitId) (why : HoldFor)
  /-- NEXTSTEP: the Step under way (R121, R115). -/
  | step (u : UnitId) (job : StepJob)
  /-- DeEnergize: the write in progress, the channels after it, and the first answer that was not Ack (R117). -/
  | deEnergize (u : UnitId) (why : DeEnergizeFor) (w : PendingWrite) (rest : List ChannelId) (first : Answer)
  deriving DecidableEq, Repr

/-- PORT_STATE (R23), with the work a Busy port has left. -/
inductive PortState where
  | idle
  | busy (job : PortJob)
  deriving DecidableEq, Repr

/-- The whole machine. -/
structure State where
  /-- The instance parameters (R9 to R12, R53); no step changes them (assumption log 1). -/
  cfg : Config
  /-- PORT_STATE (R23). -/
  port : PortState
  /-- INITIALIZED (R24). -/
  initialized : Bool
  /-- BUS_ADDR (R25). -/
  busAddr : BitVec 7
  /-- PRESCALE (R26). -/
  prescale : Byte
  /-- FREQ_ACTUAL (R27). -/
  freqActual : BitVec 16
  /-- OWNER, DISABLED, SPEC and IMAGE of the sixteen channels (R28 to R31). -/
  channels : Vector Channel 16
  /-- BUS_LOCK (R32). -/
  busLock : BusLock
  /-- The stepper units (R33 to R47). With NUM_UNITS = 1, unit 1 keeps its reset value. -/
  units : Vector UnitState 2
  /-- TIME (R48). -/
  time : BitVec 64
  /-- The expander register space of R52: register r of the device at address a is cell 256 * a + r, and holds what
  acknowledged writes have put there (assumption log 9). -/
  expander : Memory
  /-- The bus trace, oldest first (R67). -/
  trace : List Transaction
  /-- The response words emitted, oldest first (R76). -/
  responses : List Word
  /-- The command words the host has given and the port has not taken, next one first (R22, assumption log 4). -/
  commands : List Word
  /-- The model's own: the turns given before the next round's (R20, R69, assumption log 2). -/
  sched : List Choice
  /-- The model's own: what the transport answers next (R64, assumption log 3). -/
  answers : List Answer
  /-- The model's own: the turns left in the scheduler's present round (R69, item U7, assumption log 14). -/
  round : List Choice
  /-- The model's own: how many rounds were drawn from Config.schedule (assumption log 2). -/
  schedDraws : Nat
  /-- The model's own: how many answers were taken from Config.busAnswer (assumption log 3). -/
  answerDraws : Nat
  deriving DecidableEq, Repr

/-- Why the machine stops with a fault: never. The spec has no trap and the block does not stop (R140, R147), and
every access of the block is in range (R60, R93), so no constructor exists (assumption log 13). Safe. -/
inductive Fault where
  deriving DecidableEq, Repr

/-- Why the machine has no meaning for an instruction. -/
inductive Refusal where
  /-- An arm of exec that has no meaning yet; no arm raises it (assumption log 13). Safe. -/
  | notModelled (mnemonic : String)
  deriving DecidableEq, Repr

/-- A channel at reset (R28 to R31, R155). -/
def Channel.reset : Channel where
  owner := .free
  disabled := false
  specRatio := 0
  specInv := false
  image := 0
  imageValid := false

/-- LAST at reset (R38). -/
def Last.reset : Last := ⟨false, 0, .off⟩

/-- A unit at reset (R33 to R47, R155): PF is 65536, every other register 0. -/
def UnitState.reset : UnitState where
  bound := false
  portA := 0
  portB := 0
  spr := 0
  ready := false
  style := .full
  nms := 0
  index := 0
  pf := 65536
  lastA := Last.reset
  lastB := Last.reset
  run := .stopped
  tps := 0
  deadline := 0
  remaining := 0
  cont := false
  dir := .forward
  cancelReq := false
  endFull := false
  cooling := false
  phase := .accum
  busErr := false
  stepJob := none

/-- The reset state of an instance with parameters `cfg` (R155). No command word has been given and no transaction
issued (R156, R157). -/
def State.resetWith (cfg : Config) : State where
  cfg := cfg
  port := .idle
  initialized := false
  busAddr := 0
  prescale := 0
  freqActual := 0
  channels := Vector.replicate 16 Channel.reset
  busLock := .free
  units := Vector.replicate 2 UnitState.reset
  time := 0
  expander := []
  trace := []
  responses := []
  commands := []
  sched := []
  answers := []
  round := []
  schedDraws := 0
  answerDraws := 0

/-- The machine right after reset (R155), for the instance `Config.standard` (assumption log 1). -/
def State.reset : State := State.resetWith Config.standard

end Sys2Proof.Machine
end

