-- ==== Sys2Proof/Machine/Formatter.lean ====
section
/-! DEFINITION. The numbers of the driver and the scheduler: rounding (R18), the duty-cycle formatter (R84 to R86), the
prescale derivation (R88, R89), the settle wait (R15), the step interval (R124) and the coil magnitude (R111). -/

namespace Sys2Proof.Machine

/-- rnd_div of R18: a/b rounded half up. -/
def rndDiv (a b : Nat) : Nat := (a + b / 2) / b

/-- ceil_div of R18. -/
def ceilDiv (a b : Nat) : Nat := (a + b - 1) / b

/-- clamp of R18. -/
def clamp (v lo hi : Nat) : Nat := min hi (max lo v)

/-- ONE, the fraction 1.0 in units of 2^-16 (R16). -/
def one : Nat := 65536

/-- RATIO(frac), the on-ratio of a duty fraction (R84). -/
def ratioOf (frac : Nat) : Nat := (frac + 8) / 16

/-- EFF(ratio, inv), the ratio after polarity inversion (R85). -/
def effRatio (ratio : Nat) (inv : Bool) : Nat := if inv then 4096 - ratio else ratio

/-- The four image bytes of an ON and an OFF field, little-endian, ON at the lower address (R56). -/
def imageOfFields (on off : Nat) : Value := BitVec.ofNat 32 (on + off * 2 ^ 16)

/-- IMG(e), the register image of an effective ratio (R86). -/
def imageOf (e : Nat) : Value :=
  if e = 0 then imageOfFields 0x0000 0x1000
  else if e < 4096 then imageOfFields 0x0000 e
  else imageOfFields 0x1000 0x0000

/-- FULL_OFF of R86. -/
def fullOff : Value := imageOf 0

/-- FULL_ON of R86. -/
def fullOn : Value := imageOf 4096

/-- The image as the four bytes [ON_L, ON_H, OFF_L, OFF_H] (R31, R86). -/
def imageBytes (v : Value) : List Byte :=
  [v.extractLsb' 0 8, v.extractLsb' 8 8, v.extractLsb' 16 8, v.extractLsb' 24 8]

/-- The prescale of a requested frequency (R88). Where the rounded quotient is 0 the integer -1 of R88 and the 0 of
Nat subtraction clamp to the same 3. -/
def prescaleOf (clockHz hz : Nat) : Nat :=
  clamp (rndDiv clockHz (4096 * clamp hz 24 1526) - 1) 3 255

/-- ACTUAL(p), the frequency a prescale gives, in whole Hz (R89). -/
def actualFreq (clockHz p : Nat) : Nat := rndDiv clockHz (4096 * (p + 1))

/-- What FREQ_ACTUAL holds for prescale p (R27, R89). A frequency that 16 bits cannot hold, which no default CLOCK_HZ
gives, is a free value (DESIGN CHOICE, assumption log 11, safe). -/
def freqWord (c : Config) (p : Nat) : BitVec 16 :=
  if actualFreq c.clockHz p < 65536 then BitVec.ofNat 16 (actualFreq c.clockHz p)
  else Config.freqOutOfRange (actualFreq c.clockHz p)

/-- The prescale that INIT programs (R95). -/
def defaultPrescale : Nat := 30

/-- SETTLE_TICKS (R15): the whole ticks in 500 microseconds, rounded up, and at least 1. -/
def settleTicks (c : Config) : Nat := max 1 (ceilDiv (500 * c.timerHz) 1000000)

/-- Ticks per step (R124). -/
def ticksPerStep (timerHz rpm spr : Nat) : Nat := rndDiv (60 * timerHz) (rpm * spr)

/-- The magnitude ratio of a coil current at power factor pf (R111). -/
def coilRatio (cur : Int) (pf : Nat) : Nat := ratioOf ((cur.natAbs * pf + 32768) / 65536)

/-- sign(cur) (R18, R112). -/
def polOf (cur : Int) : Pol := if 0 < cur then .pos else if cur < 0 then .neg else .off

/-- The targets (tP, tN) of inP and inN: whether each is driven FULL_ON (R112). -/
def Pol.targets : Pol → Bool × Bool
  | .pos => (true, false)
  | .neg => (false, true)
  | .off => (false, false)

end Sys2Proof.Machine
end

