-- ==== Sys2Proof/Machine/Table.lean ====
section
/-! DEFINITION. The coil-current look-up table, the signed wave and the step tables (R102 to R108). -/

namespace Sys2Proof.Machine

/-- LUT[0..32] (R102), the constant table of R49. -/
def lut : List Nat :=
  [0, 3216, 6424, 9616, 12785, 15924, 19024, 22078, 25080, 28020, 30893,
   33692, 36410, 39040, 41576, 44011, 46341, 48559, 50660, 52639, 54491, 56212,
   57798, 59244, 60547, 61705, 62714, 63572, 64277, 64827, 65220, 65457, 65536]

/-- LUT[j]. R103 reads it only for j in 0..32. -/
def lutAt (j : Nat) : Int := (lut.getD j 0 : Nat)

/-- MICROSTEP_SET (R13). -/
def microstepSet : List Nat := [4, 8, 16, 32]

/-- The signed wave SW(k, N) (R103). -/
def signedWave (k n : Nat) : Int :=
  let st := 32 / n
  let r := k % (4 * n) % n
  match k % (4 * n) / n with
  | 0 => lutAt (r * st)
  | 1 => lutAt ((n - r) * st)
  | 2 => - lutAt (r * st)
  | _ => - lutAt ((n - r) * st)

/-- The WAVE table (R104). -/
def waveTable : List (Int × Int) := [(0, 65536), (65536, 0), (0, -65536), (-65536, 0)]

/-- The FULL table (R105). -/
def fullTable : List (Int × Int) := [(65536, 65536), (65536, -65536), (-65536, -65536), (-65536, 65536)]

/-- The HALF table (R106). -/
def halfTable : List (Int × Int) :=
  [(0, 65536), (65536, 65536), (65536, 0), (65536, -65536),
   (0, -65536), (-65536, -65536), (-65536, 0), (-65536, 65536)]

/-- LEN (R35): it is computed, not stored. -/
def tableLen (style : Style) (nms : Nat) : Nat :=
  match style with
  | .full => 4
  | .half => 8
  | .wave => 4
  | .micro => 4 * nms

/-- Entry i of the table of a style (R104 to R107). -/
def tableEntry (style : Style) (nms i : Nat) : Int × Int :=
  match style with
  | .full => fullTable.getD i (0, 0)
  | .half => halfTable.getD i (0, 0)
  | .wave => waveTable.getD i (0, 0)
  | .micro => (signedWave i nms, signedWave (i + nms) nms)

/-- The microstep count is one that R103 and R107 define; the other styles have none (R120). -/
def nmsLegal (style : Style) (nms : Nat) : Bool :=
  match style with
  | .micro => microstepSet.contains nms
  | _ => nms == 0

/-- Entry(u) of R108 for a unit. Outside its domain (READY = 0, or an index past the table), which no run reaches, the
entry is a free value (DESIGN CHOICE, assumption log 12, safe). -/
def entryOf (x : UnitState) : Int × Int :=
  if x.ready && nmsLegal x.style x.nms.toNat && decide (x.index.toNat < tableLen x.style x.nms.toNat) then
    tableEntry x.style x.nms.toNat x.index.toNat
  else Config.undefinedEntry (tableLen x.style x.nms.toNat) x.index.toNat

end Sys2Proof.Machine
end

