-- ==== Sys2Proof/Machine/Flags.lean ====
section
/-! DEFINITION. The block's flags and codes as words: error codes and the response word (R76, R141), and the status
words of RDSTAT (R138). The block has no condition codes (R51). -/

namespace Sys2Proof.Machine

/-- The error codes other than OK (R141). -/
inductive Err where
  | configuration
  | channelBusy
  | channelNotAcquired
  | deviceNotFound
  | alreadyRunning
  | busIO
  | illegalCommand
  deriving DecidableEq, Repr

/-- ERR of R141. -/
def Err.code : Err → Nat
  | .configuration => 1
  | .channelBusy => 2
  | .channelNotAcquired => 3
  | .deviceNotFound => 4
  | .alreadyRunning => 5
  | .busIO => 6
  | .illegalCommand => 7

/-- The response word of R76: ERR in [7:0], 0 in [31:8], VALUE in [63:32]. -/
def responseWord (code : Nat) (value : Value) : Word :=
  BitVec.ofNat 64 (code + value.toNat * 2 ^ 32)

/-- RUN as a number (R39). -/
def RunState.code : RunState → Nat
  | .stopped => 0
  | .running => 1
  | .braking => 2

/-- A polarity as a number (R38). -/
def Pol.code : Pol → Nat
  | .off => 0
  | .pos => 1
  | .neg => 2

/-- A word from fields (lo, value): each value at its lowest bit, every other bit 0 (R137: unused bits are 0). -/
def packWord : List (Nat × Nat) → Nat
  | [] => 0
  | (lo, v) :: fs => v * 2 ^ lo + packWord fs

/-- A 32-bit VALUE from fields. -/
def packValue (fs : List (Nat × Nat)) : Value := BitVec.ofNat 32 (packWord fs)

/-- Selector 0x10, the unit status (R138). -/
def unitStatus (x : UnitState) : Value :=
  packValue [(0, x.bound.toNat), (1, x.ready.toNat), (2, x.run.code), (4, x.busErr.toNat), (5, x.endFull.toNat),
    (6, x.cancelReq.toNat), (7, x.dir.code), (8, x.style.code), (16, x.nms.toNat), (24, x.cont.toNat),
    (25, x.cooling.toNat)]

/-- Selectors 0x15 and 0x16, one coil's LAST (R138). -/
def lastStatus (l : Last) : Value :=
  packValue [(0, l.ratio.toNat), (16, l.pol.code), (31, l.valid.toNat)]

/-- Selector 0x17, the binding (R138). -/
def bindingStatus (x : UnitState) : Value :=
  packValue [(0, x.portA.toNat), (4, x.portB.toNat), (16, x.spr.toNat)]

/-- The owner kind and the owner unit id (R138). -/
def Owner.kindAndUnit : Owner → Nat × Nat
  | .free => (0, 0)
  | .host => (1, 0)
  | .unit u => (2, u.val)

/-- Selectors 0x50+ch, the channel status (R138). -/
def channelStatus (c : Channel) : Value :=
  packValue [(0, c.specRatio.toNat), (16, c.specInv.toNat), (17, c.imageValid.toNat),
    (20, c.owner.kindAndUnit.1), (24, c.owner.kindAndUnit.2)]

/-- A mask with one bit for each channel (selectors 0x02, 0x03, 0x08, R138). -/
def channelMask (channels : Vector Channel 16) (p : Channel → Bool) : Value :=
  packValue ((List.finRange 16).map fun ch => (ch.val, (p channels[ch.val]).toNat))

end Sys2Proof.Machine
end

