-- ==== Sys2Proof/Machine/Ops.lean ====
section
/-! DEFINITION. The shared operations: reading and writing channels and units, the expander memory, bus transactions
under the lock (R63 to R66), responding and raising an error (R76, R140), ApplyChannel and WriteImage (R91), the Step
procedure (R115) and DeEnergize (R117). -/

namespace Sys2Proof.Machine

/-! ### Channels and units -/

/-- Channel ch. -/
def State.channel (s : State) (ch : ChannelId) : Channel := s.channels[ch.val]

/-- Replace channel ch. -/
def State.setChannel (s : State) (ch : ChannelId) (c : Channel) : State :=
  { s with channels := s.channels.set ch.val c }

/-- Unit u. -/
def State.unit (s : State) (u : UnitId) : UnitState := s.units[u.val]

/-- Replace unit u. -/
def State.setUnit (s : State) (u : UnitId) (x : UnitState) : State :=
  { s with units := s.units.set u.val x }

/-- OWNER[ch] <- o (R28). -/
def State.setOwner (s : State) (ch : ChannelId) (o : Owner) : State :=
  s.setChannel ch { s.channel ch with owner := o }

/-- DISABLED[ch] <- b (R29). -/
def State.setDisabled (s : State) (ch : ChannelId) (b : Bool) : State :=
  s.setChannel ch { s.channel ch with disabled := b }

/-- SPEC_RATIO[ch] <- ratio; SPEC_INV[ch] <- inv (R30). -/
def State.setSpec (s : State) (ch : ChannelId) (ratio : BitVec 13) (inv : Bool) : State :=
  s.setChannel ch { s.channel ch with specRatio := ratio, specInv := inv }

/-- LAST[u][c] of a unit (R38). -/
def UnitState.last (x : UnitState) : Coil → Last
  | .a => x.lastA
  | .b => x.lastB

/-- LAST[u][c] <- l (R38). -/
def UnitState.setLast (x : UnitState) (c : Coil) (l : Last) : UnitState :=
  match c with
  | .a => { x with lastA := l }
  | .b => { x with lastB := l }

/-- LAST[u][A].valid <- 0; LAST[u][B].valid <- 0. -/
def UnitState.invalidateLast (x : UnitState) : UnitState :=
  { x with lastA := { x.lastA with valid := false }, lastB := { x.lastB with valid := false } }

/-! ### The port map -/

/-- The triple of a port number in 1..4 (R12). -/
def portTriple? (m : PortMap) : Nat → Option PortTriple
  | 1 => some m.port1
  | 2 => some m.port2
  | 3 => some m.port3
  | 4 => some m.port4
  | _ => none

/-- The triple of a port number. Outside 1..4, which no bound unit holds, it is a free value (DESIGN CHOICE,
assumption log 12, safe). -/
def portTriple (m : PortMap) (p : Nat) : PortTriple := (portTriple? m p).getD (Config.unmappedPort p)

/-- The port of a coil (R33). -/
def UnitState.port (x : UnitState) : Coil → Nat
  | .a => x.portA.toNat
  | .b => x.portB.toNat

/-- The channels of a unit's coil (R110). -/
def State.coilTriple (s : State) (u : UnitId) (c : Coil) : PortTriple := portTriple s.cfg.portMap ((s.unit u).port c)

/-- The six channels of a unit in the order of DeEnergize (R117): coil B first, pwm, inP, inN. -/
def State.unitChannels (s : State) (u : UnitId) : List ChannelId :=
  (s.coilTriple u .b).channels ++ (s.coilTriple u .a).channels

/-! ### The expander memory -/

/-- The byte at an address, if it is known. -/
def Memory.read : Memory → Nat → Option Byte
  | [], _ => none
  | (k, x) :: m, a => if k = a then some x else Memory.read m a

/-- Put a byte at an address, keeping the addresses strictly rising. -/
def Memory.write : Memory → Nat → Byte → Memory
  | [], a, b => [(a, b)]
  | (k, x) :: m, a, b =>
    if a < k then (a, b) :: (k, x) :: m
    else if a = k then (a, b) :: m
    else (k, x) :: Memory.write m a b

/-- The bytes at these addresses are no longer known. -/
def Memory.forgetAll (m : Memory) (as : List Nat) : Memory := m.filter fun e => !as.contains e.1

/-- The canonical form: addresses strictly rising. An unlisted address has no value, so no entry can equal it. -/
abbrev Memory.wf (m : Memory) : Prop := m.Pairwise fun x y => x.1 < y.1

/-- The cell of register `reg + k` of the device at `addr`; register addresses are 8 bits (R52, R63). -/
def cellAddr (addr : BitVec 7) (reg : Byte) (k : Nat) : Nat := 256 * addr.toNat + (reg.toNat + k) % 256

/-- bytes[0] to reg, bytes[1] to reg+1, and so on (R63), starting at offset k. -/
def Memory.storeAt (m : Memory) (addr : BitVec 7) (reg : Byte) : Nat → List Byte → Memory
  | _, [] => m
  | k, b :: bs => (m.storeAt addr reg (k + 1) bs).write (cellAddr addr reg k) b

/-- What is known of the expander registers after a transaction: an acknowledged write puts its bytes (R63), after Nack
or Err every register is unknown (R64, item U5), and the general call resets every register to a value that the spec
does not give (R31, R61). -/
def Memory.after (m : Memory) (op : BusOp) (r : Answer) : Memory :=
  match op with
  | .generalCall _ => []
  | .write addr reg data => if r = .ack then m.storeAt addr reg 0 data else []

/-! ### The environment's draws -/

/-- The agents that take turns (R20). -/
def agents : List Choice := [.tick, .port, .loop 0, .loop 1]

/-- A round that begins with these turns: then comes every agent that has no turn in it, so that no round leaves an
agent out (R71, item U7, assumption log 14). -/
def completeRound (r : List Choice) : List Choice := r ++ agents.filter fun c => !r.contains c

/-- The turns of round number n: weakly fair, and free in every other way (R69, item U7, assumption log 14). -/
def fairRound (n : Nat) : List Choice := completeRound (Config.schedule n)

/-- Who steps next (R20, R69): the head of the schedule in State, else the next turn of the scheduler's round, else the
first of a new round (assumption logs 2 and 14). -/
def State.nextChoice (s : State) : Choice × State :=
  match s.sched, s.round with
  | c :: cs, _ => (c, { s with sched := cs })
  | [], c :: cs => (c, { s with round := cs })
  | [], [] =>
    ((fairRound s.schedDraws).headD .tick,
     { s with round := (fairRound s.schedDraws).tail, schedDraws := s.schedDraws + 1 })

/-- What the bus answers next: the head of the answers in State, else a free value (R64, assumption log 3). -/
def State.nextAnswer (s : State) : Answer × State :=
  match s.answers with
  | r :: rs => (r, { s with answers := rs })
  | [] => (Config.busAnswer s.answerDraws, { s with answerDraws := s.answerDraws + 1 })

/-! ### Bus transactions -/

/-- The lock value of an agent (R32). -/
def Agent.lock : Agent → BusLock
  | .port => .port
  | .loop u => .loop u

/-- Lock() (R66): taken only when BUS_LOCK is Free; otherwise the agent holds, and has no step. -/
def State.lockThen (s : State) (a : Agent) (k : State → State) : State :=
  if s.busLock = .free then k { s with busLock := a.lock } else s

/-- Unlock() (R66). -/
def State.unlock (s : State) : State := { s with busLock := .free }

/-- One bus transaction (R63): the environment answers (R64), and the trace records it (R67). -/
def State.transact (s : State) (a : Agent) (op : BusOp) : Answer × State :=
  let r := s.nextAnswer.1
  (r, { s.nextAnswer.2 with
        trace := s.trace ++ [⟨a, s.time, op, r⟩]
        expander := s.expander.after op r })

/-- baseRegister(ch) (R54). -/
def baseRegister (c : Config) (ch : ChannelId) : Nat := c.ledBase + c.ledStride * ch.val

/-- The cell of byte k of channel ch's four registers, at the expander the block uses (R52, R54). -/
def State.imageCell (s : State) (ch : ChannelId) (k : Nat) : Nat :=
  cellAddr s.busAddr (BitVec.ofNat 8 (baseRegister s.cfg ch)) k

/-- The cells of every register of unit u's six channels. -/
def State.unitCells (s : State) (u : UnitId) : List Nat :=
  (s.unitChannels u).flatMap fun ch => [s.imageCell ch 0, s.imageCell ch 1, s.imageCell ch 2, s.imageCell ch 3]

/-- The expander registers of unit u's channels are no longer known (item U1). -/
def State.forgetUnit (s : State) (u : UnitId) : State :=
  { s with expander := s.expander.forgetAll (s.unitCells u) }

/-- The transaction of WriteImage(ch, bytes) (R91): four bytes from baseRegister(ch). -/
def State.writeOp (s : State) (w : PendingWrite) : BusOp :=
  .write s.busAddr (BitVec.ofNat 8 (baseRegister s.cfg w.ch)) (imageBytes w.image)

/-- What an answered WriteImage leaves in a channel (R31, R91). -/
def Channel.answered (c : Channel) (image : Value) (r : Answer) : Channel :=
  if r = .ack then { c with image := image, imageValid := true } else { c with imageValid := false }

/-- WriteImage from its transaction on (R91): the transaction, Unlock(), and the channel's shadow. -/
def State.writeImage (s : State) (a : Agent) (w : PendingWrite) : Answer × State :=
  let t := s.transact a (s.writeOp w)
  (t.1, t.2.unlock.setChannel w.ch ((t.2.channel w.ch).answered w.image t.1))

/-! ### Responses and errors -/

/-- respond(code, value) (R19, R76): emit the response; the port is Idle again (R23). -/
def State.respond (s : State) (code : Nat) (value : Value) : State :=
  { s with responses := s.responses ++ [responseWord code value], port := .idle }

/-- respond(OK, value). -/
def State.respondOk (s : State) (value : Value) : State := s.respond 0 value

/-- Release the bus lock if the port holds it (R140). -/
def State.releasePort (s : State) : State := if s.busLock = .port then s.unlock else s

/-- raise E(info) (R19, R140): the error response; what the command has written stays written. This is the block's
whole error mechanism: there is no trap (R140, R147). -/
def State.raise (s : State) (e : Err) (info : Value) : State := s.releasePort.respond e.code info

/-- The response to a command whose transactions ended with answer r (R141): OK with the command's value, or
BusIOError with the detail word of Err and 0 for Nack. -/
def State.conclude (s : State) (r : Answer) (value : Value) : State :=
  match r with
  | .ack => s.respondOk value
  | .nack => s.raise .busIO 0
  | .err d => s.raise .busIO d

/-! ### ApplyChannel -/

/-- The write that ApplyChannel(ch, ratio, inv) asks for (R91). -/
def pendingApply (ch : ChannelId) (ratio : BitVec 13) (inv : Bool) : PendingWrite :=
  ⟨ch, imageOf (effRatio ratio.toNat inv), false⟩

/-! ### The Step procedure -/

/-- INDEX moved by +1 or -1 modulo LEN (R36, R115). -/
def nextIndex (x : UnitState) (dir : Dir) : BitVec 8 :=
  let len := tableLen x.style x.nms.toNat
  BitVec.ofNat 8 ((x.index.toNat + (match dir with | .forward => 1 | .backward => len - 1)) % len)

/-- The writes a polarity channel needs to be turned off: target 0, and not known to be off already (R114, R115). -/
def offWrites (t : PortTriple) (target : Bool × Bool) (old : Option (Bool × Bool)) : List StepOp :=
  (if target.1 = false ∧ old.map (·.1) ≠ some false then [StepOp.apply t.inP 0] else []) ++
  (if target.2 = false ∧ old.map (·.2) ≠ some false then [StepOp.apply t.inN 0] else [])

/-- The writes a polarity channel needs to be turned on: target 1, and not known to be on already (R114, R115). -/
def onWrites (t : PortTriple) (target : Bool × Bool) (old : Option (Bool × Bool)) : List StepOp :=
  (if target.1 = true ∧ old.map (·.1) ≠ some true then [StepOp.apply t.inP 4096] else []) ++
  (if target.2 = true ∧ old.map (·.2) ≠ some true then [StepOp.apply t.inN 4096] else [])

/-- One coil's part of Step (R113 to R115): polarity off, polarity on, magnitude, then the record in LAST. -/
def coilOps (t : PortTriple) (last : Last) (c : Coil) (cur : Int) (pf : Nat) : List StepOp :=
  let ratio := BitVec.ofNat 13 (coilRatio cur pf)
  let pol := polOf cur
  let old := if last.valid then some last.pol.targets else none
  (if last.valid = false ∨ last.pol ≠ pol then offWrites t pol.targets old ++ onWrites t pol.targets old else []) ++
  (if last.valid = false ∨ last.ratio ≠ ratio then [StepOp.apply t.pwm ratio] else []) ++
  [StepOp.record c ratio pol]

/-- Unit u after Step has moved INDEX (R115). -/
def State.advanceIndex (s : State) (u : UnitId) (dir : Dir) : State :=
  s.setUnit u { s.unit u with index := nextIndex (s.unit u) dir }

/-- The operations of a Step of unit u at its present INDEX (R115): coil B, then coil A, both with the PF read now
(R116). -/
def State.stepOps (s : State) (u : UnitId) : List StepOp :=
  let x := s.unit u
  coilOps (s.coilTriple u .b) x.lastB .b (entryOf x).2 x.pf.toNat ++
  coilOps (s.coilTriple u .a) x.lastA .a (entryOf x).1 x.pf.toNat

/-- Carry a Step on to its next channel write (R115, R91): the job that write leaves, or none when the Step has ended
with Ack. A disabled channel stores its spec and is not written. -/
def runOps (u : UnitId) : List StepOp → State → Option StepJob × State
  | [], s => (none, s)
  | .record c ratio pol :: ops, s => runOps u ops (s.setUnit u ((s.unit u).setLast c ⟨true, ratio, pol⟩))
  | .apply ch ratio :: ops, s =>
    if (s.channel ch).disabled then runOps u ops (s.setSpec ch ratio false)
    else (some ⟨pendingApply ch ratio false, ops⟩, s.setSpec ch ratio false)

/-- The fail exit of Step (R115). What the unit's channels then hold is not known (item U1). -/
def State.failStep (s : State) (u : UnitId) : State :=
  (s.forgetUnit u).setUnit u { (s.unit u).invalidateLast with busErr := true }

/-! ### DeEnergize -/

/-- LAST and BUSERR after DeEnergize (R117). -/
def UnitState.deEnergized (x : UnitState) (first : Answer) : UnitState :=
  if first = .ack then { x with lastA := ⟨true, 0, .off⟩, lastB := ⟨true, 0, .off⟩, busErr := false }
  else { x.invalidateLast with busErr := true }

/-- The first answer that was not Ack (R117). -/
def firstFailure (first r : Answer) : Answer := if first = .ack then r else first

/-- OWNER[ch] <- o for every channel of a list (R119, R123). -/
def State.setOwners (s : State) (chs : List ChannelId) (o : Owner) : State :=
  chs.foldl (fun s ch => s.setOwner ch o) s

end Sys2Proof.Machine
end

