-- ==== Sys2Proof/Machine/Operands.lean ====
section
/-! DEFINITION. The checks a command makes on its operands and on the state before it writes anything, in the order of
R143, and the values its operands name. -/

namespace Sys2Proof.Machine

/-- The first check that fails (R143). -/
def firstError : List (Option Err) → Option Err
  | [] => none
  | some e :: _ => some e
  | none :: cs => firstError cs

/-- A check: it fails with e unless p holds. -/
def require (p : Bool) (e : Err) : Option Err := if p then none else some e

/-- Raise the first failing check with VALUE 0 (R140, R141); go on if none fails. -/
def State.checked (s : State) (checks : List (Option Err)) (k : State) : State :=
  match firstError checks with
  | some e => s.raise e 0
  | none => k

/-- INITIALIZED = 1 (R94). -/
def State.needInit (s : State) : Option Err := require s.initialized .configuration

/-- HostOwn(ch) (R92). -/
def State.hostOwn (s : State) (ch : ChannelId) : Option Err :=
  match (s.channel ch).owner with
  | .free => some .channelNotAcquired
  | .unit _ => some .channelBusy
  | .host => none

/-- OWNER[ch] = Free (R97). -/
def State.needFree (s : State) (ch : ChannelId) : Option Err :=
  require (decide ((s.channel ch).owner = .free)) .channelBusy

/-- The unit that a unit number below NUM_UNITS names (R118). -/
def unitNumbered (c : Config) (n : Nat) : Option UnitId :=
  match n, c.units with
  | 0, _ => some 0
  | 1, .two => some 1
  | _, _ => none

/-- The unit-number check (R118). -/
def State.withUnit (s : State) (n : Nat) (k : UnitId → State) : State :=
  match unitNumbered s.cfg n with
  | none => s.raise .configuration 0
  | some u => k u

/-- BOUND[u] = 1 (R118). -/
def State.needBound (s : State) (u : UnitId) : Option Err := require (s.unit u).bound .configuration

/-- RUN[u] is not Running (R120, R121, R133). -/
def State.needIdle (s : State) (u : UnitId) : Option Err :=
  require (decide ((s.unit u).run ≠ .running)) .alreadyRunning

/-- READY[u] = 1 (R121, R133). -/
def State.needReady (s : State) (u : UnitId) : Option Err := require (s.unit u).ready .configuration

/-- BUSERR[u] = 0 (R121, R133). -/
def State.needNoBusErr (s : State) (u : UnitId) : Option Err := require (!(s.unit u).busErr) .busIO

/-- A fraction in [0, 1] (R16, R99, R122). -/
def fractionOk (frac : Nat) : Option Err := require (decide (frac ≤ one)) .configuration

/-- Two distinct ports in 1..4 (R119). -/
def portsOk (pa pb : Nat) : Bool := decide (1 ≤ pa ∧ pa ≤ 4 ∧ 1 ≤ pb ∧ pb ≤ 4 ∧ pa ≠ pb)

/-- The six channels S of CFGMOTOR (R119). -/
def bindingChannels (m : PortMap) (pa pb : Nat) : List ChannelId :=
  (portTriple m pa).channels ++ (portTriple m pb).channels

/-- Every channel of a list is Free (R119). -/
def State.allFree (s : State) (chs : List ChannelId) : Bool :=
  chs.all fun ch => decide ((s.channel ch).owner = .free)

/-- The chip selectors of R138. -/
inductive ChipSel where
  | driver
  | freq
  | owned
  | disabled
  | timeLow
  | timeHigh
  | numUnits
  | timerHz
  | hostOwned
  | image (ch : ChannelId)
  | channel (ch : ChannelId)
  deriving DecidableEq, Repr

/-- The unit selectors of R138. -/
inductive UnitSel where
  | status
  | index
  | tps
  | remaining
  | pf
  | lastA
  | lastB
  | binding
  | deadlineLow
  | deadlineHigh
  deriving DecidableEq, Repr

/-- A defined selector (R138). -/
inductive Selector where
  | chip (c : ChipSel)
  | unit (x : UnitSel)
  deriving DecidableEq, Repr

/-- The channel of a selector base+ch (R138). -/
def channelSel (base sel : Nat) : Option ChannelId :=
  if h : sel - base < 16 ∧ base ≤ sel then some ⟨sel - base, h.1⟩ else none

/-- The selector map (R138). Every other value is undefined. -/
def selectorOf (sel : Nat) : Option Selector :=
  match sel with
  | 0x00 => some (.chip .driver)
  | 0x01 => some (.chip .freq)
  | 0x02 => some (.chip .owned)
  | 0x03 => some (.chip .disabled)
  | 0x04 => some (.chip .timeLow)
  | 0x05 => some (.chip .timeHigh)
  | 0x06 => some (.chip .numUnits)
  | 0x07 => some (.chip .timerHz)
  | 0x08 => some (.chip .hostOwned)
  | 0x10 => some (.unit .status)
  | 0x11 => some (.unit .index)
  | 0x12 => some (.unit .tps)
  | 0x13 => some (.unit .remaining)
  | 0x14 => some (.unit .pf)
  | 0x15 => some (.unit .lastA)
  | 0x16 => some (.unit .lastB)
  | 0x17 => some (.unit .binding)
  | 0x18 => some (.unit .deadlineLow)
  | 0x19 => some (.unit .deadlineHigh)
  | n =>
    match channelSel 0x40 n with
    | some ch => some (.chip (.image ch))
    | none => (channelSel 0x50 n).map fun ch => .chip (.channel ch)

/-- WORD(sel, u) of a chip selector (R138). -/
def State.chipWord (s : State) : ChipSel → Value
  | .driver => packValue [(0, s.initialized.toNat), (8, s.busAddr.toNat), (16, s.prescale.toNat)]
  | .freq => packValue [(0, s.freqActual.toNat)]
  | .owned => channelMask s.channels fun c => decide (c.owner ≠ .free)
  | .disabled => channelMask s.channels (·.disabled)
  | .timeLow => BitVec.ofNat 32 s.time.toNat
  | .timeHigh => BitVec.ofNat 32 (s.time.toNat / 2 ^ 32)
  | .numUnits => packValue [(0, s.cfg.units.toNat)]
  | .timerHz => BitVec.ofNat 32 s.cfg.timerHz
  | .hostOwned => channelMask s.channels fun c => decide (c.owner = .host)
  | .image ch => (s.channel ch).image
  | .channel ch => channelStatus (s.channel ch)

/-- WORD(sel, u) of a unit selector (R138). -/
def UnitState.word (x : UnitState) : UnitSel → Value
  | .status => unitStatus x
  | .index => packValue [(0, x.index.toNat)]
  | .tps => x.tps
  | .remaining => x.remaining
  | .pf => packValue [(0, x.pf.toNat)]
  | .lastA => lastStatus x.lastA
  | .lastB => lastStatus x.lastB
  | .binding => bindingStatus x
  | .deadlineLow => BitVec.ofNat 32 x.deadline.toNat
  | .deadlineHigh => BitVec.ofNat 32 (x.deadline.toNat / 2 ^ 32)

end Sys2Proof.Machine
end

