-- ==== Sys2Proof/Machine/Loop.lean ====
section
/-! DEFINITION. The pacing loop of a unit: Accum (R126), Spin (R127), the due step (R128), Cancel (R129) and Finish
(R130). A loop with no enabled step leaves the state as it is. -/

namespace Sys2Proof.Machine

/-- Finish(u) on the unit's registers (R130). -/
def UnitState.finish (x : UnitState) : UnitState :=
  { x with run := .braking, cancelReq := false, cooling := false, phase := .accum, stepJob := none }

/-- INDEX is on a full-step boundary (R129). -/
def UnitState.onBoundary (x : UnitState) : Bool := x.index.toNat % x.nms.toNat == 0

/-- The end-in-full-step policy overrides a cancellation now (R129). -/
def UnitState.policyApplies (x : UnitState) : Bool := x.endFull && decide (x.style = .micro) && !x.onBoundary

/-- A cancellation is observed: CANCEL_REQ = 1 and COOLING = 0 (R126, R127). -/
def UnitState.cancelSeen (x : UnitState) : Bool := x.cancelReq && !x.cooling

/-- Accum after its cancellation test (R126): the boundary check of a cooldown, the count check, the next deadline. -/
def UnitState.accumRest (x : UnitState) : UnitState :=
  if x.cooling && x.onBoundary then x.finish
  else if !x.cont && decide (x.remaining = 0) then x.finish
  else { x with deadline := x.deadline + BitVec.setWidth 64 x.tps, phase := .spin }

/-- Accum(u) (R126), with Cancel(u) in it (R129). -/
def UnitState.accum (x : UnitState) : UnitState :=
  if x.cancelSeen then
    if x.policyApplies then { x with cooling := true }.accumRest else x.finish
  else x.accumRest

/-- The end of a due step with Ack (R128). -/
def UnitState.stepDone (x : UnitState) : UnitState :=
  { x with remaining := if x.cont then x.remaining else x.remaining - 1, phase := .accum, stepJob := none }

/-- Carry a paced Step on to its next channel write, or to the end of the due step (R128). -/
def State.loopStepOps (s : State) (u : UnitId) (ops : List StepOp) : State :=
  match runOps u ops s with
  | (none, s') => s'.setUnit u (s'.unit u).stepDone
  | (some job, s') => s'.setUnit u { s'.unit u with stepJob := some job }

/-- A paced Step after a channel write is answered (R115, R128, R144). -/
def State.loopStepAnswered (s : State) (u : UnitId) (rest : List StepOp) (r : Answer) : State :=
  if r = .ack then s.loopStepOps u rest
  else (s.failStep u).setUnit u ((s.failStep u).unit u).finish

/-- A paced Step's channel write: Lock(), then the transaction (R66, R91). -/
def State.loopWrite (s : State) (u : UnitId) (job : StepJob) : State :=
  if job.write.locked then
    (s.writeImage (.loop u) job.write).2.loopStepAnswered u job.rest (s.writeImage (.loop u) job.write).1
  else
    s.lockThen (.loop u) fun s =>
      s.setUnit u { s.unit u with stepJob := some ⟨{ job.write with locked := true }, job.rest⟩ }

/-- StepDue(u) (R128): INDEX moves, then the channel writes. -/
def State.stepDue (s : State) (u : UnitId) : State :=
  (s.advanceIndex u (s.unit u).dir).loopStepOps u ((s.advanceIndex u (s.unit u).dir).stepOps u)

/-- Spin(u) (R127): a cancellation wins over a due deadline; otherwise the loop holds until TIME reaches DEADLINE. -/
def State.spin (s : State) (u : UnitId) : State :=
  let x := s.unit u
  if x.cancelSeen then
    s.setUnit u (if x.policyApplies then { x with cooling := true } else x.finish)
  else if x.deadline ≤ s.time then s.stepDue u
  else s

/-- One step of unit u's pacing loop (R20), active while RUN[u] = Running. -/
def State.loopStep (s : State) (u : UnitId) : State :=
  let x := s.unit u
  if x.run = .running then
    match x.stepJob with
    | some job => s.loopWrite u job
    | none =>
      match x.phase with
      | .accum => s.setUnit u x.accum
      | .spin => s.spin u
  else s

end Sys2Proof.Machine
end

