-- ==== Sys2Proof/Machine/Port.lean ====
section
/-! DEFINITION. What the command port does after it has taken a command: the rest of a command from one step point to
the next (R20). A step that cannot be taken (a lock held by another agent, a wait or a hold not over) leaves the state
as it is. -/

namespace Sys2Proof.Machine

/-! ### Step points -/

/-- The job with its write past Lock(). -/
def PendingWrite.lock (w : PendingWrite) : PendingWrite := { w with locked := true }

/-- A write under way of the port: first Lock() (R66), then the transaction, whose answer goes to `k`. -/
def State.portWrite (s : State) (w : PendingWrite) (stay : PendingWrite → PortJob) (k : Answer → State → State) :
    State :=
  if w.locked then k (s.writeImage .port w).1 (s.writeImage .port w).2
  else s.lockThen .port fun s => { s with port := .busy (stay w.lock) }

/-! ### REL, SETDUTY, DISABLE, ENABLE -/

/-- REL after its write (R98): the channel is freed whatever the answer. -/
def State.releaseChannel (s : State) (ch : ChannelId) : State :=
  s.setChannel ch { s.channel ch with owner := .free, disabled := false, specRatio := 0, specInv := false }

/-- The end of a host command's channel write (R98 to R101). -/
def State.finishWrite (s : State) (ch : ChannelId) (fin : WriteEnd) (r : Answer) : State :=
  match fin with
  | .release => (s.releaseChannel ch).conclude r 0
  | .reply value => s.conclude r value

/-- ApplyChannel(ch, ratio, inv) by the port, up to its write (R91), then the response. -/
def State.portApply (s : State) (ch : ChannelId) (ratio : BitVec 13) (inv : Bool) (value : Value) : State :=
  let s' := s.setSpec ch ratio inv
  if (s'.channel ch).disabled then s'.respondOk value
  else { s' with port := .busy (.channelWrite (pendingApply ch ratio inv) (.reply value)) }

/-! ### INIT and SETFREQ -/

/-- The register address and the byte of each transaction of ProgramPrescale (R90, R55). -/
def stageWrite (c : Config) (p : Byte) : PrescaleStage → Nat × Byte
  | .sleep => (c.mode1Addr, 0x31)
  | .value => (c.prescaleAddr, p)
  | .wake => (c.mode1Addr, 0x21)
  | .restart => (c.mode1Addr, 0xA1)
  | .done => (c.mode1Addr, 0xA1)

/-- The stage after a transaction of ProgramPrescale (R90). -/
def PrescaleStage.next : PrescaleStage → PrescaleStage
  | .sleep => .value
  | .value => .wake
  | .wake => .restart
  | .restart => .done
  | .done => .done

/-- Whether a settle wait follows the transaction: after each mode transition (R90). -/
def PrescaleStage.settles : PrescaleStage → Bool
  | .sleep => true
  | .value => false
  | .wake => true
  | .restart => true
  | .done => false

/-- The error of a failing transaction of ProgramPrescale (R95, R96): Nack at INIT's first addressed write means that
no device answered. -/
def State.failPrescale (s : State) (stage : PrescaleStage) (why : PrescaleFor) (r : Answer) : State :=
  match r, stage, why with
  | .nack, .sleep, .init => s.raise .deviceNotFound 0
  | r, _, _ => s.conclude r 0

/-- The end of INIT or SETFREQ when every transaction was acknowledged (R95, R96). -/
def State.finishPrescale (s : State) (addr : BitVec 7) (p : Byte) (why : PrescaleFor) : State :=
  let f := freqWord s.cfg p.toNat
  match why with
  | .init =>
    { s.unlock with initialized := true, busAddr := addr, prescale := p, freqActual := f }.respondOk
      (packValue [(0, f.toNat)])
  | .setfreq => { s.unlock with prescale := p, freqActual := f }.respondOk (packValue [(0, f.toNat)])

/-- One step of ProgramPrescale(addr, p) inside its critical section (R90). -/
def State.prescaleStep (s : State) (addr : BitVec 7) (p : Byte) (stage : PrescaleStage) (why : PrescaleFor) : State :=
  match stage with
  | .done => s.finishPrescale addr p why
  | stage =>
    let op := BusOp.write addr (BitVec.ofNat 8 (stageWrite s.cfg p stage).1) [(stageWrite s.cfg p stage).2]
    let t := s.transact .port op
    if t.1 = .ack then
      { t.2 with port := .busy (.prescale addr p stage.next (if stage.settles then settleTicks s.cfg else 0) why) }
    else t.2.unlock.failPrescale stage why t.1

/-- IMAGE_VALID[0..15] <- 0 (R31, R95). -/
def State.invalidateImages (s : State) : State :=
  { s with channels := s.channels.map fun c => { c with imageValid := false } }

/-- INIT's general call and what follows it up to the next step point (R95). -/
def State.generalCallStep (s : State) (addr : BitVec 7) : State :=
  let t := s.transact .port (.generalCall 0x06)
  let s' := t.2.invalidateImages
  match t.1 with
  | .ack =>
    { s' with port := .busy (.prescale addr (BitVec.ofNat 8 defaultPrescale) .sleep (settleTicks s.cfg) .init) }
  | .nack => s'.unlock.raise .deviceNotFound 0
  | .err d => s'.unlock.raise .busIO d

/-! ### NEXTSTEP -/

/-- Carry NEXTSTEP's Step on to its next channel write, or to its response (R121). -/
def State.portStepOps (s : State) (u : UnitId) (ops : List StepOp) : State :=
  match runOps u ops s with
  | (none, s') => s'.respondOk (packValue [(0, (s'.unit u).index.toNat)])
  | (some job, s') => { s' with port := .busy (.step u job) }

/-- NEXTSTEP's Step after a channel write is answered (R115, R121). -/
def State.portStepAnswered (s : State) (u : UnitId) (rest : List StepOp) (r : Answer) : State :=
  if r = .ack then s.portStepOps u rest else (s.failStep u).conclude r 0

/-! ### STOP and DISPOSE -/

/-- The end of DeEnergize and of the command that ran it (R117, R123, R135). After a failure, what the unit's channels
hold is not known (item U1). -/
def State.finishDeEnergize (s : State) (u : UnitId) (why : DeEnergizeFor) (first : Answer) : State :=
  let x := (s.unit u).deEnergized first
  let s' := if first = .ack then s else s.forgetUnit u
  match why with
  | .stop => (s'.setUnit u { x with run := if first = .ack then .stopped else .braking }).conclude first 0
  | .dispose => ((s'.setOwners (s'.unitChannels u) .free).setUnit u UnitState.reset).conclude first 0

/-- DeEnergize from a list of channels on, up to its next write (R117). -/
def State.deEnergizeFrom (s : State) (u : UnitId) (why : DeEnergizeFor) : List ChannelId → Answer → State
  | [], first => s.finishDeEnergize u why first
  | ch :: rest, first =>
    if (s.channel ch).disabled then (s.setSpec ch 0 false).deEnergizeFrom u why rest first
    else { s.setSpec ch 0 false with port := .busy (.deEnergize u why (pendingApply ch 0 false) rest first) }

/-! ### Holds -/

/-- A held command once RUN[u] is not Running (R123, R134, R135). -/
def State.afterHold (s : State) (u : UnitId) (why : HoldFor) : State :=
  match why with
  | .cancel => s.respondOk (packValue [(0, (s.unit u).index.toNat)])
  | .stop => s.deEnergizeFrom u .stop (s.unitChannels u) .ack
  | .dispose => s.deEnergizeFrom u .dispose (s.unitChannels u) .ack

/-- Ask a run to end and hold until it has, or go on at once if none is active (R123, R134, R135). -/
def State.endRun (s : State) (u : UnitId) (why : HoldFor) : State :=
  if (s.unit u).run = .running then
    { s.setUnit u { s.unit u with cancelReq := true } with port := .busy (.hold u why) }
  else s.afterHold u why

/-! ### The port's step -/

/-- One step of a Busy port (R20). -/
def State.portStep (s : State) (job : PortJob) : State :=
  match job with
  | .channelWrite w fin => s.portWrite w (.channelWrite · fin) fun r s => s.finishWrite w.ch fin r
  | .generalCall addr locked =>
    if locked then s.generalCallStep addr
    else s.lockThen .port fun s => { s with port := .busy (.generalCall addr true) }
  | .prescaleLock p => s.lockThen .port fun s => { s with port := .busy (.prescale s.busAddr p .sleep 0 .setfreq) }
  | .prescale addr p stage wait why => if wait = 0 then s.prescaleStep addr p stage why else s
  | .hold u why => if (s.unit u).run = .running then s else s.afterHold u why
  | .step u j => s.portWrite j.write (fun w => .step u ⟨w, j.rest⟩) fun r s => s.portStepAnswered u j.rest r
  | .deEnergize u why w rest first =>
    s.portWrite w (.deEnergize u why · rest first) fun r s => s.deEnergizeFrom u why rest (firstFailure first r)

end Sys2Proof.Machine
end

