-- ==== Sys2Proof/Machine/Agents.lean ====
section
/-! DEFINITION. One step of each agent (R20) when the port is not about to take a command, and the run of a command
through the schedule that State holds. -/

namespace Sys2Proof.Machine

/-- A tick passes for a settle wait (R15, R90). -/
def PortState.tick : PortState → PortState
  | .busy (.prescale addr p stage wait why) => .busy (.prescale addr p stage (wait - 1) why)
  | p => p

/-- The environment's tick: TIME advances by one (R20, R48), and so does a settle wait. -/
def State.tick (s : State) : State := { s with time := s.time + 1, port := s.port.tick }

/-- One step of the chosen agent (R20). An Idle port has no step here. -/
def State.move (s : State) : Choice → State
  | .tick => s.tick
  | .loop u => s.loopStep u
  | .port =>
    match s.port with
    | .idle => s
    | .busy job => s.portStep job

/-- Let the agents of a schedule step in turn until the port's command has responded; what is left stays scheduled. -/
def State.driveOver (s : State) : List Choice → State
  | [] => { s with sched := [] }
  | c :: cs =>
    match s.port with
    | .idle => { s with sched := c :: cs }
    | .busy _ => (s.move c).driveOver cs

/-- The rest of a command that the port has taken: the steps of the port and of the other agents, in the order that
State's schedule gives, up to the response or to the schedule's end. A command whose schedule ends before its response
leaves the port Busy, and later steps go on with it (R20, R23, assumption log 5). -/
def State.drive (s : State) : State := s.driveOver s.sched

end Sys2Proof.Machine
end

