-- ==== Sys2Proof/Machine/Driver.lean ====
section
/-! DEFINITION. The commands of the PWM channel driver (40_pwm_driver.md): INIT, SETFREQ, ACQ, REL, SETDUTY, DISABLE,
ENABLE. Each is the command's effect from the port's taking it, along State's schedule (Agents.lean). -/

namespace Sys2Proof.Machine

/-- INIT addr7 (R95). A second INIT is a no-op with VALUE 0. -/
def execInit (addr7 : Nat) (s : State) : Host.Outcome State Fault Refusal :=
  .next (if s.initialized then s.respondOk 0
    else { s with port := .busy (.generalCall (BitVec.ofNat 7 addr7) false) }.drive)

/-- SETFREQ hz (R96). -/
def execSetfreq (hz : Nat) (s : State) : Host.Outcome State Fault Refusal :=
  .next (s.checked [s.needInit]
    { s with port := .busy (.prescaleLock (BitVec.ofNat 8 (prescaleOf s.cfg.clockHz hz))) }.drive)

/-- ACQ ch (R97). -/
def execAcq (ch : ChannelId) (s : State) : Host.Outcome State Fault Refusal :=
  .next (s.checked [s.needInit, s.needFree ch] ((s.setOwner ch .host).respondOk 0))

/-- REL ch (R98). The full-off write ignores DISABLED and SPEC. -/
def execRel (ch : ChannelId) (s : State) : Host.Outcome State Fault Refusal :=
  .next (s.checked [s.needInit, s.hostOwn ch]
    { s with port := .busy (.channelWrite ⟨ch, fullOff, false⟩ .release) }.drive)

/-- SETDUTY ch, frac, inv (R99). -/
def execSetduty (ch : ChannelId) (frac : Nat) (inv : Bool) (s : State) : Host.Outcome State Fault Refusal :=
  .next (s.checked [s.needInit, s.hostOwn ch, fractionOk frac]
    (s.portApply ch (BitVec.ofNat 13 (ratioOf frac)) inv (packValue [(0, ratioOf frac)])).drive)

/-- DISABLE ch (R100). -/
def execDisable (ch : ChannelId) (s : State) : Host.Outcome State Fault Refusal :=
  .next (s.checked [s.needInit, s.hostOwn ch]
    { s.setDisabled ch true with port := .busy (.channelWrite ⟨ch, fullOff, false⟩ (.reply 0)) }.drive)

/-- ENABLE ch (R101). -/
def execEnable (ch : ChannelId) (s : State) : Host.Outcome State Fault Refusal :=
  .next (s.checked [s.needInit, s.hostOwn ch]
    ((s.setDisabled ch false).portApply ch (s.channel ch).specRatio (s.channel ch).specInv 0).drive)

end Sys2Proof.Machine
end

