-- ==== Sys2Proof/Machine/Engine.lean ====
section
/-! DEFINITION. The commands of the stepping engine (41_stepping_engine.md): CFGMOTOR, SELSTYLE, NEXTSTEP, SETPF,
DISPOSE. -/

namespace Sys2Proof.Machine

/-- Unit u as CFGMOTOR leaves it (R119). -/
def UnitState.bind (x : UnitState) (pa pb spr : Nat) : UnitState :=
  { x.invalidateLast with
    bound := true, portA := BitVec.ofNat 3 pa, portB := BitVec.ofNat 3 pb, spr := BitVec.ofNat 16 spr }

/-- CFGMOTOR u, pa, pb, spr (R119). The operand values are checked before the channels' ownership (R143). -/
def execCfgmotor (unit pa pb spr : Nat) (s : State) : Host.Outcome State Fault Refusal :=
  .next (s.withUnit unit fun u =>
    s.checked
      [s.needInit, require (!(s.unit u).bound) .configuration, require (portsOk pa pb) .configuration,
        require (decide (spr ≠ 0)) .configuration,
        require (s.allFree (bindingChannels s.cfg.portMap pa pb)) .channelBusy]
      (((s.setOwners (bindingChannels s.cfg.portMap pa pb) (.unit u)).setUnit u
        ((s.unit u).bind pa pb spr)).respondOk 0))

/-- Unit u as SELSTYLE leaves it (R120): LAST is kept. -/
def UnitState.withStyle (x : UnitState) (sty : Style) (nms : Nat) : UnitState :=
  { x with style := sty, nms := BitVec.ofNat 8 nms, ready := true, index := 0 }

/-- SELSTYLE u, sty, nms (R120). -/
def execSelstyle (unit : Nat) (sty : Style) (nms : Nat) (s : State) : Host.Outcome State Fault Refusal :=
  .next (s.withUnit unit fun u =>
    s.checked [s.needBound u, s.needIdle u, require (nmsLegal sty nms) .configuration]
      ((s.setUnit u ((s.unit u).withStyle sty nms)).respondOk (packValue [(0, tableLen sty nms)])))

/-- RUN[u] <- Braking if it was Stopped (R121). -/
def UnitState.handStep (x : UnitState) : UnitState :=
  { x with run := if x.run = .stopped then .braking else x.run }

/-- NEXTSTEP u, dir (R121). -/
def execNextstep (unit : Nat) (dir : Dir) (s : State) : Host.Outcome State Fault Refusal :=
  .next (s.withUnit unit fun u =>
    s.checked [s.needBound u, s.needIdle u, s.needReady u, s.needNoBusErr u]
      (let s' := (s.setUnit u (s.unit u).handStep).advanceIndex u dir
       (s'.portStepOps u (s'.stepOps u)).drive))

/-- SETPF u, pf (R122). -/
def execSetpf (unit pf : Nat) (s : State) : Host.Outcome State Fault Refusal :=
  .next (s.withUnit unit fun u =>
    s.checked [s.needBound u, fractionOk pf]
      ((s.setUnit u { s.unit u with pf := BitVec.ofNat 17 pf }).respondOk 0))

/-- DISPOSE u (R123). -/
def execDispose (unit : Nat) (s : State) : Host.Outcome State Fault Refusal :=
  .next (s.withUnit unit fun u => s.checked [s.needBound u] (s.endRun u .dispose).drive)

end Sys2Proof.Machine
end

