-- ==== Sys2Proof/Machine/Scheduler.lean ====
section
/-! DEFINITION. The commands of the step scheduler (42_step_scheduler.md): SETSPEED, STEPFOR, CANCEL, STOP,
SETPOLICY. -/

namespace Sys2Proof.Machine

/-- SETSPEED u, rpm (R132). -/
def execSetspeed (unit rpm : Nat) (s : State) : Host.Outcome State Fault Refusal :=
  .next (s.withUnit unit fun u =>
    let t := ticksPerStep s.cfg.timerHz rpm (s.unit u).spr.toNat
    s.checked [s.needBound u, require (decide (rpm ≠ 0)) .configuration,
        require (decide (0 < t ∧ t < 2 ^ 32)) .configuration]
      ((s.setUnit u { s.unit u with tps := BitVec.ofNat 32 t }).respondOk (BitVec.ofNat 32 t)))

/-- Unit u as STEPFOR leaves it at TIME now (R133). -/
def UnitState.startRun (x : UnitState) (now : BitVec 64) (dir : Dir) (cont : Bool) (count : Nat) : UnitState :=
  { x with
    dir := dir, cont := cont, remaining := BitVec.ofNat 32 count, deadline := now,
    cancelReq := false, cooling := false, phase := .accum, run := .running, stepJob := none }

/-- STEPFOR u, dir, cont, count, and RUN u, dir (R133, R83). -/
def execStepfor (unit : Nat) (dir : Dir) (cont : Bool) (count : Nat) (s : State) : Host.Outcome State Fault Refusal :=
  .next (s.withUnit unit fun u =>
    s.checked [s.needBound u, s.needIdle u, require (!cont || decide (count = 0)) .configuration, s.needReady u,
        require (decide ((s.unit u).tps ≠ 0)) .configuration, s.needNoBusErr u]
      ((s.setUnit u ((s.unit u).startRun s.time dir cont count)).respondOk 0))

/-- CANCEL u (R134). -/
def execCancel (unit : Nat) (s : State) : Host.Outcome State Fault Refusal :=
  .next (s.withUnit unit fun u => s.checked [s.needBound u] (s.endRun u .cancel).drive)

/-- STOP u (R135). -/
def execStop (unit : Nat) (s : State) : Host.Outcome State Fault Refusal :=
  .next (s.withUnit unit fun u => s.checked [s.needBound u] (s.endRun u .stop).drive)

/-- SETPOLICY u, endfull (R136). -/
def execSetpolicy (unit : Nat) (endFull : Bool) (s : State) : Host.Outcome State Fault Refusal :=
  .next (s.withUnit unit fun u =>
    s.checked [s.needBound u] ((s.setUnit u { s.unit u with endFull := endFull }).respondOk 0))

end Sys2Proof.Machine
end

