-- ==== Sys2Proof/Machine/Status.lean ====
section
/-! DEFINITION. RDSTAT, the one command that reads block state (43_status.md). -/

namespace Sys2Proof.Machine

/-- RDSTAT u, sel (R137): an undefined selector, then a chip selector with UNIT other than 0, then the unit number of a
unit selector. It changes no state but the response. -/
def execRdstat (unit sel : Nat) (s : State) : Host.Outcome State Fault Refusal :=
  .next (match selectorOf sel with
    | none => s.raise .illegalCommand 0
    | some (.chip c) =>
      s.checked [require (decide (unit = 0)) .illegalCommand] (s.respondOk (s.chipWord c))
    | some (.unit x) => s.withUnit unit fun u => s.respondOk ((s.unit u).word x))

end Sys2Proof.Machine
end

