-- ==== Sys2Proof/Machine/Dispatch.lean ====
section
/-! DEFINITION. The meaning of every command: one arm for each row of the opcode table (R79). -/

namespace Sys2Proof.Machine

def exec (i : Instr) (s : State) : Host.Outcome State Fault Refusal :=
  match i with
  | .init addr7 => Sys2Proof.Machine.execInit addr7 s
  | .setfreq hz => Sys2Proof.Machine.execSetfreq hz s
  | .acq ch => Sys2Proof.Machine.execAcq ch s
  | .rel ch => Sys2Proof.Machine.execRel ch s
  | .setduty ch frac inv => Sys2Proof.Machine.execSetduty ch frac inv s
  | .disable ch => Sys2Proof.Machine.execDisable ch s
  | .enable ch => Sys2Proof.Machine.execEnable ch s
  | .cfgmotor unit pa pb spr => Sys2Proof.Machine.execCfgmotor unit pa pb spr s
  | .selstyle unit sty nms => Sys2Proof.Machine.execSelstyle unit sty nms s
  | .nextstep unit dir => Sys2Proof.Machine.execNextstep unit dir s
  | .setpf unit pf => Sys2Proof.Machine.execSetpf unit pf s
  | .dispose unit => Sys2Proof.Machine.execDispose unit s
  | .setspeed unit rpm => Sys2Proof.Machine.execSetspeed unit rpm s
  | .stepfor unit dir cont count => Sys2Proof.Machine.execStepfor unit dir cont count s
  | .cancel unit => Sys2Proof.Machine.execCancel unit s
  | .stop unit => Sys2Proof.Machine.execStop unit s
  | .setpolicy unit endFull => Sys2Proof.Machine.execSetpolicy unit endFull s
  | .rdstat unit sel => Sys2Proof.Machine.execRdstat unit sel s

end Sys2Proof.Machine
end

