-- ==== Sys2Proof/Machine/Fetch.lean ====
section
/-! DEFINITION. The command word the port takes next (R22, R23, R80), and the placing of one. -/

namespace Sys2Proof.Machine

/-- The next command word the host has given, and the state with the port having taken it (R23). -/
def State.takeWord (s : State) : Option (Word × State) :=
  match s.commands with
  | [] => none
  | w :: ws => some (w, { s with commands := ws })

/-- The command port Idle and able to take a word at the very next step: its own choice comes first. A command that
the port was busy with is dropped, with the lock it may hold (assumption log 4). -/
def State.givenWord (s : State) (w : Word) : State :=
  { s.releasePort with port := .idle, commands := w :: s.commands, sched := .port :: s.sched }

end Sys2Proof.Machine
end

