-- ==== Sys2Proof/Machine/Step.lean ====
section
/-! DEFINITION. One step of the machine (R20): the agent whose turn it is steps; an Idle port takes a command word. -/

namespace Sys2Proof.Machine

/-- The port takes the next command word, if there is one, and executes it (R23, R80). A word that does not decode is
answered with IllegalCommand and changes no state (R81). -/
def State.acceptStep (s : State) : Host.Outcome State Fault Refusal :=
  match s.takeWord with
  | none => .next s
  | some (w, s') =>
    match decode w with
    | .ok i => exec i s'
    | .error _ => .next (s'.raise .illegalCommand 0)

/-- One step: the environment's tick, a pacing loop's step, or the port's (R20, R69). -/
def step (s : State) : Host.Outcome State Fault Refusal :=
  match s.nextChoice.1, s.port with
  | .port, .idle => s.nextChoice.2.acceptStep
  | c, _ => .next (s.nextChoice.2.move c)

/-- `s` with the word of `nbits` bits given to the port, so that the very next step takes and executes it. -/
def State.withFetchWord (s : State) (nbits w : Nat) : State := s.givenWord (BitVec.ofNat 64 (w % 2 ^ nbits))

end Sys2Proof.Machine
end

