-- ==== Sys2Proof/Safety.lean ====
section
/-! DEFINITION. What a sound state of the block is: the invariants that the spec's rules promise, in the terms the
statements use. -/

namespace Sys2Proof.Machine

/-! ### The bus lock -/

/-- The port's command is between Lock() and Unlock() (R66). -/
def PortJob.inCritical : PortJob → Bool
  | .channelWrite w _ => w.locked
  | .generalCall _ locked => locked
  | .prescaleLock _ => false
  | .prescale _ _ _ _ _ => true
  | .hold _ _ => false
  | .step _ job => job.write.locked
  | .deEnergize _ _ w _ _ => w.locked

/-- The port is between Lock() and Unlock() (R66). -/
def PortState.inCritical : PortState → Bool
  | .idle => false
  | .busy job => job.inCritical

/-- The unit's pacing loop is between Lock() and Unlock() (R66). -/
def UnitState.inCritical (x : UnitState) : Bool :=
  match x.stepJob with
  | some job => job.write.locked
  | none => false

/-- A unit that the port's command steps or de-energizes itself: its pacing loop must not be active (R121, R135). -/
def PortState.drives : PortState → Option UnitId
  | .busy (.step u _) => some u
  | .busy (.deEnergize u _ _ _ _) => some u
  | _ => none

/-- Mutual exclusion (R66): BUS_LOCK names the agent that is in its critical section, and no other agent is in one.
A pacing loop that is not active has no Step under way (R20, R168), nor has that of a unit the port itself drives. -/
abbrev State.LockOk (s : State) : Prop :=
  (s.busLock = .port ↔ s.port.inCritical = true) ∧
  (∀ u, s.busLock = .loop u ↔ (s.unit u).inCritical = true) ∧
  (∀ u, (s.unit u).run ≠ .running → (s.unit u).stepJob = none) ∧
  (∀ u, s.port.drives = some u → (s.unit u).run ≠ .running)

/-! ### Legal register values -/

/-- A ratio in 0..4096 (R30, R38). -/
abbrev ratioLegal (r : BitVec 13) : Prop := r.toNat ≤ 4096

/-- An operation of Step whose ratio is legal. -/
def StepOp.Legal : StepOp → Prop
  | .apply _ ratio => ratioLegal ratio
  | .record _ ratio _ => ratioLegal ratio

/-- The registers of a unit hold legal values: PF (R37), LAST (R38), the style and INDEX while READY (R34, R36), and
what STEPFOR checked while Running (R133, R144). -/
def UnitState.Legal (x : UnitState) : Prop :=
  x.pf.toNat ≤ 65536 ∧ ratioLegal x.lastA.ratio ∧ ratioLegal x.lastB.ratio ∧
  (x.ready = true → nmsLegal x.style x.nms.toNat = true ∧ x.index.toNat < tableLen x.style x.nms.toNat) ∧
  (x.run = .running → x.bound = true ∧ x.ready = true ∧ x.tps ≠ 0 ∧ x.busErr = false) ∧
  (∀ job, x.stepJob = some job → ∀ op ∈ job.rest, op.Legal)

/-- What a Busy port still has to do writes legal values only: step ratios, and prescales 3..255 (R26, R88). -/
def PortState.Legal : PortState → Prop
  | .busy (.step _ job) => ∀ op ∈ job.rest, op.Legal
  | .busy (.prescaleLock p) => 3 ≤ p.toNat
  | .busy (.prescale _ p _ _ _) => 3 ≤ p.toNat
  | _ => True

/-- A bound unit has two distinct ports in 1..4 and an SPR in 1..65535 (R33, R119), and NMS is 0 unless the style is
MICRO (R34). -/
def UnitState.BindingLegal (x : UnitState) : Prop :=
  (x.bound = true → portsOk x.portA.toNat x.portB.toNat = true ∧ x.spr ≠ 0) ∧ (x.style ≠ .micro → x.nms = 0)

/-- Every register with a restricted range holds a legal value (R26, R30, R33, R34, R36 to R39, R133). -/
def State.RegistersLegal (s : State) : Prop :=
  (∀ u, (s.unit u).Legal ∧ (s.unit u).BindingLegal) ∧ (∀ ch, ratioLegal (s.channel ch).specRatio) ∧
  (s.initialized = true → 3 ≤ s.prescale.toNat) ∧ s.port.Legal ∧
  (∀ u, s.port.drives = some u → (s.unit u).run ≠ .running)

/-! ### Channel ownership -/

/-- The channel and the ratio of a write that Step asks for; a record in LAST writes nothing (R115). -/
def StepOp.write? : StepOp → Option (ChannelId × BitVec 13)
  | .apply ch ratio => some (ch, ratio)
  | .record _ _ _ => none

/-- The writes of a Step, in order (R115). -/
def stepWrites (ops : List StepOp) : List (ChannelId × BitVec 13) := ops.filterMap StepOp.write?

/-- What a Busy port still has to do rests on: the channel that REL frees, the unit that a held or de-energizing
command is about. -/
def State.PortOwns (s : State) : Prop :=
  match s.port with
  | .busy (.channelWrite w .release) => (s.channel w.ch).owner = .host
  | .busy (.hold u _) => (s.unit u).bound = true
  | .busy (.deEnergize u _ _ _ _) => (s.unit u).bound = true
  | _ => True

/-- Ownership (R28, R29, R33, R110): a bound unit has two distinct legal ports and owns its six channels, only a bound
unit owns a channel and only its own six, and only a host channel is disabled. -/
def State.OwnershipOk (s : State) : Prop :=
  (∀ u, (s.unit u).bound = true →
    portsOk (s.unit u).portA.toNat (s.unit u).portB.toNat = true ∧
    ∀ ch ∈ s.unitChannels u, (s.channel ch).owner = .unit u) ∧
  (∀ ch u, (s.channel ch).owner = .unit u → (s.unit u).bound = true ∧ ch ∈ s.unitChannels u) ∧
  (∀ ch, (s.channel ch).disabled = true → (s.channel ch).owner = .host) ∧
  s.PortOwns

/-- A Step under way writes these channels only: the write in progress and every write after it. -/
def StepJob.On (job : StepJob) (chs : List ChannelId) : Prop :=
  job.write.ch ∈ chs ∧ ∀ w ∈ stepWrites job.rest, w.1 ∈ chs

/-- The channels of what a Busy port still has to write: a host channel for the host's commands, a bound unit's own
channels for NEXTSTEP, STOP and DISPOSE (R92, R110). -/
def State.PortJobOwn (s : State) : Prop :=
  match s.port with
  | .busy (.channelWrite w _) => (s.channel w.ch).owner = .host
  | .busy (.hold u _) => (s.unit u).bound = true
  | .busy (.step u job) => (s.unit u).bound = true ∧ job.On (s.unitChannels u)
  | .busy (.deEnergize u _ w rest _) =>
    (s.unit u).bound = true ∧ w.ch ∈ s.unitChannels u ∧ ∀ ch ∈ rest, ch ∈ s.unitChannels u
  | _ => True

/-- What is under way names its own agent's channels only (R92, R110): only a bound unit runs, and the Step under way
of a unit's pacing loop, and what the port still has to write, name channels of that unit or of the host. -/
def State.JobsOwn (s : State) : Prop :=
  (∀ u, (s.unit u).run = .running → (s.unit u).bound = true) ∧
  (∀ u job, (s.unit u).stepJob = some job → (s.unit u).bound = true ∧ job.On (s.unitChannels u)) ∧
  s.PortJobOwn

/-! ### The expander -/

/-- The expander's registers of channel ch hold IMAGE[ch], byte 0 at the lowest address, wherever their content is
known (R31, R56). It is not known after a bus error in a step or in DeEnergize (item U1). -/
def State.HoldsImage (s : State) (ch : ChannelId) : Prop :=
  ∀ k : Fin 4, s.expander.read (s.imageCell ch k.val) = none ∨
    s.expander.read (s.imageCell ch k.val) = (imageBytes (s.channel ch).image)[k.val]?

/-- IMAGE is true where IMAGE_VALID says so (R31): the expander holds nothing else there, as far as its content
is known. While INIT runs its sequence no IMAGE is valid (R95). -/
def State.ImagesTrue (s : State) : Prop :=
  s.cfg.Legal ∧ s.LockOk ∧
  (∀ ch, (s.channel ch).imageValid = true → s.HoldsImage ch) ∧
  (∀ addr p stage wait, s.port = .busy (.prescale addr p stage wait .init) →
    ∀ ch, (s.channel ch).imageValid = false)

/-! ### LAST and the coils -/

/-- What the block knows that a channel's registers hold: IMAGE where IMAGE_VALID is set (R31). -/
def State.shadow (s : State) (ch : ChannelId) : Option Value :=
  if (s.channel ch).imageValid then some (s.channel ch).image else none

/-- The images that a LAST stands for on its coil's channels (R38, R111, R112): the magnitude's, and the polarity
targets'. -/
def Last.images (l : Last) (t : PortTriple) : List (ChannelId × Value) :=
  [(t.pwm, imageOf l.ratio.toNat),
   (t.inP, if l.pol.targets.1 then fullOn else fullOff),
   (t.inN, if l.pol.targets.2 then fullOn else fullOff)]

/-- A valid LAST says what the coil's channels hold (R38, R139). -/
def Last.TrueOf (l : Last) (t : PortTriple) (shadow : ChannelId → Option Value) : Prop :=
  l.valid = true → ∀ x ∈ l.images t, shadow x.1 = some x.2

/-- Once the rest of a Step has been carried out with every write acknowledged (R115), both coils' LAST will be true of
the channels: a write puts its image, a record replaces the coil's LAST. -/
def LastWillBeTrue (triple : Coil → PortTriple) :
    List StepOp → (ChannelId → Option Value) → (Coil → Last) → Prop
  | [], shadow, last => ∀ c, (last c).TrueOf (triple c) shadow
  | .apply ch ratio :: ops, shadow, last =>
    LastWillBeTrue triple ops (fun d => if d = ch then some (imageOf ratio.toNat) else shadow d) last
  | .record c ratio pol :: ops, shadow, last =>
    LastWillBeTrue triple ops shadow (fun d => if d = c then ⟨true, ratio, pol⟩ else last d)

/-- Once a Step under way has ended with every write acknowledged, unit u's LAST will be true. -/
def State.JobWillBeTrue (s : State) (u : UnitId) (job : StepJob) : Prop :=
  LastWillBeTrue (s.coilTriple u) job.rest (fun d => if d = job.write.ch then some job.write.image else s.shadow d)
    (s.unit u).last

/-- LAST is what was last applied (R38, R139; R159: the block itself never makes it stale). Only a bound unit's LAST is
valid, and a unit is bound only after INIT. Between Steps and outside DeEnergize, a valid LAST says what the coil's
channels hold; during a Step, it will once the Step's writes are acknowledged; during DeEnergize, the channels already
written are fully off unless a write failed. -/
def State.LastTrue (s : State) : Prop :=
  (∀ u c, ((s.unit u).last c).valid = true → (s.unit u).bound = true) ∧
  (∀ u, (s.unit u).bound = true → s.initialized = true) ∧
  (∀ addr locked, s.port = .busy (.generalCall addr locked) → s.initialized = false) ∧
  (∀ u, s.port.drives ≠ some u →
    ((s.unit u).stepJob = none → ∀ c, ((s.unit u).last c).TrueOf (s.coilTriple u c) s.shadow) ∧
    ∀ job, (s.unit u).stepJob = some job → s.JobWillBeTrue u job) ∧
  (∀ u job, s.port = .busy (.step u job) → s.JobWillBeTrue u job) ∧
  ∀ u why w rest first, s.port = .busy (.deEnergize u why w rest first) →
    w.image = fullOff ∧
    (first = .ack → ∀ ch ∈ s.unitChannels u, ch ≠ w.ch → ch ∉ rest → s.shadow ch = some fullOff)

/-! ### The bus transactions -/

/-- An image that the formatter makes: IMG(e) for an e in 0..4096 (R86). -/
def ImageLegal (v : Value) : Prop := ∃ e ≤ 4096, v = imageOf e

/-- A transaction the block may issue (R53, R55, R59, R63, R86): the reset general call, one of the three MODE1
values, a prescale 3..255, or one whole channel image at its base register. -/
inductive BusOp.Listed (c : Config) : BusOp → Prop where
  | reset : Listed c (.generalCall 0x06)
  | mode1 (addr : BitVec 7) (v : Byte) (h : v = 0x31 ∨ v = 0x21 ∨ v = 0xA1) :
      Listed c (.write addr (BitVec.ofNat 8 c.mode1Addr) [v])
  | prescale (addr : BitVec 7) (p : Byte) (h : 3 ≤ p.toNat) :
      Listed c (.write addr (BitVec.ofNat 8 c.prescaleAddr) [p])
  | image (addr : BitVec 7) (ch : ChannelId) (v : Value) (h : ImageLegal v) :
      Listed c (.write addr (BitVec.ofNat 8 (baseRegister c ch)) (imageBytes v))

/-- What a Busy port may still write (R53). -/
def PortState.Listed : PortState → Prop
  | .busy (.channelWrite w _) => ImageLegal w.image
  | .busy (.prescaleLock p) => 3 ≤ p.toNat
  | .busy (.prescale _ p _ _ _) => 3 ≤ p.toNat
  | .busy (.step _ job) => ImageLegal job.write.image
  | .busy (.deEnergize _ _ w _ _) => ImageLegal w.image
  | _ => True

/-- Every transaction of the bus trace is one that R53 lists, and so is everything under way. -/
def State.TraceListed (s : State) : Prop :=
  (∀ t ∈ s.trace, t.op.Listed s.cfg) ∧ s.port.Listed ∧
  (∀ u job, (s.unit u).stepJob = some job → ImageLegal job.write.image)

/-- The register space that a trace tells: its transactions in order, each with its answer (R52, R63, R67). -/
def replay (trace : List Transaction) : Memory := trace.foldl (fun m t => Memory.after m t.op t.answer) []

/-- The trace tells what the expander holds: every register that State knows is what replaying the trace gives. State
knows less after a bus error in DeEnergize (item U1). -/
def State.ExpanderReplaysTrace (s : State) : Prop :=
  ∀ a, s.expander.read a = none ∨ s.expander.read a = (replay s.trace).read a

/-! ### Responses -/

/-- The response word of a command whose last transaction was answered r, with its VALUE on success (R76, R141). -/
def responseTo (r : Answer) (value : Value) : Word :=
  match r with
  | .ack => responseWord 0 value
  | .nack => responseWord 6 0
  | .err d => responseWord 6 d

/-- A response word as R76 lays it out, with one of the codes that R141 lists. -/
abbrev ResponseLegal (w : Word) : Prop := bitField w 7 0 ≤ 7 ∧ bitField w 31 8 = 0

/-- Commands given and not yet taken, commands being executed, and commands answered. -/
def State.commandCount (s : State) : Nat :=
  s.commands.length + (match s.port with | .idle => 0 | .busy _ => 1) + s.responses.length

/-! ### One channel write -/

/-- The trace entry of one channel write: four bytes at the channel's base register (R54, R59, R63). -/
def State.imageTransaction (s : State) (agent : Agent) (ch : ChannelId) (image : Value) (r : Answer) : Transaction :=
  ⟨agent, s.time, .write s.busAddr (BitVec.ofNat 8 (baseRegister s.cfg ch)) (imageBytes image), r⟩

/-- From `s` to `t`, every byte of the expander outside the four registers of every channel of `chs` reads as
before. -/
def State.OnlyImagesOf (s t : State) (chs : List ChannelId) : Prop :=
  ∀ a, (∀ ch ∈ chs, ∀ k : Fin 4, a ≠ s.imageCell ch k.val) → t.expander.read a = s.expander.read a

/-- In `t`, no expander register is known (R64, item U5). -/
def State.ExpanderUnknown (t : State) : Prop := ∀ a, t.expander.read a = none

/-- From `s` to `t`, after writes to the channels of `chs` whose first answer other than Ack is r: every other register
reads as before if there was none, and no register is known if there was one (R64, items U1 and U5). -/
def State.RestAnswered (s t : State) (chs : List ChannelId) (r : Answer) : Prop :=
  if r = .ack then s.OnlyImagesOf t chs else t.ExpanderUnknown

/-- In `t`, channel ch's four registers hold the image written if it was acknowledged, and are unknown if not
(R56, R63, R64). -/
def State.ImageAnswered (s t : State) (ch : ChannelId) (image : Value) (r : Answer) : Prop :=
  ∀ k : Fin 4, t.expander.read (s.imageCell ch k.val) = if r = .ack then (imageBytes image)[k.val]? else none

/-! ### Settle waits -/

/-- At s, ProgramPrescale for this command keeps its settle waits (R15, R90, R161, R166): while a wait has ticks left the
port has no step, each tick lowers it by one, and along any schedule with fewer ticks the port goes no further; and an
acknowledged MODE1 write is followed by a wait of SETTLE_TICKS, the PRESCALE write by none. -/
def State.KeepsSettleWaits (s : State) (why : PrescaleFor) : Prop :=
  ∀ addr p stage wait, s.port = .busy (.prescale addr p stage wait why) →
    (wait ≠ 0 → s.move .port = s) ∧
    (s.move .tick).port = .busy (.prescale addr p stage (wait - 1) why) ∧
    (∀ cs : List Choice, cs.count .tick < wait →
      (cs.foldl State.move s).port = .busy (.prescale addr p stage (wait - cs.count .tick) why)) ∧
    (wait = 0 → s.nextAnswer.1 = .ack →
      (stage = .sleep → (s.move .port).port = .busy (.prescale addr p .value (settleTicks s.cfg) why)) ∧
      (stage = .value → (s.move .port).port = .busy (.prescale addr p .wake 0 why)) ∧
      (stage = .wake → (s.move .port).port = .busy (.prescale addr p .restart (settleTicks s.cfg) why)) ∧
      (stage = .restart → (s.move .port).port = .busy (.prescale addr p .done (settleTicks s.cfg) why)))

/-! ### DeEnergize -/

/-- Unit u's registers after STOP, by the answers to its six writes (R117, R135). -/
def UnitState.afterStop (x : UnitState) (six : List Answer) : UnitState :=
  if ∀ r ∈ six, r = .ack then
    { x with lastA := ⟨true, 0, .off⟩, lastB := ⟨true, 0, .off⟩, busErr := false, run := .stopped }
  else
    { x with
      lastA := { x.lastA with valid := false }, lastB := { x.lastB with valid := false }, busErr := true
      run := .braking }

/-- The first answer that was not Ack, or Ack (R117). -/
def firstNotAck (six : List Answer) : Answer := (six.find? (· ≠ .ack)).getD .ack

/-- From `s` to `t`, DeEnergize(u) with these answers to its six writes, whose channels then have this owner (R117,
R123, R135): each channel is forced off with the shadow its own answer leaves; if every write was acknowledged, the
registers of the six hold FULL_OFF and every other one is as before, and if any failed no register is known (R64, items
U1 and U5); and every other unit and channel is as before. -/
def State.DeEnergizedBy (s t : State) (u : UnitId) (six : List Answer) (owner : Owner) : Prop :=
  (∀ v, v ≠ u → t.unit v = s.unit v) ∧
  (∀ x ∈ (s.unitChannels u).zip six,
    t.channel x.1 =
      { s.channel x.1 with
        owner := owner, specRatio := 0, specInv := false
        image := if x.2 = .ack then fullOff else (s.channel x.1).image, imageValid := decide (x.2 = .ack) }) ∧
  (∀ ch ∈ s.unitChannels u, s.ImageAnswered t ch fullOff (firstNotAck six)) ∧
  (∀ ch, ch ∉ s.unitChannels u → t.channel ch = s.channel ch) ∧
  s.RestAnswered t (s.unitChannels u) (firstNotAck six)

end Sys2Proof.Machine

/-! ### Which words are commands, and which commands name a unit or a channel -/

namespace Sys2Proof

/-- The opcode map as the table of R77 and R79 gives it: for each command the value of its fixed bits and the mask of
them, its OPC and its reserved bits. -/
def commandRows : List (Word × Word) :=
  [(0x1, 0xFFFFFFFFFF80FFFF),
   (0x2, 0xFFFFFFFF0000FFFF),
   (0x3, 0xFFFFFFFFFFFF0FFF),
   (0x4, 0xFFFFFFFFFFFF0FFF),
   (0x5, 0xFFFE0000FFFE0FFF),
   (0x6, 0xFFFFFFFFFFFF0FFF),
   (0x7, 0xFFFFFFFFFFFF0FFF),
   (0x10, 0xFFFFFF880000F0FF),
   (0x11, 0xFFFFFF00FFFCF0FF),
   (0x12, 0xFFFFFFFFFFFEF0FF),
   (0x13, 0xFFFE0000FFFFF0FF),
   (0x14, 0xFFFFFFFFFFFFF0FF),
   (0x20, 0xFFFFFFFF0000F0FF),
   (0x21, 0x00000000FFFCF0FF),
   (0x22, 0xFFFFFFFFFFFFF0FF),
   (0x23, 0xFFFFFFFFFFFFF0FF),
   (0x24, 0xFFFFFFFFFFFEF0FF),
   (0x30, 0xFFFFFFFFFF00F0FF)]

/-- The UNIT operand of a command that R118 checks against NUM_UNITS. RDSTAT is one only with a unit selector. -/
def Instr.checkedUnit : Instr → Option Nat
  | .cfgmotor unit _ _ _ => some unit
  | .selstyle unit _ _ => some unit
  | .nextstep unit _ => some unit
  | .setpf unit _ => some unit
  | .dispose unit => some unit
  | .setspeed unit _ => some unit
  | .stepfor unit _ _ _ => some unit
  | .cancel unit => some unit
  | .stop unit => some unit
  | .setpolicy unit _ => some unit
  | .rdstat unit sel => if 0x10 ≤ sel ∧ sel ≤ 0x19 then some unit else none
  | .init _ => none
  | .setfreq _ => none
  | .acq _ => none
  | .rel _ => none
  | .setduty _ _ _ => none
  | .disable _ => none
  | .enable _ => none

/-- The UNIT operand of a command that R118 further requires to be bound. -/
def Instr.boundUnit : Instr → Option Nat
  | .selstyle unit _ _ => some unit
  | .nextstep unit _ => some unit
  | .setpf unit _ => some unit
  | .dispose unit => some unit
  | .setspeed unit _ => some unit
  | .stepfor unit _ _ _ => some unit
  | .cancel unit => some unit
  | .stop unit => some unit
  | .setpolicy unit _ => some unit
  | .cfgmotor _ _ _ _ => none
  | .rdstat _ _ => none
  | .init _ => none
  | .setfreq _ => none
  | .acq _ => none
  | .rel _ => none
  | .setduty _ _ _ => none
  | .disable _ => none
  | .enable _ => none

/-- The channel operand of a command that R92 checks with HostOwn. -/
def Instr.hostChannel : Instr → Option ChannelId
  | .rel ch => some ch
  | .setduty ch _ _ => some ch
  | .disable ch => some ch
  | .enable ch => some ch
  | .init _ => none
  | .setfreq _ => none
  | .acq _ => none
  | .cfgmotor _ _ _ _ => none
  | .selstyle _ _ _ => none
  | .nextstep _ _ => none
  | .setpf _ _ => none
  | .dispose _ => none
  | .setspeed _ _ => none
  | .stepfor _ _ _ _ => none
  | .cancel _ => none
  | .stop _ => none
  | .setpolicy _ _ => none
  | .rdstat _ _ => none

end Sys2Proof

namespace Sys2Proof.Machine

/-! ### Runs and turns -/

/-- The outcome of n steps. -/
def State.steps : Nat → State → Host.Outcome State Fault Refusal
  | 0, s => .next s
  | n + 1, s =>
    match step s with
    | .next t => t.steps n
    | .fault f => .fault f
    | .refused r => .refused r

/-- Unit u's pacing loop has a step (R20): between two channel writes, inside its critical section or with the lock
Free (R66); in Accum (R126); in Spin with a cancellation to be seen or the deadline reached (R127). -/
def State.loopEnabled (s : State) (u : UnitId) : Bool :=
  let x := s.unit u
  decide (x.run = .running) &&
  match x.stepJob with
  | some job => job.write.locked || decide (s.busLock = .free)
  | none => decide (x.phase = .accum) || (x.cancelReq && !x.cooling) || decide (x.deadline ≤ s.time)

/-- The turns of a schedule that find unit u's loop with a step to take. -/
def State.enabledTurns (u : UnitId) : List Choice → State → Nat
  | [], _ => 0
  | c :: cs, s => (if c = .loop u ∧ s.loopEnabled u = true then 1 else 0) + (s.move c).enabledTurns u cs

/-- What a cancelled run's loop has still to do at most, in steps of its own (R131): two for each channel write of the
Step under way, fourteen for each Step of a cooldown (Spin, six writes, Accum), and the one that ends the run. -/
def UnitState.turnsToEnd (x : UnitState) : Nat :=
  (match x.stepJob with
    | some job => 2 * (1 + (stepWrites job.rest).length)
    | none => 0) + 14 * x.nms.toNat + 1

/-- A cooldown is one of a cancelled microstepping run (R45, R129), and a Running unit that a command holds on has been
asked to end its run (R123, R134, R135). -/
def State.HoldsOk (s : State) : Prop :=
  (∀ u, (s.unit u).cooling = true →
    (s.unit u).run = .running ∧ (s.unit u).style = .micro ∧ (s.unit u).cancelReq = true) ∧
  ∀ u why, s.port = .busy (.hold u why) → (s.unit u).run = .running → (s.unit u).cancelReq = true

/-! ### Quiescence -/

/-- A quiescent block (R168): the port Idle, the lock Free, no unit Running. -/
abbrev State.Quiescent (s : State) : Prop :=
  s.port = .idle ∧ s.busLock = .free ∧ ∀ u, (s.unit u).run ≠ .running

end Sys2Proof.Machine
end

