-- ==== Sys2Proof/Certificates/Slice0/Obligations.lean ====
section
/-! DEFINITION. The statements about the model, each formalising rules of the spec. A command's statement gives the
whole next state as an equation, so that what it does not name is unchanged. -/

open Sys2Proof Sys2Proof.Machine

/-! ### Command words -/

/-- Decoding the encoding of a well-formed command gives the command back (30_encoding.md sections 2 and 3). -/
def Obligations.DecodeOfEncodeIsTheCommand : Prop :=
  ∀ i : Instr, i.WellFormed → decode (encode i) = .ok i

/-- A word that decodes is the encoding of the well-formed command it decodes to: no bit is dropped (30_encoding.md
sections 2 and 3). -/
def Obligations.EncodeOfDecodeIsTheWord : Prop :=
  ∀ (w : Word) (i : Instr), decode w = .ok i → i.WellFormed ∧ encode i = w

/-- A word is a command exactly when its opcode is in the map and its reserved bits are 0 (R79, R80). -/
def Obligations.DecodeAcceptsExactlyTheOpcodeMap : Prop :=
  ∀ w : Word, (∃ i, decode w = .ok i) ↔ ∃ row ∈ commandRows, w &&& row.2 = row.1

/-- R81: a word with an opcode outside the map or a reserved bit set is answered with IllegalCommand and changes no
state. -/
def Obligations.IllegalWordChangesNothing : Prop :=
  ∀ (s : State) (w : Word) (ws : List Word),
    s.nextChoice.1 = .port → s.port = .idle → s.busLock ≠ .port → s.commands = w :: ws →
    (∀ row ∈ commandRows, w &&& row.2 ≠ row.1) →
    step s = .next { s.nextChoice.2 with commands := ws, responses := s.responses ++ [responseWord 7 0] }

/-- When it is the port's turn and the port is Idle, a step executes the command that the next word decodes to, on the
state with that word taken (R22, R23, R80). The second clause is the model's choice (DESIGN CHOICE, assumption log 4):
withFetchWord stands for the host giving one word, so that word is the next one taken, and a command that a Busy port
was executing is dropped with the lock it holds. -/
def Obligations.StepRunsTheDecodedCommand : Prop :=
  (∀ (s : State) (w : Word) (ws : List Word) (i : Instr),
    s.nextChoice.1 = .port → s.port = .idle → s.commands = w :: ws → decode w = .ok i →
    step s = exec i { s.nextChoice.2 with commands := ws }) ∧
  ∀ (s : State) (nbits w : Nat) (i : Instr), decode (BitVec.ofNat 64 (w % 2 ^ nbits)) = .ok i →
    step (s.withFetchWord nbits w) = exec i { s.releasePort with port := .idle }

/-- R58: byte k of a command word is its bits 8k+7 to 8k, so byte 0 holds the opcode; the port takes whole words only.
-/
def Obligations.CommandBytesAreLittleEndian : Prop :=
  (∀ w : Word, (wordBytes w).length = 8 ∧ (∀ k < 8, (wordBytes w)[k]? = some (w.extractLsb' (8 * k) 8)) ∧
    decodeBytes (wordBytes w) = decode w) ∧
  ∀ bs : List Byte, bs.length ≠ 8 → decodeBytes bs = .error (.notOneWord bs.length)

/-- Words written out from the formats of R77 decode to the commands they stand for. -/
def Obligations.SampleWordsDecode : Prop :=
  decode 0x0000000000600001 = .ok (.init 0x60) ∧
  decode 0x0000800000003005 = .ok (.setduty 3 32768 false) ∧
  decode 0x0000002100C80010 = .ok (.cfgmotor 0 1 2 200) ∧
  decode 0x0000000800030011 = .ok (.selstyle 0 .micro 8) ∧
  decode 0x0000003200010121 = .ok (.stepfor 1 .backward false 50) ∧
  decode 0x0000000000140030 = .ok (.rdstat 0 0x14)

/-! ### The formatter, the prescale and the tables -/

/-- R84: RATIO(frac) is frac * 4096 / 65536 rounded half up, in 0..4096. -/
def Obligations.RatioRoundsHalfUp : Prop :=
  (∀ frac ≤ 65536, ratioOf frac ≤ 4096 ∧
    2 * 65536 * ratioOf frac ≤ 2 * 4096 * frac + 65536 ∧ 2 * 4096 * frac + 65536 < 2 * 65536 * (ratioOf frac + 1)) ∧
  ratioOf 0 = 0 ∧ ratioOf 7 = 0 ∧ ratioOf 8 = 1 ∧ ratioOf 32768 = 2048 ∧ ratioOf 65528 = 4096 ∧ ratioOf 65536 = 4096

/-- R86: the image bytes of every effective ratio and the named images; and that at most one of ON[12] and OFF[12] is
set, both being clear only in a normal pulse, whose OFF count is 1..4095 (40_pwm_driver.md section 1). -/
def Obligations.RegisterImageHasOneState : Prop :=
  imageBytes (imageOf 0) = [0x00, 0x00, 0x00, 0x10] ∧ imageBytes (imageOf 4096) = [0x00, 0x10, 0x00, 0x00] ∧
  fullOff = imageOf 0 ∧ fullOn = imageOf 4096 ∧
  (∀ e, 1 ≤ e → e ≤ 4095 →
    imageBytes (imageOf e) = [0x00, 0x00, BitVec.ofNat 8 (e % 256), BitVec.ofNat 8 (e / 256)]) ∧
  ∀ e ≤ 4096,
    ¬((imageOf e).getLsbD 12 = true ∧ (imageOf e).getLsbD 28 = true) ∧
    ((imageOf e).getLsbD 12 = false ∧ (imageOf e).getLsbD 28 = false →
      1 ≤ ((imageOf e).extractLsb' 16 12).toNat ∧ ((imageOf e).extractLsb' 16 12).toNat ≤ 4095 ∧ 1 ≤ e ∧ e ≤ 4095)

/-- R88, R89: the prescale as a clamp of integers, the actual frequency, and what they give with CLOCK_HZ = 25 MHz;
FREQ_ACTUAL holds the actual frequency wherever 16 bits can. -/
def Obligations.PrescaleAndActualFrequency : Prop :=
  (∀ clock hz : Nat, 0 < clock →
    ((prescaleOf clock hz : Nat) : Int) =
      min 255 (max 3 (((clock + 4096 * min 1526 (max 24 hz) / 2) / (4096 * min 1526 (max 24 hz)) : Nat) - 1 : Int))) ∧
  (∀ hz : Nat, 3 ≤ prescaleOf 25000000 hz ∧ prescaleOf 25000000 hz ≤ 253 ∧
    prescaleOf 25000000 hz + 1 = rndDiv 25000000 (4096 * min 1526 (max 24 hz)) ∧
    24 ≤ actualFreq 25000000 (prescaleOf 25000000 hz) ∧ actualFreq 25000000 (prescaleOf 25000000 hz) ≤ 1526) ∧
  (∀ clock p : Nat, actualFreq clock p = (clock + 4096 * (p + 1) / 2) / (4096 * (p + 1))) ∧
  actualFreq 25000000 3 = 1526 ∧ actualFreq 25000000 30 = 197 ∧ actualFreq 25000000 253 = 24 ∧
  ∀ (c : Config) (p : Nat), actualFreq c.clockHz p < 65536 → (freqWord c p).toNat = actualFreq c.clockHz p

/-- SETTLE_TICKS (00_scope.md section 3) is the least number of ticks, and at least 1, that lasts 500 microseconds. -/
def Obligations.SettleWaitIsFiveHundredMicroseconds : Prop :=
  ∀ c : Config, 0 < c.timerHz →
    1 ≤ settleTicks c ∧ 500 * c.timerHz ≤ settleTicks c * 1000000 ∧
    ∀ n, 1 ≤ n → 500 * c.timerHz ≤ n * 1000000 → settleTicks c ≤ n

/-- The step tables entry by entry (R104 to R107), with the look-up table and the signed wave they are made of
(41_stepping_engine.md section 1), the entry a unit reads (R108), and the tables' lengths, ranges and microstep
magnitude (R109); the ratio of a coil current, never inverted (R111); and the polarity, with the targets that a Step
writes when LAST is invalid (R112). -/
def Obligations.StepTableProperties : Prop :=
  (lut =
    [0, 3216, 6424, 9616, 12785, 15924, 19024, 22078, 25080, 28020, 30893] ++
    [33692, 36410, 39040, 41576, 44011, 46341, 48559, 50660, 52639, 54491, 56212] ++
    [57798, 59244, 60547, 61705, 62714, 63572, 64277, 64827, 65220, 65457, 65536] ∧
    ∀ j v : Nat, lut[j]? = some v → lutAt j = v) ∧
  (∀ n ∈ microstepSet, ∀ j r : Nat, r < n →
    signedWave (4 * n * j + r) n = lutAt (r * (32 / n)) ∧
    signedWave (4 * n * j + n + r) n = lutAt ((n - r) * (32 / n)) ∧
    signedWave (4 * n * j + 2 * n + r) n = -lutAt (r * (32 / n)) ∧
    signedWave (4 * n * j + 3 * n + r) n = -lutAt ((n - r) * (32 / n))) ∧
  (∀ n, (List.range 4).map (tableEntry .wave n) = [(0, 65536), (65536, 0), (0, -65536), (-65536, 0)]) ∧
  (∀ n, (List.range 4).map (tableEntry .full n) =
    [(65536, 65536), (65536, -65536), (-65536, -65536), (-65536, 65536)]) ∧
  (∀ n, (List.range 8).map (tableEntry .half n) =
    [(0, 65536), (65536, 65536), (65536, 0), (65536, -65536),
     (0, -65536), (-65536, -65536), (-65536, 0), (-65536, 65536)]) ∧
  (∀ n ∈ microstepSet, ∀ i < 4 * n, tableEntry .micro n i = (signedWave i n, signedWave (i + n) n)) ∧
  (∀ n ∈ microstepSet, ∀ k < 4,
    tableEntry .half 0 (2 * k) = tableEntry .wave 0 k ∧ tableEntry .half 0 (2 * k + 1) = tableEntry .full 0 k ∧
    tableEntry .micro n (k * n) = tableEntry .wave 0 k ∧
    tableEntry .full 0 k =
      (65536 * (tableEntry .micro n (n / 2 + k * n)).1.sign, 65536 * (tableEntry .micro n (n / 2 + k * n)).2.sign)) ∧
  (∀ x : UnitState, x.ready = true → nmsLegal x.style x.nms.toNat = true →
    x.index.toNat < tableLen x.style x.nms.toNat → entryOf x = tableEntry x.style x.nms.toNat x.index.toNat) ∧
  tableLen .full 0 = 4 ∧ tableLen .wave 0 = 4 ∧ tableLen .half 0 = 8 ∧ (∀ n ∈ microstepSet, tableLen .micro n = 4 * n) ∧
  fullTable.length = 4 ∧ waveTable.length = 4 ∧ halfTable.length = 8 ∧
  (∀ sty n i, nmsLegal sty n = true → i < tableLen sty n →
    (tableEntry sty n i).1.natAbs ≤ 65536 ∧ (tableEntry sty n i).2.natAbs ≤ 65536) ∧
  (∀ n ∈ microstepSet, ∀ i < 4 * n,
    999988 * (2 : Int) ^ 32 ≤ 1000000 * ((tableEntry .micro n i).1 ^ 2 + (tableEntry .micro n i).2 ^ 2) ∧
    1000000 * ((tableEntry .micro n i).1 ^ 2 + (tableEntry .micro n i).2 ^ 2) ≤ 1000010 * (2 : Int) ^ 32) ∧
  (∀ (cur : Int) (pf frac : Nat), cur.natAbs ≤ 65536 → pf ≤ 65536 → frac = (cur.natAbs * pf + 32768) >>> 16 →
    coilRatio cur pf = ratioOf frac ∧ frac ≤ 65536 ∧
    2 * 65536 * frac ≤ 2 * (cur.natAbs * pf) + 65536 ∧ 2 * (cur.natAbs * pf) + 65536 < 2 * 65536 * (frac + 1)) ∧
  (∀ (s : State) (u : UnitId) (ch : ChannelId) (ratio : BitVec 13) (ops : List StepOp),
    (s.channel ch).disabled = false →
    runOps u (.apply ch ratio :: ops) s = (some ⟨⟨ch, imageOf ratio.toNat, false⟩, ops⟩, s.setSpec ch ratio false)) ∧
  (∀ cur : Int, (polOf cur = .pos ↔ 0 < cur) ∧ (polOf cur = .neg ↔ cur < 0) ∧ (polOf cur = .off ↔ cur = 0)) ∧
  ∀ (t : PortTriple) (last : Last) (c : Coil) (cur : Int) (pf : Nat), last.valid = false →
    stepWrites (coilOps t last c cur pf) =
      (match polOf cur with
        | .pos => [(t.inN, 0), (t.inP, 4096)]
        | .neg => [(t.inP, 0), (t.inN, 4096)]
        | .off => [(t.inP, 0), (t.inN, 0)]) ++ [(t.pwm, BitVec.ofNat 13 (coilRatio cur pf))]

/-! ### Reset -/

/-- R155: every register at reset, whatever the instance's parameters; nothing is known of the expander (R157). The
machine's reset state is that of some instance. -/
def Obligations.ResetState : Prop :=
  (∃ c, State.reset = State.resetWith c) ∧
  ∀ c : Config,
    (State.resetWith c).port = .idle ∧ (State.resetWith c).initialized = false ∧ (State.resetWith c).busAddr = 0 ∧
    (State.resetWith c).prescale = 0 ∧ (State.resetWith c).freqActual = 0 ∧ (State.resetWith c).busLock = .free ∧
    (State.resetWith c).time = 0 ∧ (State.resetWith c).trace = [] ∧ (∀ a, (State.resetWith c).expander.read a = none) ∧
    (∀ ch, (State.resetWith c).channel ch =
      { owner := .free, disabled := false, specRatio := 0, specInv := false, image := 0, imageValid := false }) ∧
    ∀ u, (State.resetWith c).unit u =
      { bound := false, portA := 0, portB := 0, spr := 0, ready := false, style := .full, nms := 0, index := 0,
        pf := 65536, lastA := ⟨false, 0, .off⟩, lastB := ⟨false, 0, .off⟩, run := .stopped, tps := 0, deadline := 0,
        remaining := 0, cont := false, dir := .forward, cancelReq := false, endFull := false, cooling := false,
        phase := .accum, busErr := false, stepJob := none }

/-- The state after reset meets every invariant stated below, and is quiescent. The parameters it holds, those of
Config.standard, are the model's choice (DESIGN CHOICE, assumption log 1: TIMER_HZ and PORT_MAP). -/
def Obligations.ResetIsSound : Prop :=
  State.reset = State.resetWith Config.standard ∧
  State.reset.LockOk ∧ State.reset.RegistersLegal ∧ State.reset.OwnershipOk ∧ State.reset.JobsOwn ∧ State.reset.HoldsOk ∧
  State.reset.ImagesTrue ∧ State.reset.LastTrue ∧
  State.reset.TraceListed ∧ State.reset.expander.wf ∧ State.reset.ExpanderReplaysTrace ∧
  (∀ w ∈ State.reset.responses, ResponseLegal w) ∧ State.reset.Quiescent

/-! ### Invariants that every step keeps -/

/-- Mutual exclusion (20_memory.md section 4): BUS_LOCK names the one agent inside a critical section. -/
def Obligations.LockStaysExclusive : Prop :=
  ∀ s t : State, s.LockOk → step s = .next t → t.LockOk

/-- Every register with a restricted range keeps a legal value (10_state.md sections 3 and 4): the prescale, the
specs, the ports and SPR of a bound unit, the style and NMS, INDEX, PF, LAST, and what a Running unit rests on. -/
def Obligations.RegistersStayLegal : Prop :=
  ∀ s t : State, s.RegistersLegal → step s = .next t → t.RegistersLegal

/-- Channel ownership stays sound (10_state.md section 3; 41_stepping_engine.md section 3). -/
def Obligations.OwnershipStaysSound : Prop :=
  ∀ s t : State, s.OwnershipOk → step s = .next t → t.OwnershipOk

/-- Where IMAGE_VALID is set, the expander holds no byte other than IMAGE's, wherever its content is known (10_state.md
section 3); and LAST is true (10_state.md section 4; 43_status.md; 70_reset_and_hazards.md section 3): every step keeps
LastTrue in a state that meets LockOk, OwnershipOk and JobsOwn, which every step keeps too. So for a unit with no Step
and no DeEnergize under way, a valid LAST means that the coil's magnitude channel has the image of its ratio, and the
two polarity channels those of its polarity's targets, with IMAGE_VALID set, and that the expander holds no other byte
there. What the expander holds rests on the model's expander, which nothing outside the block changes (assumption log
9). -/
def Obligations.ImagesStayTrue : Prop :=
  (∀ s t : State, s.ImagesTrue → step s = .next t → t.ImagesTrue) ∧
  (∀ s t : State, s.cfg.Legal → s.LockOk → s.OwnershipOk → s.JobsOwn → s.LastTrue → step s = .next t → t.LastTrue) ∧
  ∀ (s : State) (u : UnitId) (c : Coil) (l : Last) (ch : ChannelId) (v : Value),
    s.ImagesTrue → s.LastTrue → (s.unit u).stepJob = none → s.port.drives ≠ some u →
    l = (match c with
      | .a => (s.unit u).lastA
      | .b => (s.unit u).lastB) →
    l.valid = true →
    (ch, v) ∈ [((s.coilTriple u c).pwm, imageOf l.ratio.toNat),
      ((s.coilTriple u c).inP, if l.pol = .pos then fullOn else fullOff),
      ((s.coilTriple u c).inN, if l.pol = .neg then fullOn else fullOff)] →
    (s.channel ch).imageValid = true ∧ (s.channel ch).image = v ∧
    ∀ k : Fin 4, s.expander.read (s.imageCell ch k.val) = none ∨
      s.expander.read (s.imageCell ch k.val) = (imageBytes v)[k.val]?

/-- The block issues no transaction but those that 20_memory.md lists: the reset general call, the three MODE1 values,
a prescale of 3 to 255, and one whole channel image at its base register. -/
def Obligations.EveryTransactionIsListed : Prop :=
  ∀ s t : State, s.TraceListed → step s = .next t → t.TraceListed

/-- The expander memory stays in canonical form, and every byte it knows is what the bus trace puts there
(20_memory.md section 4). It rests on the model's expander (assumption log 9). -/
def Obligations.ExpanderReplaysTheTrace : Prop :=
  ∀ s t : State, s.expander.wf ∧ s.ExpanderReplaysTrace → step s = .next t → t.expander.wf ∧ t.ExpanderReplaysTrace

/-- Every response has the layout of a response word and a listed code (30_encoding.md section 1; 60_exceptions.md
section 1). -/
def Obligations.ResponsesStayLegal : Prop :=
  ∀ s t : State, (∀ w ∈ s.responses, ResponseLegal w) → step s = .next t → ∀ w ∈ t.responses, ResponseLegal w

/-- Every command word gets exactly one response: words waiting, the command being executed and words answered are
conserved; and a Busy port takes no word (00_scope.md section 1; 10_state.md section 2). A step never rewrites what the
outside has seen, the bus trace and the responses, changes no parameter, and never clears INITIALIZED. -/
def Obligations.EveryCommandIsAnsweredOnce : Prop :=
  (∀ s t : State, step s = .next t → t.commandCount = s.commandCount ∧ (s.port ≠ .idle → t.commands = s.commands)) ∧
  ∀ s t : State, step s = .next t →
    t.cfg = s.cfg ∧ s.trace <+: t.trace ∧ s.responses <+: t.responses ∧ (s.initialized = true → t.initialized = true)

/-! ### Time and quiescence -/

/-- TIME increases by exactly 1 on the environment's tick and by nothing else: no agent's step and no command writes
it (10_state.md section 5). With an empty schedule a command lets no other agent step. A quiescent block with no command
word waiting changes no state but TIME; the model's own schedule moves on (70_reset_and_hazards.md section 4). -/
def Obligations.TimeMovesOnlyByTicks : Prop :=
  (∀ (s : State) (c : Choice), (s.move c).time = if c = .tick then s.time + 1 else s.time) ∧
  (∀ (i : Instr) (s t : State), s.sched = [] → exec i s = .next t → t.time = s.time) ∧
  ∀ s t : State, s.Quiescent → s.commands = [] → step s = .next t →
    t = { s with time := t.time, sched := t.sched, round := t.round, schedDraws := t.schedDraws } ∧
    (t.time = s.time ∨ t.time = s.time + 1)

/-- The scheduler is weakly fair (20_memory.md section 5; 92_eei_decisions.md, decision D44;
93_implementation_defined.md, item U7): from every state every agent's turn comes, so it comes again and again, within
the present round and the next one once State's own finite schedule is used up; so TIME advances, by any number of ticks
(70_reset_and_hazards.md section 3). The order stays free: a drawn round that leaves no agent out is taken as it is.
Rounds are the model's way to say so (DESIGN CHOICE, assumption log 14). -/
def Obligations.EveryAgentsTurnComesAgain : Prop :=
  (∀ (s : State) (c : Choice), ∃ n t, s.steps n = .next t ∧ t.nextChoice.1 = c) ∧
  (∀ (s : State) (c : Choice), s.sched = [] →
    ∃ n t, n < s.round.length + (fairRound s.schedDraws).length ∧ s.steps n = .next t ∧ t.nextChoice.1 = c) ∧
  (∀ (s : State) (k : Nat), s.sched = [] → ∃ n t, s.steps n = .next t ∧ t.time = s.time + BitVec.ofNat 64 k) ∧
  (∀ n : Nat, fairRound n = completeRound (Config.schedule n)) ∧
  ∀ r : List Choice, (∀ c : Choice, c ∈ r) → completeRound r = r

/-! ### The driver's commands -/

/-- INIT with every transaction acknowledged and every settle wait passed: five transactions in order, then the driver
registers; every IMAGE is invalid, and of the expander only MODE1 and PRESCALE are known (40_pwm_driver.md section 4).
The waits are the block's own and no schedule shortens them: the acknowledged general call and each acknowledged MODE1
write set a wait of SETTLE_TICKS, which only ticks lower and which holds the port (00_scope.md section 3;
40_pwm_driver.md section 3; 70_reset_and_hazards.md sections 3 and 4). -/
def Obligations.InitProgramsTheExpander : Prop :=
  (∀ (s : State) (a k1 k2 k3 k4 : Nat) (cs : List Choice) (rs : List Answer),
    s.cfg.Legal → a < 128 → s.initialized = false → s.busLock = .free →
    settleTicks s.cfg ≤ k1 → settleTicks s.cfg ≤ k2 → settleTicks s.cfg ≤ k3 → settleTicks s.cfg ≤ k4 →
    s.sched = [Choice.port, Choice.port] ++ List.replicate k1 Choice.tick ++ [Choice.port] ++
      List.replicate k2 Choice.tick ++ [Choice.port, Choice.port] ++ List.replicate k3 Choice.tick ++ [Choice.port] ++
      List.replicate k4 Choice.tick ++ [Choice.port] ++ cs →
    s.answers = List.replicate 5 .ack ++ rs →
    ∃ t, exec (.init a) s = .next t ∧
      t = { s with
        initialized := true, busAddr := BitVec.ofNat 7 a, prescale := 30, freqActual := freqWord s.cfg 30
        channels := s.channels.map fun c => { c with imageValid := false }
        time := s.time + BitVec.ofNat 64 (k1 + k2 + k3 + k4)
        expander := t.expander
        trace := s.trace ++
          [⟨.port, s.time, .generalCall 0x06, .ack⟩,
           ⟨.port, s.time + BitVec.ofNat 64 k1,
            .write (BitVec.ofNat 7 a) (BitVec.ofNat 8 s.cfg.mode1Addr) [0x31], .ack⟩,
           ⟨.port, s.time + BitVec.ofNat 64 (k1 + k2),
            .write (BitVec.ofNat 7 a) (BitVec.ofNat 8 s.cfg.prescaleAddr) [30], .ack⟩,
           ⟨.port, s.time + BitVec.ofNat 64 (k1 + k2),
            .write (BitVec.ofNat 7 a) (BitVec.ofNat 8 s.cfg.mode1Addr) [0x21], .ack⟩,
           ⟨.port, s.time + BitVec.ofNat 64 (k1 + k2 + k3),
            .write (BitVec.ofNat 7 a) (BitVec.ofNat 8 s.cfg.mode1Addr) [0xA1], .ack⟩]
        responses := s.responses ++ [responseWord 0 (BitVec.setWidth 32 (freqWord s.cfg 30))]
        port := .idle, sched := cs, answers := rs } ∧
      ∀ x, t.expander.read x =
        if x = 256 * a + s.cfg.mode1Addr then some 0xA1
        else if x = 256 * a + s.cfg.prescaleAddr then some 30 else none) ∧
  (∀ (s : State) (addr : BitVec 7), s.port = .busy (.generalCall addr true) → s.nextAnswer.1 = .ack →
    (s.move .port).port = .busy (.prescale addr 30 .sleep (settleTicks s.cfg) .init)) ∧
  ∀ s : State, s.KeepsSettleWaits .init

/-- A second INIT is a no-op that returns OK; an INIT whose general call is not acknowledged reports
DeviceNotFoundError for Nack and BusIOError for Err, with nothing initialized and every IMAGE invalid
(40_pwm_driver.md section 4), and no expander register known (20_memory.md section 4). -/
def Obligations.InitIsIdempotentAndReportsNoDevice : Prop :=
  (∀ (s : State) (a : Nat), s.initialized = true → exec (.init a) s = .next (s.respond 0 0)) ∧
  ∀ (s : State) (a : Nat) (r : Answer) (cs : List Choice) (rs : List Answer),
    s.initialized = false → s.busLock = .free → s.sched = .port :: .port :: cs → s.answers = r :: rs → r ≠ .ack →
    exec (.init a) s = .next
      { s with
        channels := s.channels.map fun c => { c with imageValid := false }
        expander := []
        trace := s.trace ++ [⟨.port, s.time, .generalCall 0x06, r⟩]
        responses := s.responses ++ [if r = .nack then responseWord 4 0 else responseTo r 0]
        port := .idle, sched := cs, answers := rs }

/-- SETFREQ with every transaction acknowledged: four transactions to BUS_ADDR inside one critical section, then
PRESCALE and FREQ_ACTUAL; of the expander only MODE1 and PRESCALE change (40_pwm_driver.md sections 3 and 4). The waits
are the block's own and no schedule shortens them: each acknowledged MODE1 write sets a wait of SETTLE_TICKS, which only
ticks lower and which holds the port (00_scope.md section 3; 70_reset_and_hazards.md sections 3 and 4). -/
def Obligations.SetfreqProgramsThePrescale : Prop :=
  (∀ (s : State) (hz k1 k2 k3 : Nat) (cs : List Choice) (rs : List Answer),
    s.cfg.Legal → s.initialized = true → s.busLock = .free →
    settleTicks s.cfg ≤ k1 → settleTicks s.cfg ≤ k2 → settleTicks s.cfg ≤ k3 →
    s.sched = [Choice.port, Choice.port] ++ List.replicate k1 Choice.tick ++ [Choice.port, Choice.port] ++
      List.replicate k2 Choice.tick ++ [Choice.port] ++ List.replicate k3 Choice.tick ++ [Choice.port] ++ cs →
    s.answers = List.replicate 4 .ack ++ rs →
    ∃ t, exec (.setfreq hz) s = .next t ∧
      t = { s with
        prescale := BitVec.ofNat 8 (prescaleOf s.cfg.clockHz hz)
        freqActual := freqWord s.cfg (prescaleOf s.cfg.clockHz hz)
        time := s.time + BitVec.ofNat 64 (k1 + k2 + k3)
        expander := t.expander
        trace := s.trace ++
          [⟨.port, s.time, .write s.busAddr (BitVec.ofNat 8 s.cfg.mode1Addr) [0x31], .ack⟩,
           ⟨.port, s.time + BitVec.ofNat 64 k1,
            .write s.busAddr (BitVec.ofNat 8 s.cfg.prescaleAddr) [BitVec.ofNat 8 (prescaleOf s.cfg.clockHz hz)], .ack⟩,
           ⟨.port, s.time + BitVec.ofNat 64 k1, .write s.busAddr (BitVec.ofNat 8 s.cfg.mode1Addr) [0x21], .ack⟩,
           ⟨.port, s.time + BitVec.ofNat 64 (k1 + k2),
            .write s.busAddr (BitVec.ofNat 8 s.cfg.mode1Addr) [0xA1], .ack⟩]
        responses := s.responses ++
          [responseWord 0 (BitVec.setWidth 32 (freqWord s.cfg (prescaleOf s.cfg.clockHz hz)))]
        port := .idle, sched := cs, answers := rs } ∧
      ∀ x, t.expander.read x =
        if x = 256 * s.busAddr.toNat + s.cfg.mode1Addr then some 0xA1
        else if x = 256 * s.busAddr.toNat + s.cfg.prescaleAddr then
          some (BitVec.ofNat 8 (prescaleOf s.cfg.clockHz hz))
        else s.expander.read x) ∧
  (∀ (s : State) (p : Byte), s.port = .busy (.prescaleLock p) → s.busLock = .free →
    (s.move .port).port = .busy (.prescale s.busAddr p .sleep 0 .setfreq)) ∧
  ∀ s : State, s.KeepsSettleWaits .setfreq

/-- A transaction of INIT's or SETFREQ's prescale sequence that is not acknowledged ends the command: no further
transaction, the lock released, INITIALIZED, BUS_ADDR, PRESCALE and FREQ_ACTUAL as they were, and the error of the
command: DeviceNotFoundError for a Nack of INIT's first addressed write, BusIOError otherwise (40_pwm_driver.md
sections 3 and 4; 60_exceptions.md section 1). No expander register is then known (20_memory.md section 4). -/
def Obligations.PrescaleFailureKeepsOldValues : Prop :=
  ∀ (s : State) (addr : BitVec 7) (p : Byte) (stage : PrescaleStage) (why : PrescaleFor) (r : Answer)
    (rs : List Answer),
    s.port = .busy (.prescale addr p stage 0 why) → s.busLock = .port → stage ≠ .done → s.answers = r :: rs →
    r ≠ .ack →
    ∃ t, s.move .port = t ∧
      t = { s with
        expander := t.expander
        trace := s.trace ++
          [⟨.port, s.time, .write addr (BitVec.ofNat 8 (stageWrite s.cfg p stage).1) [(stageWrite s.cfg p stage).2], r⟩]
        responses := s.responses ++
          [if r = .nack ∧ stage = .sleep ∧ why = .init then responseWord 4 0 else responseTo r 0]
        port := .idle, busLock := .free, answers := rs } ∧
      t.ExpanderUnknown

/-- R97: ACQ acquires a Free channel for the host; without INIT it fails with ConfigurationError, and on a channel
with any owner with ChannelBusyError. -/
def Obligations.AcqAcquiresAFreeChannel : Prop :=
  ∀ (s : State) (ch : ChannelId),
    (s.initialized = true → (s.channel ch).owner = .free →
      exec (.acq ch) s = .next ((s.setChannel ch { s.channel ch with owner := .host }).respond 0 0)) ∧
    (s.busLock ≠ .port → s.initialized = false → exec (.acq ch) s = .next (s.respond 1 0)) ∧
    (s.busLock ≠ .port → s.initialized = true → (s.channel ch).owner ≠ .free →
      exec (.acq ch) s = .next (s.respond 2 0))

/-- REL writes FULL_OFF to the channel's four registers and frees it, whatever the answer (40_pwm_driver.md section
4). After an answer other than Ack no expander register is known (20_memory.md section 4). -/
def Obligations.RelFreesTheChannelWhateverTheAnswer : Prop :=
  ∀ (s : State) (ch : ChannelId) (r : Answer) (cs : List Choice) (rs : List Answer),
    s.initialized = true → (s.channel ch).owner = .host → s.busLock = .free →
    s.sched = .port :: .port :: cs → s.answers = r :: rs →
    ∃ t, exec (.rel ch) s = .next t ∧
      t = { s with
        channels := t.channels, expander := t.expander
        trace := s.trace ++ [s.imageTransaction .port ch fullOff r]
        responses := s.responses ++ [responseTo r 0]
        port := .idle, sched := cs, answers := rs } ∧
      t.channel ch =
        { owner := .free, disabled := false, specRatio := 0, specInv := false
          image := if r = .ack then fullOff else (s.channel ch).image, imageValid := decide (r = .ack) } ∧
      (∀ d, d ≠ ch → t.channel d = s.channel d) ∧ s.ImageAnswered t ch fullOff r ∧ s.RestAnswered t [ch] r

/-- SETDUTY stores the spec and writes the formatter's image; a disabled channel stores it and writes nothing; a
fraction above 1 is refused (40_pwm_driver.md sections 1 and 4). After an answer other than Ack no expander register is
known (20_memory.md section 4). -/
def Obligations.SetdutyWritesTheFormattedImage : Prop :=
  (∀ (s : State) (ch : ChannelId) (frac : Nat) (inv : Bool) (r : Answer) (cs : List Choice) (rs : List Answer),
    s.initialized = true → (s.channel ch).owner = .host → frac ≤ 65536 → (s.channel ch).disabled = false →
    s.busLock = .free → s.sched = .port :: .port :: cs → s.answers = r :: rs →
    ∃ t, exec (.setduty ch frac inv) s = .next t ∧
      t = { s with
        channels := t.channels, expander := t.expander
        trace := s.trace ++
          [s.imageTransaction .port ch (imageOf (if inv then 4096 - ratioOf frac else ratioOf frac)) r]
        responses := s.responses ++ [responseTo r (BitVec.ofNat 32 (ratioOf frac))]
        port := .idle, sched := cs, answers := rs } ∧
      t.channel ch =
        { s.channel ch with
          specRatio := BitVec.ofNat 13 (ratioOf frac), specInv := inv
          image := if r = .ack then imageOf (if inv then 4096 - ratioOf frac else ratioOf frac)
            else (s.channel ch).image
          imageValid := decide (r = .ack) } ∧
      (∀ d, d ≠ ch → t.channel d = s.channel d) ∧
      s.ImageAnswered t ch (imageOf (if inv then 4096 - ratioOf frac else ratioOf frac)) r ∧ s.RestAnswered t [ch] r) ∧
  (∀ (s : State) (ch : ChannelId) (frac : Nat) (inv : Bool),
    s.initialized = true → (s.channel ch).owner = .host → frac ≤ 65536 → (s.channel ch).disabled = true →
    exec (.setduty ch frac inv) s = .next
      ((s.setChannel ch { s.channel ch with specRatio := BitVec.ofNat 13 (ratioOf frac), specInv := inv }).respond 0
        (BitVec.ofNat 32 (ratioOf frac)))) ∧
  ∀ (s : State) (ch : ChannelId) (frac : Nat) (inv : Bool),
    s.busLock ≠ .port → s.initialized = true → (s.channel ch).owner = .host → 65536 < frac →
    exec (.setduty ch frac inv) s = .next (s.respond 1 0)

/-- DISABLE writes FULL_OFF whatever the stored spec, which it keeps; DISABLED stays set if the write fails
(40_pwm_driver.md section 4). After an answer other than Ack no expander register is known (20_memory.md section 4). -/
def Obligations.DisableForcesFullOff : Prop :=
  ∀ (s : State) (ch : ChannelId) (r : Answer) (cs : List Choice) (rs : List Answer),
    s.initialized = true → (s.channel ch).owner = .host → s.busLock = .free →
    s.sched = .port :: .port :: cs → s.answers = r :: rs →
    ∃ t, exec (.disable ch) s = .next t ∧
      t = { s with
        channels := t.channels, expander := t.expander
        trace := s.trace ++ [s.imageTransaction .port ch fullOff r]
        responses := s.responses ++ [responseTo r 0]
        port := .idle, sched := cs, answers := rs } ∧
      t.channel ch =
        { s.channel ch with
          disabled := true, image := if r = .ack then fullOff else (s.channel ch).image
          imageValid := decide (r = .ack) } ∧
      (∀ d, d ≠ ch → t.channel d = s.channel d) ∧ s.ImageAnswered t ch fullOff r ∧ s.RestAnswered t [ch] r

/-- ENABLE clears DISABLED and writes the image of the stored spec, which it keeps (40_pwm_driver.md section 4). After
an answer other than Ack no expander register is known (20_memory.md section 4). -/
def Obligations.EnableResumesTheStoredSpec : Prop :=
  ∀ (s : State) (ch : ChannelId) (e : Nat) (r : Answer) (cs : List Choice) (rs : List Answer),
    s.initialized = true → (s.channel ch).owner = .host → s.busLock = .free →
    e = (if (s.channel ch).specInv then 4096 - (s.channel ch).specRatio.toNat else (s.channel ch).specRatio.toNat) →
    s.sched = .port :: .port :: cs → s.answers = r :: rs →
    ∃ t, exec (.enable ch) s = .next t ∧
      t = { s with
        channels := t.channels, expander := t.expander
        trace := s.trace ++ [s.imageTransaction .port ch (imageOf e) r]
        responses := s.responses ++ [responseTo r 0]
        port := .idle, sched := cs, answers := rs } ∧
      t.channel ch =
        { s.channel ch with
          disabled := false, image := if r = .ack then imageOf e else (s.channel ch).image
          imageValid := decide (r = .ack) } ∧
      (∀ d, d ≠ ch → t.channel d = s.channel d) ∧ s.ImageAnswered t ch (imageOf e) r ∧ s.RestAnswered t [ch] r

/-- Before INIT every driver command but INIT, and CFGMOTOR of an existing unit, fails with ConfigurationError and has
no effect (40_pwm_driver.md section 3). -/
def Obligations.DriverCommandsNeedInit : Prop :=
  ∀ (s : State) (i : Instr), s.initialized = false → s.busLock ≠ .port →
    ((∃ hz, i = .setfreq hz) ∨ (∃ ch, i = .acq ch) ∨ i.hostChannel ≠ none ∨
      ∃ n pa pb spr, i = .cfgmotor n pa pb spr ∧ n < s.cfg.units.toNat) →
    exec i s = .next (s.respond 1 0)

/-- R92: REL, SETDUTY, DISABLE and ENABLE of a Free channel fail with ChannelNotAcquiredError, of a unit's channel
with ChannelBusyError, and issue no transaction; of a host channel they do not fail so. -/
def Obligations.HostCommandsNeedTheChannel : Prop :=
  ∀ (s : State) (i : Instr) (ch : ChannelId), s.initialized = true → s.busLock ≠ .port → i.hostChannel = some ch →
    ((s.channel ch).owner = .free → exec i s = .next (s.respond 3 0)) ∧
    (∀ u, (s.channel ch).owner = .unit u → exec i s = .next (s.respond 2 0)) ∧
    ((s.channel ch).owner = .host → exec i s ≠ .next (s.respond 3 0) ∧ exec i s ≠ .next (s.respond 2 0))

/-! ### The engine's commands -/

/-- CFGMOTOR binds an unbound unit to two distinct ports whose six channels are Free, and takes no channel otherwise;
the operand errors come before the channels' (41_stepping_engine.md section 4). -/
def Obligations.CfgmotorBindsSixFreeChannels : Prop :=
  ∀ (s : State) (n pa pb spr : Nat),
    (s.busLock ≠ .port → s.cfg.units.toNat ≤ n ∨ s.initialized = false →
      exec (.cfgmotor n pa pb spr) s = .next (s.respond 1 0)) ∧
    ∀ u : UnitId, u.val = n → n < s.cfg.units.toNat → s.initialized = true →
      (s.busLock ≠ .port →
        (s.unit u).bound = true ∨ ¬(1 ≤ pa ∧ pa ≤ 4) ∨ ¬(1 ≤ pb ∧ pb ≤ 4) ∨ pa = pb ∨ spr = 0 →
        exec (.cfgmotor n pa pb spr) s = .next (s.respond 1 0)) ∧
      ((s.unit u).bound = false → 1 ≤ pa → pa ≤ 4 → 1 ≤ pb → pb ≤ 4 → pa ≠ pb → spr ≠ 0 →
        (s.busLock ≠ .port → (∃ ch ∈ bindingChannels s.cfg.portMap pa pb, (s.channel ch).owner ≠ .free) →
          exec (.cfgmotor n pa pb spr) s = .next (s.respond 2 0)) ∧
        ((∀ ch ∈ bindingChannels s.cfg.portMap pa pb, (s.channel ch).owner = .free) →
          ∃ t, exec (.cfgmotor n pa pb spr) s = .next t ∧
            t = { s with
              channels := t.channels, units := t.units, responses := s.responses ++ [responseWord 0 0]
              port := .idle } ∧
            t.unit u =
              { s.unit u with
                bound := true, portA := BitVec.ofNat 3 pa, portB := BitVec.ofNat 3 pb, spr := BitVec.ofNat 16 spr
                lastA := { (s.unit u).lastA with valid := false }
                lastB := { (s.unit u).lastB with valid := false } } ∧
            (∀ v, v ≠ u → t.unit v = s.unit v) ∧
            ∀ ch, t.channel ch =
              if ch ∈ bindingChannels s.cfg.portMap pa pb then { s.channel ch with owner := .unit u }
              else s.channel ch))

/-- SELSTYLE sets the style, READY and INDEX 0, keeps LAST and answers LEN; a Running unit and a microstep count that
the style does not have are refused, in that order (41_stepping_engine.md section 4). -/
def Obligations.SelstyleSelectsTheTable : Prop :=
  ∀ (s : State) (n : Nat) (u : UnitId) (sty : Style) (nms : Nat),
    u.val = n → n < s.cfg.units.toNat → (s.unit u).bound = true →
    (s.busLock ≠ .port → (s.unit u).run = .running → exec (.selstyle n sty nms) s = .next (s.respond 5 0)) ∧
    ((s.unit u).run ≠ .running →
      (s.busLock ≠ .port →
        (sty = .micro ∧ nms ≠ 4 ∧ nms ≠ 8 ∧ nms ≠ 16 ∧ nms ≠ 32) ∨ (sty ≠ .micro ∧ nms ≠ 0) →
        exec (.selstyle n sty nms) s = .next (s.respond 1 0)) ∧
      ((sty = .micro ∧ (nms = 4 ∨ nms = 8 ∨ nms = 16 ∨ nms = 32)) ∨ (sty ≠ .micro ∧ nms = 0) →
        exec (.selstyle n sty nms) s = .next
          ((s.setUnit u
            { s.unit u with style := sty, nms := BitVec.ofNat 8 nms, ready := true, index := 0 }).respond 0
            (match sty with
              | .full => 4
              | .half => 8
              | .wave => 4
              | .micro => BitVec.ofNat 32 (4 * nms)))))

/-- NEXTSTEP with every write acknowledged: INDEX moves by one modulo LEN, the writes that the new entry needs are
issued in order, each its own critical section, LAST records both coils and the response is the new INDEX; only the
written channels and their registers change (41_stepping_engine.md sections 3 and 4). -/
def Obligations.NextstepAppliesTheNextEntry : Prop :=
  ∀ (s : State) (n : Nat) (u : UnitId) (dir : Dir) (idx : Nat) (e : Int × Int) (ws : List (ChannelId × BitVec 13))
    (cs : List Choice) (rs : List Answer),
    s.cfg.Legal → s.OwnershipOk → (s.unit u).Legal → u.val = n → n < s.cfg.units.toNat →
    (s.unit u).bound = true → (s.unit u).run ≠ .running → (s.unit u).ready = true → (s.unit u).busErr = false →
    s.busLock = .free →
    idx = ((s.unit u).index.toNat +
      (if dir = .forward then 1 else tableLen (s.unit u).style (s.unit u).nms.toNat - 1)) %
        tableLen (s.unit u).style (s.unit u).nms.toNat →
    e = tableEntry (s.unit u).style (s.unit u).nms.toNat idx →
    ws = stepWrites (coilOps (s.coilTriple u .b) (s.unit u).lastB .b e.2 (s.unit u).pf.toNat ++
      coilOps (s.coilTriple u .a) (s.unit u).lastA .a e.1 (s.unit u).pf.toNat) →
    s.sched = List.replicate (2 * ws.length) .port ++ cs → s.answers = List.replicate ws.length .ack ++ rs →
    ∃ t, exec (.nextstep n dir) s = .next t ∧
      t = { s with
        channels := t.channels, units := t.units, expander := t.expander
        trace := s.trace ++ ws.map fun w => s.imageTransaction .port w.1 (imageOf w.2.toNat) .ack
        responses := s.responses ++ [responseWord 0 (BitVec.ofNat 32 idx)]
        port := .idle, sched := cs, answers := rs } ∧
      t.unit u =
        { s.unit u with
          index := BitVec.ofNat 8 idx
          run := if (s.unit u).run = .stopped then .braking else (s.unit u).run
          lastA := ⟨true, BitVec.ofNat 13 (coilRatio e.1 (s.unit u).pf.toNat), polOf e.1⟩
          lastB := ⟨true, BitVec.ofNat 13 (coilRatio e.2 (s.unit u).pf.toNat), polOf e.2⟩ } ∧
      (∀ v, v ≠ u → t.unit v = s.unit v) ∧
      (∀ w ∈ ws, t.channel w.1 =
          { s.channel w.1 with
            specRatio := w.2, specInv := false, image := imageOf w.2.toNat, imageValid := true } ∧
        s.ImageAnswered t w.1 (imageOf w.2.toNat) .ack) ∧
      (∀ ch, ch ∉ ws.map Prod.fst → t.channel ch = s.channel ch) ∧ s.OnlyImagesOf t (ws.map Prod.fst)

/-- NEXTSTEP whose write is not acknowledged: the writes before it stand, none after it is issued, INDEX keeps its new
value, LAST is invalid for both coils (coil B's ratio and polarity are the new ones if coil B's writes were all done),
BUSERR is set and the response carries the failure (41_stepping_engine.md sections 3 and 4; 60_exceptions.md section
1). No expander register is then known (20_memory.md section 4; 93_implementation_defined.md, items U1 and U5). -/
def Obligations.NextstepWriteFailure : Prop :=
  ∀ (s : State) (n : Nat) (u : UnitId) (dir : Dir) (idx : Nat) (e : Int × Int)
    (wsB wsA done later : List (ChannelId × BitVec 13)) (w : ChannelId × BitVec 13) (r : Answer) (cs : List Choice)
    (rs : List Answer),
    s.cfg.Legal → s.OwnershipOk → (s.unit u).Legal → u.val = n → n < s.cfg.units.toNat →
    (s.unit u).bound = true → (s.unit u).run ≠ .running → (s.unit u).ready = true → (s.unit u).busErr = false →
    s.busLock = .free →
    idx = ((s.unit u).index.toNat +
      (if dir = .forward then 1 else tableLen (s.unit u).style (s.unit u).nms.toNat - 1)) %
        tableLen (s.unit u).style (s.unit u).nms.toNat →
    e = tableEntry (s.unit u).style (s.unit u).nms.toNat idx →
    wsB = stepWrites (coilOps (s.coilTriple u .b) (s.unit u).lastB .b e.2 (s.unit u).pf.toNat) →
    wsA = stepWrites (coilOps (s.coilTriple u .a) (s.unit u).lastA .a e.1 (s.unit u).pf.toNat) →
    wsB ++ wsA = done ++ w :: later →
    r ≠ .ack →
    s.sched = List.replicate (2 * (done.length + 1)) .port ++ cs →
    s.answers = List.replicate done.length .ack ++ r :: rs →
    ∃ t, exec (.nextstep n dir) s = .next t ∧
      t = { s with
        channels := t.channels, units := t.units, expander := t.expander
        trace := s.trace ++ (done.map fun w => s.imageTransaction .port w.1 (imageOf w.2.toNat) .ack) ++
          [s.imageTransaction .port w.1 (imageOf w.2.toNat) r]
        responses := s.responses ++ [responseTo r 0]
        port := .idle, sched := cs, answers := rs } ∧
      t.unit u =
        { s.unit u with
          index := BitVec.ofNat 8 idx
          run := if (s.unit u).run = .stopped then .braking else (s.unit u).run
          lastA := { (s.unit u).lastA with valid := false }
          lastB :=
            if wsB.length ≤ done.length then ⟨false, BitVec.ofNat 13 (coilRatio e.2 (s.unit u).pf.toNat), polOf e.2⟩
            else { (s.unit u).lastB with valid := false }
          busErr := true } ∧
      (∀ v, v ≠ u → t.unit v = s.unit v) ∧
      t.channel w.1 = { s.channel w.1 with specRatio := w.2, specInv := false, imageValid := false } ∧
      (∀ d ∈ done, t.channel d.1 =
          { s.channel d.1 with
            specRatio := d.2, specInv := false, image := imageOf d.2.toNat, imageValid := true }) ∧
      (∀ ch, ch ≠ w.1 → ch ∉ done.map Prod.fst → t.channel ch = s.channel ch) ∧ t.ExpanderUnknown

/-- NEXTSTEP is refused, in this order, while the unit is Running, not READY, or has a sticky bus error
(41_stepping_engine.md section 4). -/
def Obligations.NextstepRefusals : Prop :=
  ∀ (s : State) (n : Nat) (u : UnitId) (dir : Dir),
    u.val = n → n < s.cfg.units.toNat → (s.unit u).bound = true → s.busLock ≠ .port →
    ((s.unit u).run = .running → exec (.nextstep n dir) s = .next (s.respond 5 0)) ∧
    ((s.unit u).run ≠ .running → (s.unit u).ready = false → exec (.nextstep n dir) s = .next (s.respond 1 0)) ∧
    ((s.unit u).run ≠ .running → (s.unit u).ready = true → (s.unit u).busErr = true →
      exec (.nextstep n dir) s = .next (s.respond 6 0))

/-- R113: a coil's polarity writes are issued only when LAST is invalid or its polarity differs, its magnitude write
only when LAST is invalid or its ratio differs; when neither differs nothing is written. The last clause says exactly
which writes a coil's part of a Step issues (41_stepping_engine.md section 3, the pseudocode of Step): a changed
polarity or ratio is written, and with LAST invalid every channel of the coil is. -/
def Obligations.StepWritesOnlyOnChange : Prop :=
  ∀ (tr : PortTriple) (last : Last) (c : Coil) (cur : Int) (pf : Nat),
    (tr.channels.Nodup →
      (∀ w ∈ stepWrites (coilOps tr last c cur pf), w.1 = tr.inP ∨ w.1 = tr.inN →
        last.valid = false ∨ last.pol ≠ polOf cur) ∧
      (∀ w ∈ stepWrites (coilOps tr last c cur pf), w.1 = tr.pwm →
        last.valid = false ∨ last.ratio ≠ BitVec.ofNat 13 (coilRatio cur pf)) ∧
      (last.valid = true → last.pol = polOf cur → last.ratio = BitVec.ofNat 13 (coilRatio cur pf) →
        stepWrites (coilOps tr last c cur pf) = [])) ∧
    ∀ w, w ∈ stepWrites (coilOps tr last c cur pf) ↔
      (w = (tr.inP, 0) ∧ polOf cur ≠ .pos ∧ (last.valid = false ∨ last.pol = .pos)) ∨
      (w = (tr.inN, 0) ∧ polOf cur ≠ .neg ∧ (last.valid = false ∨ last.pol = .neg)) ∨
      (w = (tr.inP, 4096) ∧ polOf cur = .pos ∧ (last.valid = false ∨ last.pol ≠ .pos)) ∨
      (w = (tr.inN, 4096) ∧ polOf cur = .neg ∧ (last.valid = false ∨ last.pol ≠ .neg)) ∨
      (w = (tr.pwm, BitVec.ofNat 13 (coilRatio cur pf)) ∧
        (last.valid = false ∨ last.ratio ≠ BitVec.ofNat 13 (coilRatio cur pf)))

/-- The order of a Step's writes (41_stepping_engine.md section 3): coil B's before coil A's, and within a coil inP
off, inN off, inP on, inN on, magnitude; a polarity channel is never turned on before the opposite one is off; with
LAST invalid for both coils all six channels of the unit are written. -/
def Obligations.StepWriteOrder : Prop :=
  (∀ (s : State) (u : UnitId), ∃ wB wA,
    stepWrites (s.stepOps u) = wB ++ wA ∧
    (let t := s.coilTriple u .b
     let pol := polOf (entryOf (s.unit u)).2
     wB.Sublist [(t.inP, 0), (t.inN, 0), (t.inP, 4096), (t.inN, 4096),
       (t.pwm, BitVec.ofNat 13 (coilRatio (entryOf (s.unit u)).2 (s.unit u).pf.toNat))] ∧
     (pol = .pos → (s.unit u).lastB.valid = false ∨ (s.unit u).lastB.pol = .neg → (t.inN, 0) ∈ wB) ∧
     (pol = .neg → (s.unit u).lastB.valid = false ∨ (s.unit u).lastB.pol = .pos → (t.inP, 0) ∈ wB)) ∧
    (let t := s.coilTriple u .a
     let pol := polOf (entryOf (s.unit u)).1
     wA.Sublist [(t.inP, 0), (t.inN, 0), (t.inP, 4096), (t.inN, 4096),
       (t.pwm, BitVec.ofNat 13 (coilRatio (entryOf (s.unit u)).1 (s.unit u).pf.toNat))] ∧
     (pol = .pos → (s.unit u).lastA.valid = false ∨ (s.unit u).lastA.pol = .neg → (t.inN, 0) ∈ wA) ∧
     (pol = .neg → (s.unit u).lastA.valid = false ∨ (s.unit u).lastA.pol = .pos → (t.inP, 0) ∈ wA))) ∧
  ∀ (s : State) (u : UnitId), (s.unit u).lastA.valid = false → (s.unit u).lastB.valid = false →
    ((stepWrites (s.stepOps u)).map Prod.fst).Perm (s.unitChannels u)

/-- SETPF and SETPOLICY write one unit register each, also while Running, with no bus traffic; SETPF refuses a power
factor above 1 (41_stepping_engine.md section 4; 42_step_scheduler.md section 3). -/
def Obligations.SetpfAndSetpolicySetTheirRegister : Prop :=
  ∀ (s : State) (n : Nat) (u : UnitId), u.val = n → n < s.cfg.units.toNat → (s.unit u).bound = true →
    (∀ pf ≤ 65536, exec (.setpf n pf) s = .next ((s.setUnit u { s.unit u with pf := BitVec.ofNat 17 pf }).respond 0 0)) ∧
    (∀ pf, 65536 < pf → s.busLock ≠ .port → exec (.setpf n pf) s = .next (s.respond 1 0)) ∧
    ∀ e, exec (.setpolicy n e) s = .next ((s.setUnit u { s.unit u with endFull := e }).respond 0 0)

/-- DISPOSE of a unit that is not Running writes FULL_OFF to its six channels in order, whatever the answers, frees
them, resets every register of the unit and reports the first failure (41_stepping_engine.md sections 3 and 4). If a
write failed, no expander register is known at the end: the failure leaves none known (20_memory.md section 4), and of
the unit's own channels none is known after a bus error in DeEnergize (93_implementation_defined.md, item U1). DISPOSE
of a Running unit goes on so after its hold (HeldCommandsWaitForTheLoop). -/
def Obligations.DisposeReleasesWhateverTheAnswers : Prop :=
  ∀ (s : State) (n : Nat) (u : UnitId) (six : List Answer) (cs : List Choice) (rs : List Answer),
    s.cfg.Legal → s.OwnershipOk → u.val = n → n < s.cfg.units.toNat → (s.unit u).bound = true →
    (s.unit u).run ≠ .running → s.busLock = .free → six.length = 6 →
    s.sched = List.replicate 12 .port ++ cs → s.answers = six ++ rs →
    ∃ t, exec (.dispose n) s = .next t ∧
      t = { s with
        channels := t.channels, units := t.units, expander := t.expander
        trace := s.trace ++ List.zipWith (fun ch r => s.imageTransaction .port ch fullOff r) (s.unitChannels u) six
        responses := s.responses ++ [responseTo (firstNotAck six) 0]
        port := .idle, sched := cs, answers := rs } ∧
      t.unit u = UnitState.reset ∧ s.DeEnergizedBy t u six .free

/-- R118: a unit number past NUM_UNITS fails every unit command with ConfigurationError and no effect, and so does an
unbound unit every unit command but CFGMOTOR and RDSTAT. -/
def Obligations.UnitNumberAndBoundAreCheckedFirst : Prop :=
  ∀ (s : State) (i : Instr) (n : Nat), s.busLock ≠ .port →
    (i.checkedUnit = some n → s.cfg.units.toNat ≤ n → exec i s = .next (s.respond 1 0)) ∧
    (i.boundUnit = some n → ∀ u : UnitId, u.val = n → n < s.cfg.units.toNat → (s.unit u).bound = false →
      exec i s = .next (s.respond 1 0))

/-! ### The scheduler's commands -/

/-- R124: SETSPEED sets TPS to 60 * TIMER_HZ / (RPM * SPR) rounded half up and answers it; RPM 0 and a TPS of 0 or
past 32 bits are refused with TPS unchanged (42_step_scheduler.md section 3). -/
def Obligations.SetspeedComputesTheInterval : Prop :=
  ∀ (s : State) (n : Nat) (u : UnitId) (rpm tps : Nat), u.val = n → n < s.cfg.units.toNat → (s.unit u).bound = true →
    tps = (60 * s.cfg.timerHz + rpm * (s.unit u).spr.toNat / 2) / (rpm * (s.unit u).spr.toNat) →
    (s.busLock ≠ .port → rpm = 0 ∨ tps = 0 ∨ 2 ^ 32 ≤ tps → exec (.setspeed n rpm) s = .next (s.respond 1 0)) ∧
    (rpm ≠ 0 → tps ≠ 0 → tps < 2 ^ 32 →
      exec (.setspeed n rpm) s = .next
        ((s.setUnit u { s.unit u with tps := BitVec.ofNat 32 tps }).respond 0 (BitVec.ofNat 32 tps)))

/-- STEPFOR starts a paced run from TIME and responds at once; its five refusals, in their order (42_step_scheduler.md
section 3). -/
def Obligations.StepforStartsARun : Prop :=
  ∀ (s : State) (n : Nat) (u : UnitId) (dir : Dir) (cont : Bool) (count : Nat),
    u.val = n → n < s.cfg.units.toNat → (s.unit u).bound = true →
    (s.busLock ≠ .port → (s.unit u).run = .running → exec (.stepfor n dir cont count) s = .next (s.respond 5 0)) ∧
    ((s.unit u).run ≠ .running →
      (s.busLock ≠ .port →
        (cont = true ∧ count ≠ 0) ∨ (s.unit u).ready = false ∨ (s.unit u).tps = 0 →
        exec (.stepfor n dir cont count) s = .next (s.respond 1 0)) ∧
      (cont = false ∨ count = 0 → (s.unit u).ready = true → (s.unit u).tps ≠ 0 →
        (s.busLock ≠ .port → (s.unit u).busErr = true →
          exec (.stepfor n dir cont count) s = .next (s.respond 6 0)) ∧
        ((s.unit u).busErr = false →
          exec (.stepfor n dir cont count) s = .next
            ((s.setUnit u
              { s.unit u with
                dir := dir, cont := cont, remaining := BitVec.ofNat 32 count, deadline := s.time
                cancelReq := false, cooling := false, phase := .accum, run := .running, stepJob := none }).respond
              0 0))))

/-- CANCEL of a unit that is not Running answers its INDEX at once. Of a Running one between Steps, with no cooldown
and the end-in-full-step policy not applying, the loop's next step ends the run with no further Step, and CANCEL then
answers the final INDEX (42_step_scheduler.md sections 2 and 3). -/
def Obligations.CancelEndsTheRunWithoutAStep : Prop :=
  ∀ (s : State) (n : Nat) (u : UnitId), u.val = n → n < s.cfg.units.toNat → (s.unit u).bound = true →
    ((s.unit u).run ≠ .running → exec (.cancel n) s = .next (s.respond 0 (BitVec.setWidth 32 (s.unit u).index))) ∧
    ((s.unit u).run = .running → (s.unit u).stepJob = none → (s.unit u).cooling = false →
      ¬((s.unit u).endFull = true ∧ (s.unit u).style = .micro ∧
        (s.unit u).index.toNat % (s.unit u).nms.toNat ≠ 0) →
      ∀ cs, s.sched = .loop u :: .port :: cs →
        exec (.cancel n) s = .next
          { s.setUnit u
              { s.unit u with run := .braking, cancelReq := false, cooling := false, phase := .accum, stepJob := none }
            with
            responses := s.responses ++ [responseWord 0 (BitVec.setWidth 32 (s.unit u).index)]
            port := .idle, sched := cs })

/-- STOP of a unit that is not Running writes FULL_OFF to its six channels in order, whatever LAST holds and going on
after a failure, and keeps them; with six Acks the unit is Stopped, LAST is off and BUSERR clear, otherwise Braking,
LAST invalid and BUSERR set, and the response is the first failure (41_stepping_engine.md section 3;
42_step_scheduler.md section 3). If a write failed, no expander register is known at the end: the failure leaves none
known (20_memory.md section 4), and of the unit's own channels none is known after a bus error in DeEnergize
(93_implementation_defined.md, item U1). STOP of a Running unit goes on so after its hold (HeldCommandsWaitForTheLoop).
-/
def Obligations.StopDeEnergizesEveryChannel : Prop :=
  ∀ (s : State) (n : Nat) (u : UnitId) (six : List Answer) (cs : List Choice) (rs : List Answer),
    s.cfg.Legal → s.OwnershipOk → u.val = n → n < s.cfg.units.toNat → (s.unit u).bound = true →
    (s.unit u).run ≠ .running → s.busLock = .free → six.length = 6 →
    s.sched = List.replicate 12 .port ++ cs → s.answers = six ++ rs →
    ∃ t, exec (.stop n) s = .next t ∧
      t = { s with
        channels := t.channels, units := t.units, expander := t.expander
        trace := s.trace ++ List.zipWith (fun ch r => s.imageTransaction .port ch fullOff r) (s.unitChannels u) six
        responses := s.responses ++ [responseTo (firstNotAck six) 0]
        port := .idle, sched := cs, answers := rs } ∧
      t.unit u = (s.unit u).afterStop six ∧ s.DeEnergizedBy t u six (.unit u)

/-- CANCEL, STOP and DISPOSE of a Running unit set CANCEL_REQ and hold; while the unit is Running the held port has no
step, so it issues no transaction (42_step_scheduler.md section 3; 70_reset_and_hazards.md section 3). Once the unit
is not Running, CANCEL answers the final INDEX; STOP and DISPOSE, when the port steps alone, make the six writes of
DeEnergize, and only then the effects that StopDeEnergizesEveryChannel and DisposeReleasesWhateverTheAnswers state;
and along any schedule each goes on as if the command were given then. -/
def Obligations.HeldCommandsWaitForTheLoop : Prop :=
  (∀ (s : State) (n : Nat) (u : UnitId), u.val = n → n < s.cfg.units.toNat → (s.unit u).bound = true →
    (s.unit u).run = .running → s.sched = [] →
    exec (.cancel n) s =
      .next { s.setUnit u { s.unit u with cancelReq := true } with port := .busy (.hold u .cancel) } ∧
    exec (.stop n) s =
      .next { s.setUnit u { s.unit u with cancelReq := true } with port := .busy (.hold u .stop) } ∧
    exec (.dispose n) s =
      .next { s.setUnit u { s.unit u with cancelReq := true } with port := .busy (.hold u .dispose) }) ∧
  (∀ (s : State) (u : UnitId) (why : HoldFor), s.port = .busy (.hold u why) → (s.unit u).run = .running →
    s.move .port = s) ∧
  (∀ (s : State) (u : UnitId), s.port = .busy (.hold u .cancel) → (s.unit u).run ≠ .running →
    s.move .port = s.respond 0 (BitVec.setWidth 32 (s.unit u).index)) ∧
  (∀ (s t : State) (u : UnitId) (why : HoldFor) (six rs : List Answer),
    s.cfg.Legal → s.OwnershipOk → s.port = .busy (.hold u why) → why = .stop ∨ why = .dispose →
    (s.unit u).run ≠ .running → s.busLock = .free → six.length = 6 → s.answers = six ++ rs →
    t = (List.replicate 13 Choice.port).foldl State.move s →
      t = { s with
        channels := t.channels, units := t.units, expander := t.expander
        trace := s.trace ++ List.zipWith (fun ch r => s.imageTransaction .port ch fullOff r) (s.unitChannels u) six
        responses := s.responses ++ [responseTo (firstNotAck six) 0]
        port := .idle, answers := rs } ∧
      (why = .stop → t.unit u = (s.unit u).afterStop six ∧ s.DeEnergizedBy t u six (.unit u)) ∧
      (why = .dispose → t.unit u = UnitState.reset ∧ s.DeEnergizedBy t u six .free)) ∧
  ∀ (s : State) (n : Nat) (u : UnitId), u.val = n → n < s.cfg.units.toNat → (s.unit u).bound = true →
    (s.unit u).run ≠ .running →
    (s.port = .busy (.hold u .cancel) → exec (.cancel n) { s with port := .idle } = .next (s.move .port).drive) ∧
    (s.port = .busy (.hold u .stop) → exec (.stop n) { s with port := .idle } = .next (s.move .port).drive) ∧
    (s.port = .busy (.hold u .dispose) → exec (.dispose n) { s with port := .idle } = .next (s.move .port).drive)

/-- A hold ends (70_reset_and_hazards.md section 3): while the held unit is still Running, its loop has had fewer than
turnsToEnd turns that found it with a step, in whatever schedule (42_step_scheduler.md section 2: a cancelled run makes
no further Step, or at most NMS - 1 in a cooldown, and a bus error ends it at once); so along the scheduler's run either
the hold ends, or the loop's turns find it without a step from some time on, waiting for the lock, for which
20_memory.md section 5 promises nothing beyond weak fairness, or for DEADLINE; and with no other unit Running and no
cooldown the hold ends. The last clause is the invariant that this rests on. The fair scheduler is assumption log 14. -/
def Obligations.HeldCommandsEnd : Prop :=
  (∀ (s : State) (u : UnitId) (why : HoldFor) (cs : List Choice), s.RegistersLegal → s.HoldsOk →
    s.port = .busy (.hold u why) → ((cs.foldl State.move s).unit u).run = .running →
    s.enabledTurns u cs < (s.unit u).turnsToEnd) ∧
  (∀ (s : State) (u : UnitId) (why : HoldFor), s.RegistersLegal → s.HoldsOk → s.port = .busy (.hold u why) →
    (∃ n t, s.steps n = .next t ∧ t.port ≠ .busy (.hold u why)) ∨
    ∃ n, ∀ m t, n ≤ m → s.steps m = .next t → t.nextChoice.1 = .loop u → t.loopEnabled u = false) ∧
  (∀ (s : State) (u : UnitId) (why : HoldFor), s.RegistersLegal → s.HoldsOk → s.LockOk →
    s.port = .busy (.hold u why) → (∀ v, v ≠ u → (s.unit v).run ≠ .running) →
    (s.unit u).cooling = false → (s.unit u).endFull = false ∨ (s.unit u).style ≠ .micro →
    ∃ n t, s.steps n = .next t ∧ t.port ≠ .busy (.hold u why)) ∧
  ∀ s t : State, s.RegistersLegal → s.HoldsOk → step s = .next t → t.HoldsOk

/-! ### The pacing loop -/

/-- R126, R129, R130: a Running unit's loop between Steps. In Accum it ends the run on a cancellation that the policy
does not override, at the boundary that ends a cooldown, or when the count is done; else it sets the next deadline and
spins, cooling if the policy overrode a cancellation. In Spin a cancellation wins over a due deadline, and the loop
holds until TIME reaches DEADLINE, and then moves INDEX (42_step_scheduler.md section 2). -/
def Obligations.PacingLoopAccumAndSpin : Prop :=
  ∀ (s : State) (u : UnitId) (x fin : UnitState) (seen policy boundary : Prop),
    x = s.unit u → x.run = .running → x.stepJob = none →
    fin = { x with run := .braking, cancelReq := false, cooling := false, phase := .accum } →
    (seen ↔ x.cancelReq = true ∧ x.cooling = false) → (boundary ↔ x.index.toNat % x.nms.toNat = 0) →
    (policy ↔ x.endFull = true ∧ x.style = .micro ∧ ¬boundary) →
    (x.phase = .accum →
      (seen → ¬policy → s.move (.loop u) = s.setUnit u fin) ∧
      (x.cooling = true → boundary → s.move (.loop u) = s.setUnit u fin) ∧
      (¬(seen ∧ ¬policy) → ¬(x.cooling = true ∧ boundary) → x.cont = false → x.remaining = 0 →
        s.move (.loop u) = s.setUnit u fin) ∧
      (¬(seen ∧ ¬policy) → ¬(x.cooling = true ∧ boundary) → ¬(x.cont = false ∧ x.remaining = 0) →
        s.move (.loop u) = s.setUnit u
          { x with
            cooling := x.cooling || x.cancelReq, deadline := x.deadline + BitVec.setWidth 64 x.tps, phase := .spin })) ∧
    (x.phase = .spin →
      (seen → ¬policy → s.move (.loop u) = s.setUnit u fin) ∧
      (seen → policy → s.move (.loop u) = s.setUnit u { x with cooling := true }) ∧
      (¬seen → s.time < x.deadline → s.move (.loop u) = s) ∧
      (¬seen → x.deadline ≤ s.time →
        ((s.move (.loop u)).unit u).index = nextIndex x x.dir))

/-- A paced Step is never early, and an agent's step changes a deadline only by TPS, in Accum, or by DISPOSE's reset:
a late Step does not delay the next deadline (42_step_scheduler.md section 1; 70_reset_and_hazards.md section 4). -/
def Obligations.PacedStepsKeepTheirDeadlines : Prop :=
  (∀ (s : State) (u : UnitId), ((s.move (.loop u)).unit u).index ≠ (s.unit u).index →
    (s.unit u).run = .running ∧ (s.unit u).deadline ≤ s.time) ∧
  ∀ (s : State) (c : Choice) (u : UnitId),
    ((s.move c).unit u).deadline = (s.unit u).deadline ∨
    (c = .loop u ∧ (s.unit u).phase = .accum ∧ ((s.move c).unit u).phase = .spin ∧
      ((s.move c).unit u).deadline = (s.unit u).deadline + BitVec.setWidth 64 (s.unit u).tps) ∨
    (c = .port ∧ (s.move c).unit u = UnitState.reset)

/-- A due paced Step with every write acknowledged, run to its end by the loop alone: INDEX moves in the run's
direction, the writes that the new entry needs are issued in order, LAST records both coils, REMAINING counts down in
a counted run and the loop is back in Accum; no response is given (41_stepping_engine.md section 3;
42_step_scheduler.md section 2). -/
def Obligations.PacedStepAppliesTheNextEntry : Prop :=
  ∀ (s t : State) (u : UnitId) (idx : Nat) (e : Int × Int) (ws : List (ChannelId × BitVec 13)) (rs : List Answer),
    s.cfg.Legal → s.OwnershipOk → (s.unit u).Legal → s.busLock = .free →
    (s.unit u).run = .running → (s.unit u).stepJob = none → (s.unit u).phase = .spin →
    ¬((s.unit u).cancelReq = true ∧ (s.unit u).cooling = false) → (s.unit u).deadline ≤ s.time →
    idx = ((s.unit u).index.toNat +
      (if (s.unit u).dir = .forward then 1 else tableLen (s.unit u).style (s.unit u).nms.toNat - 1)) %
        tableLen (s.unit u).style (s.unit u).nms.toNat →
    e = tableEntry (s.unit u).style (s.unit u).nms.toNat idx →
    ws = stepWrites (coilOps (s.coilTriple u .b) (s.unit u).lastB .b e.2 (s.unit u).pf.toNat ++
      coilOps (s.coilTriple u .a) (s.unit u).lastA .a e.1 (s.unit u).pf.toNat) →
    s.answers = List.replicate ws.length .ack ++ rs →
    t = (List.replicate (2 * ws.length + 1) (Choice.loop u)).foldl State.move s →
      t = { s with
        channels := t.channels, units := t.units, expander := t.expander
        trace := s.trace ++ ws.map fun w => s.imageTransaction (.loop u) w.1 (imageOf w.2.toNat) .ack
        answers := rs } ∧
      t.unit u =
        { s.unit u with
          index := BitVec.ofNat 8 idx
          lastA := ⟨true, BitVec.ofNat 13 (coilRatio e.1 (s.unit u).pf.toNat), polOf e.1⟩
          lastB := ⟨true, BitVec.ofNat 13 (coilRatio e.2 (s.unit u).pf.toNat), polOf e.2⟩
          remaining := if (s.unit u).cont then (s.unit u).remaining else (s.unit u).remaining - 1
          phase := .accum } ∧
      (∀ v, v ≠ u → t.unit v = s.unit v) ∧
      (∀ w ∈ ws, t.channel w.1 =
          { s.channel w.1 with
            specRatio := w.2, specInv := false, image := imageOf w.2.toNat, imageValid := true } ∧
        s.ImageAnswered t w.1 (imageOf w.2.toNat) .ack) ∧
      (∀ ch, ch ∉ ws.map Prod.fst → t.channel ch = s.channel ch) ∧ s.OnlyImagesOf t (ws.map Prod.fst)

/-- A bus error in a paced run ends the run: BUSERR set, Braking, LAST invalid for both coils, no response, the lock
released, and nothing else of the block changed but the channel whose write failed (60_exceptions.md section 3). No
expander register is then known (20_memory.md section 4; 93_implementation_defined.md, items U1 and U5). -/
def Obligations.BusErrorEndsThePacedRun : Prop :=
  ∀ (s : State) (u : UnitId) (job : StepJob) (r : Answer) (rs : List Answer),
    (s.unit u).run = .running → (s.unit u).stepJob = some job → job.write.locked = true → s.busLock = .loop u →
    s.answers = r :: rs → r ≠ .ack →
    ∃ t, s.move (.loop u) = t ∧
      t = { s with
        channels := t.channels, units := t.units, expander := t.expander, busLock := .free
        trace := s.trace ++ [s.imageTransaction (.loop u) job.write.ch job.write.image r], answers := rs } ∧
      t.unit u =
        { s.unit u with
          lastA := { (s.unit u).lastA with valid := false }, lastB := { (s.unit u).lastB with valid := false }
          busErr := true, run := .braking, cancelReq := false, cooling := false, phase := .accum, stepJob := none } ∧
      (∀ v, v ≠ u → t.unit v = s.unit v) ∧
      t.channel job.write.ch = { s.channel job.write.ch with imageValid := false } ∧
      (∀ ch, ch ≠ job.write.ch → t.channel ch = s.channel ch) ∧ t.ExpanderUnknown

/-- A pacing loop's step touches its own unit, the channels' shadows, the lock and the bus, and nothing else: no other
unit, no owner, no driver register, no response, and none of its unit's own settings (60_exceptions.md section 5).
Where what is under way names its own channels (JobsOwn), it changes no channel but its unit's six, and issues at most
one transaction, an image of one of them (41_stepping_engine.md section 3): with none the expander is as before, with
an acknowledged one only that channel's registers change, and after any other answer no register is known (20_memory.md
section 4); and where ownership is sound too, it changes and writes only channels that its unit owns. -/
def Obligations.LoopTouchesOnlyItsUnit : Prop :=
  ∀ (s t : State) (u : UnitId), s.move (.loop u) = t →
    t = { s with
      channels := t.channels, units := t.units, busLock := t.busLock, expander := t.expander, trace := t.trace
      answers := t.answers, answerDraws := t.answerDraws } ∧
    (∀ v, v ≠ u → t.unit v = s.unit v) ∧
    (∀ ch, (t.channel ch).owner = (s.channel ch).owner ∧ (t.channel ch).disabled = (s.channel ch).disabled) ∧
    (∃ index lastA lastB run deadline remaining cancelReq cooling phase busErr stepJob,
      t.unit u =
        { s.unit u with
          index := index, lastA := lastA, lastB := lastB, run := run, deadline := deadline, remaining := remaining
          cancelReq := cancelReq, cooling := cooling, phase := phase, busErr := busErr, stepJob := stepJob }) ∧
    (s.JobsOwn →
      (∀ ch, ch ∉ s.unitChannels u → t.channel ch = s.channel ch) ∧
      (t.trace = s.trace ∧ t.expander = s.expander ∨
        ∃ ch ∈ s.unitChannels u, ∃ image r, t.trace = s.trace ++ [s.imageTransaction (.loop u) ch image r] ∧
          s.ImageAnswered t ch image r ∧ s.RestAnswered t [ch] r)) ∧
    (s.JobsOwn → s.OwnershipOk →
      (∀ ch, (s.channel ch).owner ≠ .unit u → t.channel ch = s.channel ch) ∧
      (t.trace = s.trace ∨ ∃ ch image r,
        (s.channel ch).owner = .unit u ∧ t.trace = s.trace ++ [s.imageTransaction (.loop u) ch image r]))

/-- Every channel write is its owner's (40_pwm_driver.md section 3; 41_stepping_engine.md section 3; 60_exceptions.md
section 5): what is under way goes on naming its own agent's channels only, so a transaction that an agent issues is
the port's for INIT or SETFREQ, or the image of one channel, which the host owns for a command of the host's, and
which the unit owns for its pacing loop's Step, its NEXTSTEP, its STOP and its DISPOSE. -/
def Obligations.EveryChannelWriteIsItsOwners : Prop :=
  (∀ s t : State, s.JobsOwn → step s = .next t → t.JobsOwn) ∧
  ∀ (s t : State) (c : Choice), s.JobsOwn → s.OwnershipOk → s.move c = t →
    t.trace = s.trace ∨
    (∃ op r, t.trace = s.trace ++ [⟨.port, s.time, op, r⟩] ∧ c = .port ∧
      ((∃ addr, s.port = .busy (.generalCall addr true)) ∨
        ∃ addr p stage why, s.port = .busy (.prescale addr p stage 0 why))) ∨
    (∃ ch image r, t.trace = s.trace ++ [s.imageTransaction .port ch image r] ∧ c = .port ∧
      ((∃ fin, s.port = .busy (.channelWrite ⟨ch, image, true⟩ fin) ∧ (s.channel ch).owner = .host) ∨
        ∃ u, s.port.drives = some u ∧ (s.channel ch).owner = .unit u)) ∨
    ∃ u ch image r, t.trace = s.trace ++ [s.imageTransaction (.loop u) ch image r] ∧ c = .loop u ∧
      (∃ rest, (s.unit u).stepJob = some ⟨⟨ch, image, true⟩, rest⟩) ∧ (s.channel ch).owner = .unit u

/-! ### Status and errors -/

/-- R138: the selector map. Every defined selector completes with the word the table gives it and changes nothing but
the response; chip selectors take UNIT 0; every other selector is undefined. -/
def Obligations.RdstatSelectorMap : Prop :=
  (∀ s : State,
    exec (.rdstat 0 0x00) s = .next (s.respond 0
      ((((0#8 ++ s.prescale) ++ 0#1) ++ s.busAddr) ++ 0#7 ++ BitVec.ofBool s.initialized)) ∧
    exec (.rdstat 0 0x01) s = .next (s.respond 0 (0#16 ++ s.freqActual)) ∧
    (∃ v : Value, exec (.rdstat 0 0x02) s = .next (s.respond 0 v) ∧
      ∀ i, v.getLsbD i = if h : i < 16 then decide ((s.channel ⟨i, h⟩).owner ≠ .free) else false) ∧
    (∃ v : Value, exec (.rdstat 0 0x03) s = .next (s.respond 0 v) ∧
      ∀ i, v.getLsbD i = if h : i < 16 then (s.channel ⟨i, h⟩).disabled else false) ∧
    exec (.rdstat 0 0x04) s = .next (s.respond 0 (s.time.extractLsb' 0 32)) ∧
    exec (.rdstat 0 0x05) s = .next (s.respond 0 (s.time.extractLsb' 32 32)) ∧
    exec (.rdstat 0 0x06) s = .next (s.respond 0 (BitVec.ofNat 32 s.cfg.units.toNat)) ∧
    exec (.rdstat 0 0x07) s = .next (s.respond 0 (BitVec.ofNat 32 s.cfg.timerHz)) ∧
    (∃ v : Value, exec (.rdstat 0 0x08) s = .next (s.respond 0 v) ∧
      ∀ i, v.getLsbD i = if h : i < 16 then decide ((s.channel ⟨i, h⟩).owner = .host) else false) ∧
    ∀ ch : ChannelId,
      exec (.rdstat 0 (0x40 + ch.val)) s = .next (s.respond 0 (s.channel ch).image) ∧
      exec (.rdstat 0 (0x50 + ch.val)) s = .next (s.respond 0
        ((match (s.channel ch).owner with
            | .free => 0x00#12
            | .host => 0x01#12
            | .unit u => BitVec.ofNat 12 (16 * u.val + 2)) ++ 0#2 ++ BitVec.ofBool (s.channel ch).imageValid ++
          BitVec.ofBool (s.channel ch).specInv ++ 0#3 ++ (s.channel ch).specRatio))) ∧
  (∀ (s : State) (n : Nat) (u : UnitId) (x : UnitState), u.val = n → n < s.cfg.units.toNat → x = s.unit u →
    exec (.rdstat n 0x10) s = .next (s.respond 0
      (0#6 ++ BitVec.ofBool x.cooling ++ BitVec.ofBool x.cont ++ x.nms ++ 0#6 ++ BitVec.ofNat 2 x.style.code ++
        BitVec.ofNat 1 x.dir.code ++ BitVec.ofBool x.cancelReq ++ BitVec.ofBool x.endFull ++ BitVec.ofBool x.busErr ++
        BitVec.ofNat 2 x.run.code ++ BitVec.ofBool x.ready ++ BitVec.ofBool x.bound)) ∧
    exec (.rdstat n 0x11) s = .next (s.respond 0 (0#24 ++ x.index)) ∧
    exec (.rdstat n 0x12) s = .next (s.respond 0 x.tps) ∧
    exec (.rdstat n 0x13) s = .next (s.respond 0 x.remaining) ∧
    exec (.rdstat n 0x14) s = .next (s.respond 0 (0#15 ++ x.pf)) ∧
    exec (.rdstat n 0x15) s = .next (s.respond 0
      (BitVec.ofBool x.lastA.valid ++ 0#13 ++ BitVec.ofNat 2 x.lastA.pol.code ++ 0#3 ++ x.lastA.ratio)) ∧
    exec (.rdstat n 0x16) s = .next (s.respond 0
      (BitVec.ofBool x.lastB.valid ++ 0#13 ++ BitVec.ofNat 2 x.lastB.pol.code ++ 0#3 ++ x.lastB.ratio)) ∧
    exec (.rdstat n 0x17) s = .next (s.respond 0 (x.spr ++ 0#8 ++ (0#1 ++ x.portB) ++ (0#1 ++ x.portA))) ∧
    exec (.rdstat n 0x18) s = .next (s.respond 0 (x.deadline.extractLsb' 0 32)) ∧
    exec (.rdstat n 0x19) s = .next (s.respond 0 (x.deadline.extractLsb' 32 32))) ∧
  ∀ (s : State) (n sel : Nat), s.busLock ≠ .port →
    0x09 ≤ sel ∧ sel ≤ 0x0F ∨ 0x1A ≤ sel ∧ sel ≤ 0x3F ∨ 0x60 ≤ sel → exec (.rdstat n sel) s = .next (s.respond 7 0)

/-- The errors of RDSTAT, in their order; for every other operand it completes and changes nothing but the response,
whatever the unit's state (43_status.md). -/
def Obligations.RdstatErrors : Prop :=
  ∀ (s : State) (n sel : Nat), s.busLock ≠ .port →
    (0x09 ≤ sel ∧ sel ≤ 0x0F ∨ 0x1A ≤ sel ∧ sel ≤ 0x3F ∨ 0x60 ≤ sel → exec (.rdstat n sel) s = .next (s.respond 7 0)) ∧
    (sel ≤ 0x08 ∨ 0x40 ≤ sel ∧ sel ≤ 0x5F → n ≠ 0 → exec (.rdstat n sel) s = .next (s.respond 7 0)) ∧
    (0x10 ≤ sel ∧ sel ≤ 0x19 → s.cfg.units.toNat ≤ n → exec (.rdstat n sel) s = .next (s.respond 1 0)) ∧
    (sel ≤ 0x08 ∨ 0x40 ≤ sel ∧ sel ≤ 0x5F → n = 0 → ∃ v, exec (.rdstat n sel) s = .next (s.respond 0 v)) ∧
    (0x10 ≤ sel ∧ sel ≤ 0x19 → n < s.cfg.units.toNat → ∃ v, exec (.rdstat n sel) s = .next (s.respond 0 v))

/-- A command answered with ConfigurationError, ChannelBusyError, ChannelNotAcquiredError, AlreadyRunningError or
IllegalCommand has changed nothing but the response, along whatever schedule it ran (60_exceptions.md section 1).
DeviceNotFoundError is left out: the spec's own INIT pseudocode raises it after a transaction (assumption log 22). -/
def Obligations.RefusedCommandsChangeNothing : Prop :=
  ∀ (i : Instr) (s t : State) (code : Nat) (v : Value), s.busLock ≠ .port → s.port = .idle → exec i s = .next t →
    t.responses = s.responses ++ [responseWord code v] → code = 1 ∨ code = 2 ∨ code = 3 ∨ code = 5 ∨ code = 7 →
    v = 0 ∧ t = { s with responses := s.responses ++ [responseWord code 0] }
end

