-- ==== Sys2Proof/Laws/State.lean ====
section
/-! SUPPORT. What each update of State leaves alone: one lemma per field per update, so that no later proof unfolds a
record update. -/

namespace Sys2Proof.Machine

/-! ### State.setChannel -/

@[simp] theorem State.setChannel_cfg (s : State) (ch : ChannelId) (c : Channel) : (s.setChannel ch c).cfg = s.cfg := rfl
@[simp] theorem State.setChannel_port (s : State) (ch : ChannelId) (c : Channel) : (s.setChannel ch c).port = s.port := rfl
@[simp] theorem State.setChannel_initialized (s : State) (ch : ChannelId) (c : Channel) : (s.setChannel ch c).initialized = s.initialized := rfl
@[simp] theorem State.setChannel_busAddr (s : State) (ch : ChannelId) (c : Channel) : (s.setChannel ch c).busAddr = s.busAddr := rfl
@[simp] theorem State.setChannel_prescale (s : State) (ch : ChannelId) (c : Channel) : (s.setChannel ch c).prescale = s.prescale := rfl
@[simp] theorem State.setChannel_freqActual (s : State) (ch : ChannelId) (c : Channel) : (s.setChannel ch c).freqActual = s.freqActual := rfl
@[simp] theorem State.setChannel_busLock (s : State) (ch : ChannelId) (c : Channel) : (s.setChannel ch c).busLock = s.busLock := rfl
@[simp] theorem State.setChannel_units (s : State) (ch : ChannelId) (c : Channel) : (s.setChannel ch c).units = s.units := rfl
@[simp] theorem State.setChannel_time (s : State) (ch : ChannelId) (c : Channel) : (s.setChannel ch c).time = s.time := rfl
@[simp] theorem State.setChannel_expander (s : State) (ch : ChannelId) (c : Channel) : (s.setChannel ch c).expander = s.expander := rfl
@[simp] theorem State.setChannel_trace (s : State) (ch : ChannelId) (c : Channel) : (s.setChannel ch c).trace = s.trace := rfl
@[simp] theorem State.setChannel_responses (s : State) (ch : ChannelId) (c : Channel) : (s.setChannel ch c).responses = s.responses := rfl
@[simp] theorem State.setChannel_commands (s : State) (ch : ChannelId) (c : Channel) : (s.setChannel ch c).commands = s.commands := rfl
@[simp] theorem State.setChannel_sched (s : State) (ch : ChannelId) (c : Channel) : (s.setChannel ch c).sched = s.sched := rfl
@[simp] theorem State.setChannel_answers (s : State) (ch : ChannelId) (c : Channel) : (s.setChannel ch c).answers = s.answers := rfl
@[simp] theorem State.setChannel_round (s : State) (ch : ChannelId) (c : Channel) : (s.setChannel ch c).round = s.round := rfl
@[simp] theorem State.setChannel_schedDraws (s : State) (ch : ChannelId) (c : Channel) : (s.setChannel ch c).schedDraws = s.schedDraws := rfl
@[simp] theorem State.setChannel_answerDraws (s : State) (ch : ChannelId) (c : Channel) : (s.setChannel ch c).answerDraws = s.answerDraws := rfl
@[simp] theorem State.setChannel_unit (s : State) (ch : ChannelId) (c : Channel) (v : UnitId) : (s.setChannel ch c).unit v = s.unit v := by simp [State.unit]
@[simp] theorem State.setChannel_unitChannels (s : State) (ch : ChannelId) (c : Channel) (v : UnitId) : (s.setChannel ch c).unitChannels v = s.unitChannels v := by simp [State.unitChannels, State.coilTriple]

/-! ### State.setUnit -/

@[simp] theorem State.setUnit_cfg (s : State) (u : UnitId) (x : UnitState) : (s.setUnit u x).cfg = s.cfg := rfl
@[simp] theorem State.setUnit_port (s : State) (u : UnitId) (x : UnitState) : (s.setUnit u x).port = s.port := rfl
@[simp] theorem State.setUnit_initialized (s : State) (u : UnitId) (x : UnitState) : (s.setUnit u x).initialized = s.initialized := rfl
@[simp] theorem State.setUnit_busAddr (s : State) (u : UnitId) (x : UnitState) : (s.setUnit u x).busAddr = s.busAddr := rfl
@[simp] theorem State.setUnit_prescale (s : State) (u : UnitId) (x : UnitState) : (s.setUnit u x).prescale = s.prescale := rfl
@[simp] theorem State.setUnit_freqActual (s : State) (u : UnitId) (x : UnitState) : (s.setUnit u x).freqActual = s.freqActual := rfl
@[simp] theorem State.setUnit_channels (s : State) (u : UnitId) (x : UnitState) : (s.setUnit u x).channels = s.channels := rfl
@[simp] theorem State.setUnit_busLock (s : State) (u : UnitId) (x : UnitState) : (s.setUnit u x).busLock = s.busLock := rfl
@[simp] theorem State.setUnit_time (s : State) (u : UnitId) (x : UnitState) : (s.setUnit u x).time = s.time := rfl
@[simp] theorem State.setUnit_expander (s : State) (u : UnitId) (x : UnitState) : (s.setUnit u x).expander = s.expander := rfl
@[simp] theorem State.setUnit_trace (s : State) (u : UnitId) (x : UnitState) : (s.setUnit u x).trace = s.trace := rfl
@[simp] theorem State.setUnit_responses (s : State) (u : UnitId) (x : UnitState) : (s.setUnit u x).responses = s.responses := rfl
@[simp] theorem State.setUnit_commands (s : State) (u : UnitId) (x : UnitState) : (s.setUnit u x).commands = s.commands := rfl
@[simp] theorem State.setUnit_sched (s : State) (u : UnitId) (x : UnitState) : (s.setUnit u x).sched = s.sched := rfl
@[simp] theorem State.setUnit_answers (s : State) (u : UnitId) (x : UnitState) : (s.setUnit u x).answers = s.answers := rfl
@[simp] theorem State.setUnit_round (s : State) (u : UnitId) (x : UnitState) : (s.setUnit u x).round = s.round := rfl
@[simp] theorem State.setUnit_schedDraws (s : State) (u : UnitId) (x : UnitState) : (s.setUnit u x).schedDraws = s.schedDraws := rfl
@[simp] theorem State.setUnit_answerDraws (s : State) (u : UnitId) (x : UnitState) : (s.setUnit u x).answerDraws = s.answerDraws := rfl
@[simp] theorem State.setUnit_channel (s : State) (u : UnitId) (x : UnitState) (ch' : ChannelId) : (s.setUnit u x).channel ch' = s.channel ch' := by simp [State.channel]

/-! ### State.setOwner -/

@[simp] theorem State.setOwner_cfg (s : State) (ch : ChannelId) (o : Owner) : (s.setOwner ch o).cfg = s.cfg := rfl
@[simp] theorem State.setOwner_port (s : State) (ch : ChannelId) (o : Owner) : (s.setOwner ch o).port = s.port := rfl
@[simp] theorem State.setOwner_initialized (s : State) (ch : ChannelId) (o : Owner) : (s.setOwner ch o).initialized = s.initialized := rfl
@[simp] theorem State.setOwner_busAddr (s : State) (ch : ChannelId) (o : Owner) : (s.setOwner ch o).busAddr = s.busAddr := rfl
@[simp] theorem State.setOwner_prescale (s : State) (ch : ChannelId) (o : Owner) : (s.setOwner ch o).prescale = s.prescale := rfl
@[simp] theorem State.setOwner_freqActual (s : State) (ch : ChannelId) (o : Owner) : (s.setOwner ch o).freqActual = s.freqActual := rfl
@[simp] theorem State.setOwner_busLock (s : State) (ch : ChannelId) (o : Owner) : (s.setOwner ch o).busLock = s.busLock := rfl
@[simp] theorem State.setOwner_units (s : State) (ch : ChannelId) (o : Owner) : (s.setOwner ch o).units = s.units := rfl
@[simp] theorem State.setOwner_time (s : State) (ch : ChannelId) (o : Owner) : (s.setOwner ch o).time = s.time := rfl
@[simp] theorem State.setOwner_expander (s : State) (ch : ChannelId) (o : Owner) : (s.setOwner ch o).expander = s.expander := rfl
@[simp] theorem State.setOwner_trace (s : State) (ch : ChannelId) (o : Owner) : (s.setOwner ch o).trace = s.trace := rfl
@[simp] theorem State.setOwner_responses (s : State) (ch : ChannelId) (o : Owner) : (s.setOwner ch o).responses = s.responses := rfl
@[simp] theorem State.setOwner_commands (s : State) (ch : ChannelId) (o : Owner) : (s.setOwner ch o).commands = s.commands := rfl
@[simp] theorem State.setOwner_sched (s : State) (ch : ChannelId) (o : Owner) : (s.setOwner ch o).sched = s.sched := rfl
@[simp] theorem State.setOwner_answers (s : State) (ch : ChannelId) (o : Owner) : (s.setOwner ch o).answers = s.answers := rfl
@[simp] theorem State.setOwner_round (s : State) (ch : ChannelId) (o : Owner) : (s.setOwner ch o).round = s.round := rfl
@[simp] theorem State.setOwner_schedDraws (s : State) (ch : ChannelId) (o : Owner) : (s.setOwner ch o).schedDraws = s.schedDraws := rfl
@[simp] theorem State.setOwner_answerDraws (s : State) (ch : ChannelId) (o : Owner) : (s.setOwner ch o).answerDraws = s.answerDraws := rfl
@[simp] theorem State.setOwner_unit (s : State) (ch : ChannelId) (o : Owner) (v : UnitId) : (s.setOwner ch o).unit v = s.unit v := by simp [State.unit]
@[simp] theorem State.setOwner_unitChannels (s : State) (ch : ChannelId) (o : Owner) (v : UnitId) : (s.setOwner ch o).unitChannels v = s.unitChannels v := by simp [State.unitChannels, State.coilTriple]

/-! ### State.setDisabled -/

@[simp] theorem State.setDisabled_cfg (s : State) (ch : ChannelId) (b : Bool) : (s.setDisabled ch b).cfg = s.cfg := rfl
@[simp] theorem State.setDisabled_port (s : State) (ch : ChannelId) (b : Bool) : (s.setDisabled ch b).port = s.port := rfl
@[simp] theorem State.setDisabled_initialized (s : State) (ch : ChannelId) (b : Bool) : (s.setDisabled ch b).initialized = s.initialized := rfl
@[simp] theorem State.setDisabled_busAddr (s : State) (ch : ChannelId) (b : Bool) : (s.setDisabled ch b).busAddr = s.busAddr := rfl
@[simp] theorem State.setDisabled_prescale (s : State) (ch : ChannelId) (b : Bool) : (s.setDisabled ch b).prescale = s.prescale := rfl
@[simp] theorem State.setDisabled_freqActual (s : State) (ch : ChannelId) (b : Bool) : (s.setDisabled ch b).freqActual = s.freqActual := rfl
@[simp] theorem State.setDisabled_busLock (s : State) (ch : ChannelId) (b : Bool) : (s.setDisabled ch b).busLock = s.busLock := rfl
@[simp] theorem State.setDisabled_units (s : State) (ch : ChannelId) (b : Bool) : (s.setDisabled ch b).units = s.units := rfl
@[simp] theorem State.setDisabled_time (s : State) (ch : ChannelId) (b : Bool) : (s.setDisabled ch b).time = s.time := rfl
@[simp] theorem State.setDisabled_expander (s : State) (ch : ChannelId) (b : Bool) : (s.setDisabled ch b).expander = s.expander := rfl
@[simp] theorem State.setDisabled_trace (s : State) (ch : ChannelId) (b : Bool) : (s.setDisabled ch b).trace = s.trace := rfl
@[simp] theorem State.setDisabled_responses (s : State) (ch : ChannelId) (b : Bool) : (s.setDisabled ch b).responses = s.responses := rfl
@[simp] theorem State.setDisabled_commands (s : State) (ch : ChannelId) (b : Bool) : (s.setDisabled ch b).commands = s.commands := rfl
@[simp] theorem State.setDisabled_sched (s : State) (ch : ChannelId) (b : Bool) : (s.setDisabled ch b).sched = s.sched := rfl
@[simp] theorem State.setDisabled_answers (s : State) (ch : ChannelId) (b : Bool) : (s.setDisabled ch b).answers = s.answers := rfl
@[simp] theorem State.setDisabled_round (s : State) (ch : ChannelId) (b : Bool) : (s.setDisabled ch b).round = s.round := rfl
@[simp] theorem State.setDisabled_schedDraws (s : State) (ch : ChannelId) (b : Bool) : (s.setDisabled ch b).schedDraws = s.schedDraws := rfl
@[simp] theorem State.setDisabled_answerDraws (s : State) (ch : ChannelId) (b : Bool) : (s.setDisabled ch b).answerDraws = s.answerDraws := rfl
@[simp] theorem State.setDisabled_unit (s : State) (ch : ChannelId) (b : Bool) (v : UnitId) : (s.setDisabled ch b).unit v = s.unit v := by simp [State.unit]
@[simp] theorem State.setDisabled_unitChannels (s : State) (ch : ChannelId) (b : Bool) (v : UnitId) : (s.setDisabled ch b).unitChannels v = s.unitChannels v := by simp [State.unitChannels, State.coilTriple]

/-! ### State.setSpec -/

@[simp] theorem State.setSpec_cfg (s : State) (ch : ChannelId) (ratio : BitVec 13) (inv : Bool) : (s.setSpec ch ratio inv).cfg = s.cfg := rfl
@[simp] theorem State.setSpec_port (s : State) (ch : ChannelId) (ratio : BitVec 13) (inv : Bool) : (s.setSpec ch ratio inv).port = s.port := rfl
@[simp] theorem State.setSpec_initialized (s : State) (ch : ChannelId) (ratio : BitVec 13) (inv : Bool) : (s.setSpec ch ratio inv).initialized = s.initialized := rfl
@[simp] theorem State.setSpec_busAddr (s : State) (ch : ChannelId) (ratio : BitVec 13) (inv : Bool) : (s.setSpec ch ratio inv).busAddr = s.busAddr := rfl
@[simp] theorem State.setSpec_prescale (s : State) (ch : ChannelId) (ratio : BitVec 13) (inv : Bool) : (s.setSpec ch ratio inv).prescale = s.prescale := rfl
@[simp] theorem State.setSpec_freqActual (s : State) (ch : ChannelId) (ratio : BitVec 13) (inv : Bool) : (s.setSpec ch ratio inv).freqActual = s.freqActual := rfl
@[simp] theorem State.setSpec_busLock (s : State) (ch : ChannelId) (ratio : BitVec 13) (inv : Bool) : (s.setSpec ch ratio inv).busLock = s.busLock := rfl
@[simp] theorem State.setSpec_units (s : State) (ch : ChannelId) (ratio : BitVec 13) (inv : Bool) : (s.setSpec ch ratio inv).units = s.units := rfl
@[simp] theorem State.setSpec_time (s : State) (ch : ChannelId) (ratio : BitVec 13) (inv : Bool) : (s.setSpec ch ratio inv).time = s.time := rfl
@[simp] theorem State.setSpec_expander (s : State) (ch : ChannelId) (ratio : BitVec 13) (inv : Bool) : (s.setSpec ch ratio inv).expander = s.expander := rfl
@[simp] theorem State.setSpec_trace (s : State) (ch : ChannelId) (ratio : BitVec 13) (inv : Bool) : (s.setSpec ch ratio inv).trace = s.trace := rfl
@[simp] theorem State.setSpec_responses (s : State) (ch : ChannelId) (ratio : BitVec 13) (inv : Bool) : (s.setSpec ch ratio inv).responses = s.responses := rfl
@[simp] theorem State.setSpec_commands (s : State) (ch : ChannelId) (ratio : BitVec 13) (inv : Bool) : (s.setSpec ch ratio inv).commands = s.commands := rfl
@[simp] theorem State.setSpec_sched (s : State) (ch : ChannelId) (ratio : BitVec 13) (inv : Bool) : (s.setSpec ch ratio inv).sched = s.sched := rfl
@[simp] theorem State.setSpec_answers (s : State) (ch : ChannelId) (ratio : BitVec 13) (inv : Bool) : (s.setSpec ch ratio inv).answers = s.answers := rfl
@[simp] theorem State.setSpec_round (s : State) (ch : ChannelId) (ratio : BitVec 13) (inv : Bool) : (s.setSpec ch ratio inv).round = s.round := rfl
@[simp] theorem State.setSpec_schedDraws (s : State) (ch : ChannelId) (ratio : BitVec 13) (inv : Bool) : (s.setSpec ch ratio inv).schedDraws = s.schedDraws := rfl
@[simp] theorem State.setSpec_answerDraws (s : State) (ch : ChannelId) (ratio : BitVec 13) (inv : Bool) : (s.setSpec ch ratio inv).answerDraws = s.answerDraws := rfl
@[simp] theorem State.setSpec_unit (s : State) (ch : ChannelId) (ratio : BitVec 13) (inv : Bool) (v : UnitId) : (s.setSpec ch ratio inv).unit v = s.unit v := by simp [State.unit]
@[simp] theorem State.setSpec_unitChannels (s : State) (ch : ChannelId) (ratio : BitVec 13) (inv : Bool) (v : UnitId) : (s.setSpec ch ratio inv).unitChannels v = s.unitChannels v := by simp [State.unitChannels, State.coilTriple]

/-! ### State.releaseChannel -/

@[simp] theorem State.releaseChannel_cfg (s : State) (ch : ChannelId) : (s.releaseChannel ch).cfg = s.cfg := rfl
@[simp] theorem State.releaseChannel_port (s : State) (ch : ChannelId) : (s.releaseChannel ch).port = s.port := rfl
@[simp] theorem State.releaseChannel_initialized (s : State) (ch : ChannelId) : (s.releaseChannel ch).initialized = s.initialized := rfl
@[simp] theorem State.releaseChannel_busAddr (s : State) (ch : ChannelId) : (s.releaseChannel ch).busAddr = s.busAddr := rfl
@[simp] theorem State.releaseChannel_prescale (s : State) (ch : ChannelId) : (s.releaseChannel ch).prescale = s.prescale := rfl
@[simp] theorem State.releaseChannel_freqActual (s : State) (ch : ChannelId) : (s.releaseChannel ch).freqActual = s.freqActual := rfl
@[simp] theorem State.releaseChannel_busLock (s : State) (ch : ChannelId) : (s.releaseChannel ch).busLock = s.busLock := rfl
@[simp] theorem State.releaseChannel_units (s : State) (ch : ChannelId) : (s.releaseChannel ch).units = s.units := rfl
@[simp] theorem State.releaseChannel_time (s : State) (ch : ChannelId) : (s.releaseChannel ch).time = s.time := rfl
@[simp] theorem State.releaseChannel_expander (s : State) (ch : ChannelId) : (s.releaseChannel ch).expander = s.expander := rfl
@[simp] theorem State.releaseChannel_trace (s : State) (ch : ChannelId) : (s.releaseChannel ch).trace = s.trace := rfl
@[simp] theorem State.releaseChannel_responses (s : State) (ch : ChannelId) : (s.releaseChannel ch).responses = s.responses := rfl
@[simp] theorem State.releaseChannel_commands (s : State) (ch : ChannelId) : (s.releaseChannel ch).commands = s.commands := rfl
@[simp] theorem State.releaseChannel_sched (s : State) (ch : ChannelId) : (s.releaseChannel ch).sched = s.sched := rfl
@[simp] theorem State.releaseChannel_answers (s : State) (ch : ChannelId) : (s.releaseChannel ch).answers = s.answers := rfl
@[simp] theorem State.releaseChannel_round (s : State) (ch : ChannelId) : (s.releaseChannel ch).round = s.round := rfl
@[simp] theorem State.releaseChannel_schedDraws (s : State) (ch : ChannelId) : (s.releaseChannel ch).schedDraws = s.schedDraws := rfl
@[simp] theorem State.releaseChannel_answerDraws (s : State) (ch : ChannelId) : (s.releaseChannel ch).answerDraws = s.answerDraws := rfl

/-! ### State.unlock -/

@[simp] theorem State.unlock_cfg (s : State) : (s.unlock).cfg = s.cfg := rfl
@[simp] theorem State.unlock_port (s : State) : (s.unlock).port = s.port := rfl
@[simp] theorem State.unlock_initialized (s : State) : (s.unlock).initialized = s.initialized := rfl
@[simp] theorem State.unlock_busAddr (s : State) : (s.unlock).busAddr = s.busAddr := rfl
@[simp] theorem State.unlock_prescale (s : State) : (s.unlock).prescale = s.prescale := rfl
@[simp] theorem State.unlock_freqActual (s : State) : (s.unlock).freqActual = s.freqActual := rfl
@[simp] theorem State.unlock_channels (s : State) : (s.unlock).channels = s.channels := rfl
@[simp] theorem State.unlock_units (s : State) : (s.unlock).units = s.units := rfl
@[simp] theorem State.unlock_time (s : State) : (s.unlock).time = s.time := rfl
@[simp] theorem State.unlock_expander (s : State) : (s.unlock).expander = s.expander := rfl
@[simp] theorem State.unlock_trace (s : State) : (s.unlock).trace = s.trace := rfl
@[simp] theorem State.unlock_responses (s : State) : (s.unlock).responses = s.responses := rfl
@[simp] theorem State.unlock_commands (s : State) : (s.unlock).commands = s.commands := rfl
@[simp] theorem State.unlock_sched (s : State) : (s.unlock).sched = s.sched := rfl
@[simp] theorem State.unlock_answers (s : State) : (s.unlock).answers = s.answers := rfl
@[simp] theorem State.unlock_round (s : State) : (s.unlock).round = s.round := rfl
@[simp] theorem State.unlock_schedDraws (s : State) : (s.unlock).schedDraws = s.schedDraws := rfl
@[simp] theorem State.unlock_answerDraws (s : State) : (s.unlock).answerDraws = s.answerDraws := rfl
@[simp] theorem State.unlock_channel (s : State) (ch' : ChannelId) : (s.unlock).channel ch' = s.channel ch' := by simp [State.channel]
@[simp] theorem State.unlock_unit (s : State) (v : UnitId) : (s.unlock).unit v = s.unit v := by simp [State.unit]
@[simp] theorem State.unlock_unitChannels (s : State) (v : UnitId) : (s.unlock).unitChannels v = s.unitChannels v := by simp [State.unitChannels, State.coilTriple]

/-! ### State.respond -/

@[simp] theorem State.respond_cfg (s : State) (code : Nat) (value : Value) : (s.respond code value).cfg = s.cfg := rfl
@[simp] theorem State.respond_initialized (s : State) (code : Nat) (value : Value) : (s.respond code value).initialized = s.initialized := rfl
@[simp] theorem State.respond_busAddr (s : State) (code : Nat) (value : Value) : (s.respond code value).busAddr = s.busAddr := rfl
@[simp] theorem State.respond_prescale (s : State) (code : Nat) (value : Value) : (s.respond code value).prescale = s.prescale := rfl
@[simp] theorem State.respond_freqActual (s : State) (code : Nat) (value : Value) : (s.respond code value).freqActual = s.freqActual := rfl
@[simp] theorem State.respond_channels (s : State) (code : Nat) (value : Value) : (s.respond code value).channels = s.channels := rfl
@[simp] theorem State.respond_busLock (s : State) (code : Nat) (value : Value) : (s.respond code value).busLock = s.busLock := rfl
@[simp] theorem State.respond_units (s : State) (code : Nat) (value : Value) : (s.respond code value).units = s.units := rfl
@[simp] theorem State.respond_time (s : State) (code : Nat) (value : Value) : (s.respond code value).time = s.time := rfl
@[simp] theorem State.respond_expander (s : State) (code : Nat) (value : Value) : (s.respond code value).expander = s.expander := rfl
@[simp] theorem State.respond_trace (s : State) (code : Nat) (value : Value) : (s.respond code value).trace = s.trace := rfl
@[simp] theorem State.respond_commands (s : State) (code : Nat) (value : Value) : (s.respond code value).commands = s.commands := rfl
@[simp] theorem State.respond_sched (s : State) (code : Nat) (value : Value) : (s.respond code value).sched = s.sched := rfl
@[simp] theorem State.respond_answers (s : State) (code : Nat) (value : Value) : (s.respond code value).answers = s.answers := rfl
@[simp] theorem State.respond_round (s : State) (code : Nat) (value : Value) : (s.respond code value).round = s.round := rfl
@[simp] theorem State.respond_schedDraws (s : State) (code : Nat) (value : Value) : (s.respond code value).schedDraws = s.schedDraws := rfl
@[simp] theorem State.respond_answerDraws (s : State) (code : Nat) (value : Value) : (s.respond code value).answerDraws = s.answerDraws := rfl
@[simp] theorem State.respond_channel (s : State) (code : Nat) (value : Value) (ch' : ChannelId) : (s.respond code value).channel ch' = s.channel ch' := by simp [State.channel]
@[simp] theorem State.respond_unit (s : State) (code : Nat) (value : Value) (v : UnitId) : (s.respond code value).unit v = s.unit v := by simp [State.unit]
@[simp] theorem State.respond_unitChannels (s : State) (code : Nat) (value : Value) (v : UnitId) : (s.respond code value).unitChannels v = s.unitChannels v := by simp [State.unitChannels, State.coilTriple]

/-! ### State.respondOk -/

@[simp] theorem State.respondOk_cfg (s : State) (value : Value) : (s.respondOk value).cfg = s.cfg := rfl
@[simp] theorem State.respondOk_initialized (s : State) (value : Value) : (s.respondOk value).initialized = s.initialized := rfl
@[simp] theorem State.respondOk_busAddr (s : State) (value : Value) : (s.respondOk value).busAddr = s.busAddr := rfl
@[simp] theorem State.respondOk_prescale (s : State) (value : Value) : (s.respondOk value).prescale = s.prescale := rfl
@[simp] theorem State.respondOk_freqActual (s : State) (value : Value) : (s.respondOk value).freqActual = s.freqActual := rfl
@[simp] theorem State.respondOk_channels (s : State) (value : Value) : (s.respondOk value).channels = s.channels := rfl
@[simp] theorem State.respondOk_busLock (s : State) (value : Value) : (s.respondOk value).busLock = s.busLock := rfl
@[simp] theorem State.respondOk_units (s : State) (value : Value) : (s.respondOk value).units = s.units := rfl
@[simp] theorem State.respondOk_time (s : State) (value : Value) : (s.respondOk value).time = s.time := rfl
@[simp] theorem State.respondOk_expander (s : State) (value : Value) : (s.respondOk value).expander = s.expander := rfl
@[simp] theorem State.respondOk_trace (s : State) (value : Value) : (s.respondOk value).trace = s.trace := rfl
@[simp] theorem State.respondOk_commands (s : State) (value : Value) : (s.respondOk value).commands = s.commands := rfl
@[simp] theorem State.respondOk_sched (s : State) (value : Value) : (s.respondOk value).sched = s.sched := rfl
@[simp] theorem State.respondOk_answers (s : State) (value : Value) : (s.respondOk value).answers = s.answers := rfl
@[simp] theorem State.respondOk_round (s : State) (value : Value) : (s.respondOk value).round = s.round := rfl
@[simp] theorem State.respondOk_schedDraws (s : State) (value : Value) : (s.respondOk value).schedDraws = s.schedDraws := rfl
@[simp] theorem State.respondOk_answerDraws (s : State) (value : Value) : (s.respondOk value).answerDraws = s.answerDraws := rfl
@[simp] theorem State.respondOk_channel (s : State) (value : Value) (ch' : ChannelId) : (s.respondOk value).channel ch' = s.channel ch' := by simp [State.channel]
@[simp] theorem State.respondOk_unit (s : State) (value : Value) (v : UnitId) : (s.respondOk value).unit v = s.unit v := by simp [State.unit]
@[simp] theorem State.respondOk_unitChannels (s : State) (value : Value) (v : UnitId) : (s.respondOk value).unitChannels v = s.unitChannels v := by simp [State.unitChannels, State.coilTriple]

/-! ### State.releasePort -/

@[simp] theorem State.releasePort_cfg (s : State) : (s.releasePort).cfg = s.cfg := by unfold State.releasePort; split <;> rfl
@[simp] theorem State.releasePort_port (s : State) : (s.releasePort).port = s.port := by unfold State.releasePort; split <;> rfl
@[simp] theorem State.releasePort_initialized (s : State) : (s.releasePort).initialized = s.initialized := by unfold State.releasePort; split <;> rfl
@[simp] theorem State.releasePort_busAddr (s : State) : (s.releasePort).busAddr = s.busAddr := by unfold State.releasePort; split <;> rfl
@[simp] theorem State.releasePort_prescale (s : State) : (s.releasePort).prescale = s.prescale := by unfold State.releasePort; split <;> rfl
@[simp] theorem State.releasePort_freqActual (s : State) : (s.releasePort).freqActual = s.freqActual := by unfold State.releasePort; split <;> rfl
@[simp] theorem State.releasePort_channels (s : State) : (s.releasePort).channels = s.channels := by unfold State.releasePort; split <;> rfl
@[simp] theorem State.releasePort_units (s : State) : (s.releasePort).units = s.units := by unfold State.releasePort; split <;> rfl
@[simp] theorem State.releasePort_time (s : State) : (s.releasePort).time = s.time := by unfold State.releasePort; split <;> rfl
@[simp] theorem State.releasePort_expander (s : State) : (s.releasePort).expander = s.expander := by unfold State.releasePort; split <;> rfl
@[simp] theorem State.releasePort_trace (s : State) : (s.releasePort).trace = s.trace := by unfold State.releasePort; split <;> rfl
@[simp] theorem State.releasePort_responses (s : State) : (s.releasePort).responses = s.responses := by unfold State.releasePort; split <;> rfl
@[simp] theorem State.releasePort_commands (s : State) : (s.releasePort).commands = s.commands := by unfold State.releasePort; split <;> rfl
@[simp] theorem State.releasePort_sched (s : State) : (s.releasePort).sched = s.sched := by unfold State.releasePort; split <;> rfl
@[simp] theorem State.releasePort_answers (s : State) : (s.releasePort).answers = s.answers := by unfold State.releasePort; split <;> rfl
@[simp] theorem State.releasePort_round (s : State) : (s.releasePort).round = s.round := by unfold State.releasePort; split <;> rfl
@[simp] theorem State.releasePort_schedDraws (s : State) : (s.releasePort).schedDraws = s.schedDraws := by unfold State.releasePort; split <;> rfl
@[simp] theorem State.releasePort_answerDraws (s : State) : (s.releasePort).answerDraws = s.answerDraws := by unfold State.releasePort; split <;> rfl
@[simp] theorem State.releasePort_channel (s : State) (ch' : ChannelId) : (s.releasePort).channel ch' = s.channel ch' := by simp [State.channel]
@[simp] theorem State.releasePort_unit (s : State) (v : UnitId) : (s.releasePort).unit v = s.unit v := by simp [State.unit]
@[simp] theorem State.releasePort_unitChannels (s : State) (v : UnitId) : (s.releasePort).unitChannels v = s.unitChannels v := by simp [State.unitChannels, State.coilTriple]

/-! ### State.raise -/

@[simp] theorem State.raise_cfg (s : State) (e : Err) (info : Value) : (s.raise e info).cfg = s.cfg := by simp [State.raise]
@[simp] theorem State.raise_initialized (s : State) (e : Err) (info : Value) : (s.raise e info).initialized = s.initialized := by simp [State.raise]
@[simp] theorem State.raise_busAddr (s : State) (e : Err) (info : Value) : (s.raise e info).busAddr = s.busAddr := by simp [State.raise]
@[simp] theorem State.raise_prescale (s : State) (e : Err) (info : Value) : (s.raise e info).prescale = s.prescale := by simp [State.raise]
@[simp] theorem State.raise_freqActual (s : State) (e : Err) (info : Value) : (s.raise e info).freqActual = s.freqActual := by simp [State.raise]
@[simp] theorem State.raise_channels (s : State) (e : Err) (info : Value) : (s.raise e info).channels = s.channels := by simp [State.raise]
@[simp] theorem State.raise_units (s : State) (e : Err) (info : Value) : (s.raise e info).units = s.units := by simp [State.raise]
@[simp] theorem State.raise_time (s : State) (e : Err) (info : Value) : (s.raise e info).time = s.time := by simp [State.raise]
@[simp] theorem State.raise_expander (s : State) (e : Err) (info : Value) : (s.raise e info).expander = s.expander := by simp [State.raise]
@[simp] theorem State.raise_trace (s : State) (e : Err) (info : Value) : (s.raise e info).trace = s.trace := by simp [State.raise]
@[simp] theorem State.raise_commands (s : State) (e : Err) (info : Value) : (s.raise e info).commands = s.commands := by simp [State.raise]
@[simp] theorem State.raise_sched (s : State) (e : Err) (info : Value) : (s.raise e info).sched = s.sched := by simp [State.raise]
@[simp] theorem State.raise_answers (s : State) (e : Err) (info : Value) : (s.raise e info).answers = s.answers := by simp [State.raise]
@[simp] theorem State.raise_round (s : State) (e : Err) (info : Value) : (s.raise e info).round = s.round := by simp [State.raise]
@[simp] theorem State.raise_schedDraws (s : State) (e : Err) (info : Value) : (s.raise e info).schedDraws = s.schedDraws := by simp [State.raise]
@[simp] theorem State.raise_answerDraws (s : State) (e : Err) (info : Value) : (s.raise e info).answerDraws = s.answerDraws := by simp [State.raise]
@[simp] theorem State.raise_channel (s : State) (e : Err) (info : Value) (ch' : ChannelId) : (s.raise e info).channel ch' = s.channel ch' := by simp [State.channel]
@[simp] theorem State.raise_unit (s : State) (e : Err) (info : Value) (v : UnitId) : (s.raise e info).unit v = s.unit v := by simp [State.unit]
@[simp] theorem State.raise_unitChannels (s : State) (e : Err) (info : Value) (v : UnitId) : (s.raise e info).unitChannels v = s.unitChannels v := by simp [State.unitChannels, State.coilTriple]

/-! ### State.conclude -/

@[simp] theorem State.conclude_cfg (s : State) (r : Answer) (value : Value) : (s.conclude r value).cfg = s.cfg := by cases r <;> simp [State.conclude]
@[simp] theorem State.conclude_initialized (s : State) (r : Answer) (value : Value) : (s.conclude r value).initialized = s.initialized := by cases r <;> simp [State.conclude]
@[simp] theorem State.conclude_busAddr (s : State) (r : Answer) (value : Value) : (s.conclude r value).busAddr = s.busAddr := by cases r <;> simp [State.conclude]
@[simp] theorem State.conclude_prescale (s : State) (r : Answer) (value : Value) : (s.conclude r value).prescale = s.prescale := by cases r <;> simp [State.conclude]
@[simp] theorem State.conclude_freqActual (s : State) (r : Answer) (value : Value) : (s.conclude r value).freqActual = s.freqActual := by cases r <;> simp [State.conclude]
@[simp] theorem State.conclude_channels (s : State) (r : Answer) (value : Value) : (s.conclude r value).channels = s.channels := by cases r <;> simp [State.conclude]
@[simp] theorem State.conclude_units (s : State) (r : Answer) (value : Value) : (s.conclude r value).units = s.units := by cases r <;> simp [State.conclude]
@[simp] theorem State.conclude_time (s : State) (r : Answer) (value : Value) : (s.conclude r value).time = s.time := by cases r <;> simp [State.conclude]
@[simp] theorem State.conclude_expander (s : State) (r : Answer) (value : Value) : (s.conclude r value).expander = s.expander := by cases r <;> simp [State.conclude]
@[simp] theorem State.conclude_trace (s : State) (r : Answer) (value : Value) : (s.conclude r value).trace = s.trace := by cases r <;> simp [State.conclude]
@[simp] theorem State.conclude_commands (s : State) (r : Answer) (value : Value) : (s.conclude r value).commands = s.commands := by cases r <;> simp [State.conclude]
@[simp] theorem State.conclude_sched (s : State) (r : Answer) (value : Value) : (s.conclude r value).sched = s.sched := by cases r <;> simp [State.conclude]
@[simp] theorem State.conclude_answers (s : State) (r : Answer) (value : Value) : (s.conclude r value).answers = s.answers := by cases r <;> simp [State.conclude]
@[simp] theorem State.conclude_round (s : State) (r : Answer) (value : Value) : (s.conclude r value).round = s.round := by cases r <;> simp [State.conclude]
@[simp] theorem State.conclude_schedDraws (s : State) (r : Answer) (value : Value) : (s.conclude r value).schedDraws = s.schedDraws := by cases r <;> simp [State.conclude]
@[simp] theorem State.conclude_answerDraws (s : State) (r : Answer) (value : Value) : (s.conclude r value).answerDraws = s.answerDraws := by cases r <;> simp [State.conclude]
@[simp] theorem State.conclude_channel (s : State) (r : Answer) (value : Value) (ch' : ChannelId) : (s.conclude r value).channel ch' = s.channel ch' := by simp [State.channel]
@[simp] theorem State.conclude_unit (s : State) (r : Answer) (value : Value) (v : UnitId) : (s.conclude r value).unit v = s.unit v := by simp [State.unit]
@[simp] theorem State.conclude_unitChannels (s : State) (r : Answer) (value : Value) (v : UnitId) : (s.conclude r value).unitChannels v = s.unitChannels v := by simp [State.unitChannels, State.coilTriple]

/-! ### State.nextAnswer -/

@[simp] theorem State.nextAnswer_cfg (s : State) : (s.nextAnswer.2).cfg = s.cfg := by unfold State.nextAnswer; split <;> rfl
@[simp] theorem State.nextAnswer_port (s : State) : (s.nextAnswer.2).port = s.port := by unfold State.nextAnswer; split <;> rfl
@[simp] theorem State.nextAnswer_initialized (s : State) : (s.nextAnswer.2).initialized = s.initialized := by unfold State.nextAnswer; split <;> rfl
@[simp] theorem State.nextAnswer_busAddr (s : State) : (s.nextAnswer.2).busAddr = s.busAddr := by unfold State.nextAnswer; split <;> rfl
@[simp] theorem State.nextAnswer_prescale (s : State) : (s.nextAnswer.2).prescale = s.prescale := by unfold State.nextAnswer; split <;> rfl
@[simp] theorem State.nextAnswer_freqActual (s : State) : (s.nextAnswer.2).freqActual = s.freqActual := by unfold State.nextAnswer; split <;> rfl
@[simp] theorem State.nextAnswer_channels (s : State) : (s.nextAnswer.2).channels = s.channels := by unfold State.nextAnswer; split <;> rfl
@[simp] theorem State.nextAnswer_busLock (s : State) : (s.nextAnswer.2).busLock = s.busLock := by unfold State.nextAnswer; split <;> rfl
@[simp] theorem State.nextAnswer_units (s : State) : (s.nextAnswer.2).units = s.units := by unfold State.nextAnswer; split <;> rfl
@[simp] theorem State.nextAnswer_time (s : State) : (s.nextAnswer.2).time = s.time := by unfold State.nextAnswer; split <;> rfl
@[simp] theorem State.nextAnswer_expander (s : State) : (s.nextAnswer.2).expander = s.expander := by unfold State.nextAnswer; split <;> rfl
@[simp] theorem State.nextAnswer_trace (s : State) : (s.nextAnswer.2).trace = s.trace := by unfold State.nextAnswer; split <;> rfl
@[simp] theorem State.nextAnswer_responses (s : State) : (s.nextAnswer.2).responses = s.responses := by unfold State.nextAnswer; split <;> rfl
@[simp] theorem State.nextAnswer_commands (s : State) : (s.nextAnswer.2).commands = s.commands := by unfold State.nextAnswer; split <;> rfl
@[simp] theorem State.nextAnswer_sched (s : State) : (s.nextAnswer.2).sched = s.sched := by unfold State.nextAnswer; split <;> rfl
@[simp] theorem State.nextAnswer_round (s : State) : (s.nextAnswer.2).round = s.round := by unfold State.nextAnswer; split <;> rfl
@[simp] theorem State.nextAnswer_schedDraws (s : State) : (s.nextAnswer.2).schedDraws = s.schedDraws := by unfold State.nextAnswer; split <;> rfl
@[simp] theorem State.nextAnswer_channel (s : State) (ch' : ChannelId) : (s.nextAnswer.2).channel ch' = s.channel ch' := by simp [State.channel]
@[simp] theorem State.nextAnswer_unit (s : State) (v : UnitId) : (s.nextAnswer.2).unit v = s.unit v := by simp [State.unit]
@[simp] theorem State.nextAnswer_unitChannels (s : State) (v : UnitId) : (s.nextAnswer.2).unitChannels v = s.unitChannels v := by simp [State.unitChannels, State.coilTriple]

/-! ### State.transact -/

@[simp] theorem State.transact_cfg (s : State) (a : Agent) (op : BusOp) : ((s.transact a op).2).cfg = s.cfg := by simp [State.transact]
@[simp] theorem State.transact_port (s : State) (a : Agent) (op : BusOp) : ((s.transact a op).2).port = s.port := by simp [State.transact]
@[simp] theorem State.transact_initialized (s : State) (a : Agent) (op : BusOp) : ((s.transact a op).2).initialized = s.initialized := by simp [State.transact]
@[simp] theorem State.transact_busAddr (s : State) (a : Agent) (op : BusOp) : ((s.transact a op).2).busAddr = s.busAddr := by simp [State.transact]
@[simp] theorem State.transact_prescale (s : State) (a : Agent) (op : BusOp) : ((s.transact a op).2).prescale = s.prescale := by simp [State.transact]
@[simp] theorem State.transact_freqActual (s : State) (a : Agent) (op : BusOp) : ((s.transact a op).2).freqActual = s.freqActual := by simp [State.transact]
@[simp] theorem State.transact_channels (s : State) (a : Agent) (op : BusOp) : ((s.transact a op).2).channels = s.channels := by simp [State.transact]
@[simp] theorem State.transact_busLock (s : State) (a : Agent) (op : BusOp) : ((s.transact a op).2).busLock = s.busLock := by simp [State.transact]
@[simp] theorem State.transact_units (s : State) (a : Agent) (op : BusOp) : ((s.transact a op).2).units = s.units := by simp [State.transact]
@[simp] theorem State.transact_time (s : State) (a : Agent) (op : BusOp) : ((s.transact a op).2).time = s.time := by simp [State.transact]
@[simp] theorem State.transact_responses (s : State) (a : Agent) (op : BusOp) : ((s.transact a op).2).responses = s.responses := by simp [State.transact]
@[simp] theorem State.transact_commands (s : State) (a : Agent) (op : BusOp) : ((s.transact a op).2).commands = s.commands := by simp [State.transact]
@[simp] theorem State.transact_sched (s : State) (a : Agent) (op : BusOp) : ((s.transact a op).2).sched = s.sched := by simp [State.transact]
@[simp] theorem State.transact_round (s : State) (a : Agent) (op : BusOp) : ((s.transact a op).2).round = s.round := by simp [State.transact]
@[simp] theorem State.transact_schedDraws (s : State) (a : Agent) (op : BusOp) : ((s.transact a op).2).schedDraws = s.schedDraws := by simp [State.transact]
@[simp] theorem State.transact_channel (s : State) (a : Agent) (op : BusOp) (ch' : ChannelId) : ((s.transact a op).2).channel ch' = s.channel ch' := by simp [State.channel]
@[simp] theorem State.transact_unit (s : State) (a : Agent) (op : BusOp) (v : UnitId) : ((s.transact a op).2).unit v = s.unit v := by simp [State.unit]
@[simp] theorem State.transact_unitChannels (s : State) (a : Agent) (op : BusOp) (v : UnitId) : ((s.transact a op).2).unitChannels v = s.unitChannels v := by simp [State.unitChannels, State.coilTriple]

/-! ### State.writeImage -/

@[simp] theorem State.writeImage_cfg (s : State) (a : Agent) (w : PendingWrite) : ((s.writeImage a w).2).cfg = s.cfg := by simp [State.writeImage]
@[simp] theorem State.writeImage_port (s : State) (a : Agent) (w : PendingWrite) : ((s.writeImage a w).2).port = s.port := by simp [State.writeImage]
@[simp] theorem State.writeImage_initialized (s : State) (a : Agent) (w : PendingWrite) : ((s.writeImage a w).2).initialized = s.initialized := by simp [State.writeImage]
@[simp] theorem State.writeImage_busAddr (s : State) (a : Agent) (w : PendingWrite) : ((s.writeImage a w).2).busAddr = s.busAddr := by simp [State.writeImage]
@[simp] theorem State.writeImage_prescale (s : State) (a : Agent) (w : PendingWrite) : ((s.writeImage a w).2).prescale = s.prescale := by simp [State.writeImage]
@[simp] theorem State.writeImage_freqActual (s : State) (a : Agent) (w : PendingWrite) : ((s.writeImage a w).2).freqActual = s.freqActual := by simp [State.writeImage]
@[simp] theorem State.writeImage_units (s : State) (a : Agent) (w : PendingWrite) : ((s.writeImage a w).2).units = s.units := by simp [State.writeImage]
@[simp] theorem State.writeImage_time (s : State) (a : Agent) (w : PendingWrite) : ((s.writeImage a w).2).time = s.time := by simp [State.writeImage]
@[simp] theorem State.writeImage_responses (s : State) (a : Agent) (w : PendingWrite) : ((s.writeImage a w).2).responses = s.responses := by simp [State.writeImage]
@[simp] theorem State.writeImage_commands (s : State) (a : Agent) (w : PendingWrite) : ((s.writeImage a w).2).commands = s.commands := by simp [State.writeImage]
@[simp] theorem State.writeImage_sched (s : State) (a : Agent) (w : PendingWrite) : ((s.writeImage a w).2).sched = s.sched := by simp [State.writeImage]
@[simp] theorem State.writeImage_round (s : State) (a : Agent) (w : PendingWrite) : ((s.writeImage a w).2).round = s.round := by simp [State.writeImage]
@[simp] theorem State.writeImage_schedDraws (s : State) (a : Agent) (w : PendingWrite) : ((s.writeImage a w).2).schedDraws = s.schedDraws := by simp [State.writeImage]
@[simp] theorem State.writeImage_unit (s : State) (a : Agent) (w : PendingWrite) (v : UnitId) : ((s.writeImage a w).2).unit v = s.unit v := by simp [State.unit]
@[simp] theorem State.writeImage_unitChannels (s : State) (a : Agent) (w : PendingWrite) (v : UnitId) : ((s.writeImage a w).2).unitChannels v = s.unitChannels v := by simp [State.unitChannels, State.coilTriple]

/-! ### State.advanceIndex -/

@[simp] theorem State.advanceIndex_cfg (s : State) (u : UnitId) (dir : Dir) : (s.advanceIndex u dir).cfg = s.cfg := rfl
@[simp] theorem State.advanceIndex_port (s : State) (u : UnitId) (dir : Dir) : (s.advanceIndex u dir).port = s.port := rfl
@[simp] theorem State.advanceIndex_initialized (s : State) (u : UnitId) (dir : Dir) : (s.advanceIndex u dir).initialized = s.initialized := rfl
@[simp] theorem State.advanceIndex_busAddr (s : State) (u : UnitId) (dir : Dir) : (s.advanceIndex u dir).busAddr = s.busAddr := rfl
@[simp] theorem State.advanceIndex_prescale (s : State) (u : UnitId) (dir : Dir) : (s.advanceIndex u dir).prescale = s.prescale := rfl
@[simp] theorem State.advanceIndex_freqActual (s : State) (u : UnitId) (dir : Dir) : (s.advanceIndex u dir).freqActual = s.freqActual := rfl
@[simp] theorem State.advanceIndex_channels (s : State) (u : UnitId) (dir : Dir) : (s.advanceIndex u dir).channels = s.channels := rfl
@[simp] theorem State.advanceIndex_busLock (s : State) (u : UnitId) (dir : Dir) : (s.advanceIndex u dir).busLock = s.busLock := rfl
@[simp] theorem State.advanceIndex_time (s : State) (u : UnitId) (dir : Dir) : (s.advanceIndex u dir).time = s.time := rfl
@[simp] theorem State.advanceIndex_expander (s : State) (u : UnitId) (dir : Dir) : (s.advanceIndex u dir).expander = s.expander := rfl
@[simp] theorem State.advanceIndex_trace (s : State) (u : UnitId) (dir : Dir) : (s.advanceIndex u dir).trace = s.trace := rfl
@[simp] theorem State.advanceIndex_responses (s : State) (u : UnitId) (dir : Dir) : (s.advanceIndex u dir).responses = s.responses := rfl
@[simp] theorem State.advanceIndex_commands (s : State) (u : UnitId) (dir : Dir) : (s.advanceIndex u dir).commands = s.commands := rfl
@[simp] theorem State.advanceIndex_sched (s : State) (u : UnitId) (dir : Dir) : (s.advanceIndex u dir).sched = s.sched := rfl
@[simp] theorem State.advanceIndex_answers (s : State) (u : UnitId) (dir : Dir) : (s.advanceIndex u dir).answers = s.answers := rfl
@[simp] theorem State.advanceIndex_round (s : State) (u : UnitId) (dir : Dir) : (s.advanceIndex u dir).round = s.round := rfl
@[simp] theorem State.advanceIndex_schedDraws (s : State) (u : UnitId) (dir : Dir) : (s.advanceIndex u dir).schedDraws = s.schedDraws := rfl
@[simp] theorem State.advanceIndex_answerDraws (s : State) (u : UnitId) (dir : Dir) : (s.advanceIndex u dir).answerDraws = s.answerDraws := rfl
@[simp] theorem State.advanceIndex_channel (s : State) (u : UnitId) (dir : Dir) (ch' : ChannelId) : (s.advanceIndex u dir).channel ch' = s.channel ch' := by simp [State.channel]

/-! ### State.forgetUnit -/

@[simp] theorem State.forgetUnit_cfg (s : State) (u : UnitId) : (s.forgetUnit u).cfg = s.cfg := rfl
@[simp] theorem State.forgetUnit_port (s : State) (u : UnitId) : (s.forgetUnit u).port = s.port := rfl
@[simp] theorem State.forgetUnit_initialized (s : State) (u : UnitId) : (s.forgetUnit u).initialized = s.initialized := rfl
@[simp] theorem State.forgetUnit_busAddr (s : State) (u : UnitId) : (s.forgetUnit u).busAddr = s.busAddr := rfl
@[simp] theorem State.forgetUnit_prescale (s : State) (u : UnitId) : (s.forgetUnit u).prescale = s.prescale := rfl
@[simp] theorem State.forgetUnit_freqActual (s : State) (u : UnitId) : (s.forgetUnit u).freqActual = s.freqActual := rfl
@[simp] theorem State.forgetUnit_channels (s : State) (u : UnitId) : (s.forgetUnit u).channels = s.channels := rfl
@[simp] theorem State.forgetUnit_busLock (s : State) (u : UnitId) : (s.forgetUnit u).busLock = s.busLock := rfl
@[simp] theorem State.forgetUnit_units (s : State) (u : UnitId) : (s.forgetUnit u).units = s.units := rfl
@[simp] theorem State.forgetUnit_time (s : State) (u : UnitId) : (s.forgetUnit u).time = s.time := rfl
@[simp] theorem State.forgetUnit_trace (s : State) (u : UnitId) : (s.forgetUnit u).trace = s.trace := rfl
@[simp] theorem State.forgetUnit_responses (s : State) (u : UnitId) : (s.forgetUnit u).responses = s.responses := rfl
@[simp] theorem State.forgetUnit_commands (s : State) (u : UnitId) : (s.forgetUnit u).commands = s.commands := rfl
@[simp] theorem State.forgetUnit_sched (s : State) (u : UnitId) : (s.forgetUnit u).sched = s.sched := rfl
@[simp] theorem State.forgetUnit_answers (s : State) (u : UnitId) : (s.forgetUnit u).answers = s.answers := rfl
@[simp] theorem State.forgetUnit_round (s : State) (u : UnitId) : (s.forgetUnit u).round = s.round := rfl
@[simp] theorem State.forgetUnit_schedDraws (s : State) (u : UnitId) : (s.forgetUnit u).schedDraws = s.schedDraws := rfl
@[simp] theorem State.forgetUnit_answerDraws (s : State) (u : UnitId) : (s.forgetUnit u).answerDraws = s.answerDraws := rfl
@[simp] theorem State.forgetUnit_expander (s : State) (u : UnitId) : (s.forgetUnit u).expander = s.expander.forgetAll (s.unitCells u) := rfl
@[simp] theorem State.forgetUnit_channel (s : State) (u : UnitId) (ch' : ChannelId) : (s.forgetUnit u).channel ch' = s.channel ch' := by simp [State.channel]
@[simp] theorem State.forgetUnit_unit (s : State) (u v : UnitId) : (s.forgetUnit u).unit v = s.unit v := by simp [State.unit]
@[simp] theorem State.forgetUnit_unitChannels (s : State) (u v : UnitId) : (s.forgetUnit u).unitChannels v = s.unitChannels v := by simp [State.unitChannels, State.coilTriple]

/-! ### State.failStep -/

@[simp] theorem State.failStep_cfg (s : State) (u : UnitId) : (s.failStep u).cfg = s.cfg := rfl
@[simp] theorem State.failStep_port (s : State) (u : UnitId) : (s.failStep u).port = s.port := rfl
@[simp] theorem State.failStep_initialized (s : State) (u : UnitId) : (s.failStep u).initialized = s.initialized := rfl
@[simp] theorem State.failStep_busAddr (s : State) (u : UnitId) : (s.failStep u).busAddr = s.busAddr := rfl
@[simp] theorem State.failStep_prescale (s : State) (u : UnitId) : (s.failStep u).prescale = s.prescale := rfl
@[simp] theorem State.failStep_freqActual (s : State) (u : UnitId) : (s.failStep u).freqActual = s.freqActual := rfl
@[simp] theorem State.failStep_channels (s : State) (u : UnitId) : (s.failStep u).channels = s.channels := rfl
@[simp] theorem State.failStep_busLock (s : State) (u : UnitId) : (s.failStep u).busLock = s.busLock := rfl
@[simp] theorem State.failStep_time (s : State) (u : UnitId) : (s.failStep u).time = s.time := rfl
@[simp] theorem State.failStep_expander (s : State) (u : UnitId) : (s.failStep u).expander = s.expander.forgetAll (s.unitCells u) := rfl
@[simp] theorem State.failStep_trace (s : State) (u : UnitId) : (s.failStep u).trace = s.trace := rfl
@[simp] theorem State.failStep_responses (s : State) (u : UnitId) : (s.failStep u).responses = s.responses := rfl
@[simp] theorem State.failStep_commands (s : State) (u : UnitId) : (s.failStep u).commands = s.commands := rfl
@[simp] theorem State.failStep_sched (s : State) (u : UnitId) : (s.failStep u).sched = s.sched := rfl
@[simp] theorem State.failStep_answers (s : State) (u : UnitId) : (s.failStep u).answers = s.answers := rfl
@[simp] theorem State.failStep_round (s : State) (u : UnitId) : (s.failStep u).round = s.round := rfl
@[simp] theorem State.failStep_schedDraws (s : State) (u : UnitId) : (s.failStep u).schedDraws = s.schedDraws := rfl
@[simp] theorem State.failStep_answerDraws (s : State) (u : UnitId) : (s.failStep u).answerDraws = s.answerDraws := rfl
@[simp] theorem State.failStep_channel (s : State) (u : UnitId) (ch' : ChannelId) : (s.failStep u).channel ch' = s.channel ch' := by simp [State.channel]

/-! ### State.setOwners -/

@[simp] theorem State.setOwners_cfg (s : State) (chs : List ChannelId) (o : Owner) : (s.setOwners chs o).cfg = s.cfg := by induction chs generalizing s with | nil => rfl | cons c cs ih => simpa [State.setOwners] using ih (s.setOwner c o)
@[simp] theorem State.setOwners_port (s : State) (chs : List ChannelId) (o : Owner) : (s.setOwners chs o).port = s.port := by induction chs generalizing s with | nil => rfl | cons c cs ih => simpa [State.setOwners] using ih (s.setOwner c o)
@[simp] theorem State.setOwners_initialized (s : State) (chs : List ChannelId) (o : Owner) : (s.setOwners chs o).initialized = s.initialized := by induction chs generalizing s with | nil => rfl | cons c cs ih => simpa [State.setOwners] using ih (s.setOwner c o)
@[simp] theorem State.setOwners_busAddr (s : State) (chs : List ChannelId) (o : Owner) : (s.setOwners chs o).busAddr = s.busAddr := by induction chs generalizing s with | nil => rfl | cons c cs ih => simpa [State.setOwners] using ih (s.setOwner c o)
@[simp] theorem State.setOwners_prescale (s : State) (chs : List ChannelId) (o : Owner) : (s.setOwners chs o).prescale = s.prescale := by induction chs generalizing s with | nil => rfl | cons c cs ih => simpa [State.setOwners] using ih (s.setOwner c o)
@[simp] theorem State.setOwners_freqActual (s : State) (chs : List ChannelId) (o : Owner) : (s.setOwners chs o).freqActual = s.freqActual := by induction chs generalizing s with | nil => rfl | cons c cs ih => simpa [State.setOwners] using ih (s.setOwner c o)
@[simp] theorem State.setOwners_busLock (s : State) (chs : List ChannelId) (o : Owner) : (s.setOwners chs o).busLock = s.busLock := by induction chs generalizing s with | nil => rfl | cons c cs ih => simpa [State.setOwners] using ih (s.setOwner c o)
@[simp] theorem State.setOwners_units (s : State) (chs : List ChannelId) (o : Owner) : (s.setOwners chs o).units = s.units := by induction chs generalizing s with | nil => rfl | cons c cs ih => simpa [State.setOwners] using ih (s.setOwner c o)
@[simp] theorem State.setOwners_time (s : State) (chs : List ChannelId) (o : Owner) : (s.setOwners chs o).time = s.time := by induction chs generalizing s with | nil => rfl | cons c cs ih => simpa [State.setOwners] using ih (s.setOwner c o)
@[simp] theorem State.setOwners_expander (s : State) (chs : List ChannelId) (o : Owner) : (s.setOwners chs o).expander = s.expander := by induction chs generalizing s with | nil => rfl | cons c cs ih => simpa [State.setOwners] using ih (s.setOwner c o)
@[simp] theorem State.setOwners_trace (s : State) (chs : List ChannelId) (o : Owner) : (s.setOwners chs o).trace = s.trace := by induction chs generalizing s with | nil => rfl | cons c cs ih => simpa [State.setOwners] using ih (s.setOwner c o)
@[simp] theorem State.setOwners_responses (s : State) (chs : List ChannelId) (o : Owner) : (s.setOwners chs o).responses = s.responses := by induction chs generalizing s with | nil => rfl | cons c cs ih => simpa [State.setOwners] using ih (s.setOwner c o)
@[simp] theorem State.setOwners_commands (s : State) (chs : List ChannelId) (o : Owner) : (s.setOwners chs o).commands = s.commands := by induction chs generalizing s with | nil => rfl | cons c cs ih => simpa [State.setOwners] using ih (s.setOwner c o)
@[simp] theorem State.setOwners_sched (s : State) (chs : List ChannelId) (o : Owner) : (s.setOwners chs o).sched = s.sched := by induction chs generalizing s with | nil => rfl | cons c cs ih => simpa [State.setOwners] using ih (s.setOwner c o)
@[simp] theorem State.setOwners_answers (s : State) (chs : List ChannelId) (o : Owner) : (s.setOwners chs o).answers = s.answers := by induction chs generalizing s with | nil => rfl | cons c cs ih => simpa [State.setOwners] using ih (s.setOwner c o)
@[simp] theorem State.setOwners_round (s : State) (chs : List ChannelId) (o : Owner) : (s.setOwners chs o).round = s.round := by induction chs generalizing s with | nil => rfl | cons c cs ih => simpa [State.setOwners] using ih (s.setOwner c o)
@[simp] theorem State.setOwners_schedDraws (s : State) (chs : List ChannelId) (o : Owner) : (s.setOwners chs o).schedDraws = s.schedDraws := by induction chs generalizing s with | nil => rfl | cons c cs ih => simpa [State.setOwners] using ih (s.setOwner c o)
@[simp] theorem State.setOwners_answerDraws (s : State) (chs : List ChannelId) (o : Owner) : (s.setOwners chs o).answerDraws = s.answerDraws := by induction chs generalizing s with | nil => rfl | cons c cs ih => simpa [State.setOwners] using ih (s.setOwner c o)
@[simp] theorem State.setOwners_unit (s : State) (chs : List ChannelId) (o : Owner) (v : UnitId) : (s.setOwners chs o).unit v = s.unit v := by simp [State.unit]
@[simp] theorem State.setOwners_unitChannels (s : State) (chs : List ChannelId) (o : Owner) (v : UnitId) : (s.setOwners chs o).unitChannels v = s.unitChannels v := by simp [State.unitChannels, State.coilTriple]

/-! ### State.invalidateImages -/

@[simp] theorem State.invalidateImages_cfg (s : State) : (s.invalidateImages).cfg = s.cfg := rfl
@[simp] theorem State.invalidateImages_port (s : State) : (s.invalidateImages).port = s.port := rfl
@[simp] theorem State.invalidateImages_initialized (s : State) : (s.invalidateImages).initialized = s.initialized := rfl
@[simp] theorem State.invalidateImages_busAddr (s : State) : (s.invalidateImages).busAddr = s.busAddr := rfl
@[simp] theorem State.invalidateImages_prescale (s : State) : (s.invalidateImages).prescale = s.prescale := rfl
@[simp] theorem State.invalidateImages_freqActual (s : State) : (s.invalidateImages).freqActual = s.freqActual := rfl
@[simp] theorem State.invalidateImages_busLock (s : State) : (s.invalidateImages).busLock = s.busLock := rfl
@[simp] theorem State.invalidateImages_units (s : State) : (s.invalidateImages).units = s.units := rfl
@[simp] theorem State.invalidateImages_time (s : State) : (s.invalidateImages).time = s.time := rfl
@[simp] theorem State.invalidateImages_expander (s : State) : (s.invalidateImages).expander = s.expander := rfl
@[simp] theorem State.invalidateImages_trace (s : State) : (s.invalidateImages).trace = s.trace := rfl
@[simp] theorem State.invalidateImages_responses (s : State) : (s.invalidateImages).responses = s.responses := rfl
@[simp] theorem State.invalidateImages_commands (s : State) : (s.invalidateImages).commands = s.commands := rfl
@[simp] theorem State.invalidateImages_sched (s : State) : (s.invalidateImages).sched = s.sched := rfl
@[simp] theorem State.invalidateImages_answers (s : State) : (s.invalidateImages).answers = s.answers := rfl
@[simp] theorem State.invalidateImages_round (s : State) : (s.invalidateImages).round = s.round := rfl
@[simp] theorem State.invalidateImages_schedDraws (s : State) : (s.invalidateImages).schedDraws = s.schedDraws := rfl
@[simp] theorem State.invalidateImages_answerDraws (s : State) : (s.invalidateImages).answerDraws = s.answerDraws := rfl
@[simp] theorem State.invalidateImages_unit (s : State) (v : UnitId) : (s.invalidateImages).unit v = s.unit v := by simp [State.unit]
@[simp] theorem State.invalidateImages_unitChannels (s : State) (v : UnitId) : (s.invalidateImages).unitChannels v = s.unitChannels v := by simp [State.unitChannels, State.coilTriple]

/-! ### State.nextChoice -/

@[simp] theorem State.nextChoice_cfg (s : State) : (s.nextChoice.2).cfg = s.cfg := by unfold State.nextChoice; split <;> rfl
@[simp] theorem State.nextChoice_port (s : State) : (s.nextChoice.2).port = s.port := by unfold State.nextChoice; split <;> rfl
@[simp] theorem State.nextChoice_initialized (s : State) : (s.nextChoice.2).initialized = s.initialized := by unfold State.nextChoice; split <;> rfl
@[simp] theorem State.nextChoice_busAddr (s : State) : (s.nextChoice.2).busAddr = s.busAddr := by unfold State.nextChoice; split <;> rfl
@[simp] theorem State.nextChoice_prescale (s : State) : (s.nextChoice.2).prescale = s.prescale := by unfold State.nextChoice; split <;> rfl
@[simp] theorem State.nextChoice_freqActual (s : State) : (s.nextChoice.2).freqActual = s.freqActual := by unfold State.nextChoice; split <;> rfl
@[simp] theorem State.nextChoice_channels (s : State) : (s.nextChoice.2).channels = s.channels := by unfold State.nextChoice; split <;> rfl
@[simp] theorem State.nextChoice_busLock (s : State) : (s.nextChoice.2).busLock = s.busLock := by unfold State.nextChoice; split <;> rfl
@[simp] theorem State.nextChoice_units (s : State) : (s.nextChoice.2).units = s.units := by unfold State.nextChoice; split <;> rfl
@[simp] theorem State.nextChoice_time (s : State) : (s.nextChoice.2).time = s.time := by unfold State.nextChoice; split <;> rfl
@[simp] theorem State.nextChoice_expander (s : State) : (s.nextChoice.2).expander = s.expander := by unfold State.nextChoice; split <;> rfl
@[simp] theorem State.nextChoice_trace (s : State) : (s.nextChoice.2).trace = s.trace := by unfold State.nextChoice; split <;> rfl
@[simp] theorem State.nextChoice_responses (s : State) : (s.nextChoice.2).responses = s.responses := by unfold State.nextChoice; split <;> rfl
@[simp] theorem State.nextChoice_commands (s : State) : (s.nextChoice.2).commands = s.commands := by unfold State.nextChoice; split <;> rfl
@[simp] theorem State.nextChoice_answers (s : State) : (s.nextChoice.2).answers = s.answers := by unfold State.nextChoice; split <;> rfl
@[simp] theorem State.nextChoice_answerDraws (s : State) : (s.nextChoice.2).answerDraws = s.answerDraws := by unfold State.nextChoice; split <;> rfl
@[simp] theorem State.nextChoice_channel (s : State) (ch' : ChannelId) : (s.nextChoice.2).channel ch' = s.channel ch' := by simp [State.channel]
@[simp] theorem State.nextChoice_unit (s : State) (v : UnitId) : (s.nextChoice.2).unit v = s.unit v := by simp [State.unit]
@[simp] theorem State.nextChoice_unitChannels (s : State) (v : UnitId) : (s.nextChoice.2).unitChannels v = s.unitChannels v := by simp [State.unitChannels, State.coilTriple]

/-! ### State.tick -/

@[simp] theorem State.tick_cfg (s : State) : (s.tick).cfg = s.cfg := rfl
@[simp] theorem State.tick_initialized (s : State) : (s.tick).initialized = s.initialized := rfl
@[simp] theorem State.tick_busAddr (s : State) : (s.tick).busAddr = s.busAddr := rfl
@[simp] theorem State.tick_prescale (s : State) : (s.tick).prescale = s.prescale := rfl
@[simp] theorem State.tick_freqActual (s : State) : (s.tick).freqActual = s.freqActual := rfl
@[simp] theorem State.tick_channels (s : State) : (s.tick).channels = s.channels := rfl
@[simp] theorem State.tick_busLock (s : State) : (s.tick).busLock = s.busLock := rfl
@[simp] theorem State.tick_units (s : State) : (s.tick).units = s.units := rfl
@[simp] theorem State.tick_expander (s : State) : (s.tick).expander = s.expander := rfl
@[simp] theorem State.tick_trace (s : State) : (s.tick).trace = s.trace := rfl
@[simp] theorem State.tick_responses (s : State) : (s.tick).responses = s.responses := rfl
@[simp] theorem State.tick_commands (s : State) : (s.tick).commands = s.commands := rfl
@[simp] theorem State.tick_sched (s : State) : (s.tick).sched = s.sched := rfl
@[simp] theorem State.tick_answers (s : State) : (s.tick).answers = s.answers := rfl
@[simp] theorem State.tick_round (s : State) : (s.tick).round = s.round := rfl
@[simp] theorem State.tick_schedDraws (s : State) : (s.tick).schedDraws = s.schedDraws := rfl
@[simp] theorem State.tick_answerDraws (s : State) : (s.tick).answerDraws = s.answerDraws := rfl
@[simp] theorem State.tick_channel (s : State) (ch' : ChannelId) : (s.tick).channel ch' = s.channel ch' := by simp [State.channel]
@[simp] theorem State.tick_unit (s : State) (v : UnitId) : (s.tick).unit v = s.unit v := by simp [State.unit]
@[simp] theorem State.tick_unitChannels (s : State) (v : UnitId) : (s.tick).unitChannels v = s.unitChannels v := by simp [State.unitChannels, State.coilTriple]

/-! ### Record updates that leave channels and units alone -/

@[simp] theorem State.with_cfg_unit (s : State) x (u : UnitId) : State.unit { s with cfg := x } u = s.unit u := rfl
@[simp] theorem State.with_port_channel (s : State) x (ch : ChannelId) : State.channel { s with port := x } ch = s.channel ch := rfl
@[simp] theorem State.with_port_unit (s : State) x (u : UnitId) : State.unit { s with port := x } u = s.unit u := rfl
@[simp] theorem State.with_port_unitChannels (s : State) x (u : UnitId) : State.unitChannels { s with port := x } u = s.unitChannels u := rfl
@[simp] theorem State.with_initialized_channel (s : State) x (ch : ChannelId) : State.channel { s with initialized := x } ch = s.channel ch := rfl
@[simp] theorem State.with_initialized_unit (s : State) x (u : UnitId) : State.unit { s with initialized := x } u = s.unit u := rfl
@[simp] theorem State.with_initialized_unitChannels (s : State) x (u : UnitId) : State.unitChannels { s with initialized := x } u = s.unitChannels u := rfl
@[simp] theorem State.with_busAddr_channel (s : State) x (ch : ChannelId) : State.channel { s with busAddr := x } ch = s.channel ch := rfl
@[simp] theorem State.with_busAddr_unit (s : State) x (u : UnitId) : State.unit { s with busAddr := x } u = s.unit u := rfl
@[simp] theorem State.with_busAddr_unitChannels (s : State) x (u : UnitId) : State.unitChannels { s with busAddr := x } u = s.unitChannels u := rfl
@[simp] theorem State.with_prescale_channel (s : State) x (ch : ChannelId) : State.channel { s with prescale := x } ch = s.channel ch := rfl
@[simp] theorem State.with_prescale_unit (s : State) x (u : UnitId) : State.unit { s with prescale := x } u = s.unit u := rfl
@[simp] theorem State.with_prescale_unitChannels (s : State) x (u : UnitId) : State.unitChannels { s with prescale := x } u = s.unitChannels u := rfl
@[simp] theorem State.with_freqActual_channel (s : State) x (ch : ChannelId) : State.channel { s with freqActual := x } ch = s.channel ch := rfl
@[simp] theorem State.with_freqActual_unit (s : State) x (u : UnitId) : State.unit { s with freqActual := x } u = s.unit u := rfl
@[simp] theorem State.with_freqActual_unitChannels (s : State) x (u : UnitId) : State.unitChannels { s with freqActual := x } u = s.unitChannels u := rfl
@[simp] theorem State.with_channels_unit (s : State) x (u : UnitId) : State.unit { s with channels := x } u = s.unit u := rfl
@[simp] theorem State.with_channels_unitChannels (s : State) x (u : UnitId) : State.unitChannels { s with channels := x } u = s.unitChannels u := rfl
@[simp] theorem State.with_busLock_channel (s : State) x (ch : ChannelId) : State.channel { s with busLock := x } ch = s.channel ch := rfl
@[simp] theorem State.with_busLock_unit (s : State) x (u : UnitId) : State.unit { s with busLock := x } u = s.unit u := rfl
@[simp] theorem State.with_busLock_unitChannels (s : State) x (u : UnitId) : State.unitChannels { s with busLock := x } u = s.unitChannels u := rfl
@[simp] theorem State.with_units_channel (s : State) x (ch : ChannelId) : State.channel { s with units := x } ch = s.channel ch := rfl
@[simp] theorem State.with_time_channel (s : State) x (ch : ChannelId) : State.channel { s with time := x } ch = s.channel ch := rfl
@[simp] theorem State.with_time_unit (s : State) x (u : UnitId) : State.unit { s with time := x } u = s.unit u := rfl
@[simp] theorem State.with_time_unitChannels (s : State) x (u : UnitId) : State.unitChannels { s with time := x } u = s.unitChannels u := rfl
@[simp] theorem State.with_expander_channel (s : State) x (ch : ChannelId) : State.channel { s with expander := x } ch = s.channel ch := rfl
@[simp] theorem State.with_expander_unit (s : State) x (u : UnitId) : State.unit { s with expander := x } u = s.unit u := rfl
@[simp] theorem State.with_expander_unitChannels (s : State) x (u : UnitId) : State.unitChannels { s with expander := x } u = s.unitChannels u := rfl
@[simp] theorem State.with_trace_channel (s : State) x (ch : ChannelId) : State.channel { s with trace := x } ch = s.channel ch := rfl
@[simp] theorem State.with_trace_unit (s : State) x (u : UnitId) : State.unit { s with trace := x } u = s.unit u := rfl
@[simp] theorem State.with_trace_unitChannels (s : State) x (u : UnitId) : State.unitChannels { s with trace := x } u = s.unitChannels u := rfl
@[simp] theorem State.with_responses_channel (s : State) x (ch : ChannelId) : State.channel { s with responses := x } ch = s.channel ch := rfl
@[simp] theorem State.with_responses_unit (s : State) x (u : UnitId) : State.unit { s with responses := x } u = s.unit u := rfl
@[simp] theorem State.with_responses_unitChannels (s : State) x (u : UnitId) : State.unitChannels { s with responses := x } u = s.unitChannels u := rfl
@[simp] theorem State.with_commands_channel (s : State) x (ch : ChannelId) : State.channel { s with commands := x } ch = s.channel ch := rfl
@[simp] theorem State.with_commands_unit (s : State) x (u : UnitId) : State.unit { s with commands := x } u = s.unit u := rfl
@[simp] theorem State.with_commands_unitChannels (s : State) x (u : UnitId) : State.unitChannels { s with commands := x } u = s.unitChannels u := rfl
@[simp] theorem State.with_sched_channel (s : State) x (ch : ChannelId) : State.channel { s with sched := x } ch = s.channel ch := rfl
@[simp] theorem State.with_sched_unit (s : State) x (u : UnitId) : State.unit { s with sched := x } u = s.unit u := rfl
@[simp] theorem State.with_sched_unitChannels (s : State) x (u : UnitId) : State.unitChannels { s with sched := x } u = s.unitChannels u := rfl
@[simp] theorem State.with_answers_channel (s : State) x (ch : ChannelId) : State.channel { s with answers := x } ch = s.channel ch := rfl
@[simp] theorem State.with_answers_unit (s : State) x (u : UnitId) : State.unit { s with answers := x } u = s.unit u := rfl
@[simp] theorem State.with_answers_unitChannels (s : State) x (u : UnitId) : State.unitChannels { s with answers := x } u = s.unitChannels u := rfl
@[simp] theorem State.with_round_channel (s : State) x (ch : ChannelId) : State.channel { s with round := x } ch = s.channel ch := rfl
@[simp] theorem State.with_schedDraws_channel (s : State) x (ch : ChannelId) : State.channel { s with schedDraws := x } ch = s.channel ch := rfl
@[simp] theorem State.with_round_unit (s : State) x (u : UnitId) : State.unit { s with round := x } u = s.unit u := rfl
@[simp] theorem State.with_schedDraws_unit (s : State) x (u : UnitId) : State.unit { s with schedDraws := x } u = s.unit u := rfl
@[simp] theorem State.with_round_unitChannels (s : State) x (u : UnitId) : State.unitChannels { s with round := x } u = s.unitChannels u := rfl
@[simp] theorem State.with_schedDraws_unitChannels (s : State) x (u : UnitId) : State.unitChannels { s with schedDraws := x } u = s.unitChannels u := rfl
@[simp] theorem State.with_answerDraws_channel (s : State) x (ch : ChannelId) : State.channel { s with answerDraws := x } ch = s.channel ch := rfl
@[simp] theorem State.with_answerDraws_unit (s : State) x (u : UnitId) : State.unit { s with answerDraws := x } u = s.unit u := rfl
@[simp] theorem State.with_answerDraws_unitChannels (s : State) x (u : UnitId) : State.unitChannels { s with answerDraws := x } u = s.unitChannels u := rfl

/-! ### What an update writes -/

theorem State.setChannel_channel (s : State) (ch ch' : ChannelId) (c : Channel) :
    (s.setChannel ch c).channel ch' = if ch = ch' then c else s.channel ch' := by
  simp [State.channel, State.setChannel, Vector.getElem_set, Fin.ext_iff]

@[simp] theorem State.setChannel_channel_self (s : State) (ch : ChannelId) (c : Channel) :
    (s.setChannel ch c).channel ch = c := by simp [State.setChannel_channel]

theorem State.setChannel_channel_ne (s : State) (ch ch' : ChannelId) (c : Channel) (h : ch ≠ ch') :
    (s.setChannel ch c).channel ch' = s.channel ch' := by simp [State.setChannel_channel, h]

theorem State.setUnit_unit (s : State) (u v : UnitId) (x : UnitState) :
    (s.setUnit u x).unit v = if u = v then x else s.unit v := by
  simp [State.unit, State.setUnit, Vector.getElem_set, Fin.ext_iff]

@[simp] theorem State.setUnit_unit_self (s : State) (u : UnitId) (x : UnitState) :
    (s.setUnit u x).unit u = x := by simp [State.setUnit_unit]

theorem State.setUnit_unit_ne (s : State) (u v : UnitId) (x : UnitState) (h : u ≠ v) :
    (s.setUnit u x).unit v = s.unit v := by simp [State.setUnit_unit, h]

theorem State.setOwner_channel (s : State) (ch ch' : ChannelId) (o : Owner) :
    (s.setOwner ch o).channel ch' = if ch = ch' then { s.channel ch' with owner := o } else s.channel ch' := by
  unfold State.setOwner; rw [State.setChannel_channel]; split <;> simp_all

theorem State.setDisabled_channel (s : State) (ch ch' : ChannelId) (b : Bool) :
    (s.setDisabled ch b).channel ch' = if ch = ch' then { s.channel ch' with disabled := b } else s.channel ch' := by
  unfold State.setDisabled; rw [State.setChannel_channel]; split <;> simp_all

theorem State.setSpec_channel (s : State) (ch ch' : ChannelId) (ratio : BitVec 13) (inv : Bool) :
    (s.setSpec ch ratio inv).channel ch' =
      if ch = ch' then { s.channel ch' with specRatio := ratio, specInv := inv } else s.channel ch' := by
  unfold State.setSpec; rw [State.setChannel_channel]; split <;> simp_all

theorem State.releaseChannel_channel (s : State) (ch ch' : ChannelId) :
    (s.releaseChannel ch).channel ch' =
      if ch = ch' then { s.channel ch' with owner := .free, disabled := false, specRatio := 0, specInv := false }
      else s.channel ch' := by
  unfold State.releaseChannel; rw [State.setChannel_channel]; split <;> simp_all

@[simp] theorem State.releaseChannel_unit (s : State) (ch : ChannelId) (v : UnitId) :
    (s.releaseChannel ch).unit v = s.unit v := rfl

@[simp] theorem State.releaseChannel_unitChannels (s : State) (ch : ChannelId) (v : UnitId) :
    (s.releaseChannel ch).unitChannels v = s.unitChannels v := rfl

theorem State.setOwners_channel (s : State) (chs : List ChannelId) (o : Owner) (ch' : ChannelId) :
    (s.setOwners chs o).channel ch' = if ch' ∈ chs then { s.channel ch' with owner := o } else s.channel ch' := by
  induction chs generalizing s with
  | nil => simp [State.setOwners]
  | cons c cs ih =>
    have h : s.setOwners (c :: cs) o = (s.setOwner c o).setOwners cs o := rfl
    rw [h, ih, State.setOwner_channel]
    by_cases e : c = ch'
    · subst e; simp
    · have : ch' ≠ c := fun h => e h.symm
      simp [e, this]

@[simp] theorem State.invalidateImages_channel (s : State) (ch : ChannelId) :
    s.invalidateImages.channel ch = { s.channel ch with imageValid := false } := by
  simp [State.channel, State.invalidateImages]

@[simp] theorem State.advanceIndex_unit (s : State) (u v : UnitId) (dir : Dir) :
    (s.advanceIndex u dir).unit v =
      if u = v then { s.unit v with index := nextIndex (s.unit v) dir } else s.unit v := by
  unfold State.advanceIndex; rw [State.setUnit_unit]; split <;> simp_all

@[simp] theorem State.failStep_unit (s : State) (u v : UnitId) :
    (s.failStep u).unit v =
      if u = v then { (s.unit v).invalidateLast with busErr := true } else s.unit v := by
  unfold State.failStep; rw [State.setUnit_unit]; split <;> simp_all

@[simp] theorem State.respond_port (s : State) (code : Nat) (value : Value) : (s.respond code value).port = .idle := rfl
@[simp] theorem State.respond_responses (s : State) (code : Nat) (value : Value) :
    (s.respond code value).responses = s.responses ++ [responseWord code value] := rfl
@[simp] theorem State.respondOk_port (s : State) (value : Value) : (s.respondOk value).port = .idle := rfl
@[simp] theorem State.respondOk_responses (s : State) (value : Value) :
    (s.respondOk value).responses = s.responses ++ [responseWord 0 value] := rfl
@[simp] theorem State.raise_port (s : State) (e : Err) (info : Value) : (s.raise e info).port = .idle := rfl
@[simp] theorem State.raise_responses (s : State) (e : Err) (info : Value) :
    (s.raise e info).responses = s.responses ++ [responseWord e.code info] := by simp [State.raise]
@[simp] theorem State.conclude_port (s : State) (r : Answer) (value : Value) : (s.conclude r value).port = .idle := by
  cases r <;> simp [State.conclude]
@[simp] theorem State.unlock_busLock (s : State) : s.unlock.busLock = .free := rfl

theorem State.releasePort_busLock (s : State) :
    s.releasePort.busLock = if s.busLock = .port then .free else s.busLock := by
  unfold State.releasePort; split <;> simp_all

theorem State.raise_busLock (s : State) (e : Err) (info : Value) :
    (s.raise e info).busLock = if s.busLock = .port then .free else s.busLock := by
  simp [State.raise, State.releasePort_busLock]

/-- A command that ends with the lock free keeps it free. -/
theorem State.conclude_busLock_of_free (s : State) (r : Answer) (value : Value) (h : s.busLock = .free) :
    (s.conclude r value).busLock = .free := by
  cases r <;> simp [State.conclude, State.raise_busLock, h]

@[simp] theorem State.writeImage_busLock (s : State) (a : Agent) (w : PendingWrite) :
    (s.writeImage a w).2.busLock = .free := rfl

/-- The channel a WriteImage aims at, and every other channel, after its answer (R31, R91). -/
theorem State.writeImage_channel (s : State) (a : Agent) (w : PendingWrite) (ch : ChannelId) :
    (s.writeImage a w).2.channel ch =
      if w.ch = ch then (s.channel ch).answered w.image (s.writeImage a w).1 else s.channel ch := by
  unfold State.writeImage; rw [State.setChannel_channel]; split <;> simp_all

/-- A WriteImage appends one transaction to the trace (R67). -/
theorem State.writeImage_trace (s : State) (a : Agent) (w : PendingWrite) :
    (s.writeImage a w).2.trace = s.trace ++ [⟨a, s.time, s.writeOp w, (s.writeImage a w).1⟩] := rfl

theorem State.writeImage_expander (s : State) (a : Agent) (w : PendingWrite) :
    (s.writeImage a w).2.expander = s.expander.after (s.writeOp w) (s.writeImage a w).1 := rfl

theorem State.transact_trace (s : State) (a : Agent) (op : BusOp) :
    (s.transact a op).2.trace = s.trace ++ [⟨a, s.time, op, (s.transact a op).1⟩] := rfl

theorem State.transact_expander (s : State) (a : Agent) (op : BusOp) :
    (s.transact a op).2.expander = s.expander.after op (s.transact a op).1 := rfl

/-- With an answer queued, the transport gives it (R64). -/
theorem State.nextAnswer_cons (s : State) (r : Answer) (rs : List Answer) (h : s.answers = r :: rs) :
    s.nextAnswer = (r, { s with answers := rs }) := by
  simp [State.nextAnswer, h]

/-! ### Any record update

A State written with some fields replaced reads its channels and units from the vectors it holds. -/

@[simp] theorem State.getElem_units (s : State) (u : UnitId) : s.units[u.val] = s.unit u := rfl
@[simp] theorem State.getElem_channels (s : State) (ch : ChannelId) : s.channels[ch.val] = s.channel ch := rfl
@[simp] theorem State.mk_unit (u : UnitId) (cfg : Config) (port : PortState) (initialized : Bool) (busAddr : BitVec 7) (prescale : Byte) (freqActual :
    BitVec 16) (channels : Vector Channel 16) (busLock : BusLock) (units : Vector UnitState 2) (time : BitVec 64)
    (expander : Memory) (trace : List Transaction) (responses : List Word) (commands : List Word) (sched : List
    Choice) (answers : List Answer) (round : List Choice) (schedDraws : Nat) (answerDraws : Nat) :
    (State.mk cfg port initialized busAddr prescale freqActual channels busLock units time expander trace responses commands sched answers round schedDraws answerDraws).unit u = units[u.val] := rfl
@[simp] theorem State.mk_channel (ch : ChannelId) (cfg : Config) (port : PortState) (initialized : Bool) (busAddr : BitVec 7) (prescale : Byte) (freqActual :
    BitVec 16) (channels : Vector Channel 16) (busLock : BusLock) (units : Vector UnitState 2) (time : BitVec 64)
    (expander : Memory) (trace : List Transaction) (responses : List Word) (commands : List Word) (sched : List
    Choice) (answers : List Answer) (round : List Choice) (schedDraws : Nat) (answerDraws : Nat) :
    (State.mk cfg port initialized busAddr prescale freqActual channels busLock units time expander trace responses commands sched answers round schedDraws answerDraws).channel ch = channels[ch.val] := rfl

end Sys2Proof.Machine
end

