-- ==== Sys2Proof/Laws/Memory.lean ====
section
/-! SUPPORT. The laws of the expander memory: read after write, and the canonical form that every operation keeps. -/

namespace Sys2Proof.Machine

theorem Memory.read_write_self (m : Memory) (a : Nat) (b : Byte) : (m.write a b).read a = some b := by
  induction m with
  | nil => simp [Memory.write, Memory.read]
  | cons e m ih =>
    obtain ⟨k, x⟩ := e
    unfold Memory.write
    split
    · simp [Memory.read]
    · split
      · simp [Memory.read]
      · have : ¬k = a := fun h => by omega
        simp [Memory.read, this, ih]

theorem Memory.read_write_ne (m : Memory) (a a' : Nat) (b : Byte) (h : a ≠ a') :
    (m.write a b).read a' = m.read a' := by
  induction m with
  | nil => simp [Memory.write, Memory.read, h]
  | cons e m ih =>
    obtain ⟨k, x⟩ := e
    unfold Memory.write
    split
    · simp [Memory.read, h]
    · split
      · subst_vars; simp [Memory.read, h]
      · simp [Memory.read, ih]

/-- Forgetting a list of addresses leaves every other one as it was. -/
theorem Memory.read_forgetAll (m : Memory) (as : List Nat) (a : Nat) :
    (m.forgetAll as).read a = if a ∈ as then none else m.read a := by
  induction m with
  | nil => simp [Memory.forgetAll, Memory.read]
  | cons e m ih =>
    obtain ⟨k, x⟩ := e
    simp only [Memory.forgetAll, List.contains_eq_mem] at ih
    by_cases hk : k ∈ as
    · have : a ∉ as → k ≠ a := fun h e => h (e ▸ hk)
      by_cases ha : a ∈ as
      · simp [Memory.forgetAll, hk, ha] at ih ⊢; exact ih
      · simp [Memory.forgetAll, Memory.read, hk, ha, this ha] at ih ⊢; exact ih
    · by_cases ha : k = a
      · subst ha; simp [Memory.forgetAll, Memory.read, hk]
      · simp [Memory.forgetAll, Memory.read, hk, ha] at ih ⊢; exact ih

theorem Memory.forgetAll_wf (m : Memory) (as : List Nat) (h : m.wf) : (m.forgetAll as).wf := List.Pairwise.filter _ h

/-- Every address of a written memory is the one written or was there before. -/
theorem Memory.mem_write (m : Memory) (a : Nat) (b : Byte) (e : Host.Cell) (h : e ∈ m.write a b) :
    e = (a, b) ∨ e ∈ m := by
  induction m with
  | nil => simpa [Memory.write] using h
  | cons x m ih =>
    obtain ⟨k, y⟩ := x
    unfold Memory.write at h
    split at h
    · simp_all
    · split at h
      · simp_all; tauto
      · rcases List.mem_cons.1 h with h | h
        · simp [h]
        · rcases ih h with h | h <;> simp [h]

theorem Memory.write_wf (m : Memory) (a : Nat) (b : Byte) (h : m.wf) : (m.write a b).wf := by
  induction m with
  | nil => simp [Memory.write, Memory.wf]
  | cons x m ih =>
    obtain ⟨k, y⟩ := x
    have hm := List.pairwise_cons.1 h
    unfold Memory.write
    split
    · rename_i hlt
      refine List.pairwise_cons.2 ⟨fun e he => ?_, h⟩
      rcases List.mem_cons.1 he with he | he
      · subst he; exact hlt
      · exact Nat.lt_trans hlt (hm.1 e he)
    · split
      · subst_vars; exact List.pairwise_cons.2 ⟨hm.1, hm.2⟩
      · refine List.pairwise_cons.2 ⟨fun e he => ?_, ih hm.2⟩
        rcases Memory.mem_write m a b e he with he | he
        · subst he; simp only; omega
        · exact hm.1 e he

theorem Memory.storeAt_wf (m : Memory) (addr : BitVec 7) (reg : Byte) (k : Nat) (bs : List Byte) (h : m.wf) :
    (m.storeAt addr reg k bs).wf := by
  induction bs generalizing k with
  | nil => exact h
  | cons b bs ih => exact Memory.write_wf _ _ _ (ih (k + 1))

/-- Every transaction keeps the memory's canonical form. -/
theorem Memory.after_wf (m : Memory) (op : BusOp) (r : Answer) (h : m.wf) : (m.after op r).wf := by
  cases op with
  | generalCall d => exact List.Pairwise.nil
  | write addr reg data =>
    by_cases hr : r = .ack
    · simpa [Memory.after, hr] using Memory.storeAt_wf m addr reg 0 data h
    · simp [Memory.after, hr]

theorem State.resetWith_expander_wf (c : Config) : (State.resetWith c).expander.wf := List.Pairwise.nil

/-- Bytes put at registers that do not include address a leave a as it was (R63). -/
theorem Memory.read_storeAt_of_ne (m : Memory) (addr : BitVec 7) (reg : Byte) (bs : List Byte) (a : Nat) (k : Nat)
    (h : ∀ j < bs.length, cellAddr addr reg (k + j) ≠ a) : (m.storeAt addr reg k bs).read a = m.read a := by
  induction bs generalizing k with
  | nil => rfl
  | cons b bs ih =>
    have h0 := h 0 (by simp)
    simp only [Memory.storeAt]
    rw [Memory.read_write_ne _ _ _ _ (by simpa using h0)]
    refine ih (k + 1) fun j hj => ?_
    have := h (j + 1) (by simpa using hj)
    rwa [Nat.add_assoc, Nat.add_comm 1 j]

/-- An acknowledged write that does not address a register leaves it as it was (R63). -/
theorem Memory.read_after_of_ne (m : Memory) (addr : BitVec 7) (reg : Byte) (data : List Byte) (a : Nat)
    (h : ∀ j < data.length, cellAddr addr reg j ≠ a) : (m.after (.write addr reg data) .ack).read a = m.read a := by
  simpa [Memory.after] using m.read_storeAt_of_ne addr reg data a 0 (by simpa using h)

/-- After a transaction that was not acknowledged no register is known (R64, item U5). -/
theorem Memory.after_of_ne_ack (m : Memory) (op : BusOp) (r : Answer) (h : r ≠ .ack) : m.after op r = [] := by
  cases op <;> simp [Memory.after, h]

end Sys2Proof.Machine
end

