-- ==== Sys2Proof/Laws/Ops.lean ====
section
/-! SUPPORT. What each shared operation can do, said once: the checks, the operations of Step, the run along a
schedule, and the step itself. -/

namespace Sys2Proof.Machine

/-! ### Checks -/

theorem firstError_eq_none (cs : List (Option Err)) : firstError cs = none ↔ ∀ c ∈ cs, c = none := by
  induction cs with
  | nil => simp [firstError]
  | cons c cs ih => cases c <;> simp [firstError, ih]

@[simp] theorem require_eq_none (p : Bool) (e : Err) : require p e = none ↔ p = true := by
  cases p <;> simp [require]

@[simp] theorem State.needInit_eq_none (s : State) : s.needInit = none ↔ s.initialized = true := by
  simp [State.needInit]

@[simp] theorem State.needFree_eq_none (s : State) (ch : ChannelId) :
    s.needFree ch = none ↔ (s.channel ch).owner = .free := by simp [State.needFree]

@[simp] theorem State.hostOwn_eq_none (s : State) (ch : ChannelId) :
    s.hostOwn ch = none ↔ (s.channel ch).owner = .host := by
  unfold State.hostOwn; cases (s.channel ch).owner <;> simp

@[simp] theorem State.needBound_eq_none (s : State) (u : UnitId) :
    s.needBound u = none ↔ (s.unit u).bound = true := by simp [State.needBound]

@[simp] theorem State.needIdle_eq_none (s : State) (u : UnitId) :
    s.needIdle u = none ↔ (s.unit u).run ≠ .running := by simp [State.needIdle]

@[simp] theorem State.needReady_eq_none (s : State) (u : UnitId) :
    s.needReady u = none ↔ (s.unit u).ready = true := by simp [State.needReady]

@[simp] theorem State.needNoBusErr_eq_none (s : State) (u : UnitId) :
    s.needNoBusErr u = none ↔ (s.unit u).busErr = false := by simp [State.needNoBusErr]

@[simp] theorem fractionOk_eq_none (frac : Nat) : fractionOk frac = none ↔ frac ≤ 65536 := by
  unfold fractionOk one; rw [require_eq_none, decide_eq_true_iff]

/-- A checked command raises the first failing check with VALUE 0, or every check holds and it goes on (R140, R143). -/
theorem State.checked_cases (s : State) (cs : List (Option Err)) (k : State) :
    (∃ e, s.checked cs k = s.raise e 0) ∨ (∀ c ∈ cs, c = none) ∧ s.checked cs k = k := by
  unfold State.checked
  cases h : firstError cs with
  | some e => exact .inl ⟨e, rfl⟩
  | none => exact .inr ⟨(firstError_eq_none cs).1 h, rfl⟩

/-- Every check holds, so the command goes on. -/
theorem State.checked_of_none (s : State) (cs : List (Option Err)) (k : State) (h : ∀ c ∈ cs, c = none) :
    s.checked cs k = k := by
  unfold State.checked; rw [(firstError_eq_none cs).2 h]

/-- A unit command raises ConfigurationError for a unit number past NUM_UNITS, and goes on for the others (R118). -/
theorem State.withUnit_cases (s : State) (n : Nat) (k : UnitId → State) :
    (unitNumbered s.cfg n = none ∧ s.withUnit n k = s.raise .configuration 0) ∨
    ∃ u, unitNumbered s.cfg n = some u ∧ s.withUnit n k = k u := by
  unfold State.withUnit
  cases h : unitNumbered s.cfg n with
  | none => exact .inl ⟨rfl, rfl⟩
  | some u => exact .inr ⟨u, rfl, rfl⟩

theorem State.withUnit_of_some (s : State) (n : Nat) (k : UnitId → State) (u : UnitId)
    (h : unitNumbered s.cfg n = some u) : s.withUnit n k = k u := by
  unfold State.withUnit; rw [h]

/-- A unit number names a unit exactly when it is below NUM_UNITS (R118). -/
theorem unitNumbered_iff (c : Config) (n : Nat) (u : UnitId) :
    unitNumbered c n = some u ↔ n < c.units.toNat ∧ u.val = n := by
  have hu := u.isLt
  unfold unitNumbered
  match n, hc : c.units with
  | 0, .one => simp only [Option.some.injEq, UnitCount.toNat, Fin.ext_iff]; constructor <;> intro h <;> simp_all
  | 0, .two => simp only [Option.some.injEq, UnitCount.toNat, Fin.ext_iff]; constructor <;> intro h <;> simp_all
  | 1, .one => simp only [reduceCtorEq, UnitCount.toNat, false_iff]; omega
  | 1, .two =>
    simp only [Option.some.injEq, UnitCount.toNat, Fin.ext_iff, Fin.val_one]; constructor <;> intro h <;> omega
  | n + 2, .one => simp only [reduceCtorEq, UnitCount.toNat, false_iff]; omega
  | n + 2, .two => simp only [reduceCtorEq, UnitCount.toNat, false_iff]; omega

/-! ### The operations of Step -/

/-- What carrying a Step on keeps: a property that storing a spec and recording a LAST keep. -/
theorem runOps_keeps (P : State → Prop) (u : UnitId)
    (hrec : ∀ s c ratio pol, P s → P (s.setUnit u ((s.unit u).setLast c ⟨true, ratio, pol⟩)))
    (hspec : ∀ s ch ratio, P s → P (s.setSpec ch ratio false)) (ops : List StepOp) (s : State) (h : P s) :
    P (runOps u ops s).2 := by
  induction ops generalizing s with
  | nil => exact h
  | cons op ops ih =>
    cases op with
    | record c ratio pol => exact ih _ (hrec s c ratio pol h)
    | apply ch ratio =>
      unfold runOps
      split
      · exact ih _ (hspec s ch ratio h)
      · exact hspec s ch ratio h

/-- The job that carrying a Step on leaves: the image is one ApplyChannel asks for, the lock is not yet taken, and the
operations left are some of those given (R91, R115). -/
theorem runOps_job (u : UnitId) (ops : List StepOp) (s : State) (job : StepJob) (h : (runOps u ops s).1 = some job) :
    ∃ ch ratio, job.write = pendingApply ch ratio false ∧ StepOp.apply ch ratio ∈ ops ∧ job.rest ⊆ ops := by
  induction ops generalizing s with
  | nil => simp [runOps] at h
  | cons op ops ih =>
    cases op with
    | record c ratio pol =>
      obtain ⟨ch, r, h1, h2, h3⟩ := ih _ h
      exact ⟨ch, r, h1, by simp [h2], fun x hx => by simp [h3 hx]⟩
    | apply ch ratio =>
      unfold runOps at h
      split at h
      · obtain ⟨ch', r, h1, h2, h3⟩ := ih _ h
        exact ⟨ch', r, h1, by simp [h2], fun x hx => by simp [h3 hx]⟩
      · simp only [Option.some.injEq] at h
        subst h
        exact ⟨ch, ratio, rfl, by simp, fun x hx => by simp [hx]⟩

/-- Carrying a Step on changes channels' specs and the unit's LAST, and nothing else. -/
theorem runOps_frame (u : UnitId) (ops : List StepOp) (s : State) :
    (runOps u ops s).2 = { s with channels := (runOps u ops s).2.channels, units := (runOps u ops s).2.units } := by
  refine runOps_keeps (fun t => t = { s with channels := t.channels, units := t.units }) u ?_ ?_ ops s rfl
  · intro t c r p ht; rw [ht]; rfl
  · intro t ch r ht; rw [ht]; rfl

/-! ### The run along a schedule -/

/-- What every step of an agent keeps while the port is Busy, and what does not depend on the schedule, the rest of a
command keeps (R20). -/
theorem State.driveOver_keeps (P : State → Prop) (hsched : ∀ s cs, P s → P { s with sched := cs })
    (hmove : ∀ s c, P s → s.port ≠ .idle → P (s.move c)) (cs : List Choice) (s : State) (h : P s) :
    P (s.driveOver cs) := by
  induction cs generalizing s with
  | nil => exact hsched s [] h
  | cons c cs ih =>
    unfold State.driveOver
    split
    · exact hsched s _ h
    · rename_i job hp
      exact ih _ (hmove s c h (by simp [hp]))

theorem State.drive_keeps (P : State → Prop) (hsched : ∀ s cs, P s → P { s with sched := cs })
    (hmove : ∀ s c, P s → s.port ≠ .idle → P (s.move c)) (s : State) (h : P s) : P s.drive :=
  State.driveOver_keeps P hsched hmove s.sched s h

/-- One turn of the rest of a command. -/
theorem State.driveOver_cons_of_busy (s : State) (job : PortJob) (c : Choice) (cs : List Choice)
    (h : s.port = .busy job) : s.driveOver (c :: cs) = (s.move c).driveOver cs := by
  conv_lhs => unfold State.driveOver
  simp [h]

theorem State.driveOver_of_idle (s : State) (cs : List Choice) (h : s.port = .idle) :
    s.driveOver cs = { s with sched := cs } := by
  cases cs with
  | nil => rfl
  | cons c cs => unfold State.driveOver; simp [h]

/-- An Idle port has nothing left to run: the rest of its command is over. -/
theorem State.drive_of_idle (s : State) (h : s.port = .idle) : s.drive = s := State.driveOver_of_idle s s.sched h

/-! ### The agents' steps -/

@[simp] theorem State.move_tick (s : State) : s.move .tick = s.tick := rfl
@[simp] theorem State.move_loop (s : State) (u : UnitId) : s.move (.loop u) = s.loopStep u := rfl
theorem State.move_port_of_busy (s : State) (job : PortJob) (h : s.port = .busy job) :
    s.move .port = s.portStep job := by simp [State.move, h]
theorem State.move_port_of_idle (s : State) (h : s.port = .idle) : s.move .port = s := by simp [State.move, h]

theorem PortState.tick_idle : PortState.tick .idle = .idle := rfl

/-- A loop with a Step under way writes; between Steps it runs Accum or Spin; it is inactive unless Running (R126 to
R128). -/
theorem State.loopStep_cases (s : State) (u : UnitId) :
    ((s.unit u).run ≠ .running ∧ s.loopStep u = s) ∨
    (s.unit u).run = .running ∧
      ((∃ job, (s.unit u).stepJob = some job ∧ s.loopStep u = s.loopWrite u job) ∨
       (s.unit u).stepJob = none ∧
        (((s.unit u).phase = .accum ∧ s.loopStep u = s.setUnit u (s.unit u).accum) ∨
         ((s.unit u).phase = .spin ∧ s.loopStep u = s.spin u))) := by
  unfold State.loopStep
  by_cases hr : (s.unit u).run = .running
  · right
    refine ⟨hr, ?_⟩
    cases hj : (s.unit u).stepJob with
    | some job => exact .inl ⟨job, rfl, by simp [hr, hj]⟩
    | none => cases hp : (s.unit u).phase <;> simp [hr, hj, hp]
  · exact .inl ⟨hr, by simp [hr]⟩

/-- Spin holds, ends or cools the run, or takes the due step (R127). -/
theorem State.spin_cases (s : State) (u : UnitId) :
    ((s.unit u).cancelSeen = true ∧
      s.spin u = s.setUnit u (if (s.unit u).policyApplies then { s.unit u with cooling := true } else (s.unit u).finish)) ∨
    ((s.unit u).cancelSeen = false ∧ (s.unit u).deadline ≤ s.time ∧ s.spin u = s.stepDue u) ∨
    ((s.unit u).cancelSeen = false ∧ ¬(s.unit u).deadline ≤ s.time ∧ s.spin u = s) := by
  unfold State.spin
  cases hc : (s.unit u).cancelSeen
  · by_cases hd : (s.unit u).deadline ≤ s.time <;> simp [hc, hd]
  · simp [hc]

/-- Every outcome of Accum (R126, R129): the run ends, or a deadline is set, with COOLING set where the policy
overrides a cancellation. -/
theorem UnitState.accum_cases (x : UnitState) :
    x.accum = x.finish ∨
    x.accum = { x with deadline := x.deadline + BitVec.setWidth 64 x.tps, phase := .spin } ∨
    x.accum = { x with cooling := true, deadline := x.deadline + BitVec.setWidth 64 x.tps, phase := .spin } := by
  have fin : ({ x with cooling := true } : UnitState).finish = x.finish := rfl
  unfold UnitState.accum UnitState.accumRest
  rw [fin]
  split_ifs <;> simp_all

/-- The step of the machine, by whose turn it is (R20, R23). -/
theorem step_cases (s : State) :
    (s.nextChoice.1 = .port ∧ s.port = .idle ∧ step s = s.nextChoice.2.acceptStep) ∨
    ((s.nextChoice.1 ≠ .port ∨ s.port ≠ .idle) ∧ step s = .next (s.nextChoice.2.move s.nextChoice.1)) := by
  unfold step
  split
  · rename_i h1 h2; exact .inl ⟨h1, h2, rfl⟩
  · rename_i h
    refine .inr ⟨?_, rfl⟩
    by_contra hn
    push Not at hn
    exact h hn.1 hn.2

/-- Every instruction's outcome is a next state: the block never stops (R140). -/
theorem exec_next (i : Instr) (s : State) : ∃ t, exec i s = .next t := by
  cases i <;> exact ⟨_, rfl⟩

/-- Every step's outcome is a next state: the block never stops (R140, R147). -/
theorem step_next (s : State) : ∃ t, step s = .next t := by
  rcases step_cases s with ⟨-, -, h⟩ | ⟨-, h⟩
  · rw [h]
    unfold State.acceptStep
    cases s.nextChoice.2.takeWord with
    | none => exact ⟨_, rfl⟩
    | some p =>
      obtain ⟨w, s'⟩ := p
      cases hd : decode w with
      | ok i => simpa [hd] using exec_next i s'
      | error e => exact ⟨_, by simp [hd]; rfl⟩
  · exact ⟨_, h⟩

/-- An invariant of the machine, from what keeps it (R20): it does not depend on the schedule, the draws or the words
waiting; every step of an agent keeps it; so does the answer IllegalCommand; so does every instruction that a word decodes to
and an Idle port executes. -/
theorem step_keeps (P : State → Prop) (hsched : ∀ s cs, P s → P { s with sched := cs })
    (hdraws : ∀ s r n, P s → P { s with round := r, schedDraws := n }) (hcmd : ∀ s ws, P s → P { s with commands := ws })
    (hmove : ∀ s c, P s → P (s.move c)) (hill : ∀ s, P s → s.port = .idle → P (s.raise .illegalCommand 0))
    (hexec : ∀ w i s t, decode w = .ok i → P s → s.port = .idle → exec i s = .next t → P t) (s t : State) (h : P s)
    (ht : step s = .next t) : P t := by
  have hc : P s.nextChoice.2 := by
    unfold State.nextChoice
    split
    · exact hsched s _ h
    · exact hdraws s _ s.schedDraws h
    · exact hdraws s _ _ h
  rcases step_cases s with ⟨-, hp, he⟩ | ⟨-, he⟩
  · rw [he] at ht
    have hp' : s.nextChoice.2.port = .idle := by simpa using hp
    revert ht
    unfold State.acceptStep State.takeWord
    cases hcs : s.nextChoice.2.commands with
    | nil => intro ht; injection ht with ht; exact ht ▸ hc
    | cons w ws =>
      have hw := hcmd _ ws hc
      simp only
      cases hd : decode w with
      | ok i => intro ht; exact hexec w i _ t hd hw hp' ht
      | error e => intro ht; injection ht with ht; exact ht ▸ hill _ hw hp'
  · rw [he] at ht
    injection ht with ht
    exact ht ▸ hmove _ _ hc

end Sys2Proof.Machine
end

