-- ==== Sys2Proof/Laws/Agents.lean ====
section
/-! SUPPORT. What each step of an agent can do, said once: the shared parts of the port's commands and of the pacing
loop. -/

namespace Sys2Proof.Machine

/-! ### The lock -/

/-- Lock() is taken only from Free; otherwise nothing happens (R66). -/
theorem State.lockThen_cases (s : State) (a : Agent) (k : State → State) :
    (s.busLock = .free ∧ s.lockThen a k = k { s with busLock := a.lock }) ∨ (s.busLock ≠ .free ∧ s.lockThen a k = s) := by
  unfold State.lockThen
  by_cases h : s.busLock = .free <;> simp [h]

/-- A channel write of the port takes the lock, holds for it, or transacts (R66, R91). -/
theorem State.portWrite_cases (s : State) (w : PendingWrite) (stay : PendingWrite → PortJob) (k : Answer → State → State) :
    (w.locked = true ∧ s.portWrite w stay k = k (s.writeImage .port w).1 (s.writeImage .port w).2) ∨
    (w.locked = false ∧ s.busLock = .free ∧
      s.portWrite w stay k = { s with busLock := .port, port := .busy (stay w.lock) }) ∨
    (w.locked = false ∧ s.busLock ≠ .free ∧ s.portWrite w stay k = s) := by
  unfold State.portWrite
  cases hw : w.locked
  · rcases s.lockThen_cases .port (fun s => { s with port := .busy (stay w.lock) }) with ⟨h, he⟩ | ⟨h, he⟩
    · exact .inr (.inl ⟨rfl, h, by simpa [Agent.lock] using he⟩)
    · exact .inr (.inr ⟨rfl, h, by simpa using he⟩)
  · exact .inl ⟨rfl, by simp⟩

/-- A channel write of a loop takes the lock, holds for it, or transacts (R66, R91). -/
theorem State.loopWrite_cases (s : State) (u : UnitId) (job : StepJob) :
    (job.write.locked = true ∧ s.loopWrite u job =
      (s.writeImage (.loop u) job.write).2.loopStepAnswered u job.rest (s.writeImage (.loop u) job.write).1) ∨
    (job.write.locked = false ∧ s.busLock = .free ∧ s.loopWrite u job =
      State.setUnit { s with busLock := .loop u } u
        { s.unit u with stepJob := some ⟨{ job.write with locked := true }, job.rest⟩ }) ∨
    (job.write.locked = false ∧ s.busLock ≠ .free ∧ s.loopWrite u job = s) := by
  unfold State.loopWrite
  cases hw : job.write.locked
  · by_cases h : s.busLock = .free
    · exact .inr (.inl ⟨rfl, h, by simp [State.lockThen, h, Agent.lock]⟩)
    · exact .inr (.inr ⟨rfl, h, by simp [State.lockThen, h]⟩)
  · exact .inl ⟨rfl, by simp⟩

/-! ### Step -/

/-- Carrying a Step on leaves every unit's RUN and its paced Step as they were. -/
theorem runOps_run (u : UnitId) (ops : List StepOp) (s : State) (v : UnitId) :
    ((runOps u ops s).2.unit v).run = (s.unit v).run ∧ ((runOps u ops s).2.unit v).stepJob = (s.unit v).stepJob := by
  refine runOps_keeps
    (fun t => (t.unit v).run = (s.unit v).run ∧ (t.unit v).stepJob = (s.unit v).stepJob) u ?_ ?_ ops s ⟨rfl, rfl⟩
  · intro t c r p h
    rw [State.setUnit_unit]
    split
    · subst_vars; cases c <;> exact h
    · exact h
  · intro t ch r h; simpa using h

/-- Carrying a Step on leaves every other unit as it was. -/
theorem runOps_unit_of_ne (u : UnitId) (ops : List StepOp) (s : State) (v : UnitId) (h : v ≠ u) :
    (runOps u ops s).2.unit v = s.unit v := by
  refine runOps_keeps (fun t => t.unit v = s.unit v) u ?_ ?_ ops s rfl
  · intro t c r p ht; rw [State.setUnit_unit, if_neg (Ne.symm h)]; exact ht
  · intro t c r ht; simpa using ht

/-- Carrying a Step on leaves the owner, DISABLED and the shadow of every channel as they were. -/
theorem runOps_channel (u : UnitId) (ops : List StepOp) (s : State) (ch : ChannelId) :
    (runOps u ops s).2.channel ch =
      { s.channel ch with
        specRatio := ((runOps u ops s).2.channel ch).specRatio, specInv := ((runOps u ops s).2.channel ch).specInv } := by
  refine runOps_keeps
    (fun t => t.channel ch = { s.channel ch with specRatio := (t.channel ch).specRatio, specInv := (t.channel ch).specInv })
    u ?_ ?_ ops s rfl
  · intro t c r p ht; simpa using ht
  · intro t c r ht
    simp only [State.setSpec, State.setChannel_channel]
    split
    · subst_vars; rw [ht]
    · exact ht

/-- The next channel write of a Step has not taken the lock. -/
theorem runOps_job_unlocked (u : UnitId) (ops : List StepOp) (s : State) (job : StepJob)
    (h : (runOps u ops s).1 = some job) : job.write.locked = false := by
  obtain ⟨ch, r, h1, -⟩ := runOps_job u ops s job h
  rw [h1]; rfl

/-- NEXTSTEP's Step goes on to its next write, or responds with INDEX (R121). -/
theorem State.portStepOps_cases (s : State) (u : UnitId) (ops : List StepOp) :
    ((runOps u ops s).1 = none ∧ s.portStepOps u ops =
      (runOps u ops s).2.respondOk (packValue [(0, ((runOps u ops s).2.unit u).index.toNat)])) ∨
    ∃ job, (runOps u ops s).1 = some job ∧
      s.portStepOps u ops = { (runOps u ops s).2 with port := .busy (.step u job) } := by
  unfold State.portStepOps
  rcases runOps u ops s with ⟨job, t⟩
  cases job with
  | none => exact .inl ⟨rfl, rfl⟩
  | some job => exact .inr ⟨job, rfl, rfl⟩

/-- A paced Step goes on to its next write, or ends (R128). -/
theorem State.loopStepOps_cases (s : State) (u : UnitId) (ops : List StepOp) :
    ((runOps u ops s).1 = none ∧ s.loopStepOps u ops =
      (runOps u ops s).2.setUnit u ((runOps u ops s).2.unit u).stepDone) ∨
    ∃ job, (runOps u ops s).1 = some job ∧
      s.loopStepOps u ops =
        (runOps u ops s).2.setUnit u { (runOps u ops s).2.unit u with stepJob := some job } := by
  unfold State.loopStepOps
  rcases runOps u ops s with ⟨job, t⟩
  cases job with
  | none => exact .inl ⟨rfl, rfl⟩
  | some job => exact .inr ⟨job, rfl, rfl⟩

/-! ### DeEnergize and holds -/

/-- The cells of a unit are those of its six channels' registers. -/
theorem State.mem_unitCells (s : State) (u : UnitId) (a : Nat) :
    a ∈ s.unitCells u ↔ ∃ ch ∈ s.unitChannels u, ∃ k : Fin 4, a = s.imageCell ch k.val := by
  unfold State.unitCells
  simp only [List.mem_flatMap]
  refine exists_congr fun ch => and_congr_right fun _ => ?_
  constructor
  · intro h
    simp only [List.mem_cons, List.not_mem_nil, or_false] at h
    rcases h with h | h | h | h
    · exact ⟨0, h⟩
    · exact ⟨1, h⟩
    · exact ⟨2, h⟩
    · exact ⟨3, h⟩
  · rintro ⟨k, rfl⟩
    match k with
    | 0 => simp
    | 1 => simp
    | 2 => simp
    | 3 => simp

/-- The end of DeEnergize, by its command and by whether a write failed (R117, R123, R135). -/
theorem State.finishDeEnergize_cases (s : State) (u : UnitId) (why : DeEnergizeFor) (first : Answer) :
    (why = .stop ∧ first = .ack ∧ s.finishDeEnergize u why first =
      (s.setUnit u { (s.unit u).deEnergized .ack with run := .stopped }).respondOk 0) ∨
    (why = .stop ∧ first ≠ .ack ∧ s.finishDeEnergize u why first =
      ((s.forgetUnit u).setUnit u { (s.unit u).deEnergized first with run := .braking }).conclude first 0) ∨
    (why = .dispose ∧ first = .ack ∧ s.finishDeEnergize u why first =
      ((s.setOwners (s.unitChannels u) .free).setUnit u UnitState.reset).respondOk 0) ∨
    (why = .dispose ∧ first ≠ .ack ∧ s.finishDeEnergize u why first =
      (((s.forgetUnit u).setOwners (s.unitChannels u) .free).setUnit u UnitState.reset).conclude first 0) := by
  unfold State.finishDeEnergize
  cases why <;> by_cases h : first = .ack <;> simp [h, State.conclude]

@[simp] theorem State.setOwners_owner (s : State) (chs : List ChannelId) (o : Owner) (ch : ChannelId) :
    ((s.setOwners chs o).channel ch).owner = if ch ∈ chs then o else (s.channel ch).owner := by
  unfold State.setOwners
  induction chs generalizing s with
  | nil => simp
  | cons c cs ih =>
    rw [List.foldl_cons, ih]
    simp only [State.setOwner, State.setChannel_channel, List.mem_cons]
    by_cases h1 : ch ∈ cs <;> by_cases h2 : ch = c <;> simp [h1, h2, eq_comm]

/-- DeEnergize goes on past disabled channels to its next write, or ends (R117). -/
theorem State.deEnergizeFrom_cons (s : State) (u : UnitId) (why : DeEnergizeFor) (ch : ChannelId)
    (rest : List ChannelId) (first : Answer) :
    s.deEnergizeFrom u why (ch :: rest) first =
      if (s.channel ch).disabled then (s.setSpec ch 0 false).deEnergizeFrom u why rest first
      else { s.setSpec ch 0 false with port := .busy (.deEnergize u why (pendingApply ch 0 false) rest first) } := by
  conv_lhs => unfold State.deEnergizeFrom

@[simp] theorem State.deEnergizeFrom_nil (s : State) (u : UnitId) (why : DeEnergizeFor) (first : Answer) :
    s.deEnergizeFrom u why [] first = s.finishDeEnergize u why first := by unfold State.deEnergizeFrom; rfl

/-- A command on a run asks it to end and holds, or goes on at once (R123, R134, R135). -/
theorem State.endRun_cases (s : State) (u : UnitId) (why : HoldFor) :
    ((s.unit u).run = .running ∧
      s.endRun u why = { s.setUnit u { s.unit u with cancelReq := true } with port := .busy (.hold u why) }) ∨
    ((s.unit u).run ≠ .running ∧ s.endRun u why = s.afterHold u why) := by
  unfold State.endRun
  by_cases h : (s.unit u).run = .running <;> simp [h]

/-- ApplyChannel by the port stores the spec, then writes, or responds for a disabled channel (R91). -/
theorem State.portApply_cases (s : State) (ch : ChannelId) (ratio : BitVec 13) (inv : Bool) (value : Value) :
    ((s.channel ch).disabled = true ∧ s.portApply ch ratio inv value = (s.setSpec ch ratio inv).respondOk value) ∨
    ((s.channel ch).disabled = false ∧ s.portApply ch ratio inv value =
      { s.setSpec ch ratio inv with port := .busy (.channelWrite (pendingApply ch ratio inv) (.reply value)) }) := by
  have hd : ((s.setSpec ch ratio inv).channel ch).disabled = (s.channel ch).disabled := by
    simp [State.setSpec]
  unfold State.portApply
  cases h : (s.channel ch).disabled <;> simp [hd, h]

/-! ### The prescale sequence -/

/-- One step of ProgramPrescale (R90): the end, a transaction acknowledged, or a failure. -/
theorem State.prescaleStep_cases (s : State) (addr : BitVec 7) (p : Byte) (stage : PrescaleStage) (why : PrescaleFor) :
    (stage = .done ∧ s.prescaleStep addr p stage why = s.finishPrescale addr p why) ∨
    (stage ≠ .done ∧ ∃ t : Answer × State,
      t = s.transact .port (.write addr (BitVec.ofNat 8 (stageWrite s.cfg p stage).1) [(stageWrite s.cfg p stage).2]) ∧
      ((t.1 = .ack ∧ s.prescaleStep addr p stage why =
          { t.2 with
            port := .busy (.prescale addr p stage.next (if stage.settles then settleTicks s.cfg else 0) why) }) ∨
       (t.1 ≠ .ack ∧ s.prescaleStep addr p stage why = t.2.unlock.failPrescale stage why t.1))) := by
  by_cases hs : stage = .done
  · subst hs; exact .inl ⟨rfl, rfl⟩
  · refine .inr ⟨hs, _, rfl, ?_⟩
    have he : s.prescaleStep addr p stage why =
        if (s.transact .port (.write addr (BitVec.ofNat 8 (stageWrite s.cfg p stage).1)
            [(stageWrite s.cfg p stage).2])).1 = .ack then
          { (s.transact .port (.write addr (BitVec.ofNat 8 (stageWrite s.cfg p stage).1)
              [(stageWrite s.cfg p stage).2])).2 with
            port := .busy (.prescale addr p stage.next (if stage.settles then settleTicks s.cfg else 0) why) }
        else (s.transact .port (.write addr (BitVec.ofNat 8 (stageWrite s.cfg p stage).1)
            [(stageWrite s.cfg p stage).2])).2.unlock.failPrescale stage why
              (s.transact .port (.write addr (BitVec.ofNat 8 (stageWrite s.cfg p stage).1)
                [(stageWrite s.cfg p stage).2])).1 := by
      cases stage <;> first | rfl | exact absurd rfl hs
    rw [he]
    split
    · exact .inl ⟨by assumption, rfl⟩
    · exact .inr ⟨by assumption, rfl⟩

/-! ### The pacing loop and the port -/

/-- A paced Step leaves the port as it was. -/
@[simp] theorem State.loopStepOps_port (s : State) (u : UnitId) (ops : List StepOp) :
    (s.loopStepOps u ops).port = s.port := by
  have hf := congrArg State.port (runOps_frame u ops s)
  rcases s.loopStepOps_cases u ops with ⟨-, h⟩ | ⟨job, -, h⟩ <;> rw [h] <;> simpa using hf

/-- A pacing loop leaves the port as it was (R20). -/
@[simp] theorem State.loopStep_port (s : State) (u : UnitId) : (s.loopStep u).port = s.port := by
  rcases s.loopStep_cases u with ⟨-, he⟩ | ⟨-, ⟨job, -, he⟩ | ⟨-, ⟨-, he⟩ | ⟨-, he⟩⟩⟩ <;> rw [he]
  · rcases s.loopWrite_cases u job with ⟨-, h⟩ | ⟨-, -, h⟩ | ⟨-, -, h⟩ <;> rw [h]
    · unfold State.loopStepAnswered; split <;> simp
    · simp
  · rfl
  · rcases s.spin_cases u with ⟨-, h⟩ | ⟨-, -, h⟩ | ⟨-, -, h⟩ <;> rw [h]
    · rfl
    · unfold State.stepDue; simp

end Sys2Proof.Machine
end

