-- ==== Sys2Proof/Laws/Exec.lean ====
section
/-! SUPPORT. One lemma per command: if it answers next t, then it has raised an error with VALUE 0, or its checks hold
and t is its effect. -/

namespace Sys2Proof.Machine

/-- A checked command, by its outcome. -/
theorem State.checked_elim (s : State) (cs : List (Option Err)) (k t : State) (h : s.checked cs k = t) :
    (∃ e, t = s.raise e 0) ∨ (∀ c ∈ cs, c = none) ∧ t = k := by
  rcases s.checked_cases cs k with ⟨e, he⟩ | ⟨hc, he⟩
  · exact .inl ⟨e, by rw [← h, he]⟩
  · exact .inr ⟨hc, by rw [← h, he]⟩

/-- A checked unit command, by its outcome. -/
theorem State.withUnit_checked_elim (s : State) (n : Nat) (cs : UnitId → List (Option Err)) (k : UnitId → State)
    (t : State) (h : (s.withUnit n fun u => s.checked (cs u) (k u)) = t) :
    (∃ e, t = s.raise e 0) ∨ ∃ u, unitNumbered s.cfg n = some u ∧ (∀ c ∈ cs u, c = none) ∧ t = k u := by
  rcases State.withUnit_cases s n fun u => s.checked (cs u) (k u) with ⟨-, hw⟩ | ⟨u, hu, hw⟩
  · exact .inl ⟨.configuration, by rw [← h, hw]⟩
  · rcases s.checked_elim (cs u) (k u) t (by rw [← h, hw]) with he | ⟨hc, he⟩
    · exact .inl he
    · exact .inr ⟨u, hu, hc, he⟩

/-- INIT (R95). -/
theorem execInit_cases (addr7 : Nat) (s t : State) (h : execInit addr7 s = .next t) :
    (s.initialized = true ∧ t = s.respondOk 0) ∨
    s.initialized = false ∧ t = { s with port := .busy (.generalCall (BitVec.ofNat 7 addr7) false) }.drive := by
  injection h with h
  cases hi : s.initialized
  · simp [hi] at h; simp [← h]
  · simp [hi] at h; simp [← h]

/-- SETFREQ (R96). -/
theorem execSetfreq_cases (hz : Nat) (s t : State) (h : execSetfreq hz s = .next t) :
    (∃ e, t = s.raise e 0) ∨
    s.initialized = true ∧
      t = { s with port := .busy (.prescaleLock (BitVec.ofNat 8 (prescaleOf s.cfg.clockHz hz))) }.drive := by
  injection h with h
  rcases s.checked_elim _ _ _ h with he | ⟨hc, he⟩
  · exact .inl he
  · right; simp at hc; simp [hc, he]

/-- ACQ (R97). -/
theorem execAcq_cases (ch : ChannelId) (s t : State) (h : execAcq ch s = .next t) :
    (∃ e, t = s.raise e 0) ∨
    s.initialized = true ∧ (s.channel ch).owner = .free ∧
      t = (s.setOwner ch .host).respondOk 0 := by
  injection h with h
  rcases s.checked_elim _ _ _ h with he | ⟨hc, he⟩
  · exact .inl he
  · right; simp at hc; simp [hc, he]

/-- REL (R98). -/
theorem execRel_cases (ch : ChannelId) (s t : State) (h : execRel ch s = .next t) :
    (∃ e, t = s.raise e 0) ∨
    s.initialized = true ∧ (s.channel ch).owner = .host ∧
      t = { s with port := .busy (.channelWrite ⟨ch, fullOff, false⟩ .release) }.drive := by
  injection h with h
  rcases s.checked_elim _ _ _ h with he | ⟨hc, he⟩
  · exact .inl he
  · right; simp at hc; simp [hc, he]

/-- SETDUTY (R99). -/
theorem execSetduty_cases (ch : ChannelId) (frac : Nat) (inv : Bool) (s t : State) (h : execSetduty ch frac inv s = .next t) :
    (∃ e, t = s.raise e 0) ∨
    s.initialized = true ∧ (s.channel ch).owner = .host ∧ frac ≤ 65536 ∧
      t = (s.portApply ch (BitVec.ofNat 13 (ratioOf frac)) inv (packValue [(0, ratioOf frac)])).drive := by
  injection h with h
  rcases s.checked_elim _ _ _ h with he | ⟨hc, he⟩
  · exact .inl he
  · right; simp at hc; simp [hc, he]

/-- DISABLE (R100). -/
theorem execDisable_cases (ch : ChannelId) (s t : State) (h : execDisable ch s = .next t) :
    (∃ e, t = s.raise e 0) ∨
    s.initialized = true ∧ (s.channel ch).owner = .host ∧
      t = { s.setDisabled ch true with port := .busy (.channelWrite ⟨ch, fullOff, false⟩ (.reply 0)) }.drive := by
  injection h with h
  rcases s.checked_elim _ _ _ h with he | ⟨hc, he⟩
  · exact .inl he
  · right; simp at hc; simp [hc, he]

/-- ENABLE (R101). -/
theorem execEnable_cases (ch : ChannelId) (s t : State) (h : execEnable ch s = .next t) :
    (∃ e, t = s.raise e 0) ∨
    s.initialized = true ∧ (s.channel ch).owner = .host ∧
      t = ((s.setDisabled ch false).portApply ch (s.channel ch).specRatio (s.channel ch).specInv 0).drive := by
  injection h with h
  rcases s.checked_elim _ _ _ h with he | ⟨hc, he⟩
  · exact .inl he
  · right; simp at hc; simp [hc, he]

/-- CFGMOTOR (R119). -/
theorem execCfgmotor_cases (n pa pb spr : Nat) (s t : State) (h : execCfgmotor n pa pb spr s = .next t) :
    (∃ e, t = s.raise e 0) ∨ ∃ u : UnitId,
    unitNumbered s.cfg n = some u ∧ s.initialized = true ∧ (s.unit u).bound = false ∧ portsOk pa pb = true ∧ spr ≠ 0 ∧ s.allFree (bindingChannels s.cfg.portMap pa pb) = true ∧
      t = ((s.setOwners (bindingChannels s.cfg.portMap pa pb) (.unit u)).setUnit u ((s.unit u).bind pa pb spr)).respondOk 0 := by
  injection h with h
  rcases s.withUnit_checked_elim n _ _ _ h with he | ⟨u, hu, hc, he⟩
  · exact .inl he
  · right; refine ⟨u, ?_⟩; simp at hc; simp [hu, hc, he]

/-- SELSTYLE (R120). -/
theorem execSelstyle_cases (n : Nat) (sty : Style) (nms : Nat) (s t : State) (h : execSelstyle n sty nms s = .next t) :
    (∃ e, t = s.raise e 0) ∨ ∃ u : UnitId,
    unitNumbered s.cfg n = some u ∧ (s.unit u).bound = true ∧ (s.unit u).run ≠ .running ∧ nmsLegal sty nms = true ∧
      t = (s.setUnit u ((s.unit u).withStyle sty nms)).respondOk (packValue [(0, tableLen sty nms)]) := by
  injection h with h
  rcases s.withUnit_checked_elim n _ _ _ h with he | ⟨u, hu, hc, he⟩
  · exact .inl he
  · right; refine ⟨u, ?_⟩; simp at hc; simp [hu, hc, he]

/-- NEXTSTEP (R121). -/
theorem execNextstep_cases (n : Nat) (dir : Dir) (s t : State) (h : execNextstep n dir s = .next t) :
    (∃ e, t = s.raise e 0) ∨ ∃ u : UnitId,
    unitNumbered s.cfg n = some u ∧ (s.unit u).bound = true ∧ (s.unit u).run ≠ .running ∧ (s.unit u).ready = true ∧ (s.unit u).busErr = false ∧
      t = ((((s.setUnit u (s.unit u).handStep).advanceIndex u dir).portStepOps u (((s.setUnit u (s.unit u).handStep).advanceIndex u dir).stepOps u))).drive := by
  injection h with h
  rcases s.withUnit_checked_elim n _ _ _ h with he | ⟨u, hu, hc, he⟩
  · exact .inl he
  · right; refine ⟨u, ?_⟩; simp at hc; simp [hu, hc, he]

/-- SETPF (R122). -/
theorem execSetpf_cases (n pf : Nat) (s t : State) (h : execSetpf n pf s = .next t) :
    (∃ e, t = s.raise e 0) ∨ ∃ u : UnitId,
    unitNumbered s.cfg n = some u ∧ (s.unit u).bound = true ∧ pf ≤ 65536 ∧
      t = (s.setUnit u { s.unit u with pf := BitVec.ofNat 17 pf }).respondOk 0 := by
  injection h with h
  rcases s.withUnit_checked_elim n _ _ _ h with he | ⟨u, hu, hc, he⟩
  · exact .inl he
  · right; refine ⟨u, ?_⟩; simp at hc; simp [hu, hc, he]

/-- DISPOSE (R123). -/
theorem execDispose_cases (n : Nat) (s t : State) (h : execDispose n s = .next t) :
    (∃ e, t = s.raise e 0) ∨ ∃ u : UnitId,
    unitNumbered s.cfg n = some u ∧ (s.unit u).bound = true ∧
      t = (s.endRun u .dispose).drive := by
  injection h with h
  rcases s.withUnit_checked_elim n _ _ _ h with he | ⟨u, hu, hc, he⟩
  · exact .inl he
  · right; refine ⟨u, ?_⟩; simp at hc; simp [hu, hc, he]

/-- SETSPEED (R132). -/
theorem execSetspeed_cases (n rpm : Nat) (s t : State) (h : execSetspeed n rpm s = .next t) :
    (∃ e, t = s.raise e 0) ∨ ∃ u : UnitId,
    unitNumbered s.cfg n = some u ∧ (s.unit u).bound = true ∧ rpm ≠ 0 ∧ 0 < ticksPerStep s.cfg.timerHz rpm (s.unit u).spr.toNat ∧ ticksPerStep s.cfg.timerHz rpm (s.unit u).spr.toNat < 2 ^ 32 ∧
      t = (s.setUnit u { s.unit u with tps := BitVec.ofNat 32 (ticksPerStep s.cfg.timerHz rpm (s.unit u).spr.toNat) }).respondOk (BitVec.ofNat 32 (ticksPerStep s.cfg.timerHz rpm (s.unit u).spr.toNat)) := by
  injection h with h
  rcases s.withUnit_checked_elim n _ _ _ h with he | ⟨u, hu, hc, he⟩
  · exact .inl he
  · right; refine ⟨u, ?_⟩; simp at hc; simp [hu, hc, he]

/-- STEPFOR (R133). -/
theorem execStepfor_cases (n : Nat) (dir : Dir) (cont : Bool) (count : Nat) (s t : State) (h : execStepfor n dir cont count s = .next t) :
    (∃ e, t = s.raise e 0) ∨ ∃ u : UnitId,
    unitNumbered s.cfg n = some u ∧ (s.unit u).bound = true ∧ (s.unit u).run ≠ .running ∧ (cont = false ∨ count = 0) ∧ (s.unit u).ready = true ∧ (s.unit u).tps ≠ 0 ∧ (s.unit u).busErr = false ∧
      t = (s.setUnit u ((s.unit u).startRun s.time dir cont count)).respondOk 0 := by
  injection h with h
  rcases s.withUnit_checked_elim n _ _ _ h with he | ⟨u, hu, hc, he⟩
  · exact .inl he
  · right; refine ⟨u, ?_⟩; simp at hc; simp [hu, hc, he]

/-- CANCEL (R134). -/
theorem execCancel_cases (n : Nat) (s t : State) (h : execCancel n s = .next t) :
    (∃ e, t = s.raise e 0) ∨ ∃ u : UnitId,
    unitNumbered s.cfg n = some u ∧ (s.unit u).bound = true ∧
      t = (s.endRun u .cancel).drive := by
  injection h with h
  rcases s.withUnit_checked_elim n _ _ _ h with he | ⟨u, hu, hc, he⟩
  · exact .inl he
  · right; refine ⟨u, ?_⟩; simp at hc; simp [hu, hc, he]

/-- STOP (R135). -/
theorem execStop_cases (n : Nat) (s t : State) (h : execStop n s = .next t) :
    (∃ e, t = s.raise e 0) ∨ ∃ u : UnitId,
    unitNumbered s.cfg n = some u ∧ (s.unit u).bound = true ∧
      t = (s.endRun u .stop).drive := by
  injection h with h
  rcases s.withUnit_checked_elim n _ _ _ h with he | ⟨u, hu, hc, he⟩
  · exact .inl he
  · right; refine ⟨u, ?_⟩; simp at hc; simp [hu, hc, he]

/-- SETPOLICY (R136). -/
theorem execSetpolicy_cases (n : Nat) (endFull : Bool) (s t : State) (h : execSetpolicy n endFull s = .next t) :
    (∃ e, t = s.raise e 0) ∨ ∃ u : UnitId,
    unitNumbered s.cfg n = some u ∧ (s.unit u).bound = true ∧
      t = (s.setUnit u { s.unit u with endFull := endFull }).respondOk 0 := by
  injection h with h
  rcases s.withUnit_checked_elim n _ _ _ h with he | ⟨u, hu, hc, he⟩
  · exact .inl he
  · right; refine ⟨u, ?_⟩; simp at hc; simp [hu, hc, he]

/-- RDSTAT (R137). -/
theorem execRdstat_cases (n sel : Nat) (s t : State) (h : execRdstat n sel s = .next t) :
    (∃ e, t = s.raise e 0) ∨ ∃ v, t = s.respondOk v := by
  injection h with h
  cases hs : selectorOf sel with
  | none => rw [hs] at h; exact .inl ⟨_, h.symm⟩
  | some x =>
    rw [hs] at h
    cases x with
    | chip c =>
      rcases s.checked_elim _ _ _ h with he | ⟨-, he⟩
      · exact .inl he
      · exact .inr ⟨_, he⟩
    | unit x =>
      rcases State.withUnit_cases s n fun u => s.respondOk ((s.unit u).word x) with ⟨-, hw⟩ | ⟨u, -, hw⟩
      · exact .inl ⟨_, by rw [← h]; exact hw⟩
      · exact .inr ⟨_, by rw [← h]; exact hw⟩

end Sys2Proof.Machine
end

