-- ==== Sys2Proof/Laws/Formatter.lean ====
section
/-! SUPPORT. The ranges of the numbers the block computes, and where a channel's four registers lie. -/

namespace Sys2Proof.Machine

/-! ### Ranges -/

/-- A fraction of at most 1 gives a ratio of at most 4096 (R84). -/
theorem ratioOf_le (frac : Nat) (h : frac ≤ 65536) : ratioOf frac ≤ 4096 := by unfold ratioOf; omega

/-- A coil current and a power factor of at most 1 give a ratio of at most 4096 (R111). -/
theorem coilRatio_le (cur : Int) (pf : Nat) (hc : cur.natAbs ≤ 65536) (hp : pf ≤ 65536) : coilRatio cur pf ≤ 4096 := by
  unfold coilRatio
  have : cur.natAbs * pf ≤ 65536 * 65536 := Nat.mul_le_mul hc hp
  exact ratioOf_le _ (by omega)

/-- A prescale is a byte from 3 on (R88). -/
theorem prescaleOf_mem (clockHz hz : Nat) : 3 ≤ prescaleOf clockHz hz ∧ prescaleOf clockHz hz ≤ 255 := by
  unfold prescaleOf clamp; omega

/-- The settle wait is at least one tick (R15). -/
theorem settleTicks_pos (c : Config) : 1 ≤ settleTicks c := by unfold settleTicks; omega

theorem lutAt_natAbs_le (j : Nat) : (lutAt j).natAbs ≤ 65536 := by
  unfold lutAt
  by_cases h : j < 33
  · interval_cases j <;> decide
  · have : lut.getD j 0 = 0 := by rw [List.getD_eq_default]; simpa [lut] using h
    rw [this]; decide

theorem signedWave_natAbs_le (k n : Nat) : (signedWave k n).natAbs ≤ 65536 := by
  unfold signedWave; simp only; split <;> simp [lutAt_natAbs_le]

/-- A legal table has 4 to 128 entries (R35). -/
theorem tableLen_mem (sty : Style) (nms : Nat) (h : nmsLegal sty nms = true) :
    4 ≤ tableLen sty nms ∧ tableLen sty nms ≤ 128 := by
  revert h
  unfold tableLen nmsLegal microstepSet
  cases sty <;> simp
  intro h; rcases h with h | h | h | h <;> simp [h]

/-- A moved INDEX is below LEN (R36). -/
theorem nextIndex_toNat (x : UnitState) (dir : Dir) (h : nmsLegal x.style x.nms.toNat = true) :
    (nextIndex x dir).toNat =
      (x.index.toNat + (match dir with | .forward => 1 | .backward => tableLen x.style x.nms.toNat - 1)) %
        tableLen x.style x.nms.toNat := by
  have hl := tableLen_mem _ _ h
  unfold nextIndex
  simp only [BitVec.toNat_ofNat]
  exact Nat.mod_eq_of_lt (lt_of_lt_of_le (Nat.mod_lt _ (by omega)) (by omega))

/-- Inside its domain Entry(u) is the table's entry (R108). -/
theorem entryOf_eq (x : UnitState) (hr : x.ready = true) (hn : nmsLegal x.style x.nms.toNat = true)
    (hi : x.index.toNat < tableLen x.style x.nms.toNat) :
    entryOf x = tableEntry x.style x.nms.toNat x.index.toNat := by
  unfold entryOf
  simp [hr, hn, hi]

/-- The image of an effective ratio past 4096 is FULL_ON, as that of 4096. -/
theorem imageOf_of_ge (e : Nat) (h : 4096 ≤ e) : imageOf e = fullOn := by
  unfold fullOn imageOf
  rw [if_neg (by omega), if_neg (by omega), if_neg (by omega), if_neg (by omega)]

/-! ### A channel's registers -/

/-- The registers of a channel are 8-bit addresses (R54, item P6). -/
theorem baseRegister_lt (c : Config) (h : c.Legal) (ch : ChannelId) : baseRegister c ch + 3 < 256 := by
  have := h.2.2.2.2.1
  have h2 : c.ledStride * ch.val ≤ c.ledStride * 15 := Nat.mul_le_mul_left _ (by omega)
  unfold baseRegister; omega

/-- A register address that does not wrap is its own cell. -/
theorem cellAddr_ofNat (addr : BitVec 7) (r k : Nat) (h : r + k < 256) :
    cellAddr addr (BitVec.ofNat 8 r) k = 256 * addr.toNat + (r + k) := by
  unfold cellAddr; rw [BitVec.toNat_ofNat, Nat.mod_eq_of_lt (a := r) (by omega), Nat.mod_eq_of_lt h]

/-- Two channels share no register (R54). -/
theorem baseRegister_ne (c : Config) (h : c.Legal) (a b : ChannelId) (hne : a ≠ b) (i j : Nat) (hi : i < 4)
    (hj : j < 4) : baseRegister c a + i ≠ baseRegister c b + j := by
  have h4 := h.2.2.2.1
  unfold baseRegister
  rcases lt_or_gt_of_ne (fun e => hne (Fin.ext e) : a.val ≠ b.val) with hl | hl
  · have : c.ledStride * (a.val + 1) ≤ c.ledStride * b.val := Nat.mul_le_mul_left _ hl
    rw [Nat.mul_succ] at this; omega
  · have : c.ledStride * (b.val + 1) ≤ c.ledStride * a.val := Nat.mul_le_mul_left _ hl
    rw [Nat.mul_succ] at this; omega

/-- Registers less than 256 apart are different cells. -/
theorem cellAddr_ne (addr : BitVec 7) (reg : Byte) (i j : Nat) (hne : i ≠ j) (hi : i < 256) (hj : j < 256) :
    cellAddr addr reg i ≠ cellAddr addr reg j := by
  unfold cellAddr; omega

/-- A store puts byte i at register reg + k + i (R63). -/
theorem Memory.read_storeAt (m : Memory) (addr : BitVec 7) (reg : Byte) (bs : List Byte) (k i : Nat)
    (hb : k + bs.length ≤ 256) (hi : i < bs.length) :
    (m.storeAt addr reg k bs).read (cellAddr addr reg (k + i)) = bs[i]? := by
  induction bs generalizing k i with
  | nil => simp at hi
  | cons b bs ih =>
    simp only [Memory.storeAt]
    simp only [List.length_cons] at hb hi
    cases i with
    | zero => exact Memory.read_write_self _ _ _
    | succ i =>
      rw [Memory.read_write_ne _ _ _ _ (cellAddr_ne addr reg k (k + (i + 1)) (by omega) (by omega) (by omega))]
      have := ih (k + 1) i (by omega) (by omega)
      rw [Nat.add_assoc, Nat.add_comm 1 i] at this
      simpa using this

/-- What an answered write leaves in the registers it addressed (R63, R64). -/
theorem Memory.read_after (m : Memory) (addr : BitVec 7) (reg : Byte) (data : List Byte) (r : Answer) (i : Nat)
    (hb : data.length ≤ 256) (hi : i < data.length) :
    (m.after (.write addr reg data) r).read (cellAddr addr reg i) = if r = .ack then data[i]? else none := by
  by_cases hr : r = .ack
  · simpa [Memory.after, hr] using m.read_storeAt addr reg data 0 i (by omega) hi
  · rw [Memory.after_of_ne_ack _ _ _ hr, if_neg hr]; rfl

end Sys2Proof.Machine
end

