-- ==== Sys2Proof/Laws/PerInstr.lean ====
section
/-! SUPPORT. One lemma per command: its encoding carries its opcode and leaves every reserved bit of its format 0. -/

namespace Sys2Proof.Laws

/-- The value of a bit field of a word given by its number. -/
theorem bitField_ofNat (n hi lo : Nat) (h : n < 2 ^ 64) :
    bitField (BitVec.ofNat 64 n) hi lo = n / 2 ^ lo % 2 ^ (hi + 1 - lo) := by
  unfold bitField; rw [BitVec.toNat_ofNat, Nat.mod_eq_of_lt h]

theorem style_code_lt (s : Style) : s.code < 4 := by cases s <;> decide
theorem dir_code_lt (d : Dir) : d.code < 2 := by cases d <;> decide
theorem bool_toNat_lt (b : Bool) : b.toNat < 2 := by cases b <;> decide

/-- The encoding of a well-formed command has its opcode in bits 7 to 0 (R79) and 0 in every reserved bit (R77). -/
def EncodedForm.Statement (i : Instr) : Prop :=
  i.WellFormed → bitField (encode i) 7 0 = i.opcode.code ∧ reservedClear i.opcode.format (encode i) = true

theorem EncodedForm.init (addr7 : Nat) : EncodedForm.Statement (.init addr7) := by
  intro h
  simp only [Instr.WellFormed] at h
  have hn : Opcode.code .init + Instr.operandBits (.init addr7) < 2 ^ 64 := by
    simp only [Opcode.code, Instr.operandBits]; omega
  simp only [encode, Instr.opcode, Opcode.format, reservedClear, Format.reserved, List.all_cons, List.all_nil,
    bitField_ofNat _ _ _ hn, Bool.and_true, Bool.and_eq_true, beq_iff_eq]
  simp only [Opcode.code, Instr.operandBits]
  norm_num only
  omega

theorem EncodedForm.setfreq (hz : Nat) : EncodedForm.Statement (.setfreq hz) := by
  intro h
  simp only [Instr.WellFormed] at h
  have hn : Opcode.code .setfreq + Instr.operandBits (.setfreq hz) < 2 ^ 64 := by
    simp only [Opcode.code, Instr.operandBits]; omega
  simp only [encode, Instr.opcode, Opcode.format, reservedClear, Format.reserved, List.all_cons, List.all_nil,
    bitField_ofNat _ _ _ hn, Bool.and_true, Bool.and_eq_true, beq_iff_eq]
  simp only [Opcode.code, Instr.operandBits]
  norm_num only
  omega

theorem EncodedForm.acq (ch : ChannelId) : EncodedForm.Statement (.acq ch) := by
  intro _
  have hch := ch.isLt
  have hn : Opcode.code .acq + Instr.operandBits (.acq ch) < 2 ^ 64 := by
    simp only [Opcode.code, Instr.operandBits]; omega
  simp only [encode, Instr.opcode, Opcode.format, reservedClear, Format.reserved, List.all_cons, List.all_nil,
    bitField_ofNat _ _ _ hn, Bool.and_true, Bool.and_eq_true, beq_iff_eq]
  simp only [Opcode.code, Instr.operandBits]
  norm_num only
  omega

theorem EncodedForm.rel (ch : ChannelId) : EncodedForm.Statement (.rel ch) := by
  intro _
  have hch := ch.isLt
  have hn : Opcode.code .rel + Instr.operandBits (.rel ch) < 2 ^ 64 := by
    simp only [Opcode.code, Instr.operandBits]; omega
  simp only [encode, Instr.opcode, Opcode.format, reservedClear, Format.reserved, List.all_cons, List.all_nil,
    bitField_ofNat _ _ _ hn, Bool.and_true, Bool.and_eq_true, beq_iff_eq]
  simp only [Opcode.code, Instr.operandBits]
  norm_num only
  omega

theorem EncodedForm.setduty (ch : ChannelId) (frac : Nat) (inv : Bool) : EncodedForm.Statement (.setduty ch frac inv) := by
  intro h
  simp only [Instr.WellFormed] at h
  have hch := ch.isLt
  have hinv := bool_toNat_lt inv
  have hn : Opcode.code .setduty + Instr.operandBits (.setduty ch frac inv) < 2 ^ 64 := by
    simp only [Opcode.code, Instr.operandBits]; omega
  simp only [encode, Instr.opcode, Opcode.format, reservedClear, Format.reserved, List.all_cons, List.all_nil,
    bitField_ofNat _ _ _ hn, Bool.and_true, Bool.and_eq_true, beq_iff_eq]
  simp only [Opcode.code, Instr.operandBits]
  norm_num only
  omega

theorem EncodedForm.disable (ch : ChannelId) : EncodedForm.Statement (.disable ch) := by
  intro _
  have hch := ch.isLt
  have hn : Opcode.code .disable + Instr.operandBits (.disable ch) < 2 ^ 64 := by
    simp only [Opcode.code, Instr.operandBits]; omega
  simp only [encode, Instr.opcode, Opcode.format, reservedClear, Format.reserved, List.all_cons, List.all_nil,
    bitField_ofNat _ _ _ hn, Bool.and_true, Bool.and_eq_true, beq_iff_eq]
  simp only [Opcode.code, Instr.operandBits]
  norm_num only
  omega

theorem EncodedForm.enable (ch : ChannelId) : EncodedForm.Statement (.enable ch) := by
  intro _
  have hch := ch.isLt
  have hn : Opcode.code .enable + Instr.operandBits (.enable ch) < 2 ^ 64 := by
    simp only [Opcode.code, Instr.operandBits]; omega
  simp only [encode, Instr.opcode, Opcode.format, reservedClear, Format.reserved, List.all_cons, List.all_nil,
    bitField_ofNat _ _ _ hn, Bool.and_true, Bool.and_eq_true, beq_iff_eq]
  simp only [Opcode.code, Instr.operandBits]
  norm_num only
  omega

theorem EncodedForm.cfgmotor (unit : Nat) (pa : Nat) (pb : Nat) (spr : Nat) : EncodedForm.Statement (.cfgmotor unit pa pb spr) := by
  intro h
  simp only [Instr.WellFormed] at h
  have hn : Opcode.code .cfgmotor + Instr.operandBits (.cfgmotor unit pa pb spr) < 2 ^ 64 := by
    simp only [Opcode.code, Instr.operandBits]; omega
  simp only [encode, Instr.opcode, Opcode.format, reservedClear, Format.reserved, List.all_cons, List.all_nil,
    bitField_ofNat _ _ _ hn, Bool.and_true, Bool.and_eq_true, beq_iff_eq]
  simp only [Opcode.code, Instr.operandBits]
  norm_num only
  omega

theorem EncodedForm.selstyle (unit : Nat) (sty : Style) (nms : Nat) : EncodedForm.Statement (.selstyle unit sty nms) := by
  intro h
  simp only [Instr.WellFormed] at h
  have hsty := style_code_lt sty
  have hn : Opcode.code .selstyle + Instr.operandBits (.selstyle unit sty nms) < 2 ^ 64 := by
    simp only [Opcode.code, Instr.operandBits]; omega
  simp only [encode, Instr.opcode, Opcode.format, reservedClear, Format.reserved, List.all_cons, List.all_nil,
    bitField_ofNat _ _ _ hn, Bool.and_true, Bool.and_eq_true, beq_iff_eq]
  simp only [Opcode.code, Instr.operandBits]
  norm_num only
  omega

theorem EncodedForm.nextstep (unit : Nat) (dir : Dir) : EncodedForm.Statement (.nextstep unit dir) := by
  intro h
  simp only [Instr.WellFormed] at h
  have hdir := dir_code_lt dir
  have hn : Opcode.code .nextstep + Instr.operandBits (.nextstep unit dir) < 2 ^ 64 := by
    simp only [Opcode.code, Instr.operandBits]; omega
  simp only [encode, Instr.opcode, Opcode.format, reservedClear, Format.reserved, List.all_cons, List.all_nil,
    bitField_ofNat _ _ _ hn, Bool.and_true, Bool.and_eq_true, beq_iff_eq]
  simp only [Opcode.code, Instr.operandBits]
  norm_num only
  omega

theorem EncodedForm.setpf (unit : Nat) (pf : Nat) : EncodedForm.Statement (.setpf unit pf) := by
  intro h
  simp only [Instr.WellFormed] at h
  have hn : Opcode.code .setpf + Instr.operandBits (.setpf unit pf) < 2 ^ 64 := by
    simp only [Opcode.code, Instr.operandBits]; omega
  simp only [encode, Instr.opcode, Opcode.format, reservedClear, Format.reserved, List.all_cons, List.all_nil,
    bitField_ofNat _ _ _ hn, Bool.and_true, Bool.and_eq_true, beq_iff_eq]
  simp only [Opcode.code, Instr.operandBits]
  norm_num only
  omega

theorem EncodedForm.dispose (unit : Nat) : EncodedForm.Statement (.dispose unit) := by
  intro h
  simp only [Instr.WellFormed] at h
  have hn : Opcode.code .dispose + Instr.operandBits (.dispose unit) < 2 ^ 64 := by
    simp only [Opcode.code, Instr.operandBits]; omega
  simp only [encode, Instr.opcode, Opcode.format, reservedClear, Format.reserved, List.all_cons, List.all_nil,
    bitField_ofNat _ _ _ hn, Bool.and_true, beq_iff_eq]
  simp only [Opcode.code, Instr.operandBits]
  norm_num only
  omega

theorem EncodedForm.setspeed (unit : Nat) (rpm : Nat) : EncodedForm.Statement (.setspeed unit rpm) := by
  intro h
  simp only [Instr.WellFormed] at h
  have hn : Opcode.code .setspeed + Instr.operandBits (.setspeed unit rpm) < 2 ^ 64 := by
    simp only [Opcode.code, Instr.operandBits]; omega
  simp only [encode, Instr.opcode, Opcode.format, reservedClear, Format.reserved, List.all_cons, List.all_nil,
    bitField_ofNat _ _ _ hn, Bool.and_true, Bool.and_eq_true, beq_iff_eq]
  simp only [Opcode.code, Instr.operandBits]
  norm_num only
  omega

theorem EncodedForm.stepfor (unit : Nat) (dir : Dir) (cont : Bool) (count : Nat) : EncodedForm.Statement (.stepfor unit dir cont count) := by
  intro h
  simp only [Instr.WellFormed] at h
  have hdir := dir_code_lt dir
  have hcont := bool_toNat_lt cont
  have hn : Opcode.code .stepfor + Instr.operandBits (.stepfor unit dir cont count) < 2 ^ 64 := by
    simp only [Opcode.code, Instr.operandBits]; omega
  simp only [encode, Instr.opcode, Opcode.format, reservedClear, Format.reserved, List.all_cons, List.all_nil,
    bitField_ofNat _ _ _ hn, Bool.and_true, Bool.and_eq_true, beq_iff_eq]
  simp only [Opcode.code, Instr.operandBits]
  norm_num only
  omega

theorem EncodedForm.cancel (unit : Nat) : EncodedForm.Statement (.cancel unit) := by
  intro h
  simp only [Instr.WellFormed] at h
  have hn : Opcode.code .cancel + Instr.operandBits (.cancel unit) < 2 ^ 64 := by
    simp only [Opcode.code, Instr.operandBits]; omega
  simp only [encode, Instr.opcode, Opcode.format, reservedClear, Format.reserved, List.all_cons, List.all_nil,
    bitField_ofNat _ _ _ hn, Bool.and_true, beq_iff_eq]
  simp only [Opcode.code, Instr.operandBits]
  norm_num only
  omega

theorem EncodedForm.stop (unit : Nat) : EncodedForm.Statement (.stop unit) := by
  intro h
  simp only [Instr.WellFormed] at h
  have hn : Opcode.code .stop + Instr.operandBits (.stop unit) < 2 ^ 64 := by
    simp only [Opcode.code, Instr.operandBits]; omega
  simp only [encode, Instr.opcode, Opcode.format, reservedClear, Format.reserved, List.all_cons, List.all_nil,
    bitField_ofNat _ _ _ hn, Bool.and_true, beq_iff_eq]
  simp only [Opcode.code, Instr.operandBits]
  norm_num only
  omega

theorem EncodedForm.setpolicy (unit : Nat) (endFull : Bool) : EncodedForm.Statement (.setpolicy unit endFull) := by
  intro h
  simp only [Instr.WellFormed] at h
  have hendFull := bool_toNat_lt endFull
  have hn : Opcode.code .setpolicy + Instr.operandBits (.setpolicy unit endFull) < 2 ^ 64 := by
    simp only [Opcode.code, Instr.operandBits]; omega
  simp only [encode, Instr.opcode, Opcode.format, reservedClear, Format.reserved, List.all_cons, List.all_nil,
    bitField_ofNat _ _ _ hn, Bool.and_true, Bool.and_eq_true, beq_iff_eq]
  simp only [Opcode.code, Instr.operandBits]
  norm_num only
  omega

theorem EncodedForm.rdstat (unit : Nat) (sel : Nat) : EncodedForm.Statement (.rdstat unit sel) := by
  intro h
  simp only [Instr.WellFormed] at h
  have hn : Opcode.code .rdstat + Instr.operandBits (.rdstat unit sel) < 2 ^ 64 := by
    simp only [Opcode.code, Instr.operandBits]; omega
  simp only [encode, Instr.opcode, Opcode.format, reservedClear, Format.reserved, List.all_cons, List.all_nil,
    bitField_ofNat _ _ _ hn, Bool.and_true, Bool.and_eq_true, beq_iff_eq]
  simp only [Opcode.code, Instr.operandBits]
  norm_num only
  omega

end Sys2Proof.Laws
end

