-- ==== Sys2Proof/Laws/Safety.lean ====
section
/-! SUPPORT. The small lemmas of Safety's definitions: a Step's writes and the channels they are on, what a Step makes of LAST,
the first answer that was not Ack, and a unit after STOP. -/

namespace Sys2Proof.Machine

/-! ### A Step's writes -/

@[simp] theorem stepWrites_nil : stepWrites [] = [] := rfl

@[simp] theorem stepWrites_apply (ch : ChannelId) (ratio : BitVec 13) (ops : List StepOp) :
    stepWrites (.apply ch ratio :: ops) = (ch, ratio) :: stepWrites ops := rfl

@[simp] theorem stepWrites_record (c : Coil) (ratio : BitVec 13) (pol : Pol) (ops : List StepOp) :
    stepWrites (.record c ratio pol :: ops) = stepWrites ops := rfl

@[simp] theorem stepWrites_append (a b : List StepOp) : stepWrites (a ++ b) = stepWrites a ++ stepWrites b :=
  List.filterMap_append

/-- A Step writes a channel with a ratio exactly when it applies it. -/
theorem mem_stepWrites (ops : List StepOp) (w : ChannelId × BitVec 13) :
    w ∈ stepWrites ops ↔ StepOp.apply w.1 w.2 ∈ ops := by
  induction ops with
  | nil => simp
  | cons op ops ih => cases op <;> simp [ih, Prod.ext_iff]

/-- The write that carrying a Step on comes to, and the writes after it, are among the Step's. -/
theorem runOps_job_on (u : UnitId) (ops : List StepOp) (s : State) (job : StepJob) (chs : List ChannelId)
    (h : (runOps u ops s).1 = some job) (hops : ∀ w ∈ stepWrites ops, w.1 ∈ chs) : job.On chs := by
  obtain ⟨ch, ratio, hw, hm, hr⟩ := runOps_job u ops s job h
  refine ⟨?_, fun w hw => hops w ((mem_stepWrites ops w).2 (hr ((mem_stepWrites job.rest w).1 hw)))⟩
  rw [hw]
  exact hops (ch, ratio) ((mem_stepWrites ops _).2 hm)

/-- A coil's part of a Step writes the coil's three channels only (R110). -/
theorem coilOps_on (t : PortTriple) (last : Last) (c : Coil) (cur : Int) (pf : Nat) :
    ∀ w ∈ stepWrites (coilOps t last c cur pf), w.1 ∈ t.channels := by
  have hoff : ∀ tg old, ∀ w ∈ stepWrites (offWrites t tg old), w.1 ∈ t.channels := by
    intro tg old
    unfold offWrites
    split <;> split <;> simp [PortTriple.channels]
  have hon : ∀ tg old, ∀ w ∈ stepWrites (onWrites t tg old), w.1 ∈ t.channels := by
    intro tg old
    unfold onWrites
    split <;> split <;> simp [PortTriple.channels]
  intro w hw
  unfold coilOps at hw
  simp only [stepWrites_append, List.mem_append] at hw
  rcases hw with (hw | hw) | hw
  · split at hw
    · rw [stepWrites_append] at hw
      rcases List.mem_append.1 hw with hw | hw
      · exact hoff _ _ w hw
      · exact hon _ _ w hw
    · simp at hw
  · split at hw
    · simp only [stepWrites_apply, stepWrites_nil, List.mem_singleton] at hw
      rw [hw]; simp [PortTriple.channels]
    · simp at hw
  · simp at hw

/-- A Step of a unit writes the unit's six channels only (R110). -/
theorem State.stepOps_on (s : State) (u : UnitId) : ∀ w ∈ stepWrites (s.stepOps u), w.1 ∈ s.unitChannels u := by
  intro w hw
  unfold State.stepOps at hw
  rw [stepWrites_append] at hw
  unfold State.unitChannels
  rcases List.mem_append.1 hw with hw | hw
  · exact List.mem_append_left _ (coilOps_on _ _ _ _ _ w hw)
  · exact List.mem_append_right _ (coilOps_on _ _ _ _ _ w hw)

/-! ### LAST and the shadow of the channels -/

@[simp] theorem State.setUnit_shadow (s : State) (u : UnitId) (x : UnitState) : (s.setUnit u x).shadow = s.shadow := by
  funext ch; simp [State.shadow]

/-- The shadow reads IMAGE and IMAGE_VALID only. -/
theorem State.shadow_congr {s t : State} (h : ∀ ch, (t.channel ch).imageValid = (s.channel ch).imageValid ∧
    (t.channel ch).image = (s.channel ch).image) : t.shadow = s.shadow := by
  funext ch; unfold State.shadow; rw [(h ch).1, (h ch).2]

@[simp] theorem State.setSpec_shadow (s : State) (ch : ChannelId) (ratio : BitVec 13) (inv : Bool) :
    (s.setSpec ch ratio inv).shadow = s.shadow := by
  refine State.shadow_congr fun d => ?_
  unfold State.setSpec
  rw [State.setChannel_channel]
  split
  · subst_vars; exact ⟨rfl, rfl⟩
  · exact ⟨rfl, rfl⟩

/-- A channel write leaves its channel known if it was acknowledged, and unknown if not (R31). -/
theorem State.writeImage_shadow (s : State) (a : Agent) (w : PendingWrite) (ch : ChannelId) :
    (s.writeImage a w).2.shadow ch =
      if ch = w.ch then (if (s.writeImage a w).1 = .ack then some w.image else none) else s.shadow ch := by
  unfold State.shadow
  rw [State.writeImage_channel]
  by_cases h : w.ch = ch
  · simp only [h, if_true]; unfold Channel.answered; split <;> simp
  · rw [if_neg h, if_neg (Ne.symm h)]

theorem UnitState.setLast_last (x : UnitState) (c : Coil) (l : Last) :
    (x.setLast c l).last = fun d => if d = c then l else x.last d := by
  funext d; cases c <;> cases d <;> rfl

/-- A unit's channels depend on its two ports only. -/
theorem State.coilTriple_congr {s t : State} {u : UnitId} (hc : t.cfg = s.cfg)
    (ha : (t.unit u).portA = (s.unit u).portA) (hb : (t.unit u).portB = (s.unit u).portB) :
    t.coilTriple u = s.coilTriple u := by
  funext c; unfold State.coilTriple UnitState.port; rw [hc, ha, hb]

/-- The images of a LAST are on its coil's channels. -/
theorem Last.images_on (l : Last) (t : PortTriple) : ∀ x ∈ l.images t, x.1 ∈ t.channels := by
  simp [Last.images, PortTriple.channels]

/-- A LAST that is not valid says nothing. -/
theorem Last.trueOf_of_invalid (l : Last) (t : PortTriple) (shadow : ChannelId → Option Value) (h : l.valid = false) :
    l.TrueOf t shadow := fun hv => absurd hv (by simp [h])

/-- Whether a LAST is true depends on its coil's channels only. -/
theorem Last.TrueOf.congr {l : Last} {t : PortTriple} {f g : ChannelId → Option Value} (hl : l.TrueOf t f)
    (h : ∀ ch ∈ t.channels, f ch = g ch) : l.TrueOf t g :=
  fun hv x hx => (h x.1 (l.images_on t x hx)) ▸ hl hv x hx

/-- Whether the rest of a Step will make LAST true depends on the two coils' channels only. -/
theorem LastWillBeTrue.congr {triple : Coil → PortTriple} {ops : List StepOp} {f g : ChannelId → Option Value}
    {last : Coil → Last} (hf : LastWillBeTrue triple ops f last) (h : ∀ c, ∀ ch ∈ (triple c).channels, f ch = g ch) :
    LastWillBeTrue triple ops g last := by
  induction ops generalizing f g last with
  | nil => exact fun c => (hf c).congr (h c)
  | cons op ops ih =>
    cases op with
    | apply ch ratio => exact ih hf fun c d hd => by rw [h c d hd]
    | record c ratio pol => exact ih hf h

/-- One coil's part of a Step makes its LAST true (R113 to R115): from a LAST that is true, or not valid, of the coil's
three channels, its writes and its record lead to one that is true, and they touch no other channel. -/
theorem coilOps_lastWillBeTrue (triple : Coil → PortTriple) (c : Coil) (cur : Int) (pf : Nat) (ops : List StepOp)
    (shadow : ChannelId → Option Value) (last : Coil → Last) (hn : (triple c).channels.Nodup)
    (h : (last c).TrueOf (triple c) shadow)
    (hk : ∀ g : ChannelId → Option Value, (∀ ch ∉ (triple c).channels, g ch = shadow ch) → ∀ l : Last,
      l.TrueOf (triple c) g → LastWillBeTrue triple ops g fun d => if d = c then l else last d) :
    LastWillBeTrue triple (coilOps (triple c) (last c) c cur pf ++ ops) shadow last := by
  generalize triple c = t at *
  unfold coilOps
  generalize BitVec.ofNat 13 (coilRatio cur pf) = ratio
  generalize polOf cur = pol
  generalize last c = l at *
  obtain ⟨pwm, inP, inN⟩ := t
  obtain ⟨valid, r, p⟩ := l
  simp only [PortTriple.channels, List.nodup_cons, List.mem_cons, List.not_mem_nil, or_false, not_or, not_false_eq_true,
    List.nodup_nil, and_true] at hn
  obtain ⟨⟨h1, h2⟩, h3⟩ := hn
  have h1' := Ne.symm h1
  have h2' := Ne.symm h2
  have h3' := Ne.symm h3
  unfold Last.TrueOf Last.images at h
  by_cases hr : r = ratio <;> cases valid <;> cases p <;> cases pol <;>
    simp [offWrites, onWrites, Pol.targets, hr, LastWillBeTrue] at h ⊢ <;>
    (apply hk
     · intro ch hc
       simp only [PortTriple.channels, List.mem_cons, List.not_mem_nil, or_false, not_or] at hc
       simp [hc]
     · unfold Last.TrueOf Last.images
       simp [Pol.targets, h1, h2, h3, h1', h2', h3', fullOff, fullOn]
       try simp [h, fullOff, fullOn])

/-- A Step makes both coils' LAST true (R115), from LASTs that are true of six distinct channels. -/
theorem State.stepOps_lastWillBeTrue (s : State) (u : UnitId) (hn : (s.unitChannels u).Nodup)
    (h : ∀ c, ((s.unit u).last c).TrueOf (s.coilTriple u c) s.shadow) :
    LastWillBeTrue (s.coilTriple u) (s.stepOps u) s.shadow (s.unit u).last := by
  obtain ⟨hb, ha, hab⟩ := List.nodup_append.1 hn
  unfold State.stepOps
  refine coilOps_lastWillBeTrue (s.coilTriple u) .b (entryOf (s.unit u)).2 _ _ s.shadow (s.unit u).last hb (h .b) ?_
  intro g hg l hl
  have hA := coilOps_lastWillBeTrue (s.coilTriple u) .a (entryOf (s.unit u)).1 (s.unit u).pf.toNat [] g
    (fun d => if d = .b then l else (s.unit u).last d) ha
    ((h .a).congr fun ch hc => (hg ch fun hc' => hab ch hc' ch hc rfl).symm) ?_
  · simpa [UnitState.last] using hA
  · intro g' hg' l' hl' c
    cases c with
    | a => exact hl'
    | b => exact hl.congr fun ch hc => (hg' ch fun hc' => hab ch hc ch hc' rfl).symm

/-- Carrying a Step on leaves the shadow and the ports as they were, and comes to its end with LAST true or to a job
that will make it so, if none of its channels is disabled (R91, R115). -/
theorem runOps_lastWillBeTrue (u : UnitId) (ops : List StepOp) (s : State)
    (hd : ∀ w ∈ stepWrites ops, (s.channel w.1).disabled = false)
    (h : LastWillBeTrue (s.coilTriple u) ops s.shadow (s.unit u).last) :
    (runOps u ops s).2.shadow = s.shadow ∧ (runOps u ops s).2.coilTriple = s.coilTriple ∧
    ((runOps u ops s).1 = none → ∀ c, (((runOps u ops s).2.unit u).last c).TrueOf (s.coilTriple u c) s.shadow) ∧
    ∀ job, (runOps u ops s).1 = some job → (runOps u ops s).2.JobWillBeTrue u job := by
  induction ops generalizing s with
  | nil => exact ⟨rfl, rfl, fun _ => h, fun _ hj => by simp [runOps] at hj⟩
  | cons op ops ih =>
    cases op with
    | record c ratio pol =>
      have ht : (s.setUnit u ((s.unit u).setLast c ⟨true, ratio, pol⟩)).coilTriple = s.coilTriple := by
        funext v
        refine State.coilTriple_congr rfl ?_ ?_ <;> rw [State.setUnit_unit] <;> split <;> subst_vars <;>
          first | rfl | (cases c <;> rfl)
      have hu : (s.setUnit u ((s.unit u).setLast c ⟨true, ratio, pol⟩)).unit u =
          (s.unit u).setLast c ⟨true, ratio, pol⟩ := by rw [State.setUnit_unit, if_pos rfl]
      have hi := ih (s.setUnit u ((s.unit u).setLast c ⟨true, ratio, pol⟩)) (by simpa using hd)
        (by rw [ht, hu, State.setUnit_shadow, UnitState.setLast_last]; exact h)
      rw [ht, State.setUnit_shadow] at hi
      exact hi
    | apply ch ratio =>
      have hc : (s.channel ch).disabled = false := hd (ch, ratio) (by simp)
      have ht : (s.setSpec ch ratio false).coilTriple = s.coilTriple := by
        funext v d; simp [State.coilTriple, UnitState.port]
      unfold runOps
      simp only [hc]
      refine ⟨State.setSpec_shadow s ch ratio false, ht, fun hn => by simp at hn, fun job hj => ?_⟩
      simp only [Bool.false_eq_true, if_false, Option.some.injEq] at hj
      subst hj
      unfold State.JobWillBeTrue
      simp only [Bool.false_eq_true, if_false, ht, State.setSpec_shadow, State.setSpec_unit]
      simpa [pendingApply, effRatio, LastWillBeTrue] using h

/-! ### DeEnergize -/

@[simp] theorem firstNotAck_nil : firstNotAck [] = .ack := rfl

@[simp] theorem firstNotAck_cons (r : Answer) (rs : List Answer) :
    firstNotAck (r :: rs) = if r = .ack then firstNotAck rs else r := by
  unfold firstNotAck
  by_cases h : r = .ack <;> simp [h]

/-- What DeEnergize keeps of its answers, one after the other, is the first that was not Ack (R117). -/
theorem foldl_firstFailure (first : Answer) (rs : List Answer) :
    rs.foldl firstFailure first = if first = .ack then firstNotAck rs else first := by
  induction rs generalizing first with
  | nil => by_cases h : first = .ack <;> simp [h]
  | cons r rs ih =>
    rw [List.foldl_cons, ih]
    unfold firstFailure
    by_cases h : first = .ack <;> simp [h]

theorem firstNotAck_eq_ack (rs : List Answer) : firstNotAck rs = .ack ↔ ∀ r ∈ rs, r = .ack := by
  induction rs with
  | nil => simp
  | cons r rs ih => by_cases h : r = .ack <;> simp [h, ih]

/-- A unit after STOP is what DeEnergize leaves, Stopped if every write was acknowledged and Braking if not (R135). -/
theorem UnitState.afterStop_eq (x : UnitState) (six : List Answer) :
    x.afterStop six =
      { x.deEnergized (firstNotAck six) with run := if firstNotAck six = .ack then .stopped else .braking } := by
  unfold UnitState.afterStop UnitState.deEnergized UnitState.invalidateLast
  by_cases h : firstNotAck six = .ack
  · rw [if_pos ((firstNotAck_eq_ack six).1 h), if_pos h, if_pos h]
  · rw [if_neg fun h' => h ((firstNotAck_eq_ack six).2 h'), if_neg h, if_neg h]

end Sys2Proof.Machine
end

