-- ==== Sys2Proof/Laws/Scheduler.lean ====
section
/-! SUPPORT. The scheduler: what a round holds, who is next, and that no agent's step and no command touches the
scheduler's own data but for the schedule that a command runs along. -/

namespace Sys2Proof.Machine

/-! ### Rounds -/

theorem mem_agents (c : Choice) : c ∈ agents := by
  cases c with
  | tick => decide
  | port => decide
  | loop u => revert u; decide

theorem mem_completeRound (r : List Choice) (c : Choice) : c ∈ completeRound r := by
  unfold completeRound
  by_cases h : c ∈ r <;> simp [h, mem_agents]

/-- Every agent has a turn in every round (item U7). -/
theorem mem_fairRound (n : Nat) (c : Choice) : c ∈ fairRound n := mem_completeRound _ c

theorem fairRound_ne_nil (n : Nat) : fairRound n ≠ [] := List.ne_nil_of_mem (mem_fairRound n .tick)

theorem State.nextChoice_of_sched (s : State) (c : Choice) (cs : List Choice) (h : s.sched = c :: cs) :
    s.nextChoice = (c, { s with sched := cs }) := by
  simp [State.nextChoice, h]

theorem State.nextChoice_of_round (s : State) (c : Choice) (cs : List Choice) (h : s.sched = [])
    (hr : s.round = c :: cs) : s.nextChoice = (c, { s with round := cs }) := by
  simp [State.nextChoice, h, hr]

/-- With its schedule and its round used up, the machine draws a round and takes its first turn. -/
theorem State.nextChoice_of_draw (s : State) (c : Choice) (cs : List Choice) (h : s.sched = []) (hr : s.round = [])
    (hf : fairRound s.schedDraws = c :: cs) :
    s.nextChoice = (c, { s with round := cs, schedDraws := s.schedDraws + 1 }) := by
  simp [State.nextChoice, h, hr, hf]

/-! ### The scheduler's data

`SameTurns s t`: the schedule, the round and the count of draws are the same in s and in t. -/

def State.SameTurns (s t : State) : Prop := t.sched = s.sched ∧ t.round = s.round ∧ t.schedDraws = s.schedDraws

theorem State.SameTurns.refl (s : State) : s.SameTurns s := ⟨rfl, rfl, rfl⟩

theorem State.SameTurns.trans {s t r : State} (h : s.SameTurns t) (g : t.SameTurns r) : s.SameTurns r :=
  ⟨g.1.trans h.1, g.2.1.trans h.2.1, g.2.2.trans h.2.2⟩

theorem runOps_sameTurns (u : UnitId) (ops : List StepOp) (s : State) : s.SameTurns (runOps u ops s).2 := by
  rw [runOps_frame u ops s]; exact ⟨rfl, rfl, rfl⟩

theorem State.portStepOps_sameTurns (s : State) (u : UnitId) (ops : List StepOp) :
    s.SameTurns (s.portStepOps u ops) := by
  have h := runOps_sameTurns u ops s
  rcases s.portStepOps_cases u ops with ⟨-, he⟩ | ⟨job, -, he⟩ <;> rw [he]
  · exact h.trans ⟨by simp, by simp, by simp⟩
  · exact h

theorem State.loopStepOps_sameTurns (s : State) (u : UnitId) (ops : List StepOp) :
    s.SameTurns (s.loopStepOps u ops) := by
  have h := runOps_sameTurns u ops s
  rcases s.loopStepOps_cases u ops with ⟨-, he⟩ | ⟨job, -, he⟩ <;> rw [he] <;> exact h

theorem State.finishDeEnergize_sameTurns (s : State) (u : UnitId) (why : DeEnergizeFor) (first : Answer) :
    s.SameTurns (s.finishDeEnergize u why first) := by
  rcases s.finishDeEnergize_cases u why first with ⟨-, -, h⟩ | ⟨-, -, h⟩ | ⟨-, -, h⟩ | ⟨-, -, h⟩ <;> rw [h] <;>
    exact ⟨by simp, by simp, by simp⟩

theorem State.deEnergizeFrom_sameTurns (s : State) (u : UnitId) (why : DeEnergizeFor) (chs : List ChannelId)
    (first : Answer) : s.SameTurns (s.deEnergizeFrom u why chs first) := by
  induction chs generalizing s with
  | nil => rw [State.deEnergizeFrom_nil]; exact s.finishDeEnergize_sameTurns u why first
  | cons ch rest ih =>
    rw [State.deEnergizeFrom_cons]
    split
    · exact State.SameTurns.trans ⟨by simp, by simp, by simp⟩ (ih _)
    · exact ⟨by simp, by simp, by simp⟩

theorem State.afterHold_sameTurns (s : State) (u : UnitId) (why : HoldFor) : s.SameTurns (s.afterHold u why) := by
  cases why
  · exact ⟨by simp [State.afterHold], by simp [State.afterHold], by simp [State.afterHold]⟩
  · exact s.deEnergizeFrom_sameTurns u .stop _ .ack
  · exact s.deEnergizeFrom_sameTurns u .dispose _ .ack

theorem State.portWrite_sameTurns (s : State) (w : PendingWrite) (stay : PendingWrite → PortJob)
    (k : Answer → State → State) (hk : ∀ r (t : State), t.SameTurns (k r t)) : s.SameTurns (s.portWrite w stay k) := by
  rcases s.portWrite_cases w stay k with ⟨-, h⟩ | ⟨-, -, h⟩ | ⟨-, -, h⟩ <;> rw [h]
  · exact State.SameTurns.trans ⟨by simp, by simp, by simp⟩ (hk _ _)
  · exact ⟨rfl, rfl, rfl⟩
  · exact .refl s

theorem State.prescaleStep_sameTurns (s : State) (addr : BitVec 7) (p : Byte) (stage : PrescaleStage)
    (why : PrescaleFor) : s.SameTurns (s.prescaleStep addr p stage why) := by
  rcases s.prescaleStep_cases addr p stage why with ⟨-, h⟩ | ⟨-, t, rfl, ⟨-, h⟩ | ⟨-, h⟩⟩ <;> rw [h]
  · cases why <;> exact ⟨by simp [State.finishPrescale], by simp [State.finishPrescale], by simp [State.finishPrescale]⟩
  · exact ⟨by simp, by simp, by simp⟩
  · unfold State.failPrescale
    split <;> exact ⟨by simp, by simp, by simp⟩

theorem State.portStep_sameTurns (s : State) (job : PortJob) : s.SameTurns (s.portStep job) := by
  cases job with
  | channelWrite w fin =>
    refine s.portWrite_sameTurns w _ _ fun r t => ?_
    cases fin <;> exact ⟨by simp [State.finishWrite], by simp [State.finishWrite], by simp [State.finishWrite]⟩
  | generalCall addr locked =>
    unfold State.portStep
    cases locked
    · rcases s.lockThen_cases .port fun s => { s with port := .busy (.generalCall addr true) } with ⟨-, h⟩ | ⟨-, h⟩ <;>
        simp only [Bool.false_eq_true, if_false, h] <;> exact ⟨rfl, rfl, rfl⟩
    · unfold State.generalCallStep
      simp only [if_true]
      split <;> exact ⟨by simp, by simp, by simp⟩
  | prescaleLock p =>
    unfold State.portStep
    rcases s.lockThen_cases .port fun s => { s with port := .busy (.prescale s.busAddr p .sleep 0 .setfreq) } with
      ⟨-, h⟩ | ⟨-, h⟩ <;> simp only [h] <;> exact ⟨rfl, rfl, rfl⟩
  | prescale addr p stage wait why =>
    unfold State.portStep
    simp only
    split
    · exact s.prescaleStep_sameTurns addr p stage why
    · exact .refl s
  | hold u why =>
    unfold State.portStep
    simp only
    split
    · exact .refl s
    · exact s.afterHold_sameTurns u why
  | step u j =>
    refine s.portWrite_sameTurns j.write _ _ fun r t => ?_
    unfold State.portStepAnswered
    split
    · exact t.portStepOps_sameTurns u j.rest
    · exact ⟨by simp, by simp, by simp⟩
  | deEnergize u why w rest first =>
    exact s.portWrite_sameTurns w _ _ fun r t => t.deEnergizeFrom_sameTurns u why rest (firstFailure first r)

theorem State.loopStep_sameTurns (s : State) (u : UnitId) : s.SameTurns (s.loopStep u) := by
  rcases s.loopStep_cases u with ⟨-, he⟩ | ⟨-, ⟨job, -, he⟩ | ⟨-, ⟨-, he⟩ | ⟨-, he⟩⟩⟩ <;> rw [he]
  · exact .refl s
  · rcases s.loopWrite_cases u job with ⟨-, h⟩ | ⟨-, -, h⟩ | ⟨-, -, h⟩ <;> rw [h]
    · refine State.SameTurns.trans (t := (s.writeImage (.loop u) job.write).2) ⟨by simp, by simp, by simp⟩ ?_
      unfold State.loopStepAnswered
      split
      · exact State.loopStepOps_sameTurns _ u job.rest
      · exact ⟨by simp, by simp, by simp⟩
    · exact ⟨rfl, rfl, rfl⟩
    · exact .refl s
  · exact ⟨rfl, rfl, rfl⟩
  · rcases s.spin_cases u with ⟨-, h⟩ | ⟨-, -, h⟩ | ⟨-, -, h⟩ <;> rw [h]
    · exact ⟨rfl, rfl, rfl⟩
    · exact State.SameTurns.trans ⟨rfl, rfl, rfl⟩ (State.loopStepOps_sameTurns _ u _)
    · exact .refl s

/-- No agent's step touches the scheduler's data. -/
theorem State.move_sameTurns (s : State) (c : Choice) : s.SameTurns (s.move c) := by
  cases c with
  | tick => exact ⟨rfl, rfl, rfl⟩
  | loop u => exact s.loopStep_sameTurns u
  | port =>
    cases hp : s.port with
    | idle => rw [State.move_port_of_idle s hp]; exact .refl s
    | busy job => rw [State.move_port_of_busy s job hp]; exact s.portStep_sameTurns job

/-- The rest of a command takes turns of the schedule only. -/
theorem State.drive_turns (s : State) :
    s.drive.round = s.round ∧ s.drive.schedDraws = s.schedDraws ∧ s.drive.sched <:+ s.sched := by
  unfold State.drive
  suffices h : ∀ cs (t : State), (t.driveOver cs).round = t.round ∧ (t.driveOver cs).schedDraws = t.schedDraws ∧
      (t.driveOver cs).sched <:+ cs from h s.sched s
  intro cs
  induction cs with
  | nil => exact fun t => ⟨rfl, rfl, List.suffix_refl _⟩
  | cons c cs ih =>
    intro t
    cases hp : t.port with
    | idle => rw [State.driveOver_of_idle t _ hp]; exact ⟨rfl, rfl, List.suffix_refl _⟩
    | busy job =>
      rw [State.driveOver_cons_of_busy t job c cs hp]
      have hm := t.move_sameTurns c
      have hi := ih (t.move c)
      exact ⟨hi.1.trans hm.2.1, hi.2.1.trans hm.2.2, hi.2.2.trans (List.suffix_cons c cs)⟩

/-- A command takes turns of the schedule only. -/
theorem exec_turns (i : Instr) (s t : State) (h : exec i s = .next t) :
    t.round = s.round ∧ t.schedDraws = s.schedDraws ∧ t.sched <:+ s.sched := by
  have of : ∀ r : State, s.SameTurns r → r.round = s.round ∧ r.schedDraws = s.schedDraws ∧ r.sched <:+ s.sched :=
    fun r hr => ⟨hr.2.1, hr.2.2, hr.1 ▸ List.suffix_refl _⟩
  have run : ∀ r : State, s.SameTurns r →
      r.drive.round = s.round ∧ r.drive.schedDraws = s.schedDraws ∧ r.drive.sched <:+ s.sched :=
    fun r hr => ⟨r.drive_turns.1.trans hr.2.1, r.drive_turns.2.1.trans hr.2.2, hr.1 ▸ r.drive_turns.2.2⟩
  have err : ∀ e, s.SameTurns (s.raise e 0) := fun e => ⟨by simp, by simp, by simp⟩
  have app : ∀ (r : State) ch ratio inv v, s.SameTurns r → s.SameTurns (r.portApply ch ratio inv v) := by
    intro r ch ratio inv v hr
    rcases r.portApply_cases ch ratio inv v with ⟨-, he⟩ | ⟨-, he⟩ <;> rw [he] <;>
      exact hr.trans ⟨by simp, by simp, by simp⟩
  have hold : ∀ u why, s.SameTurns (s.endRun u why) := by
    intro u why
    rcases s.endRun_cases u why with ⟨-, he⟩ | ⟨-, he⟩ <;> rw [he]
    · exact ⟨rfl, rfl, rfl⟩
    · exact s.afterHold_sameTurns u why
  cases i with
  | init a =>
    rcases execInit_cases a s t h with ⟨-, rfl⟩ | ⟨-, rfl⟩
    · exact of _ ⟨by simp, by simp, by simp⟩
    · exact run _ ⟨rfl, rfl, rfl⟩
  | setfreq hz =>
    rcases execSetfreq_cases hz s t h with ⟨e, rfl⟩ | ⟨-, rfl⟩
    · exact of _ (err e)
    · exact run _ ⟨rfl, rfl, rfl⟩
  | acq ch =>
    rcases execAcq_cases ch s t h with ⟨e, rfl⟩ | ⟨-, -, rfl⟩
    · exact of _ (err e)
    · exact of _ ⟨by simp, by simp, by simp⟩
  | rel ch =>
    rcases execRel_cases ch s t h with ⟨e, rfl⟩ | ⟨-, -, rfl⟩
    · exact of _ (err e)
    · exact run _ ⟨rfl, rfl, rfl⟩
  | setduty ch frac inv =>
    rcases execSetduty_cases ch frac inv s t h with ⟨e, rfl⟩ | ⟨-, -, -, rfl⟩
    · exact of _ (err e)
    · exact run _ (app _ _ _ _ _ (.refl s))
  | disable ch =>
    rcases execDisable_cases ch s t h with ⟨e, rfl⟩ | ⟨-, -, rfl⟩
    · exact of _ (err e)
    · exact run _ ⟨rfl, rfl, rfl⟩
  | enable ch =>
    rcases execEnable_cases ch s t h with ⟨e, rfl⟩ | ⟨-, -, rfl⟩
    · exact of _ (err e)
    · exact run _ (app _ _ _ _ _ ⟨rfl, rfl, rfl⟩)
  | cfgmotor n pa pb spr =>
    rcases execCfgmotor_cases n pa pb spr s t h with ⟨e, rfl⟩ | ⟨u, -, -, -, -, -, -, rfl⟩
    · exact of _ (err e)
    · exact of _ ⟨by simp, by simp, by simp⟩
  | selstyle n sty nms =>
    rcases execSelstyle_cases n sty nms s t h with ⟨e, rfl⟩ | ⟨u, -, -, -, -, rfl⟩
    · exact of _ (err e)
    · exact of _ ⟨by simp, by simp, by simp⟩
  | nextstep n dir =>
    rcases execNextstep_cases n dir s t h with ⟨e, rfl⟩ | ⟨u, -, -, -, -, -, rfl⟩
    · exact of _ (err e)
    · exact run _ (State.SameTurns.trans ⟨rfl, rfl, rfl⟩ (State.portStepOps_sameTurns _ u _))
  | setpf n pf =>
    rcases execSetpf_cases n pf s t h with ⟨e, rfl⟩ | ⟨u, -, -, -, rfl⟩
    · exact of _ (err e)
    · exact of _ ⟨by simp, by simp, by simp⟩
  | dispose n =>
    rcases execDispose_cases n s t h with ⟨e, rfl⟩ | ⟨u, -, -, rfl⟩
    · exact of _ (err e)
    · exact run _ (hold u .dispose)
  | setspeed n rpm =>
    rcases execSetspeed_cases n rpm s t h with ⟨e, rfl⟩ | ⟨u, -, -, -, -, -, rfl⟩
    · exact of _ (err e)
    · exact of _ ⟨by simp, by simp, by simp⟩
  | stepfor n dir cont count =>
    rcases execStepfor_cases n dir cont count s t h with ⟨e, rfl⟩ | ⟨u, -, -, -, -, -, -, -, rfl⟩
    · exact of _ (err e)
    · exact of _ ⟨by simp, by simp, by simp⟩
  | cancel n =>
    rcases execCancel_cases n s t h with ⟨e, rfl⟩ | ⟨u, -, -, rfl⟩
    · exact of _ (err e)
    · exact run _ (hold u .cancel)
  | stop n =>
    rcases execStop_cases n s t h with ⟨e, rfl⟩ | ⟨u, -, -, rfl⟩
    · exact of _ (err e)
    · exact run _ (hold u .stop)
  | setpolicy n e =>
    rcases execSetpolicy_cases n e s t h with ⟨e, rfl⟩ | ⟨u, -, -, rfl⟩
    · exact of _ (err e)
    · exact of _ ⟨by simp, by simp, by simp⟩
  | rdstat n sel =>
    rcases execRdstat_cases n sel s t h with ⟨e, rfl⟩ | ⟨v, rfl⟩
    · exact of _ (err e)
    · exact of _ ⟨by simp, by simp, by simp⟩

/-- A step moves the scheduler's data by one choice; a command may take further turns of the schedule. -/
theorem step_turns (s t : State) (h : step s = .next t) :
    t.round = s.nextChoice.2.round ∧ t.schedDraws = s.nextChoice.2.schedDraws ∧ t.sched <:+ s.nextChoice.2.sched := by
  rcases step_cases s with ⟨-, -, he⟩ | ⟨-, he⟩
  · rw [he] at h
    revert h
    unfold State.acceptStep State.takeWord
    cases s.nextChoice.2.commands with
    | nil => intro h; injection h with h; exact h ▸ ⟨rfl, rfl, List.suffix_refl _⟩
    | cons w ws =>
      simp only
      cases decode w with
      | ok i =>
        intro h
        exact exec_turns i { s.nextChoice.2 with commands := ws } t h
      | error e => intro h; injection h with h; subst h; exact ⟨by simp, by simp, by simp⟩
  · rw [he] at h
    injection h with h
    subst h
    have hm := s.nextChoice.2.move_sameTurns s.nextChoice.1
    exact ⟨hm.2.1, hm.2.2, hm.1 ▸ List.suffix_refl _⟩

end Sys2Proof.Machine
end

