-- ==== Sys2Proof/Tests/Slice0.lean ====
section
/-! SUPPORT. The model's own tests. Expected values come from 95_test_vectors.md or by hand from the rules named. The
second half gives, for each statement with hypotheses, a concrete state and operands that meet them together. -/

namespace Sys2Proof.Tests

open Sys2Proof.Machine

/-! ### Well-formedness: each check refuses a term that breaks it -/

theorem test_init_addr7_fits : ¬(Instr.init 128).WellFormed := by decide
theorem test_setfreq_hz_fits : ¬(Instr.setfreq 65536).WellFormed := by decide
theorem test_setduty_frac_fits : ¬(Instr.setduty 0 131072 false).WellFormed := by decide
theorem test_cfgmotor_fields_fit :
    ¬(Instr.cfgmotor 16 1 2 200).WellFormed ∧ ¬(Instr.cfgmotor 0 8 2 200).WellFormed ∧
    ¬(Instr.cfgmotor 0 1 8 200).WellFormed ∧ ¬(Instr.cfgmotor 0 1 2 65536).WellFormed := by decide
theorem test_selstyle_fields_fit :
    ¬(Instr.selstyle 16 .full 0).WellFormed ∧ ¬(Instr.selstyle 0 .micro 256).WellFormed := by decide
theorem test_nextstep_unit_fits : ¬(Instr.nextstep 16 .forward).WellFormed := by decide
theorem test_setpf_fields_fit : ¬(Instr.setpf 16 0).WellFormed ∧ ¬(Instr.setpf 0 131072).WellFormed := by decide
theorem test_dispose_unit_fits : ¬(Instr.dispose 16).WellFormed := by decide
theorem test_setspeed_fields_fit : ¬(Instr.setspeed 16 1).WellFormed ∧ ¬(Instr.setspeed 0 65536).WellFormed := by decide
theorem test_stepfor_fields_fit :
    ¬(Instr.stepfor 16 .forward false 1).WellFormed ∧ ¬(Instr.stepfor 0 .forward false 4294967296).WellFormed := by decide
theorem test_cancel_unit_fits : ¬(Instr.cancel 16).WellFormed := by decide
theorem test_stop_unit_fits : ¬(Instr.stop 16).WellFormed := by decide
theorem test_setpolicy_unit_fits : ¬(Instr.setpolicy 16 true).WellFormed := by decide
theorem test_rdstat_fields_fit : ¬(Instr.rdstat 16 0).WellFormed ∧ ¬(Instr.rdstat 0 256).WellFormed := by decide

/-! ### Decoding: the words of 95_test_vectors.md section 2.1, every constructor -/

theorem test_decode_init : decode 0x0000000000600001 = .ok (.init 0x60) := by decide
theorem test_decode_setfreq : decode 0x0000000000C80002 = .ok (.setfreq 200) := by decide
theorem test_decode_acq : decode 0x0000000000003003 = .ok (.acq 3) := by decide
theorem test_decode_rel : decode 0x0000000000003004 = .ok (.rel 3) := by decide
theorem test_decode_setduty :
    decode 0x0000800000003005 = .ok (.setduty 3 32768 false) ∧
    decode 0x000100000001F005 = .ok (.setduty 15 65536 true) := by decide
theorem test_decode_disable : decode 0x0000000000003006 = .ok (.disable 3) := by decide
theorem test_decode_enable : decode 0x0000000000003007 = .ok (.enable 3) := by decide
theorem test_decode_cfgmotor :
    decode 0x0000002100C80010 = .ok (.cfgmotor 0 1 2 200) ∧
    decode 0x0000004300300110 = .ok (.cfgmotor 1 3 4 48) := by decide
theorem test_decode_selstyle :
    decode 0x0000002000030011 = .ok (.selstyle 0 .micro 32) ∧
    decode 0x0000000000010111 = .ok (.selstyle 1 .half 0) ∧
    decode 0x0000000000020011 = .ok (.selstyle 0 .wave 0) ∧
    decode 0x0000000800000011 = .ok (.selstyle 0 .full 8) := by decide
theorem test_decode_nextstep : decode 0x0000000000010112 = .ok (.nextstep 1 .backward) := by decide
theorem test_decode_setpf : decode 0x0000C00000000013 = .ok (.setpf 0 49152) := by decide
theorem test_decode_dispose :
    decode 0x0000000000000114 = .ok (.dispose 1) ∧ decode 0x0000000000000F14 = .ok (.dispose 15) := by decide
theorem test_decode_setspeed : decode 0x0000000000780020 = .ok (.setspeed 0 120) := by decide
theorem test_decode_stepfor :
    decode 0x000003E800010021 = .ok (.stepfor 0 .backward false 1000) ∧
    decode 0x0000000000020121 = .ok (.stepfor 1 .forward true 0) := by decide
theorem test_decode_cancel : decode 0x0000000000000022 = .ok (.cancel 0) := by decide
theorem test_decode_stop : decode 0x0000000000000123 = .ok (.stop 1) := by decide
theorem test_decode_setpolicy :
    decode 0x0000000000010024 = .ok (.setpolicy 0 true) ∧ decode 0x0000000000000024 = .ok (.setpolicy 0 false) := by
  decide
theorem test_decode_rdstat :
    decode 0x0000000000100130 = .ok (.rdstat 1 0x10) ∧ decode 0x00000000004F0030 = .ok (.rdstat 0 0x4F) := by decide

theorem test_undefined_opcodes :
    decode 0x00 = .error (.undefinedOpcode 0) ∧ decode 0x08 = .error (.undefinedOpcode 8) ∧
    decode 0x31 = .error (.undefinedOpcode 0x31) ∧ decode 0xFF = .error (.undefinedOpcode 0xFF) := by decide
theorem test_reserved_bits :
    decode 0x0000000000E00001 = .error (.reservedBits .fa) ∧ decode 0x0000000000003103 = .error (.reservedBits .fc) ∧
    decode 0x0000000000040021 = .error (.reservedBits .fr) ∧ decode 0x0002000000003005 = .error (.reservedBits .fd) ∧
    decode 0x0000008000C80010 = .error (.reservedBits .fm) ∧ decode 0x0000000800C80010 = .error (.reservedBits .fm) := by
  decide
theorem test_encode_setduty : encode (.setduty 15 65536 true) = 0x000100000001F005 := by decide
theorem test_word_bytes : wordBytes 0x0000002100C80010 = [0x10, 0x00, 0xC8, 0x00, 0x21, 0x00, 0x00, 0x00] := by decide
theorem test_table_word : decodeTableWord 64 0x0000000000600001 = some (.init 0x60) := by decide

/-! ### Small states: a settle wait of one tick (TIMER_HZ 2000, R15) -/

/-- The instance of the tests. -/
def cfg : Config := { Config.standard with timerHz := 2000 }

/-- The block after INIT 0x60, with an empty trace. -/
def ready : State :=
  { State.resetWith cfg with initialized := true, busAddr := 0x60, prescale := 30, freqActual := 197 }

/-- Channel ch acquired by the host. -/
def hostOf (ch : ChannelId) : State := ready.setOwner ch .host

/-- Unit 0 bound to ports 1 and 2 with SPR 200 and style FULL, TPS 5. -/
def motor : State :=
  (ready.setOwners (bindingChannels cfg.portMap 1 2) (.unit 0)).setUnit 0
    { UnitState.reset with bound := true, portA := 1, portB := 2, spr := 200, ready := true, tps := 5 }

/-- Unit 0 in a continuous run, its next step due. -/
def due : State := motor.setUnit 0 { motor.unit 0 with run := .running, cont := true, phase := .spin }

/-- A state with its agents' order and the bus answers. -/
def arranged (s : State) (sched : List Choice) (answers : List Answer) : State :=
  { s with sched := sched, answers := answers }

/-- The port alone, for n steps, with these answers. -/
def portOnly (s : State) (n : Nat) (answers : List Answer) : State := arranged s (List.replicate n .port) answers

/-- The state a command leaves. -/
def after (i : Instr) (s : State) : State :=
  match exec i s with
  | .next t => t
  | .fault _ => s
  | .refused _ => s

theorem exec_after (i : Instr) (s : State) : exec i s = .next (after i s) := by
  obtain ⟨t, h⟩ := exec_next i s
  unfold after; rw [h]

/-- The state one step leaves. -/
def stepped (s : State) : State :=
  match step s with
  | .next t => t
  | .fault _ => s
  | .refused _ => s

/-- The register and the bytes of each write of the trace. -/
def writes (s : State) : List (Byte × List Byte) :=
  s.trace.filterMap fun t => match t.op with
    | .write _ reg data => some (reg, data)
    | .generalCall _ => none

/-! ### One command each -/

/-- Section 2.2: five transactions, answered with 197 (p = 30). -/
theorem test_init :
    let t := after (.init 0x60) (arranged (State.resetWith cfg)
      [.port, .port, .tick, .port, .tick, .port, .port, .tick, .port, .tick, .port] (List.replicate 5 .ack))
    writes t = [(0, [0x31]), (0xFE, [0x1E]), (0, [0x21]), (0, [0xA1])] ∧ t.responses = [0x000000C500000000] ∧
    t.time = 4 := by decide
/-- Section 2.2: a Nack of the PRESCALE write is a BusIOError, and the driver stays uninitialized. -/
theorem test_init_nack :
    let t := after (.init 0x60) (arranged (State.resetWith cfg)
      [.port, .port, .tick, .port, .tick, .port] [.ack, .ack, .nack])
    t.responses = [0x0000000000000006] ∧ t.initialized = false ∧ t.prescale = 0 ∧ t.busLock = .free := by decide
/-- Section 2.2: SETFREQ 1000 programs 5 and answers 1017. -/
theorem test_setfreq :
    let t := after (.setfreq 1000) (arranged ready
      [.port, .port, .tick, .port, .port, .tick, .port, .tick, .port] (List.replicate 4 .ack))
    writes t = [(0, [0x31]), (0xFE, [0x05]), (0, [0x21]), (0, [0xA1])] ∧ t.responses = [0x000003F900000000] ∧
    t.freqActual = 1017 := by decide
/-- Section 2.2: SETFREQ 1000 with the wake write answered Err(2) keeps PRESCALE 30 and FREQ_ACTUAL 197. -/
theorem test_setfreq_err :
    let t := after (.setfreq 1000) (arranged ready [.port, .port, .tick, .port, .port] [.ack, .ack, .err 2])
    t.responses = [0x0000000200000006] ∧ t.prescale = 30 ∧ t.freqActual = 197 := by decide
/-- Section 1.6: ACQ 3 twice. -/
theorem test_acq :
    (after (.acq 3) (after (.acq 3) ready)).responses = [0x0, 0x2] ∧
    ((after (.acq 3) ready).channel 3).owner = .host := by decide
/-- Section 2.2 lines 11 and 12: REL whose write answers Err(5) frees the channel all the same. -/
theorem test_rel :
    let t := after (.rel 0) (portOnly (hostOf 0) 2 [.err 5])
    t.responses = [0x0000000500000006] ∧ (t.channel 0).owner = .free ∧
    writes t = [(0x06, [0x00, 0x00, 0x00, 0x10])] := by decide
/-- Section 1.6: releasing an unacquired channel. -/
theorem test_rel_free : (after (.rel 3) ready).responses = [0x3] := by decide
/-- Section 2.2 line 14: SETDUTY 1, 0.5. -/
theorem test_setduty :
    let t := after (.setduty 1 32768 false) (portOnly (hostOf 1) 2 [.ack])
    writes t = [(0x0A, [0x00, 0x00, 0x00, 0x08])] ∧ t.responses = [0x0000080000000000] := by decide
/-- Section 2.2 lines 6 to 8: SETDUTY on a disabled channel writes nothing. -/
theorem test_setduty_disabled :
    let t := after (.rdstat 0 0x50)
      (after (.setduty 0 8 true) ((hostOf 0).setChannel 0 { (hostOf 0).channel 0 with disabled := true }))
    writes t = [] ∧ t.responses = [0x0000000100000000, 0x0011000100000000] := by decide
/-- Section 2.2 lines 15 and 16: DISABLE whose write answers Nack leaves DISABLED set. -/
theorem test_disable :
    let t := after (.disable 1) (portOnly (hostOf 1) 2 [.nack])
    t.responses = [0x0000000000000006] ∧ (t.channel 1).disabled = true ∧ (t.channel 1).imageValid = false := by decide
/-- Section 2.2 line 9: ENABLE writes the recorded spec, 4096 - 1 = 4095. -/
theorem test_enable :
    let t := after (.enable 0)
      (portOnly ((hostOf 0).setChannel 0 ⟨.host, true, 1, true, 0, false⟩) 2 [.ack])
    writes t = [(0x06, [0x00, 0x00, 0xFF, 0x0F])] ∧ (t.channel 0).disabled = false := by decide
/-- R119, R110: CFGMOTOR 0, 1, 2, 200 takes channels 8, 9, 10, 11, 12, 13. -/
theorem test_cfgmotor :
    let t := after (.rdstat 0 0x02) (after (.cfgmotor 0 1 2 200) ready)
    t.responses = [0x0, 0x00003F0000000000] ∧ (t.channel 13).owner = .unit 0 := by decide
/-- R119, R143: an operand error comes before a channel error. -/
theorem test_cfgmotor_order :
    (after (.cfgmotor 0 1 1 200) (hostOf 8)).responses = [0x1] ∧
    (after (.cfgmotor 0 1 2 200) (hostOf 8)).responses = [0x2] := by decide
/-- R120, R35: MICRO 32 has 128 entries; FULL takes no microstep count. -/
theorem test_selstyle :
    (after (.selstyle 0 .micro 32) motor).responses = [0x0000008000000000] ∧
    (after (.selstyle 0 .full 8) motor).responses = [0x1] := by decide
/-- Section 2.4, transactions 6 to 11: the first step's six writes. -/
theorem test_nextstep :
    let t := after (.nextstep 0 .forward) (portOnly motor 12 (List.replicate 6 .ack))
    writes t =
      [(0x32, [0x00, 0x00, 0x00, 0x10]), (0x36, [0x00, 0x10, 0x00, 0x00]), (0x3A, [0x00, 0x10, 0x00, 0x00]),
       (0x2A, [0x00, 0x00, 0x00, 0x10]), (0x2E, [0x00, 0x10, 0x00, 0x00]), (0x26, [0x00, 0x10, 0x00, 0x00])] ∧
    t.responses = [0x0000000100000000] := by decide
/-- Section 2.4 line 6: the entry already applied, so no write. -/
theorem test_nextstep_suppressed :
    let t := after (.nextstep 0 .forward)
      (motor.setUnit 0 { motor.unit 0 with lastA := ⟨true, 4096, .pos⟩, lastB := ⟨true, 4096, .neg⟩ })
    writes t = [] ∧ t.responses = [0x0000000100000000] ∧ (t.unit 0).run = .braking := by decide
/-- R122: SETPF above 1 is refused. -/
theorem test_setpf :
    ((after (.setpf 0 32768) motor).unit 0).pf = 32768 ∧ (after (.setpf 0 65537) motor).responses = [0x1] := by decide
/-- Section 2.4, transactions 26 to 31: DISPOSE's six writes, coil B first. -/
theorem test_dispose :
    let t := after (.dispose 0) (portOnly motor 12 (List.replicate 6 .ack))
    (writes t).map Prod.fst = [0x3A, 0x32, 0x36, 0x26, 0x2E, 0x2A] ∧ t.unit 0 = UnitState.reset ∧
    (t.channel 8).owner = .free := by decide
/-- R124, R132 at TIMER_HZ 2000 and SPR 200: 60 * 2000 / 12000 = 10; RPM 0 is refused. -/
theorem test_setspeed :
    (after (.setspeed 0 60) motor).responses = [0x0000000A00000000] ∧ (after (.setspeed 0 0) motor).responses = [0x1] := by
  decide
/-- R133: STEPFOR starts the run; CONT with a count is refused. -/
theorem test_stepfor :
    ((after (.stepfor 0 .backward false 7) motor).unit 0).run = .running ∧
    ((after (.stepfor 0 .backward false 7) motor).unit 0).remaining = 7 ∧
    (after (.stepfor 0 .forward true 8) motor).responses = [0x1] := by decide
/-- R134, R127: a cancelled run ends with no further Step. -/
theorem test_cancel :
    let t := after (.cancel 0) (arranged due [.loop 0, .port] [])
    t.responses = [0x0] ∧ (t.unit 0).run = .braking ∧ writes t = [] := by decide
/-- R117, R135: the first failure is the answer, and the writes go on. -/
theorem test_stop :
    let t := after (.stop 0) (portOnly motor 12 [.ack, .nack, .err 9, .ack, .ack, .ack])
    t.responses = [0x0000000000000006] ∧ (writes t).length = 6 ∧ (t.unit 0).busErr = true ∧
    (t.unit 0).run = .braking := by decide
/-- R136. -/
theorem test_setpolicy : ((after (.setpolicy 0 true) motor).unit 0).endFull = true := by decide
/-- R138: the unit status of a bound, ready unit; and an undefined selector. -/
theorem test_rdstat :
    (after (.rdstat 0 0x10) motor).responses = [0x0000000300000000] ∧ (after (.rdstat 0 0x09) motor).responses = [0x7] := by
  decide
/-- R118: a unit number past NUM_UNITS. -/
theorem test_rdstat_unit : (after (.rdstat 2 0x10) motor).responses = [0x1] := by decide

/-! ### The machine's step -/

/-- R81: a word that does not decode. -/
theorem test_step_illegal : (stepped (ready.withFetchWord 64 0xE00001)).responses = [0x7] := by decide
/-- R23: a placed word runs at the next step. -/
theorem test_step_runs : (stepped (ready.withFetchWord 64 0x3003)).responses = [0x0] := by decide
/-- R66: a loop waits for the lock that the port holds. -/
theorem test_step_lock :
    let s := arranged { due with busLock := .port, port := .busy (.prescale 0x60 5 .wake 1 .setfreq) } [.loop 0, .loop 0] []
    ((stepped (stepped s)).unit 0).stepJob = some ⟨⟨11, fullOff, false⟩,
      [.apply 12 4096, .apply 13 4096, .record .b 4096 .neg, .apply 9 0, .apply 10 4096, .apply 8 4096,
        .record .a 4096 .pos]⟩ ∧ writes (stepped (stepped s)) = [] := by decide

/-! ### Witnesses: states and operands that meet each statement's hypotheses together -/

theorem witness_decodeOfEncode :
    (Instr.stepfor 15 .backward true 4294967295).WellFormed ∧ (Instr.cfgmotor 15 7 7 65535).WellFormed := by decide
theorem witness_encodeOfDecode : decode 0xFFFFFFFF00030F21 = .ok (.stepfor 15 .backward true 4294967295) := by decide

/-- A block with a word waiting and the port's turn. -/
def waiting (w : Word) : State := { ready with sched := [.port], commands := [w] }

theorem witness_illegalWord :
    (waiting 0x31).nextChoice.1 = .port ∧ (waiting 0x31).port = .idle ∧ (waiting 0x31).busLock ≠ .port ∧
    (waiting 0x31).commands = [0x31] ∧ ∀ row ∈ commandRows, (0x31 : Word) &&& row.2 ≠ row.1 :=
  ⟨by decide, by decide, by decide, by decide, by simp [commandRows]⟩
theorem witness_stepRuns :
    (waiting 0x3003).nextChoice.1 = .port ∧ (waiting 0x3003).port = .idle ∧ (waiting 0x3003).commands = [0x3003] ∧
    decode 0x3003 = .ok (.acq 3) ∧ decode (BitVec.ofNat 64 (0x3003 % 2 ^ 16)) = .ok (.acq 3) := by decide
theorem witness_commandBytes : ([] : List Byte).length ≠ 8 ∧ (7 : Nat) < 8 := by decide
theorem witness_ratio : (0 : Nat) ≤ 65536 ∧ 65536 ≤ 65536 := ⟨Nat.zero_le _, Nat.le_refl _⟩
theorem witness_registerImage : 1 ≤ 4095 ∧ 4095 ≤ 4095 ∧ 1 ≤ 1 := by decide
theorem witness_prescale : 0 < 25000000 ∧ actualFreq cfg.clockHz 3 < 65536 := by decide
theorem witness_settle : 0 < cfg.timerHz ∧ 1 ≤ 1 ∧ 500 * cfg.timerHz ≤ 1 * 1000000 := by decide
/-- The clauses of StepTableProperties: the ends of the look-up table, of a quadrant, of a table, of the coil currents
and power factors, a channel that is not disabled, and a LAST that is not valid. -/
theorem witness_stepTable :
    nmsLegal .micro 32 = true ∧ 127 < tableLen .micro 32 ∧ 32 ∈ microstepSet ∧ lut[0]? = some 0 ∧
    lut[32]? = some 65536 ∧ (4 ∈ microstepSet ∧ 0 < 4 ∧ 3 < 4) ∧ (motor.unit 0).ready = true ∧
    nmsLegal (motor.unit 0).style (motor.unit 0).nms.toNat = true ∧
    (motor.unit 0).index.toNat < tableLen (motor.unit 0).style (motor.unit 0).nms.toNat ∧
    (-65536 : Int).natAbs ≤ 65536 ∧ (65536 : Nat) = (65536 * 65536 + 32768) >>> 16 ∧
    (motor.channel 8).disabled = false ∧ Last.reset.valid = false := by decide

/-- A SETDUTY of channel 1 inside its critical section. -/
def writing : State :=
  { hostOf 1 with
    port := .busy (.channelWrite ⟨1, fullOff, true⟩ (.reply 0)), busLock := .port, sched := [.port], answers := [.ack] }

theorem witness_lockStaysExclusive : writing.LockOk ∧ ∃ t, step writing = .next t := ⟨by decide, step_next _⟩

/-- A unit's registers are legal where their decidable part is and no Step is under way. -/
theorem unit_legal (x : UnitState)
    (h : x.pf.toNat ≤ 65536 ∧ ratioLegal x.lastA.ratio ∧ ratioLegal x.lastB.ratio ∧
      (x.ready = true → nmsLegal x.style x.nms.toNat = true ∧ x.index.toNat < tableLen x.style x.nms.toNat) ∧
      (x.run = .running → x.bound = true ∧ x.ready = true ∧ x.tps ≠ 0 ∧ x.busErr = false))
    (hj : x.stepJob = none) : x.Legal :=
  ⟨h.1, h.2.1, h.2.2.1, h.2.2.2.1, h.2.2.2.2, by intro job h; rw [hj] at h; cases h⟩

theorem motor_unit_legal : (motor.unit 0).Legal := unit_legal _ (by decide) (by decide)
theorem due_unit_legal : (due.unit 0).Legal := unit_legal _ (by decide) (by decide)

theorem witness_registersStayLegal : due.RegistersLegal ∧ ∃ t, step due = .next t := by
  refine ⟨⟨fun u => ?_, by decide, by decide, trivial, by decide⟩, step_next _⟩
  unfold UnitState.BindingLegal
  rcases (by decide : ∀ v : UnitId, v = 0 ∨ v = 1) u with rfl | rfl
  · exact ⟨due_unit_legal, by decide⟩
  · exact ⟨unit_legal _ (by decide) (by decide), by decide⟩

theorem motor_ownershipOk : motor.OwnershipOk := ⟨by decide, by decide, by decide, trivial⟩
theorem due_ownershipOk : due.OwnershipOk := ⟨by decide, by decide, by decide, trivial⟩

theorem witness_ownershipStaysSound : due.OwnershipOk ∧ ∃ t, step due = .next t := ⟨due_ownershipOk, step_next _⟩

/-- The block after DISABLE 1 with Ack. -/
def disabledOne : State := after (.disable 1) (portOnly (hostOf 1) 2 [.ack])

theorem witness_imagesStayTrue :
    disabledOne.ImagesTrue ∧ (disabledOne.channel 1).imageValid = true ∧ ∃ t, step disabledOne = .next t := by
  refine ⟨⟨by decide, by decide, ?_, ?_⟩, by decide, step_next _⟩
  · unfold State.HoldsImage; decide
  · intro _ _ _ _ h; exact absurd (by decide : disabledOne.port = .idle) (by rw [h]; simp)
theorem witness_everyTransactionIsListed : disabledOne.TraceListed ∧ ∃ t, step disabledOne = .next t := by
  refine ⟨⟨?_, trivial, ?_⟩, step_next _⟩
  · have h : disabledOne.trace = [disabledOne.imageTransaction .port 1 fullOff .ack] := by decide
    rw [h]
    intro t ht
    rw [List.mem_singleton.1 ht]
    exact .image _ _ _ ⟨0, by decide, rfl⟩
  · intro u job h
    exact absurd h (by rw [(by decide : ∀ u, (disabledOne.unit u).stepJob = none) u]; simp)
theorem witness_expanderReplaysTheTrace :
    (disabledOne.expander.wf ∧ disabledOne.ExpanderReplaysTrace) ∧ disabledOne.expander.length = 4 ∧
    ∃ t, step disabledOne = .next t :=
  ⟨⟨by decide, fun a => .inr (by rw [(by decide : disabledOne.expander = replay disabledOne.trace)])⟩, by decide,
    step_next _⟩
theorem witness_responsesStayLegal :
    disabledOne.responses = [responseWord 0 0] ∧ (∀ w ∈ [responseWord 0 0, responseWord 6 5], ResponseLegal w) ∧
    ∃ t, step disabledOne = .next t :=
  ⟨by decide, by simp [ResponseLegal, bitField, responseWord], step_next _⟩
theorem witness_everyCommandIsAnsweredOnce : writing.port ≠ .idle ∧ ∃ t, step writing = .next t :=
  ⟨by decide, step_next _⟩
theorem witness_historyIsNeverRewritten : writing.initialized = true ∧ ∃ t, step writing = .next t :=
  ⟨by decide, step_next _⟩
theorem witness_timeMovesOnlyByTicks : ready.sched = [] ∧ exec (.acq 1) ready = .next (after (.acq 1) ready) :=
  ⟨rfl, exec_after _ _⟩
theorem witness_quiescentBlock : motor.Quiescent ∧ motor.commands = [] ∧ ∃ t, step motor = .next t :=
  ⟨by decide, by decide, step_next _⟩

/-- Weak fairness (item U7): an agent left out of a round gets its turn in it; a round with every agent stays as drawn;
and a round's next turn is taken where no schedule stands before it. -/
theorem test_round_leaves_no_agent_out :
    completeRound [.port, .port] = [.port, .port, .tick, .loop 0, .loop 1] ∧
    ({ ready with round := [.loop 1, .tick] } : State).nextChoice = (.loop 1, { ready with round := [.tick] }) := by
  decide
theorem witness_everyAgentsTurnComesAgain : ready.sched = [] ∧ ∀ c : Choice, c ∈ [Choice.loop 1, .tick, .loop 0, .port] := by
  refine ⟨rfl, fun c => ?_⟩
  rcases c with _ | _ | u
  · decide
  · decide
  · revert u; decide

/-- After a failed write no expander register is known (R64): channel 1 was FULL_OFF, a SETDUTY of it is not
acknowledged. -/
theorem test_failed_write_leaves_nothing_known :
    disabledOne.expander.length = 4 ∧
    (after (.enable 1) (portOnly disabledOne 2 [.nack])).expander = [] := by decide

/-- The block before INIT. -/
def fresh : State := State.resetWith cfg

theorem witness_initPrograms :
    cfg.Legal ∧ 127 < 128 ∧ fresh.initialized = false ∧ fresh.busLock = .free ∧ settleTicks cfg ≤ 1 ∧
    (arranged fresh [.port, .port, .tick, .port, .tick, .port, .port, .tick, .port, .tick, .port]
      (List.replicate 5 .ack)).sched =
      [Choice.port, Choice.port] ++ List.replicate 1 Choice.tick ++ [Choice.port] ++ List.replicate 1 Choice.tick ++
      [Choice.port, Choice.port] ++ List.replicate 1 Choice.tick ++ [Choice.port] ++ List.replicate 1 Choice.tick ++
      [Choice.port] ++ [] := by decide
theorem witness_initIdempotent :
    ready.initialized = true ∧ fresh.initialized = false ∧ fresh.busLock = .free ∧
    (portOnly fresh 2 [.nack]).sched = [.port, .port] ∧ (portOnly fresh 2 [.err 7]).answers = [.err 7] ∧
    Answer.nack ≠ .ack ∧ Answer.err 7 ≠ .ack := by decide
theorem witness_setfreqPrograms :
    cfg.Legal ∧ ready.initialized = true ∧ ready.busLock = .free ∧ settleTicks cfg ≤ 1 ∧
    (arranged ready [.port, .port, .tick, .port, .port, .tick, .port, .tick, .port] (List.replicate 4 .ack)).sched =
      [Choice.port, Choice.port] ++ List.replicate 1 Choice.tick ++ [Choice.port, Choice.port] ++
      List.replicate 1 Choice.tick ++ [Choice.port] ++
      List.replicate 1 Choice.tick ++ [Choice.port] ++ [] := by decide

/-- SETFREQ before its wake write. -/
def waking : State :=
  { ready with port := .busy (.prescale 0x60 5 .wake 0 .setfreq), busLock := .port, answers := [.err 2] }

theorem witness_prescaleFailure :
    waking.port = .busy (.prescale 0x60 5 .wake 0 .setfreq) ∧ waking.busLock = .port ∧ PrescaleStage.wake ≠ .done ∧
    waking.answers = [.err 2] ∧ Answer.err 2 ≠ .ack := by decide

/-- INIT before its sleep write, to be answered with Nack: no device. -/
def sleeping : State :=
  { fresh with port := .busy (.prescale 0x60 30 .sleep 0 .init), busLock := .port, answers := [.nack] }

theorem witness_prescaleFailure_noDevice :
    sleeping.port = .busy (.prescale 0x60 30 .sleep 0 .init) ∧ sleeping.busLock = .port ∧ PrescaleStage.sleep ≠ .done ∧
    sleeping.answers = [.nack] ∧ Answer.nack ≠ .ack ∧ (sleeping.move .port).responses = [responseWord 4 0] := by decide
/-- A settle wait of three ticks, and a stage of ProgramPrescale whose write is acknowledged. -/
def settling (why : PrescaleFor) : State := { ready with port := .busy (.prescale 0x60 5 .value 3 why), busLock := .port }
def writingStage (stage : PrescaleStage) (why : PrescaleFor) : State :=
  { ready with port := .busy (.prescale 0x60 5 stage 0 why), busLock := .port, answers := [.ack] }

/-- KeepsSettleWaits at a wait with fewer ticks to come, and at each stage with Ack, for INIT and for SETFREQ. -/
theorem witness_settleWaits :
    ∀ why ∈ [PrescaleFor.init, .setfreq],
      (settling why).port = .busy (.prescale 0x60 5 .value 3 why) ∧ 3 ≠ 0 ∧
      [Choice.port, .tick, .loop 0, .tick, .port].count .tick < 3 ∧
      ∀ stage ∈ [PrescaleStage.sleep, .value, .wake, .restart],
        (writingStage stage why).port = .busy (.prescale 0x60 5 stage 0 why) ∧
        (writingStage stage why).nextAnswer.1 = .ack := by decide
theorem witness_settleWaits_start :
    (let s : State := { fresh with port := .busy (.generalCall 0x60 true), busLock := .port, answers := [.ack] }
     s.port = .busy (.generalCall 0x60 true) ∧ s.nextAnswer.1 = .ack) ∧
    ({ ready with port := .busy (.prescaleLock 5) } : State).port = .busy (.prescaleLock 5) ∧ ready.busLock = .free := by
  decide
theorem witness_acq :
    (ready.initialized = true ∧ (ready.channel 15).owner = .free) ∧
    (fresh.busLock ≠ .port ∧ fresh.initialized = false) ∧
    ((motor.busLock ≠ .port ∧ motor.initialized = true) ∧ (motor.channel 8).owner ≠ .free) := by decide
theorem witness_channelWrite :
    (hostOf 1).initialized = true ∧ ((hostOf 1).channel 1).owner = .host ∧ ((hostOf 1).channel 1).disabled = false ∧
    (hostOf 1).busLock = .free ∧ (portOnly (hostOf 1) 2 [.nack]).sched = .port :: .port :: [] ∧
    (portOnly (hostOf 1) 2 [.nack]).answers = .nack :: [] := by decide
theorem witness_setduty :
    65536 ≤ 65536 ∧ 65536 < 65537 ∧ (hostOf 1).busLock ≠ .port ∧
    disabledOne.initialized = true ∧ (disabledOne.channel 1).owner = .host ∧ (disabledOne.channel 1).disabled = true := by
  decide
theorem witness_enable :
    (0 : Nat) = (if ((hostOf 1).channel 1).specInv then 4096 - ((hostOf 1).channel 1).specRatio.toNat
      else ((hostOf 1).channel 1).specRatio.toNat) := by decide
theorem witness_driverCommandsNeedInit :
    fresh.initialized = false ∧ fresh.busLock ≠ .port ∧ (∃ hz, Instr.setfreq 0 = .setfreq hz) ∧
    (∃ ch, Instr.acq 15 = .acq ch) ∧ (Instr.enable 0).hostChannel ≠ none ∧
    ∃ n pa pb spr, Instr.cfgmotor 1 1 2 200 = .cfgmotor n pa pb spr ∧ n < fresh.cfg.units.toNat :=
  ⟨by decide, by decide, ⟨_, rfl⟩, ⟨_, rfl⟩, by decide, ⟨_, _, _, _, rfl, by decide⟩⟩
theorem witness_hostCommandsNeedTheChannel :
    motor.initialized = true ∧ motor.busLock ≠ .port ∧ (Instr.rel 0).hostChannel = some 0 ∧
    (motor.channel 0).owner = .free ∧ (motor.channel 8).owner = .unit 0 ∧ ((hostOf 1).channel 1).owner = .host := by
  decide
theorem witness_cfgmotor :
    (ready.busLock ≠ .port ∧ ready.cfg.units.toNat ≤ 2 ∧ fresh.initialized = false) ∧
    ((1 : UnitId).val = 1 ∧ 1 < ready.cfg.units.toNat ∧ ready.initialized = true ∧ (ready.unit 1).bound = false ∧
      (motor.unit 0).bound = true ∧ ¬(1 ≤ 0 ∧ 0 ≤ 4) ∧ ¬(1 ≤ 5 ∧ 5 ≤ 4)) ∧
    (∃ ch ∈ bindingChannels motor.cfg.portMap 1 4, (motor.channel ch).owner ≠ .free) ∧
    ∀ ch ∈ bindingChannels motor.cfg.portMap 3 4, (motor.channel ch).owner = .free := by decide
theorem witness_selstyle :
    (0 : UnitId).val = 0 ∧ 0 < motor.cfg.units.toNat ∧ (motor.unit 0).bound = true ∧ (due.unit 0).bound = true ∧
    (due.unit 0).run = .running ∧ (motor.unit 0).run ≠ .running ∧ motor.busLock ≠ .port ∧ due.busLock ≠ .port := by
  decide

/-- The writes of a forward step of `motor`. -/
def firstWrites : List (ChannelId × BitVec 13) := [(11, 0), (12, 4096), (13, 4096), (9, 0), (10, 4096), (8, 4096)]

theorem witness_nextstep :
    motor.cfg.Legal ∧ motor.OwnershipOk ∧ (motor.unit 0).Legal ∧ (motor.unit 0).bound = true ∧
    (motor.unit 0).run ≠ .running ∧ (motor.unit 0).ready = true ∧ (motor.unit 0).busErr = false ∧ motor.busLock = .free ∧
    firstWrites = stepWrites (coilOps (motor.coilTriple 0 .b) (motor.unit 0).lastB .b (tableEntry .full 0 1).2 65536 ++
      coilOps (motor.coilTriple 0 .a) (motor.unit 0).lastA .a (tableEntry .full 0 1).1 65536) ∧
    (portOnly motor 12 (List.replicate 6 .ack)).sched = List.replicate (2 * firstWrites.length) .port ++ [] :=
  ⟨by decide, motor_ownershipOk, motor_unit_legal, by decide, by decide, by decide, by decide, by decide, by decide,
    by decide⟩
/-- A failure at coil A's last write, with coil B's three writes done, and one at coil B's first. -/
theorem witness_nextstepWriteFailure :
    firstWrites.take 3 = stepWrites (coilOps (motor.coilTriple 0 .b) (motor.unit 0).lastB .b (tableEntry .full 0 1).2 65536) ∧
    firstWrites.drop 3 = stepWrites (coilOps (motor.coilTriple 0 .a) (motor.unit 0).lastA .a (tableEntry .full 0 1).1 65536) ∧
    firstWrites.take 3 ++ firstWrites.drop 3 = firstWrites ∧
    firstWrites = firstWrites.take 5 ++ [((8 : ChannelId), (4096 : BitVec 13))] ∧
    firstWrites = ((11 : ChannelId), (0 : BitVec 13)) :: firstWrites.drop 1 ∧
    (portOnly motor 12 (List.replicate 5 .ack ++ [.nack])).answers =
      List.replicate 5 Answer.ack ++ [Answer.nack] ∧
    (portOnly motor 2 [.nack]).sched = List.replicate (2 * (0 + 1)) .port ++ [] := by decide
theorem witness_nextstepRefusals :
    (due.unit 0).run = .running ∧ due.busLock ≠ .port ∧
    (let x : UnitState := { motor.unit 0 with ready := false }; x.bound = true ∧ x.run ≠ .running ∧ x.ready = false) ∧
    (let x : UnitState := { motor.unit 0 with busErr := true }
     x.bound = true ∧ x.run ≠ .running ∧ x.ready = true ∧ x.busErr = true) := by decide
theorem witness_stepWritesOnlyOnChange :
    (⟨13, 11, 12⟩ : PortTriple).channels.Nodup ∧ (⟨true, 4096, .neg⟩ : Last).pol = polOf (-65536) ∧
    (⟨true, 4096, .neg⟩ : Last).ratio = BitVec.ofNat 13 (coilRatio (-65536) 65536) ∧
    ((11, 0) ∈ stepWrites (coilOps ⟨13, 11, 12⟩ Last.reset .b (-65536) 65536)) ∧
    (13, 4096) ∈ stepWrites (coilOps ⟨13, 11, 12⟩ Last.reset .b (-65536) 65536) := by decide
/-- R113, R115: with LAST valid a changed polarity and a changed ratio are written, and nothing else. -/
theorem test_stepWrites_on_change :
    stepWrites (coilOps ⟨13, 11, 12⟩ ⟨true, 4096, .neg⟩ .b 65536 32768) = [(12, 0), (11, 4096), (13, 2048)] ∧
    stepWrites (coilOps ⟨13, 11, 12⟩ ⟨true, 4096, .neg⟩ .b 0 65536) = [(12, 0), (13, 0)] := by decide
theorem witness_stepWriteOrder : (motor.unit 0).lastA.valid = false ∧ (motor.unit 0).lastB.valid = false := by decide
theorem witness_setpf :
    (0 : UnitId).val = 0 ∧ 0 < motor.cfg.units.toNat ∧ (motor.unit 0).bound = true ∧ 65536 ≤ 65536 ∧ 65536 < 65537 ∧
    motor.busLock ≠ .port := by decide
theorem witness_deEnergize :
    motor.cfg.Legal ∧ motor.OwnershipOk ∧ (motor.unit 0).bound = true ∧ (motor.unit 0).run ≠ .running ∧
    motor.busLock = .free ∧ [Answer.ack, .nack, .err 9, .ack, .ack, .ack].length = 6 ∧
    (portOnly motor 12 (List.replicate 6 .ack)).sched = List.replicate 12 .port ++ [] ∧
    (∀ r ∈ List.replicate 6 Answer.ack, r = .ack) ∧ ∃ r ∈ [Answer.ack, .nack, .err 9, .ack, .ack, .ack], r ≠ .ack :=
  ⟨by decide, motor_ownershipOk, by decide, by decide, by decide, by decide, by decide, by decide, by decide⟩
theorem witness_unitNumber :
    motor.busLock ≠ .port ∧ (Instr.stop 2).checkedUnit = some 2 ∧ motor.cfg.units.toNat ≤ 2 ∧
    (Instr.rdstat 15 0x10).checkedUnit = some 15 ∧ (Instr.stop 1).boundUnit = some 1 ∧ (1 : UnitId).val = 1 ∧
    1 < motor.cfg.units.toNat ∧ (motor.unit 1).bound = false := by decide
theorem witness_setspeed :
    (60 * cfg.timerHz + 60 * 200 / 2) / (60 * 200) = 10 ∧ (60 * cfg.timerHz + 65535 * 200 / 2) / (65535 * 200) = 0 ∧
    (60 * 4294967296 + 60 / 2) / 60 = 2 ^ 32 ∧ (motor.unit 0).spr.toNat = 200 ∧ (motor.unit 0).bound = true := by decide
theorem witness_stepfor :
    (due.unit 0).run = .running ∧ (motor.unit 0).run ≠ .running ∧ (motor.unit 0).ready = true ∧
    (motor.unit 0).tps ≠ 0 ∧ (motor.unit 0).busErr = false ∧ ({ motor.unit 0 with busErr := true } : UnitState).busErr = true := by
  decide
theorem witness_cancel :
    (motor.unit 0).run ≠ .running ∧ (due.unit 0).run = .running ∧ (due.unit 0).stepJob = none ∧
    (due.unit 0).cooling = false ∧ ¬((due.unit 0).endFull = true ∧ (due.unit 0).style = .micro ∧
      (due.unit 0).index.toNat % (due.unit 0).nms.toNat ≠ 0) ∧
    (arranged due [.loop 0, .port] []).sched = .loop 0 :: .port :: [] := by decide
theorem witness_heldCommands :
    (due.unit 0).bound = true ∧ (due.unit 0).run = .running ∧ due.sched = [] ∧
    ({ due with port := .busy (.hold 0 .stop) } : State).port = .busy (.hold 0 .stop) := by decide

/-- A held command whose run has ended, with six answers to come. -/
def released (why : HoldFor) : State :=
  { motor with port := .busy (.hold 0 why), answers := [.ack, .nack, .err 9, .ack, .ack, .ack] }

theorem released_ownershipOk (why : HoldFor) : (released why).OwnershipOk :=
  ⟨motor_ownershipOk.1, motor_ownershipOk.2.1, motor_ownershipOk.2.2.1, (by decide : (motor.unit 0).bound = true)⟩
theorem witness_heldCommands_released :
    (released .stop).cfg.Legal ∧ (∀ why, (released why).OwnershipOk) ∧
    (released .cancel).port = .busy (.hold 0 .cancel) ∧ (released .stop).port = .busy (.hold 0 .stop) ∧
    (released .dispose).port = .busy (.hold 0 .dispose) ∧ ((released .stop).unit 0).run ≠ .running ∧
    ((released .stop).unit 0).bound = true ∧ (released .stop).busLock = .free ∧
    (released .stop).answers = [Answer.ack, .nack, .err 9, .ack, .ack, .ack] ++ [] :=
  ⟨by decide, released_ownershipOk, rfl, rfl, rfl, by decide, by decide, rfl, rfl⟩

/-- CANCEL holds on unit 0, which is Running in style FULL; and on one that is microstepping with END_FULL set, which
its policy makes cool down. -/
def held : State :=
  { due.setUnit 0 { due.unit 0 with cancelReq := true } with port := .busy (.hold 0 .cancel) }
def heldMicro : State :=
  { due.setUnit 0 { due.unit 0 with style := .micro, nms := 4, index := 3, endFull := true, cancelReq := true } with
    port := .busy (.hold 0 .cancel) }

theorem held_ok : held.RegistersLegal ∧ held.HoldsOk := by
  refine ⟨⟨fun u => ?_, by decide, by decide, trivial, by decide⟩, by decide, fun u why h _ => ?_⟩
  · unfold UnitState.BindingLegal
    rcases (by decide : ∀ v : UnitId, v = 0 ∨ v = 1) u with rfl | rfl <;>
      exact ⟨unit_legal _ (by decide) (by decide), by decide⟩
  · cases h; decide
theorem heldMicro_ok : heldMicro.RegistersLegal ∧ heldMicro.HoldsOk := by
  refine ⟨⟨fun u => ?_, by decide, by decide, trivial, by decide⟩, by decide, fun u why h _ => ?_⟩
  · unfold UnitState.BindingLegal
    rcases (by decide : ∀ v : UnitId, v = 0 ∨ v = 1) u with rfl | rfl <;>
      exact ⟨unit_legal _ (by decide) (by decide), by decide⟩
  · cases h; decide

/-- HeldCommandsEnd: a hold whose unit cools down and is still Running after an enabled turn; a hold with no cooldown and
no other unit Running; and a step from it. -/
theorem witness_heldCommandsEnd :
    (heldMicro.RegistersLegal ∧ heldMicro.HoldsOk ∧ heldMicro.port = .busy (.hold 0 .cancel) ∧
      (([Choice.loop 0, .tick, .port].foldl State.move heldMicro).unit 0).run = .running ∧
      heldMicro.enabledTurns 0 [.loop 0, .tick, .port] = 1) ∧
    (held.RegistersLegal ∧ held.HoldsOk ∧ held.LockOk ∧ held.port = .busy (.hold 0 .cancel) ∧
      (∀ v, v ≠ 0 → (held.unit v).run ≠ .running) ∧ (held.unit 0).cooling = false ∧ (held.unit 0).endFull = false) ∧
    ∃ t, step held = .next t :=
  ⟨⟨heldMicro_ok.1, heldMicro_ok.2, rfl, by decide, by decide⟩,
    ⟨held_ok.1, held_ok.2, by decide, rfl, by decide, by decide, by decide⟩, step_next _⟩

/-- A cancelled microstepping unit, between two full-step boundaries. -/
def cancelled : UnitState :=
  { due.unit 0 with style := .micro, nms := 4, index := 3, cancelReq := true, endFull := true }

/-- Each clause of PacingLoopAccumAndSpin: a cancellation, one that the policy overrides, a boundary after a cooldown,
a finished count, a run that goes on, and a deadline not reached, on it. -/
theorem witness_pacingLoop :
    (cancelled.run = .running ∧ cancelled.stepJob = none ∧ cancelled.phase = .spin) ∧
    ((cancelled.cancelReq = true ∧ cancelled.cooling = false) ∧ cancelled.endFull = true ∧ cancelled.style = .micro ∧
      ¬cancelled.index.toNat % cancelled.nms.toNat = 0) ∧
    (let x : UnitState := { cancelled with index := 4, phase := .accum }
     (x.cancelReq = true ∧ x.cooling = false) ∧ x.index.toNat % x.nms.toNat = 0) ∧
    (let x : UnitState := { cancelled with index := 4, cooling := true, phase := .accum }
     ¬(x.cancelReq = true ∧ x.cooling = false) ∧ x.cooling = true ∧ x.index.toNat % x.nms.toNat = 0) ∧
    (let x : UnitState := { due.unit 0 with cont := false, phase := .accum }
     ¬(x.cancelReq = true ∧ x.cooling = false) ∧ x.cooling = false ∧ x.remaining = 0) ∧
    (let x : UnitState := { due.unit 0 with phase := .accum }
     ¬(x.cancelReq = true ∧ x.cooling = false) ∧ x.cooling = false ∧ ¬(x.cont = false ∧ x.remaining = 0)) ∧
    (let x : UnitState := { due.unit 0 with deadline := 1 }; x.phase = .spin ∧ due.time < x.deadline) ∧
    (due.unit 0).phase = .spin ∧ (due.unit 0).deadline ≤ due.time := by decide
theorem witness_pacedSteps : ((due.move (.loop 0)).unit 0).index ≠ (due.unit 0).index := by decide
theorem witness_pacedStep :
    due.cfg.Legal ∧ due.OwnershipOk ∧ (due.unit 0).Legal ∧ due.busLock = .free ∧ (due.unit 0).run = .running ∧
    (due.unit 0).stepJob = none ∧ (due.unit 0).phase = .spin ∧
    ¬((due.unit 0).cancelReq = true ∧ (due.unit 0).cooling = false) ∧ (due.unit 0).deadline ≤ due.time ∧
    firstWrites = stepWrites (coilOps (due.coilTriple 0 .b) (due.unit 0).lastB .b (tableEntry .full 0 1).2 65536 ++
      coilOps (due.coilTriple 0 .a) (due.unit 0).lastA .a (tableEntry .full 0 1).1 65536) ∧
    (arranged due [] (List.replicate 6 .ack)).answers = List.replicate firstWrites.length .ack ++ [] :=
  ⟨by decide, due_ownershipOk, due_unit_legal, by decide, by decide, by decide, by decide, by decide, by decide,
    by decide, by decide⟩

/-- A paced Step inside its last write's critical section, to be answered with Nack. -/
def failing : State :=
  { due.setUnit 0 { due.unit 0 with stepJob := some ⟨⟨8, fullOn, true⟩, [.record .a 4096 .pos]⟩ } with
    busLock := .loop 0, answers := [.nack] }

theorem witness_busErrorEndsThePacedRun :
    (failing.unit 0).run = .running ∧
    (failing.unit 0).stepJob = some ⟨⟨8, fullOn, true⟩, [.record .a 4096 .pos]⟩ ∧ failing.busLock = .loop 0 ∧
    failing.answers = .nack :: [] ∧ Answer.nack ≠ .ack := by decide

theorem failing_jobsOwn : failing.JobsOwn := by
  refine ⟨by decide, fun u job h => ?_, trivial⟩
  rcases (by decide : ∀ v : UnitId, v = 0 ∨ v = 1) u with rfl | rfl
  · rw [witness_busErrorEndsThePacedRun.2.1] at h
    injection h with h
    subst h
    exact ⟨by decide, by decide, by simp [stepWrites, StepOp.write?]⟩
  · rw [(by decide : (failing.unit 1).stepJob = none)] at h
    cases h
theorem failing_ownershipOk : failing.OwnershipOk := ⟨by decide, by decide, by decide, trivial⟩
theorem witness_loopTouchesOnlyItsUnit :
    failing.JobsOwn ∧ failing.OwnershipOk ∧ (failing.move (.loop 0)).trace ≠ failing.trace :=
  ⟨failing_jobsOwn, failing_ownershipOk, by decide⟩

/-- Nothing but the port's own job is under way in a state whose units are those of `motor`. -/
theorem motor_jobsOwn (s : State) (hu : s.units = motor.units) (hp : s.PortJobOwn) : s.JobsOwn := by
  have h : ∀ u, (s.unit u).run ≠ .running ∧ (s.unit u).stepJob = none := by
    unfold State.unit; rw [hu]; decide
  exact ⟨fun u hr => absurd hr (h u).1, fun u job hj => absurd hj (by rw [(h u).2]; simp), hp⟩

/-- A DeEnergize, and a SETDUTY of channel 1, inside their critical sections. -/
def stopping : State :=
  { motor with
    port := .busy (.deEnergize 0 .stop ⟨13, fullOff, true⟩ [11, 12, 8, 10, 9] .ack)
    busLock := .port, answers := [.nack] }
def setting : State :=
  { motor.setOwner 1 .host with
    port := .busy (.channelWrite ⟨1, fullOff, true⟩ (.reply 0)), busLock := .port, answers := [.ack] }

theorem witness_everyChannelWrite :
    (failing.JobsOwn ∧ failing.OwnershipOk) ∧ (stopping.JobsOwn ∧ stopping.OwnershipOk) ∧
    (setting.JobsOwn ∧ setting.OwnershipOk) ∧ (stopping.move .port).trace ≠ stopping.trace ∧
    (setting.move .port).trace ≠ setting.trace ∧ ∃ t, step stopping = .next t := by
  refine ⟨⟨failing_jobsOwn, failing_ownershipOk⟩, ⟨motor_jobsOwn _ rfl ?_, ?_⟩, ⟨motor_jobsOwn _ rfl ?_, ?_⟩,
    by decide, by decide, step_next _⟩
  · exact ⟨by decide, by decide, by decide⟩
  · exact ⟨by decide, by decide, by decide, (by decide : (motor.unit 0).bound = true)⟩
  · exact (by decide : (setting.channel 1).owner = .host)
  · exact ⟨by decide, by decide, by decide, trivial⟩
theorem witness_rdstat :
    ((1 : UnitId).val = 1 ∧ 1 < motor.cfg.units.toNat) ∧ motor.busLock ≠ .port ∧ motor.cfg.units.toNat ≤ 2 ∧
    (0x09 ≤ 0x0F ∧ 0x0F ≤ 0x0F) ∧ (0x1A ≤ 0x1A ∧ 0x3F ≤ 0x3F) ∧ 0x60 ≤ 0x60 ∧ 0x08 ≤ 0x08 ∧ (0x40 ≤ 0x5F ∧ 0x5F ≤ 0x5F) ∧
    (0x10 ≤ 0x19 ∧ 0x19 ≤ 0x19) := by decide
theorem witness_refusedCommands :
    ready.busLock ≠ .port ∧ ready.port = .idle ∧ exec (.rel 3) ready = .next (after (.rel 3) ready) ∧
    (after (.rel 3) ready).responses = ready.responses ++ [responseWord 3 0] :=
  ⟨by decide, by decide, exec_after _ _, by decide⟩

/-- The motor after one NEXTSTEP with Ack: both LAST are valid. -/
def moved : State := after (.nextstep 0 .forward) (portOnly motor 12 (List.replicate 6 .ack))

theorem moved_idle : moved.port = .idle ∧ ∀ u, (moved.unit u).run ≠ .running ∧ (moved.unit u).stepJob = none := by
  decide
theorem moved_imagesTrue : moved.ImagesTrue := by
  refine ⟨by decide, by decide, ?_, fun _ _ _ _ h => ?_⟩
  · unfold State.HoldsImage; decide
  · rw [moved_idle.1] at h; cases h
/-- What each of the six channels holds: coil A positive, coil B negative, both fully on. -/
theorem moved_shadow : ∀ c, ∀ x ∈ ((moved.unit 0).last c).images (moved.coilTriple 0 c), moved.shadow x.1 = some x.2 := by
  have hA : (Last.mk true 4096 .pos).images ⟨8, 10, 9⟩ = [(8, fullOn), (10, fullOn), (9, fullOff)] := by decide
  have hB : (Last.mk true 4096 .neg).images ⟨13, 11, 12⟩ = [(13, fullOn), (11, fullOff), (12, fullOn)] := by decide
  intro c
  cases c
  · rw [(by decide : (moved.unit 0).last .a = ⟨true, 4096, .pos⟩), (by decide : moved.coilTriple 0 .a = ⟨8, 10, 9⟩), hA]
    simp only [List.forall_mem_cons]
    exact ⟨by decide, by decide, by decide, List.forall_mem_nil _⟩
  · rw [(by decide : (moved.unit 0).last .b = ⟨true, 4096, .neg⟩),
      (by decide : moved.coilTriple 0 .b = ⟨13, 11, 12⟩), hB]
    simp only [List.forall_mem_cons]
    exact ⟨by decide, by decide, by decide, List.forall_mem_nil _⟩
theorem moved_lastTrue : moved.LastTrue := by
  refine ⟨fun u c => ?_, by decide, fun _ _ h => ?_, fun u _ => ⟨fun _ c => ?_, fun job h => ?_⟩, fun _ _ h => ?_,
    fun _ _ _ _ _ h => ?_⟩
  · cases c <;> (revert u; decide)
  · rw [moved_idle.1] at h; cases h
  · rcases (by decide : ∀ v : UnitId, v = 0 ∨ v = 1) u with rfl | rfl
    · exact fun _ => moved_shadow c
    · exact Last.trueOf_of_invalid _ _ _ (by cases c <;> decide)
  · rw [(moved_idle.2 u).2] at h; cases h
  · rw [moved_idle.1] at h; cases h
  · rw [moved_idle.1] at h; cases h

/-- ImagesStayTrue on the motor after a step: LAST is kept, and says what the six channels hold. -/
theorem witness_imagesStayTrue_last :
    (moved.cfg.Legal ∧ moved.LockOk ∧ moved.OwnershipOk ∧ moved.JobsOwn ∧ moved.LastTrue ∧ ∃ t, step moved = .next t) ∧
    moved.ImagesTrue ∧ (moved.unit 0).stepJob = none ∧ moved.port.drives ≠ some 0 ∧
    (moved.unit 0).lastA = ⟨true, 4096, .pos⟩ ∧ (moved.unit 0).lastB = ⟨true, 4096, .neg⟩ ∧
    (moved.coilTriple 0 .a).inP = 10 ∧ (moved.channel 10).image = fullOn := by
  refine ⟨⟨by decide, by decide, ⟨by decide, by decide, by decide, ?_⟩,
    ⟨fun u h => absurd h (moved_idle.2 u).1, fun u job h => ?_, ?_⟩, moved_lastTrue, step_next _⟩, moved_imagesTrue,
    by decide⟩
  · unfold State.PortOwns; rw [moved_idle.1]; trivial
  · rw [(moved_idle.2 u).2] at h; cases h
  · unfold State.PortJobOwn; rw [moved_idle.1]; trivial

end Sys2Proof.Tests
end

section
/-! Command words as bytes (R58). The bytes of a word are its 8-bit slices from the bottom up, and read least significant
first they spell the word again, so decoding the bytes is decoding the word. -/

namespace Sys2Proof.CommandBytes

@[simp] theorem wordBytes_length (w : Word) : (wordBytes w).length = 8 := by
  simp [wordBytes]

/-- The low `n` bytes of a number, least significant first. -/
def lowBytes (n m : Nat) : List Byte := (List.range n).map fun k => BitVec.ofNat 8 (m / 2 ^ (8 * k))

/-- R58's `word[8k+7:8k]` is the byte that a shift down by 8k bits brings to the bottom. -/
theorem ofNat_bitField_byte (w : Word) (k : Nat) :
    BitVec.ofNat 8 (bitField w (8 * k + 7) (8 * k)) = BitVec.ofNat 8 (w.toNat / 2 ^ (8 * k)) := by
  have hwidth : 8 * k + 7 + 1 - 8 * k = 8 := by omega
  apply BitVec.eq_of_toNat_eq
  rw [bitField, hwidth, BitVec.toNat_ofNat, BitVec.toNat_ofNat, Nat.mod_mod]

theorem wordBytes_eq_lowBytes (w : Word) : wordBytes w = lowBytes 8 w.toNat :=
  List.map_congr_left fun k _ => ofNat_bitField_byte w k

theorem wordBytes_getElem? (w : Word) {k : Nat} (hk : k < 8) :
    (wordBytes w)[k]? = some (w.extractLsb' (8 * k) 8) := by
  rw [wordBytes_eq_lowBytes, lowBytes, List.getElem?_map, List.getElem?_range hk, Option.map_some,
    BitVec.extractLsb', Nat.shiftRight_eq_div_pow]

/-- Taking the lowest byte off shifts the number down by 8 bits. -/
theorem lowBytes_succ (n m : Nat) : lowBytes (n + 1) m = BitVec.ofNat 8 m :: lowBytes n (m / 256) := by
  have hshift (k : Nat) : m / 2 ^ (8 * (k + 1)) = m / 256 / 2 ^ (8 * k) := by
    rw [Nat.div_div_eq_div_mul, Nat.mul_add_one, Nat.add_comm, Nat.pow_add]
  simp [lowBytes, List.range_succ_eq_map, Function.comp_def, hshift]

theorem littleEndian_lowBytes (n m : Nat) : littleEndian (lowBytes n m) = m % 256 ^ n := by
  induction n generalizing m with
  | zero => rw [Nat.pow_zero, Nat.mod_one]; rfl
  | succ n ih =>
    calc littleEndian (lowBytes (n + 1) m)
        = m % 256 + 256 * (m / 256 % 256 ^ n) := by rw [lowBytes_succ, littleEndian, ih, BitVec.toNat_ofNat]
      _ = m % 256 ^ (n + 1) := by rw [Nat.pow_succ', Nat.mod_mul]

/-- No byte is lost and none changes place: the eight bytes of a word give that word back. -/
@[simp] theorem wordOfBytes_wordBytes (w : Word) : wordOfBytes (wordBytes w) = some w := by
  have hfits : w.toNat % 256 ^ 8 = w.toNat := Nat.mod_eq_of_lt w.isLt
  rw [wordOfBytes, if_pos (wordBytes_length w), wordBytes_eq_lowBytes, littleEndian_lowBytes, hfits,
    BitVec.ofNat_toNat, BitVec.setWidth_eq]

theorem wordOfBytes_of_length_ne {bs : List Byte} (h : bs.length ≠ 8) : wordOfBytes bs = none :=
  if_neg h

theorem decodeBytes_wordBytes (w : Word) : decodeBytes (wordBytes w) = decode w := by
  rw [decodeBytes, wordOfBytes_wordBytes]

theorem decodeBytes_of_length_ne {bs : List Byte} (h : bs.length ≠ 8) :
    decodeBytes bs = .error (.notOneWord bs.length) := by
  rw [decodeBytes, wordOfBytes_of_length_ne h]

/-- Settles O6: each byte is its slice of the word, and the bytes spell the word, by induction on the number of bytes. -/
theorem commandBytesAreLittleEndian : Obligations.CommandBytesAreLittleEndian :=
  ⟨fun w => ⟨wordBytes_length w, fun _ hk => wordBytes_getElem? w hk, decodeBytes_wordBytes w⟩,
    fun _ hlen => decodeBytes_of_length_ne hlen⟩

end Sys2Proof.CommandBytes
end

section
/-! Command words as fixed bits (R77, R79), and the answer to a word that is no command (R81). A bit range is tested by
masking the word, so the opcode and the reserved ranges of a format together are one masked comparison, which is the
command's row of the opcode map. A word that decodes passes the comparison of its own row; one that passes none does not
decode, and the port's answer to it writes nothing but the response. -/

namespace Sys2Proof.FixedBits

open Machine

/-! ### Bit ranges as masks -/

/-- The word with exactly the bits hi down to lo set. -/
def fieldMask (hi lo : Nat) : Word := BitVec.ofNat 64 ((2 ^ (hi + 1 - lo) - 1) <<< lo)

theorem getLsbD_fieldMask (hi lo j : Nat) :
    (fieldMask hi lo).getLsbD j = (decide (j < 64) && (decide (lo ≤ j) && decide (j - lo < hi + 1 - lo))) := by
  rw [fieldMask, BitVec.getLsbD_ofNat, Nat.testBit_shiftLeft, Nat.testBit_two_pow_sub_one]

theorem testBit_bitField (w : Word) (hi lo i : Nat) :
    (bitField w hi lo).testBit i = (decide (i < hi + 1 - lo) && w.getLsbD (i + lo)) := by
  rw [bitField, Nat.testBit_mod_two_pow, Nat.testBit_div_two_pow, BitVec.testBit_toNat]

/-- Masking a bit range leaves the field's value at its place. -/
theorem and_fieldMask (w : Word) (hi lo : Nat) :
    w &&& fieldMask hi lo = BitVec.ofNat 64 (bitField w hi lo) <<< lo := by
  apply BitVec.eq_of_getLsbD_eq
  intro j hj
  rw [BitVec.getLsbD_and, getLsbD_fieldMask, BitVec.getLsbD_shiftLeft, BitVec.getLsbD_ofNat, testBit_bitField]
  by_cases hlo : lo ≤ j
  · have hsub : j - lo + lo = j := Nat.sub_add_cancel hlo
    have hlt : j - lo < 64 := by omega
    simp [hj, hlo, hlt, hsub, Bool.and_comm]
  · simp [hlo, Nat.lt_of_not_le hlo]

/-- The reserved bits of a list of bit ranges, as one mask. -/
def rangesMask (rs : List (Nat × Nat)) : Word := rs.foldr (fun r m => fieldMask r.1 r.2 ||| m) 0

theorem and_rangesMask (w : Word) (rs : List (Nat × Nat)) (h : ∀ r ∈ rs, bitField w r.1 r.2 = 0) :
    w &&& rangesMask rs = 0 := by
  induction rs with
  | nil => exact BitVec.and_zero
  | cons r rs ih =>
    obtain ⟨hr, hrs⟩ := List.forall_mem_cons.mp h
    have hfield : w &&& fieldMask r.1 r.2 = 0 := by simp [and_fieldMask, hr]
    calc w &&& rangesMask (r :: rs)
        = w &&& fieldMask r.1 r.2 ||| w &&& rangesMask rs := BitVec.and_or_distrib_left
      _ = 0 := by rw [hfield, ih hrs]; rfl

theorem and_reservedMask (f : Format) (w : Word) (h : reservedClear f w = true) :
    w &&& rangesMask f.reserved = 0 :=
  and_rangesMask w f.reserved fun r hr => beq_iff_eq.mp (List.all_eq_true.mp h r hr)

/-! ### The row of a command -/

/-- The fixed bits of a command and their mask, from its OPC value (R79) and its format's reserved ranges (R77). -/
def rowOf (o : Opcode) : Word × Word :=
  (BitVec.ofNat 64 o.code, fieldMask 7 0 ||| rangesMask o.format.reserved)

theorem rowOf_mem_commandRows (o : Opcode) : rowOf o ∈ commandRows := by
  cases o <;> decide

theorem and_rowOf (o : Opcode) (w : Word) (hop : bitField w 7 0 = o.code) (hres : reservedClear o.format w = true) :
    w &&& (rowOf o).2 = (rowOf o).1 :=
  calc w &&& (fieldMask 7 0 ||| rangesMask o.format.reserved)
      = w &&& fieldMask 7 0 ||| w &&& rangesMask o.format.reserved := BitVec.and_or_distrib_left
    _ = BitVec.ofNat 64 o.code := by simp [and_fieldMask, hop, and_reservedMask _ _ hres]

/-! ### What decodes -/

theorem code_of_opcodeOf {n : Nat} {o : Opcode} (h : opcodeOf n = some o) : n = o.code := by
  unfold opcodeOf at h
  split at h <;> cases h <;> rfl

/-- A word decodes only with an opcode of the map (R79) and that command's reserved bits 0 (R80). -/
theorem fields_of_decode {w : Word} {i : Instr} (h : decode w = .ok i) :
    ∃ o : Opcode, bitField w 7 0 = o.code ∧ reservedClear o.format w = true := by
  unfold decode at h
  split at h
  · cases h
  next o ho =>
    split at h
    next hres => exact ⟨o, code_of_opcodeOf ho, hres⟩
    · cases h

theorem row_of_decode {w : Word} {i : Instr} (h : decode w = .ok i) : ∃ row ∈ commandRows, w &&& row.2 = row.1 := by
  obtain ⟨o, hop, hres⟩ := fields_of_decode h
  exact ⟨rowOf o, rowOf_mem_commandRows o, and_rowOf o w hop hres⟩

theorem decode_error_of_no_row {w : Word} (h : ∀ row ∈ commandRows, w &&& row.2 ≠ row.1) :
    ∃ e, decode w = .error e := by
  cases hd : decode w with
  | error e => exact ⟨e, rfl⟩
  | ok i =>
    obtain ⟨row, hmem, hrow⟩ := row_of_decode hd
    exact absurd hrow (h row hmem)

/-! ### The answer to an illegal word -/

theorem step_of_port_idle (s : State) (hturn : s.nextChoice.1 = .port) (hidle : s.port = .idle) :
    step s = s.nextChoice.2.acceptStep := by
  rcases step_cases s with ⟨-, -, h⟩ | ⟨hother, -⟩
  · exact h
  · exact absurd hidle (hother.resolve_left (not_not_intro hturn))

theorem acceptStep_of_decode_error (s : State) {w : Word} {ws : List Word} {e : DecodeError}
    (hcmd : s.commands = w :: ws) (hdec : decode w = .error e) :
    s.acceptStep = .next (State.raise { s with commands := ws } .illegalCommand 0) := by
  simp [State.acceptStep, State.takeWord, hcmd, hdec]

/-- Raising an error when the port is Idle and does not hold the bus lock only emits the response (R19, R140). -/
theorem raise_of_idle (s : State) (e : Err) (info : Value) (hidle : s.port = .idle) (hlock : s.busLock ≠ .port) :
    s.raise e info = { s with responses := s.responses ++ [responseWord e.code info] } := by
  rw [State.raise, State.releasePort, if_neg hlock, State.respond, ← hidle]

/-- Settles O4: a word that passes no row's masked comparison does not decode, and the error is raised by an Idle port
that holds no lock, so there is nothing to release. -/
theorem illegalWordChangesNothing : Obligations.IllegalWordChangesNothing := by
  intro s w ws hturn hidle hlock hcmd hrows
  obtain ⟨e, hdec⟩ := decode_error_of_no_row hrows
  have haccept := acceptStep_of_decode_error s.nextChoice.2 ((State.nextChoice_commands s).trans hcmd) hdec
  have hraise := raise_of_idle { s.nextChoice.2 with commands := ws } .illegalCommand 0
    ((State.nextChoice_port s).trans hidle) (by simpa using hlock)
  rw [step_of_port_idle s hturn hidle, haccept, hraise, State.nextChoice_responses]
  rfl

end Sys2Proof.FixedBits
end

section
/-! The numbers of the PWM driver (R84, R86 to R89): rounding half up as an inequality, the on-ratio, the three states
of a register image, and the prescale with the frequency it gives. -/

namespace Sys2Proof.DriverNumbers

open Machine

/-! ### Rounding and clamping (R18) -/

/-- Rounding half up without the division: q is reached as soon as a/b is at least q - 1/2. -/
theorem le_rndDiv_iff {a b q : Nat} (hb : 0 < b) : q ≤ rndDiv a b ↔ 2 * b * q ≤ 2 * a + b := by
  have hdouble : 2 * b * q = 2 * (q * b) := by ring
  rw [rndDiv, Nat.le_div_iff_mul_le hb, hdouble]
  omega

theorem rndDiv_lt_iff {a b q : Nat} (hb : 0 < b) : rndDiv a b < q ↔ 2 * a + b < 2 * b * q := by
  rw [← not_le, le_rndDiv_iff hb, not_le]

theorem clamp_mem {lo hi : Nat} (v : Nat) (h : lo ≤ hi) : lo ≤ clamp v lo hi ∧ clamp v lo hi ≤ hi :=
  ⟨le_min h (le_max_left lo v), min_le_left hi _⟩

theorem clamp_of_mem {v lo hi : Nat} (hlo : lo ≤ v) (hhi : v ≤ hi) : clamp v lo hi = v := by
  rw [clamp, max_eq_right hlo, min_eq_right hhi]

/-! ### The on-ratio (R84) -/

/-- 4096ths of a fraction in units of 2^-16 are its sixteenths. -/
theorem ratioOf_eq_rndDiv (frac : Nat) : ratioOf frac = rndDiv frac 16 := rfl

theorem ratioOf_bounds (frac : Nat) :
    32 * ratioOf frac ≤ 2 * frac + 16 ∧ 2 * frac + 16 < 32 * (ratioOf frac + 1) := by
  rw [ratioOf_eq_rndDiv]
  have hpos : 0 < 16 := by decide
  exact ⟨(le_rndDiv_iff hpos).1 le_rfl, (rndDiv_lt_iff hpos).1 (Nat.lt_succ_self _)⟩

/-- Settles O8: RATIO is the rounded quotient by 16, and its two bounds scaled by 4096 are those of the rounded
4096ths. -/
theorem ratioRoundsHalfUp : Obligations.RatioRoundsHalfUp := by
  refine ⟨fun frac hfrac => ?_, by decide⟩
  obtain ⟨hlow, hhigh⟩ := ratioOf_bounds frac
  exact ⟨ratioOf_le frac hfrac, by omega, by omega⟩

/-! ### Register images (R56, R86, R87) -/

theorem imageOfFields_toNat {on off : Nat} (hon : on < 2 ^ 16) (hoff : off < 2 ^ 16) :
    (imageOfFields on off).toNat = on + off * 2 ^ 16 := by
  rw [imageOfFields, BitVec.toNat_ofNat]
  omega

/-- The bytes of an image are those of its two fields, low byte first (R56). -/
theorem imageBytes_imageOfFields {on off : Nat} (hon : on < 2 ^ 16) (hoff : off < 2 ^ 16) :
    imageBytes (imageOfFields on off) =
      [BitVec.ofNat 8 on, BitVec.ofNat 8 (on / 256), BitVec.ofNat 8 off, BitVec.ofNat 8 (off / 256)] := by
  have hbyte (start n : Nat) (h : (on + off * 2 ^ 16) / 2 ^ start % 2 ^ 8 = n % 2 ^ 8) :
      (imageOfFields on off).extractLsb' start 8 = BitVec.ofNat 8 n := by
    apply BitVec.eq_of_toNat_eq
    rw [BitVec.extractLsb'_toNat, imageOfFields_toNat hon hoff, Nat.shiftRight_eq_div_pow, h, BitVec.toNat_ofNat]
  rw [imageBytes, hbyte 0 on (by omega), hbyte 8 (on / 256) (by omega), hbyte 16 off (by omega),
    hbyte 24 (off / 256) (by omega)]

/-- The full-on flag, bit 12 of the ON field (R57). -/
theorem imageOfFields_getLsbD_fullOn {on off : Nat} (hon : on < 2 ^ 16) (hoff : off < 2 ^ 16) :
    (imageOfFields on off).getLsbD 12 = decide (on / 4096 % 2 = 1) := by
  rw [BitVec.getLsbD, imageOfFields_toNat hon hoff, Nat.testBit_eq_decide_div_mod_eq, decide_eq_decide]
  omega

/-- The full-off flag, bit 12 of the OFF field (R57). -/
theorem imageOfFields_getLsbD_fullOff {on off : Nat} (hon : on < 2 ^ 16) (hoff : off < 2 ^ 16) :
    (imageOfFields on off).getLsbD 28 = decide (off / 4096 % 2 = 1) := by
  rw [BitVec.getLsbD, imageOfFields_toNat hon hoff, Nat.testBit_eq_decide_div_mod_eq, decide_eq_decide]
  omega

/-- The OFF count, the low 12 bits of the OFF field (R56). -/
theorem imageOfFields_offCount {on off : Nat} (hon : on < 2 ^ 16) (hoff : off < 2 ^ 16) :
    ((imageOfFields on off).extractLsb' 16 12).toNat = off % 4096 := by
  rw [BitVec.extractLsb'_toNat, imageOfFields_toNat hon hoff, Nat.shiftRight_eq_div_pow]
  omega

theorem imageOf_pulse {e : Nat} (hpos : 1 ≤ e) (hlt : e ≤ 4095) : imageOf e = imageOfFields 0 e := by
  rw [imageOf, if_neg (by omega), if_pos (by omega)]

/-- Each flag marks one end of the range; between them is the normal pulse (R87). -/
theorem imageOf_flags {e : Nat} (he : e ≤ 4096) :
    (imageOf e).getLsbD 12 = decide (e = 4096) ∧ (imageOf e).getLsbD 28 = decide (e = 0) := by
  obtain rfl | rfl | ⟨hpos, hlt⟩ : e = 0 ∨ e = 4096 ∨ 1 ≤ e ∧ e ≤ 4095 := by omega
  · decide
  · decide
  · have hfit : e < 2 ^ 16 := by omega
    rw [imageOf_pulse hpos hlt, imageOfFields_getLsbD_fullOn (by decide) hfit,
      imageOfFields_getLsbD_fullOff (by decide) hfit, decide_eq_decide, decide_eq_decide]
    omega

theorem imageOf_pulse_offCount {e : Nat} (hpos : 1 ≤ e) (hlt : e ≤ 4095) :
    ((imageOf e).extractLsb' 16 12).toNat = e := by
  rw [imageOf_pulse hpos hlt, imageOfFields_offCount (by decide) (by omega), Nat.mod_eq_of_lt (by omega)]

theorem imageBytes_imageOf_pulse {e : Nat} (hpos : 1 ≤ e) (hlt : e ≤ 4095) :
    imageBytes (imageOf e) = [0x00, 0x00, BitVec.ofNat 8 (e % 256), BitVec.ofNat 8 (e / 256)] := by
  have hlow : BitVec.ofNat 8 e = BitVec.ofNat 8 (e % 256) := BitVec.eq_of_toNat_eq (by simp)
  rw [imageOf_pulse hpos hlt, imageBytes_imageOfFields (by decide) (by omega), hlow]
  rfl

/-- Settles O9: ON[12] marks exactly e = 4096 and OFF[12] exactly e = 0, so with both clear e is the OFF count of a
normal pulse. -/
theorem registerImageHasOneState : Obligations.RegisterImageHasOneState := by
  refine ⟨by decide, by decide, rfl, rfl, fun e hpos hlt => imageBytes_imageOf_pulse hpos hlt, fun e he => ?_⟩
  obtain ⟨hon, hoff⟩ := imageOf_flags he
  rw [hon, hoff, decide_eq_true_iff, decide_eq_true_iff, decide_eq_false_iff_not, decide_eq_false_iff_not]
  refine ⟨by omega, fun ⟨hnotFull, hnotZero⟩ => ?_⟩
  have hpos : 1 ≤ e := by omega
  have hlt : e ≤ 4095 := by omega
  rw [imageOf_pulse_offCount hpos hlt]
  exact ⟨hpos, hlt, hpos, hlt⟩

/-! ### Prescale and actual frequency (R88, R89) -/

/-- A quotient of 0 gives the integer -1, which the clamp lifts to 3 as it does the 0 of Nat subtraction. -/
theorem clamp_pred_cast (q : Nat) : ((clamp (q - 1) 3 255 : Nat) : Int) = min 255 (max 3 ((q : Int) - 1)) := by
  unfold clamp
  omega

/-- Where the rounded quotient is 4 to 256 the second clamp of R88 changes nothing. -/
theorem prescaleOf_add_one {clock hz : Nat} (hlow : 4 ≤ rndDiv clock (4096 * clamp hz 24 1526))
    (hhigh : rndDiv clock (4096 * clamp hz 24 1526) ≤ 256) :
    prescaleOf clock hz + 1 = rndDiv clock (4096 * clamp hz 24 1526) := by
  rw [prescaleOf, clamp_of_mem (by omega) (by omega), Nat.sub_add_cancel (by omega)]

theorem rndDiv_clock25MHz_mem {f : Nat} (hlow : 24 ≤ f) (hhigh : f ≤ 1526) :
    4 ≤ rndDiv 25000000 (4096 * f) ∧ rndDiv 25000000 (4096 * f) < 255 := by
  have hpos : 0 < 4096 * f := by omega
  exact ⟨(le_rndDiv_iff hpos).2 (by omega), (rndDiv_lt_iff hpos).2 (by omega)⟩

theorem actualFreq_clock25MHz_mem {p : Nat} (hlow : 3 ≤ p) (hhigh : p ≤ 253) :
    24 ≤ actualFreq 25000000 p ∧ actualFreq 25000000 p < 1527 := by
  have hpos : 0 < 4096 * (p + 1) := by omega
  exact ⟨(le_rndDiv_iff hpos).2 (by omega), (rndDiv_lt_iff hpos).2 (by omega)⟩

theorem freqWord_toNat {c : Config} {p : Nat} (h : actualFreq c.clockHz p < 65536) :
    (freqWord c p).toNat = actualFreq c.clockHz p := by
  rw [freqWord, if_pos h, BitVec.toNat_ofNat, Nat.mod_eq_of_lt h]

/-- Settles O10: at 25 MHz every clamped frequency has a rounded quotient of 4 to 254, so the prescale is one less, and
a prescale of 3 to 253 gives a frequency of 24 to 1526 Hz. -/
theorem prescaleAndActualFrequency : Obligations.PrescaleAndActualFrequency := by
  refine ⟨fun _ _ _ => clamp_pred_cast _, fun hz => ?_, fun _ _ => rfl, rfl, rfl, rfl, fun _ _ => freqWord_toNat⟩
  obtain ⟨hflow, hfhigh⟩ := clamp_mem (lo := 24) (hi := 1526) hz (by decide)
  obtain ⟨hqlow, hqhigh⟩ := rndDiv_clock25MHz_mem hflow hfhigh
  have hp := prescaleOf_add_one hqlow (by omega)
  have hplow : 3 ≤ prescaleOf 25000000 hz := by omega
  have hphigh : prescaleOf 25000000 hz ≤ 253 := by omega
  obtain ⟨halow, hahigh⟩ := actualFreq_clock25MHz_mem hplow hphigh
  exact ⟨hplow, hphigh, hp, halow, Nat.le_of_lt_succ hahigh⟩

end Sys2Proof.DriverNumbers
end

section
/-! The ownership checks of the PWM driver's commands (R92, R94, R97). The host commands of one channel begin with the
same two checks; past them the command has one channel write under way, and whatever agents step before its answer, the
response is that of the write. -/

namespace Sys2Proof.HostChannel

open Machine

/-! ### Checks in order (R143) -/

theorem checked_of_head_none {s k : State} {c : Option Err} {cs : List (Option Err)} (h : c = none) :
    s.checked (c :: cs) k = s.checked cs k := by
  rw [h]; rfl

theorem checked_of_head_some {s k : State} {c : Option Err} {cs : List (Option Err)} {e : Err} (h : c = some e) :
    s.checked (c :: cs) k = s.raise e 0 := by
  rw [h]; rfl

/-- The error a checked command raises is that of one of its checks. -/
theorem checked_error_mem (s k : State) (cs : List (Option Err)) :
    (∃ e, some e ∈ cs ∧ s.checked cs k = s.raise e 0) ∨ s.checked cs k = k := by
  induction cs with
  | nil => exact .inr rfl
  | cons c cs ih =>
    cases c with
    | some e => exact .inl ⟨e, List.mem_cons_self, rfl⟩
    | none =>
      rw [checked_of_head_none rfl]
      exact ih.imp_left fun ⟨e, hmem, he⟩ => ⟨e, List.mem_cons_of_mem _ hmem, he⟩

theorem needInit_of_not_initialized {s : State} (h : s.initialized = false) : s.needInit = some .configuration := by
  rw [State.needInit, h]; rfl

theorem needFree_of_owned {s : State} {ch : ChannelId} (h : (s.channel ch).owner ≠ .free) :
    s.needFree ch = some .channelBusy := by
  rw [State.needFree, decide_eq_false h]; rfl

theorem hostOwn_of_free {s : State} {ch : ChannelId} (h : (s.channel ch).owner = .free) :
    s.hostOwn ch = some .channelNotAcquired := by
  rw [State.hostOwn, h]

theorem hostOwn_of_unit {s : State} {ch : ChannelId} {u : UnitId} (h : (s.channel ch).owner = .unit u) :
    s.hostOwn ch = some .channelBusy := by
  rw [State.hostOwn, h]

/-- Raising an error when the port does not hold the bus lock only responds: there is nothing to release (R140). -/
theorem raise_of_lock_elsewhere {s : State} (h : s.busLock ≠ .port) (e : Err) (info : Value) :
    s.raise e info = s.respond e.code info := by
  rw [State.raise, State.releasePort, if_neg h]

/-! ### ACQ (R97) -/

theorem exec_acq (s : State) (ch : ChannelId) :
    exec (.acq ch) s = .next (s.checked [s.needInit, s.needFree ch] ((s.setOwner ch .host).respondOk 0)) := rfl

/-- Settles O29: the two checks of ACQ in order, by which of them fails first. -/
theorem acqAcquiresAFreeChannel : Obligations.AcqAcquiresAFreeChannel := by
  intro s ch
  refine ⟨fun hinit hfree => ?acquired, fun hlock hinit => ?notInitialized, fun hlock hinit howned => ?owned⟩ <;>
    rw [exec_acq]
  case acquired =>
    rw [checked_of_head_none (s.needInit_eq_none.2 hinit), checked_of_head_none ((s.needFree_eq_none ch).2 hfree)]
    rfl
  case notInitialized =>
    rw [checked_of_head_some (needInit_of_not_initialized hinit), raise_of_lock_elsewhere hlock]
    rfl
  case owned =>
    rw [checked_of_head_none (s.needInit_eq_none.2 hinit), checked_of_head_some (needFree_of_owned howned),
      raise_of_lock_elsewhere hlock]
    rfl

/-! ### What a command with one channel write answers -/

/-- From `s` on, a command with one channel write has not answered and has that write under way, or has answered once,
with the write's response. -/
def WriteUnderWayOrAnswered (s t : State) : Prop :=
  (t.responses = s.responses ∧ ∃ w fin, t.port = .busy (.channelWrite w fin)) ∨
  ∃ r v, t.port = .idle ∧ t.responses = s.responses ++ [responseTo r v]

theorem conclude_responses (s : State) (r : Answer) (value : Value) :
    (s.conclude r value).responses = s.responses ++ [responseTo r value] := by
  cases r with
  | ack => exact s.respondOk_responses value
  | nack => exact s.raise_responses .busIO 0
  | err d => exact s.raise_responses .busIO d

theorem finishWrite_answers (s : State) (ch : ChannelId) (fin : WriteEnd) (r : Answer) :
    ∃ v, (s.finishWrite ch fin r).port = .idle ∧
      (s.finishWrite ch fin r).responses = s.responses ++ [responseTo r v] := by
  cases fin with
  | release => exact ⟨0, State.conclude_port _ r 0, conclude_responses _ r 0⟩
  | reply v => exact ⟨v, s.conclude_port r v, conclude_responses s r v⟩

theorem loopStepOps_responses (s : State) (u : UnitId) (ops : List StepOp) :
    (s.loopStepOps u ops).responses = s.responses := by
  have hframe : (runOps u ops s).2.responses = s.responses := by rw [runOps_frame]
  rcases s.loopStepOps_cases u ops with ⟨-, h⟩ | ⟨job, -, h⟩ <;> rw [h] <;> exact hframe

theorem loopStepAnswered_responses (s : State) (u : UnitId) (rest : List StepOp) (r : Answer) :
    (s.loopStepAnswered u rest r).responses = s.responses := by
  unfold State.loopStepAnswered
  split
  · exact loopStepOps_responses s u rest
  · rfl

/-- A pacing loop answers nothing: only the port responds (R19, R20). -/
theorem loopStep_responses (s : State) (u : UnitId) : (s.loopStep u).responses = s.responses := by
  rcases s.loopStep_cases u with ⟨-, h⟩ | ⟨-, ⟨job, -, h⟩ | ⟨-, ⟨-, h⟩ | ⟨-, h⟩⟩⟩ <;> rw [h]
  · rcases s.loopWrite_cases u job with ⟨-, h⟩ | ⟨-, -, h⟩ | ⟨-, -, h⟩ <;> rw [h]
    · rw [loopStepAnswered_responses, State.writeImage_responses]
    · rfl
  · rfl
  · rcases s.spin_cases u with ⟨-, h⟩ | ⟨-, -, h⟩ | ⟨-, -, h⟩ <;> rw [h]
    · rfl
    · exact loopStepOps_responses _ u _

/-- The port's own step takes the lock, holds for it, or transacts and answers (R66, R91). -/
theorem portStep_channelWrite (s : State) (w : PendingWrite) (fin : WriteEnd)
    (hport : s.port = .busy (.channelWrite w fin)) :
    WriteUnderWayOrAnswered s (s.portStep (.channelWrite w fin)) := by
  rcases s.portWrite_cases w (.channelWrite · fin) (fun r s => s.finishWrite w.ch fin r) with
    ⟨-, h⟩ | ⟨-, -, h⟩ | ⟨-, -, h⟩ <;> rw [State.portStep, h]
  · obtain ⟨v, hidle, hresp⟩ :=
      finishWrite_answers (s.writeImage .port w).2 w.ch fin (s.writeImage .port w).1
    exact .inr ⟨_, v, hidle, by rw [hresp, State.writeImage_responses]⟩
  · exact .inl ⟨rfl, _, _, rfl⟩
  · exact .inl ⟨rfl, _, _, hport⟩

theorem move_keeps_writeUnderWayOrAnswered {s t : State} (c : Choice) (h : WriteUnderWayOrAnswered s t)
    (hbusy : t.port ≠ .idle) : WriteUnderWayOrAnswered s (t.move c) := by
  obtain ⟨hresp, w, fin, hport⟩ | ⟨-, -, hidle, -⟩ := h
  · cases c with
    | tick => exact .inl ⟨hresp, w, fin, by rw [State.move_tick, State.tick, hport]; rfl⟩
    | loop u =>
      exact .inl ⟨(loopStep_responses t u).trans hresp, w, fin, (t.loopStep_port u).trans hport⟩
    | port =>
      have hstep := portStep_channelWrite t w fin hport
      rwa [← State.move_port_of_busy t _ hport, WriteUnderWayOrAnswered, hresp] at hstep
  · exact absurd hidle hbusy

theorem drive_keeps_writeUnderWayOrAnswered {s t : State} (h : WriteUnderWayOrAnswered s t) :
    WriteUnderWayOrAnswered s t.drive :=
  State.drive_keeps (WriteUnderWayOrAnswered s) (fun _ _ h => h)
    (fun _ c h hbusy => move_keeps_writeUnderWayOrAnswered c h hbusy) t h

theorem portApply_writeUnderWayOrAnswered (s : State) (ch : ChannelId) (ratio : BitVec 13) (inv : Bool)
    (value : Value) : WriteUnderWayOrAnswered s (s.portApply ch ratio inv value) := by
  rcases s.portApply_cases ch ratio inv value with ⟨-, h⟩ | ⟨-, h⟩ <;> rw [h]
  · exact .inr ⟨.ack, value, rfl, rfl⟩
  · exact .inl ⟨rfl, _, _, rfl⟩

/-! ### The host commands of one channel (R92) -/

/-- REL, SETDUTY, DISABLE and ENABLE check INITIALIZED and then HostOwn; a later check can only fail with
ConfigurationError, and past the checks there is one channel write. -/
theorem exec_of_hostChannel (s : State) {i : Instr} {ch : ChannelId} (h : i.hostChannel = some ch) :
    ∃ cs k, exec i s = .next (s.checked (s.needInit :: s.hostOwn ch :: cs) k) ∧
      (∀ e, some e ∈ cs → e = .configuration) ∧ WriteUnderWayOrAnswered s k := by
  cases i with
  | rel c =>
    cases h
    exact ⟨[], _, rfl, by simp, drive_keeps_writeUnderWayOrAnswered (.inl ⟨rfl, _, _, rfl⟩)⟩
  | setduty c frac inv =>
    cases h
    have hfraction (e : Err) (he : some e ∈ [fractionOk frac]) : e = .configuration := by
      rw [List.mem_singleton, fractionOk, require] at he
      split at he <;> cases he
      rfl
    exact ⟨[fractionOk frac], _, rfl, hfraction,
      drive_keeps_writeUnderWayOrAnswered (portApply_writeUnderWayOrAnswered s _ _ _ _)⟩
  | disable c =>
    cases h
    exact ⟨[], _, rfl, by simp, drive_keeps_writeUnderWayOrAnswered (.inl ⟨rfl, _, _, rfl⟩)⟩
  | enable c =>
    cases h
    exact ⟨[], _, rfl, by simp,
      drive_keeps_writeUnderWayOrAnswered (portApply_writeUnderWayOrAnswered (s.setDisabled _ false) _ _ _ _)⟩
  | _ => cases h

theorem responseWord_code {code : Nat} (h : code < 256) (value : Value) :
    bitField (responseWord code value) 7 0 = code := by
  rw [bitField, responseWord, BitVec.toNat_ofNat]
  omega

/-- The code of a channel write's response is OK or BusIOError (R141). -/
theorem responseTo_code (r : Answer) (value : Value) :
    bitField (responseTo r value) 7 0 = 0 ∨ bitField (responseTo r value) 7 0 = 6 := by
  cases r with
  | ack => exact .inl (responseWord_code (by decide) value)
  | nack => exact .inr (responseWord_code (by decide) 0)
  | err d => exact .inr (responseWord_code (by decide) d)

theorem raise_ne_respond (s : State) {e : Err} {info value : Value} {code : Nat} (he : e.code < 256)
    (hcode : code < 256) (hne : e.code ≠ code) : s.raise e info ≠ s.respond code value := by
  intro h
  have hword : responseWord e.code info = responseWord code value := by
    simpa using congrArg State.responses h
  have hcodes := congrArg (bitField · 7 0) hword
  exact hne (by simpa only [responseWord_code he, responseWord_code hcode] using hcodes)

theorem WriteUnderWayOrAnswered.ne_respond {s t : State} {code : Nat} {value : Value}
    (h : WriteUnderWayOrAnswered s t) (hcode : code < 256) (hok : code ≠ 0) (hbusIO : code ≠ 6) :
    t ≠ s.respond code value := by
  intro ht
  subst ht
  obtain ⟨hresp, -⟩ | ⟨r, v, -, hresp⟩ := h
  · simp at hresp
  · have hword : responseWord code value = responseTo r v := by simpa using hresp
    have hcodes := responseTo_code r v
    rw [← hword, responseWord_code hcode] at hcodes
    exact hcodes.elim hok hbusIO

/-- On a host channel the command gets past HostOwn: it fails with ConfigurationError or has its channel write, so its
response has neither of HostOwn's codes. -/
theorem exec_ne_respond_of_host {s : State} {i : Instr} {ch : ChannelId} (hinit : s.initialized = true)
    (hi : i.hostChannel = some ch) (hhost : (s.channel ch).owner = .host) {code : Nat} (hcode : code = 2 ∨ code = 3) :
    exec i s ≠ .next (s.respond code 0) := by
  obtain ⟨cs, k, hexec, herr, hwrite⟩ := exec_of_hostChannel s hi
  rw [hexec, checked_of_head_none (s.needInit_eq_none.2 hinit),
    checked_of_head_none ((s.hostOwn_eq_none ch).2 hhost), ne_eq, Host.Outcome.next.injEq]
  rcases checked_error_mem s k cs with ⟨e, hmem, h⟩ | h <;> rw [h]
  · rw [herr e hmem]
    exact raise_ne_respond s (by decide) (by omega) (by rcases hcode with rfl | rfl <;> decide)
  · exact hwrite.ne_respond (by omega) (by omega) (by omega)

/-- Settles O35: the four commands share their first two checks, and HostOwn decides by the owner. -/
theorem hostCommandsNeedTheChannel : Obligations.HostCommandsNeedTheChannel := by
  intro s i ch hinit hlock hi
  have hfails (e : Err) (he : s.hostOwn ch = some e) : exec i s = .next (s.respond e.code 0) := by
    obtain ⟨cs, k, hexec, -⟩ := exec_of_hostChannel s hi
    rw [hexec, checked_of_head_none (s.needInit_eq_none.2 hinit), checked_of_head_some he,
      raise_of_lock_elsewhere hlock]
  exact ⟨fun hfree => hfails .channelNotAcquired (hostOwn_of_free hfree),
    fun u hunit => hfails .channelBusy (hostOwn_of_unit hunit),
    fun hhost => ⟨exec_ne_respond_of_host hinit hi hhost (.inr rfl),
      exec_ne_respond_of_host hinit hi hhost (.inl rfl)⟩⟩

end Sys2Proof.HostChannel
end

section
/-! The first checks of a unit command (R118): the unit number against NUM_UNITS, then the binding. A command that R118
requires to be bound begins with both; CFGMOTOR and RDSTAT of a unit selector begin with the first only. -/

namespace Sys2Proof.UnitChecks

open Machine HostChannel

/-! ### The two checks -/

theorem withUnit_of_ge {s : State} {n : Nat} (h : s.cfg.units.toNat ≤ n) (k : UnitId → State) :
    s.withUnit n k = s.raise .configuration 0 := by
  rcases s.withUnit_cases n k with ⟨-, hraise⟩ | ⟨u, hu, -⟩
  · exact hraise
  · obtain ⟨hlt, -⟩ := (unitNumbered_iff s.cfg n u).1 hu
    exact absurd hlt (Nat.not_lt.2 h)

theorem withUnit_of_lt {s : State} {n : Nat} {u : UnitId} (hu : u.val = n) (h : n < s.cfg.units.toNat)
    (k : UnitId → State) : s.withUnit n k = k u :=
  s.withUnit_of_some n k u ((unitNumbered_iff s.cfg n u).2 ⟨h, hu⟩)

theorem needBound_of_unbound {s : State} {u : UnitId} (h : (s.unit u).bound = false) :
    s.needBound u = some .configuration := by
  rw [State.needBound, h]; rfl

/-! ### How the unit commands begin -/

theorem exec_of_boundUnit (s : State) {i : Instr} {n : Nat} (h : i.boundUnit = some n) :
    ∃ (cs : UnitId → List (Option Err)) (k : UnitId → State),
      exec i s = .next (s.withUnit n fun u => s.checked (s.needBound u :: cs u) (k u)) := by
  cases i with
  | selstyle | nextstep | setpf | dispose | setspeed | stepfor | cancel | stop | setpolicy =>
    cases h
    exact ⟨_, _, rfl⟩
  | _ => cases h

/-- The selectors 0x10 to 0x19 are the unit selectors (R138). -/
theorem selectorOf_unit {sel : Nat} (h : 0x10 ≤ sel ∧ sel ≤ 0x19) : ∃ x, selectorOf sel = some (.unit x) := by
  obtain ⟨hlow, hhigh⟩ := h
  interval_cases sel <;> exact ⟨_, rfl⟩

theorem exec_rdstat_of_unit (s : State) (n : Nat) {sel : Nat} {x : UnitSel} (h : selectorOf sel = some (.unit x)) :
    exec (.rdstat n sel) s = .next (s.withUnit n fun u => s.respondOk ((s.unit u).word x)) := by
  simp only [exec, execRdstat, h]

theorem exec_of_checkedUnit (s : State) {i : Instr} {n : Nat} (h : i.checkedUnit = some n) :
    ∃ k, exec i s = .next (s.withUnit n k) := by
  cases i with
  | rdstat unit sel =>
    obtain ⟨hsel, hunit⟩ := Option.ite_none_right_eq_some.1 h
    cases hunit
    obtain ⟨x, hx⟩ := selectorOf_unit hsel
    exact ⟨_, exec_rdstat_of_unit s _ hx⟩
  | cfgmotor | selstyle | nextstep | setpf | dispose | setspeed | stepfor | cancel | stop | setpolicy =>
    cases h
    exact ⟨_, rfl⟩
  | _ => cases h

/-- Settles O45: each unit command begins with its first check or its first two, and the failing one raises
ConfigurationError. -/
theorem unitNumberAndBoundAreCheckedFirst : Obligations.UnitNumberAndBoundAreCheckedFirst := by
  intro s i n hlock
  refine ⟨fun hi hpast => ?pastUnits, fun hi u hu hlt hunbound => ?unbound⟩
  case pastUnits =>
    obtain ⟨k, hexec⟩ := exec_of_checkedUnit s hi
    rw [hexec, withUnit_of_ge hpast, raise_of_lock_elsewhere hlock]
    rfl
  case unbound =>
    obtain ⟨cs, k, hexec⟩ := exec_of_boundUnit s hi
    rw [hexec, withUnit_of_lt hu hlt, checked_of_head_some (needBound_of_unbound hunbound),
      raise_of_lock_elsewhere hlock]
    rfl

end Sys2Proof.UnitChecks
end

section
/-! The writes of one coil's part of a Step (R112 to R115): which they are, by what LAST records of the coil. -/

namespace Sys2Proof.CoilWrites

open Machine

/-! ### Polarity targets (R112) -/

theorem targets_inP (p : Pol) : p.targets.1 = decide (p = .pos) := by cases p <;> rfl

theorem targets_inN (p : Pol) : p.targets.2 = decide (p = .neg) := by cases p <;> rfl

/-- The targets that LAST records, if it is valid. -/
def knownTargets (last : Last) : Option (Bool × Bool) := if last.valid then some last.pol.targets else none

/-- A polarity channel is not known to hold its target exactly when LAST is invalid or recorded the other one. -/
theorem knownTargets_map_ne (last : Last) (f : Bool × Bool → Bool) (b : Bool) :
    (knownTargets last).map f ≠ some b ↔ last.valid = false ∨ f last.pol.targets ≠ b := by
  cases h : last.valid <;> simp [knownTargets, h]

/-! ### The writes of a coil -/

theorem mem_stepWrites_ite {p : Prop} [Decidable p] (ch : ChannelId) (r : BitVec 13) (w : ChannelId × BitVec 13) :
    w ∈ stepWrites (if p then [StepOp.apply ch r] else []) ↔ w = (ch, r) ∧ p := by
  split <;> simp [*]

theorem mem_stepWrites_offWrites (t : PortTriple) (pol : Pol) (last : Last) (w : ChannelId × BitVec 13) :
    w ∈ stepWrites (offWrites t pol.targets (knownTargets last)) ↔
      (w = (t.inP, 0) ∧ pol ≠ .pos ∧ (last.valid = false ∨ last.pol = .pos)) ∨
      (w = (t.inN, 0) ∧ pol ≠ .neg ∧ (last.valid = false ∨ last.pol = .neg)) := by
  rw [offWrites, stepWrites_append, List.mem_append, mem_stepWrites_ite, mem_stepWrites_ite, knownTargets_map_ne,
    knownTargets_map_ne]
  simp [targets_inP, targets_inN]

theorem mem_stepWrites_onWrites (t : PortTriple) (pol : Pol) (last : Last) (w : ChannelId × BitVec 13) :
    w ∈ stepWrites (onWrites t pol.targets (knownTargets last)) ↔
      (w = (t.inP, 4096) ∧ pol = .pos ∧ (last.valid = false ∨ last.pol ≠ .pos)) ∨
      (w = (t.inN, 4096) ∧ pol = .neg ∧ (last.valid = false ∨ last.pol ≠ .neg)) := by
  rw [onWrites, stepWrites_append, List.mem_append, mem_stepWrites_ite, mem_stepWrites_ite, knownTargets_map_ne,
    knownTargets_map_ne]
  simp [targets_inP, targets_inN]

/-- A coil's writes: the polarity's only under the first test of R113, the magnitude's only under the second. -/
theorem mem_stepWrites_coilOps (t : PortTriple) (last : Last) (c : Coil) (cur : Int) (pf : Nat)
    (w : ChannelId × BitVec 13) :
    w ∈ stepWrites (coilOps t last c cur pf) ↔
      ((last.valid = false ∨ last.pol ≠ polOf cur) ∧
        (w ∈ stepWrites (offWrites t (polOf cur).targets (knownTargets last)) ∨
          w ∈ stepWrites (onWrites t (polOf cur).targets (knownTargets last)))) ∨
      (w = (t.pwm, BitVec.ofNat 13 (coilRatio cur pf)) ∧
        (last.valid = false ∨ last.ratio ≠ BitVec.ofNat 13 (coilRatio cur pf))) := by
  have hpolarity {p : Prop} [Decidable p] (a b : List StepOp) :
      w ∈ stepWrites (if p then a ++ b else []) ↔ p ∧ (w ∈ stepWrites a ∨ w ∈ stepWrites b) := by
    split <;> simp [*]
  rw [coilOps, stepWrites_append, stepWrites_append, List.mem_append, List.mem_append, mem_stepWrites_ite, hpolarity]
  simp [knownTargets]

/-- The polarity writes are on the coil's two polarity channels (R110). -/
theorem polarityWrite_channel {t : PortTriple} {pol : Pol} {last : Last} {w : ChannelId × BitVec 13}
    (h : w ∈ stepWrites (offWrites t pol.targets (knownTargets last)) ∨
      w ∈ stepWrites (onWrites t pol.targets (knownTargets last))) : w.1 = t.inP ∨ w.1 = t.inN := by
  rw [mem_stepWrites_offWrites, mem_stepWrites_onWrites] at h
  rcases h with (⟨rfl, -⟩ | ⟨rfl, -⟩) | ⟨rfl, -⟩ | ⟨rfl, -⟩
  · exact .inl rfl
  · exact .inr rfl
  · exact .inl rfl
  · exact .inr rfl

theorem pwm_not_polarity {t : PortTriple} (h : t.channels.Nodup) : ¬(t.pwm = t.inP ∨ t.pwm = t.inN) := by
  simpa [PortTriple.channels] using (List.nodup_cons.1 h).1

/-- Every polarity write that the targets ask for is of a changed polarity, so R113's test shuts none of them out. -/
theorem polarityChanged_of_write {t : PortTriple} {pol : Pol} {last : Last} {w : ChannelId × BitVec 13}
    (h : w ∈ stepWrites (offWrites t pol.targets (knownTargets last)) ∨
      w ∈ stepWrites (onWrites t pol.targets (knownTargets last))) : last.valid = false ∨ last.pol ≠ pol := by
  rw [mem_stepWrites_offWrites, mem_stepWrites_onWrites] at h
  rcases h with (⟨-, hpol, h⟩ | ⟨-, hpol, h⟩) | ⟨-, hpol, h⟩ | ⟨-, hpol, h⟩
  · exact h.imp_right fun hlast hsame => hpol (hsame.symm.trans hlast)
  · exact h.imp_right fun hlast hsame => hpol (hsame.symm.trans hlast)
  · exact h.imp_right fun hlast => hpol ▸ hlast
  · exact h.imp_right fun hlast => hpol ▸ hlast

/-- Settles O41: R113's clauses are the two tests of the coil's writes, and the first test is implied by each polarity
write's own. -/
theorem stepWritesOnlyOnChange : Obligations.StepWritesOnlyOnChange := by
  intro t last c cur pf
  refine ⟨fun hnodup => ⟨fun w hw hch => ?polarity, fun w hw hch => ?magnitude, fun hvalid hpol hratio => ?unchanged⟩,
    fun w => ?exactly⟩
  case polarity =>
    rcases (mem_stepWrites_coilOps t last c cur pf w).1 hw with ⟨hchanged, -⟩ | ⟨rfl, -⟩
    · exact hchanged
    · exact absurd hch (pwm_not_polarity hnodup)
  case magnitude =>
    rcases (mem_stepWrites_coilOps t last c cur pf w).1 hw with ⟨-, hpolarity⟩ | ⟨-, hchanged⟩
    · exact absurd (hch ▸ polarityWrite_channel hpolarity) (pwm_not_polarity hnodup)
    · exact hchanged
  case unchanged =>
    refine List.eq_nil_iff_forall_not_mem.2 fun w hw => ?_
    rw [mem_stepWrites_coilOps] at hw
    simp [hvalid, hpol, hratio] at hw
  case exactly =>
    rw [mem_stepWrites_coilOps, and_iff_right_of_imp polarityChanged_of_write, mem_stepWrites_offWrites,
      mem_stepWrites_onWrites]
    simp only [or_assoc]

end Sys2Proof.CoilWrites
end

section
/-! The step tables (R102 to R109) and what a coil current asks for (R111, R112). A microstep index lies in one of four
quadrants of the signed wave; its two currents read the look-up table at an entry and at the mirrored entry, so the
magnitude of a microstep is a fact about the 33 entries of the table. -/

namespace Sys2Proof.StepTables

open Machine DriverNumbers

/-! ### The look-up table (R102) -/

theorem lutAt_of_getElem? {j v : Nat} (h : lut[j]? = some v) : lutAt j = v := by
  rw [lutAt, List.getD_eq_getElem?_getD, h]; rfl

/-- The tolerance of R109, at each pair of mirrored entries. -/
theorem lutAt_sq_add_mirror_mem : ∀ a ≤ 32,
    999988 * (2 : Int) ^ 32 ≤ 1000000 * (lutAt a ^ 2 + lutAt (32 - a) ^ 2) ∧
    1000000 * (lutAt a ^ 2 + lutAt (32 - a) ^ 2) ≤ 1000010 * (2 : Int) ^ 32 := by decide

/-! ### The signed wave (R103) -/

/-- The wave in quadrant q of a period, from the rising value and the falling one. -/
def quadrantWave : Nat → Int → Int → Int
  | 0, rising, _ => rising
  | 1, _, falling => falling
  | 2, rising, _ => -rising
  | _, _, falling => -falling

theorem signedWave_eq_quadrantWave (k n : Nat) :
    signedWave k n = quadrantWave (k / n % 4) (lutAt (k % n * (32 / n))) (lutAt ((n - k % n) * (32 / n))) := by
  rw [signedWave, Nat.mod_mul_left_mod, Nat.mod_mul_left_div_self]
  generalize k / n % 4 = q
  match q with
  | 0 | 1 | 2 | _ + 3 => rfl

theorem signedWave_at {n r : Nat} (j : Nat) {q : Nat} (hq : q < 4) (hr : r < n) :
    signedWave (n * (4 * j + q) + r) n =
      quadrantWave q (lutAt (r * (32 / n))) (lutAt ((n - r) * (32 / n))) := by
  have hdiv : (n * (4 * j + q) + r) / n = 4 * j + q := by
    rw [Nat.mul_add_div (by omega), Nat.div_eq_of_lt hr, Nat.add_zero]
  have hmod : (n * (4 * j + q) + r) % n = r := by rw [Nat.mul_add_mod, Nat.mod_eq_of_lt hr]
  rw [signedWave_eq_quadrantWave, hdiv, hmod, Nat.mul_add_mod, Nat.mod_eq_of_lt hq]

/-- A quadrant on, the wave has the other of its two values, so the squares of both are summed in any quadrant. -/
theorem quadrantWave_sq_add_next (q : Nat) (x y : Int) :
    quadrantWave (q % 4) x y ^ 2 + quadrantWave ((q + 1) % 4) x y ^ 2 = x ^ 2 + y ^ 2 := by
  have hq : q % 4 < 4 := Nat.mod_lt _ (by decide)
  rw [← Nat.mod_add_mod]
  interval_cases q % 4 <;> simp only [quadrantWave] <;> ring

theorem signedWave_sq_add_next (k : Nat) {n : Nat} (hn : 0 < n) :
    signedWave k n ^ 2 + signedWave (k + n) n ^ 2 =
      lutAt (k % n * (32 / n)) ^ 2 + lutAt ((n - k % n) * (32 / n)) ^ 2 := by
  rw [signedWave_eq_quadrantWave, signedWave_eq_quadrantWave (k + n), Nat.add_mod_right, Nat.add_div_right k hn,
    quadrantWave_sq_add_next]

theorem microstepSet_dvd {n : Nat} (hn : n ∈ microstepSet) : 0 < n ∧ n * (32 / n) = 32 := by
  revert n; decide

/-! ### The step tables (R104 to R109) -/

theorem tableEntry_micro_magnitude {n : Nat} (hn : n ∈ microstepSet) (i : Nat) :
    999988 * (2 : Int) ^ 32 ≤ 1000000 * ((tableEntry .micro n i).1 ^ 2 + (tableEntry .micro n i).2 ^ 2) ∧
    1000000 * ((tableEntry .micro n i).1 ^ 2 + (tableEntry .micro n i).2 ^ 2) ≤ 1000010 * (2 : Int) ^ 32 := by
  obtain ⟨hpos, hdvd⟩ := microstepSet_dvd hn
  have hentry : i % n * (32 / n) ≤ 32 :=
    (Nat.mul_le_mul_right (32 / n) (Nat.mod_lt i hpos).le).trans_eq hdvd
  have hmirror : (n - i % n) * (32 / n) = 32 - i % n * (32 / n) := by rw [Nat.sub_mul, hdvd]
  rw [tableEntry, signedWave_sq_add_next i hpos, hmirror]
  exact lutAt_sq_add_mirror_mem _ hentry

/-- Both coil currents lie in [-1, 1], in units of 2^-16 (R109). -/
abbrev CurrentsInRange (entry : Int × Int) : Prop := entry.1.natAbs ≤ 65536 ∧ entry.2.natAbs ≤ 65536

theorem tableEntry_currentsInRange {sty : Style} {n i : Nat} (hi : i < tableLen sty n) :
    CurrentsInRange (tableEntry sty n i) := by
  cases sty with
  | full => exact (by decide : ∀ i < 4, CurrentsInRange (fullTable.getD i (0, 0))) i hi
  | half => exact (by decide : ∀ i < 8, CurrentsInRange (halfTable.getD i (0, 0))) i hi
  | wave => exact (by decide : ∀ i < 4, CurrentsInRange (waveTable.getD i (0, 0))) i hi
  | micro => exact ⟨signedWave_natAbs_le i n, signedWave_natAbs_le (i + n) n⟩

/-- HALF interleaves WAVE and FULL; MICRO passes through WAVE at the quadrants' ends, and FULL has the signs of MICRO
at their middles. -/
theorem tableEntry_alignment : ∀ n ∈ microstepSet, ∀ k < 4,
    tableEntry .half 0 (2 * k) = tableEntry .wave 0 k ∧ tableEntry .half 0 (2 * k + 1) = tableEntry .full 0 k ∧
    tableEntry .micro n (k * n) = tableEntry .wave 0 k ∧
    tableEntry .full 0 k =
      (65536 * (tableEntry .micro n (n / 2 + k * n)).1.sign,
        65536 * (tableEntry .micro n (n / 2 + k * n)).2.sign) := by decide

/-! ### A coil current's ratio and polarity (R111, R112) -/

/-- The duty fraction of a coil current at a power factor, rounded half up (R111). -/
theorem coilFraction_bounds {cur : Int} {pf frac : Nat} (hcur : cur.natAbs ≤ 65536) (hpf : pf ≤ 65536)
    (hfrac : frac = (cur.natAbs * pf + 32768) >>> 16) :
    coilRatio cur pf = ratioOf frac ∧ frac ≤ 65536 ∧
    2 * 65536 * frac ≤ 2 * (cur.natAbs * pf) + 65536 ∧ 2 * (cur.natAbs * pf) + 65536 < 2 * 65536 * (frac + 1) := by
  have hround : frac = rndDiv (cur.natAbs * pf) 65536 := by rw [hfrac, Nat.shiftRight_eq_div_pow]; rfl
  have hproduct : cur.natAbs * pf ≤ 65536 * 65536 := Nat.mul_le_mul hcur hpf
  have hpos : 0 < 65536 := by decide
  rw [hround]
  exact ⟨rfl, Nat.le_of_lt_succ ((rndDiv_lt_iff hpos).2 (by omega)), (le_rndDiv_iff hpos).1 le_rfl,
    (rndDiv_lt_iff hpos).1 (Nat.lt_succ_self _)⟩

theorem polOf_sign (cur : Int) :
    (polOf cur = .pos ↔ 0 < cur) ∧ (polOf cur = .neg ↔ cur < 0) ∧ (polOf cur = .off ↔ cur = 0) := by
  unfold polOf
  split_ifs <;> simp only [true_iff, false_iff] <;> omega

/-- A Step asks ApplyChannel for a ratio that is not inverted (R111). -/
theorem runOps_apply_of_enabled {s : State} (u : UnitId) {ch : ChannelId} (ratio : BitVec 13) (ops : List StepOp)
    (h : (s.channel ch).disabled = false) :
    runOps u (.apply ch ratio :: ops) s =
      (some ⟨⟨ch, imageOf ratio.toNat, false⟩, ops⟩, s.setSpec ch ratio false) := by
  rw [runOps, h]; rfl

/-- The polarity writes of a coil whose LAST is invalid: both channels to their targets, off before on (R112). -/
def fullPolarityWrites (t : PortTriple) : Pol → List (ChannelId × BitVec 13)
  | .pos => [(t.inN, 0), (t.inP, 4096)]
  | .neg => [(t.inP, 0), (t.inN, 4096)]
  | .off => [(t.inP, 0), (t.inN, 0)]

theorem stepWrites_coilOps_of_invalid (t : PortTriple) {last : Last} (c : Coil) (cur : Int) (pf : Nat)
    (h : last.valid = false) :
    stepWrites (coilOps t last c cur pf) =
      fullPolarityWrites t (polOf cur) ++ [(t.pwm, BitVec.ofNat 13 (coilRatio cur pf))] := by
  rw [coilOps, h]
  cases polOf cur <;> rfl

/-- Settles O12, clause by clause from the lemmas above; what is left is the tables' own data. -/
theorem stepTableProperties : Obligations.StepTableProperties := by
  refine ⟨⟨rfl, fun _ _ => lutAt_of_getElem?⟩, fun n _ j r hr => ?wave, fun _ => rfl, fun _ => rfl, fun _ => rfl,
    fun _ _ _ _ => rfl, tableEntry_alignment, entryOf_eq, rfl, rfl, rfl, fun _ _ => rfl, rfl, rfl, rfl,
    fun _ _ _ _ => tableEntry_currentsInRange, fun _ hn i _ => tableEntry_micro_magnitude hn i,
    fun _ _ _ => coilFraction_bounds, fun _ u _ ratio ops => runOps_apply_of_enabled u ratio ops, polOf_sign,
    fun t _ c cur pf => stepWrites_coilOps_of_invalid t c cur pf⟩
  have hquadrant (q k : Nat) (hq : q < 4) (hk : k = n * (4 * j + q) + r) :
      signedWave k n = quadrantWave q (lutAt (r * (32 / n))) (lutAt ((n - r) * (32 / n))) :=
    hk ▸ signedWave_at j hq hr
  exact ⟨hquadrant 0 _ (by decide) (by ring), hquadrant 1 _ (by decide) (by ring),
    hquadrant 2 _ (by decide) (by ring), hquadrant 3 _ (by decide) (by ring)⟩

end Sys2Proof.StepTables
end

section
/-! SETSPEED's interval (R118, R124, R132): past the unit number and the binding, the speed and then the interval are
checked. -/

namespace Sys2Proof.StepInterval

open Machine HostChannel UnitChecks

theorem require_of_not {p : Prop} [Decidable p] (h : ¬p) (e : Err) : require (decide p) e = some e := by
  rw [require, decide_eq_false h]; rfl

theorem require_of_true {p : Prop} [Decidable p] (h : p) (e : Err) : require (decide p) e = none :=
  (require_eq_none _ e).2 (decide_eq_true h)

theorem exec_setspeed_of_bound {s : State} {n : Nat} {u : UnitId} (rpm : Nat) (hu : u.val = n)
    (hlt : n < s.cfg.units.toNat) (hbound : (s.unit u).bound = true) :
    exec (.setspeed n rpm) s = .next
      (s.checked
        [require (decide (rpm ≠ 0)) .configuration,
          require (decide (0 < ticksPerStep s.cfg.timerHz rpm (s.unit u).spr.toNat ∧
            ticksPerStep s.cfg.timerHz rpm (s.unit u).spr.toNat < 2 ^ 32)) .configuration]
        ((s.setUnit u
          { s.unit u with tps := BitVec.ofNat 32 (ticksPerStep s.cfg.timerHz rpm (s.unit u).spr.toNat) }).respondOk
            (BitVec.ofNat 32 (ticksPerStep s.cfg.timerHz rpm (s.unit u).spr.toNat)))) := by
  rw [exec, execSetspeed, withUnit_of_lt hu hlt, checked_of_head_none ((s.needBound_eq_none u).2 hbound)]

/-- Settles O46, by which of SETSPEED's two own checks fails first, if any. -/
theorem setspeedComputesTheInterval : Obligations.SetspeedComputesTheInterval := by
  intro s n u rpm tps hu hlt hbound htps
  have hticks : ticksPerStep s.cfg.timerHz rpm (s.unit u).spr.toNat = tps := htps.symm
  rw [exec_setspeed_of_bound rpm hu hlt hbound, hticks]
  refine ⟨fun hlock hbad => ?refused, fun hrpm hzero hbits => ?set⟩
  case refused =>
    by_cases hrpm : rpm = 0
    · rw [checked_of_head_some (require_of_not (not_not.2 hrpm) _), raise_of_lock_elsewhere hlock]
      rfl
    · have hrange : ¬(0 < tps ∧ tps < 2 ^ 32) := by omega
      rw [checked_of_head_none (require_of_true hrpm _), checked_of_head_some (require_of_not hrange _),
        raise_of_lock_elsewhere hlock]
      rfl
  case set =>
    have hrange : 0 < tps ∧ tps < 2 ^ 32 := ⟨Nat.pos_of_ne_zero hzero, hbits⟩
    rw [checked_of_head_none (require_of_true hrpm _), checked_of_head_none (require_of_true hrange _)]
    rfl

end Sys2Proof.StepInterval
end

section
/-! A unit's pacing loop between Steps (R126 to R130): what Accum and Spin make of the unit's registers, by what is seen
of a cancellation, the full-step boundary, the count and the deadline. -/

namespace Sys2Proof.PacingLoop

open Machine

/-! ### What the loop looks at -/

theorem cancelSeen_iff (x : UnitState) : x.cancelSeen = true ↔ x.cancelReq = true ∧ x.cooling = false := by
  simp [UnitState.cancelSeen]

theorem onBoundary_iff (x : UnitState) : x.onBoundary = true ↔ x.index.toNat % x.nms.toNat = 0 := beq_iff_eq

theorem policyApplies_iff (x : UnitState) :
    x.policyApplies = true ↔ x.endFull = true ∧ x.style = .micro ∧ ¬x.index.toNat % x.nms.toNat = 0 := by
  simp [UnitState.policyApplies, ← onBoundary_iff, and_assoc]

theorem onBoundary_of_policyApplies {x : UnitState} (h : x.policyApplies = true) : x.onBoundary = false :=
  Bool.eq_false_iff.2 fun hb => ((policyApplies_iff x).1 h).2.2 ((onBoundary_iff x).1 hb)

theorem cancelSeen_of_cooling {x : UnitState} (h : x.cooling = true) : x.cancelSeen = false := by
  simp [UnitState.cancelSeen, h]

/-- Between Steps, Finish only ends the run (R130). -/
theorem finish_of_no_job {x : UnitState} (h : x.stepJob = none) :
    x.finish = { x with run := .braking, cancelReq := false, cooling := false, phase := .accum } := by
  simp [UnitState.finish, h]

/-! ### Accum (R126, R129) -/

theorem accum_of_cancelled {x : UnitState} (hseen : x.cancelSeen = true) (hpolicy : ¬x.policyApplies = true) :
    x.accum = x.finish := by
  rw [UnitState.accum, if_pos hseen, if_neg hpolicy]

theorem accum_of_cooled {x : UnitState} (hcooling : x.cooling = true) (hboundary : x.onBoundary = true) :
    x.accum = x.finish := by
  simp [UnitState.accum, UnitState.accumRest, cancelSeen_of_cooling hcooling, hcooling, hboundary]

theorem accumRest_of_not_cooled {x : UnitState} (h : ¬(x.cooling = true ∧ x.onBoundary = true)) :
    x.accumRest =
      if x.cont = false ∧ x.remaining = 0 then x.finish
      else { x with deadline := x.deadline + BitVec.setWidth 64 x.tps, phase := .spin } := by
  rw [UnitState.accumRest, if_neg (by simpa using h)]
  simp

/-- A run that neither a cancellation nor the end of a cooldown ends comes to the count check, with COOLING set by an
overridden cancellation: it is set after it exactly when it or CANCEL_REQ was set before. -/
theorem accum_of_not_ended {x : UnitState} (hcancel : ¬(x.cancelSeen = true ∧ ¬x.policyApplies = true))
    (hcooled : ¬(x.cooling = true ∧ x.onBoundary = true)) :
    x.accum =
      if x.cont = false ∧ x.remaining = 0 then x.finish
      else { x with
        cooling := x.cooling || x.cancelReq, deadline := x.deadline + BitVec.setWidth 64 x.tps, phase := .spin } := by
  by_cases hseen : x.cancelSeen = true
  · have hpolicy : x.policyApplies = true := by simpa [hseen] using hcancel
    have hboundary : ({ x with cooling := true } : UnitState).onBoundary = false := onBoundary_of_policyApplies hpolicy
    obtain ⟨hreq, -⟩ := (cancelSeen_iff x).1 hseen
    rw [UnitState.accum, if_pos hseen, if_pos hpolicy, accumRest_of_not_cooled (by simp [hboundary]), hreq,
      Bool.or_true]
    rfl
  · have hcooling : (x.cooling || x.cancelReq) = x.cooling := by
      simpa [cancelSeen_iff] using hseen
    rw [UnitState.accum, if_neg hseen, accumRest_of_not_cooled hcooled, hcooling]

/-! ### The due Step's INDEX (R115, R128) -/

/-- Carrying a Step on changes nothing of any unit but LAST. -/
theorem runOps_unit (u : UnitId) (ops : List StepOp) (s : State) (v : UnitId) :
    (runOps u ops s).2.unit v =
      { s.unit v with lastA := ((runOps u ops s).2.unit v).lastA, lastB := ((runOps u ops s).2.unit v).lastB } := by
  refine runOps_keeps
    (fun t => t.unit v = { s.unit v with lastA := (t.unit v).lastA, lastB := (t.unit v).lastB }) u ?_ ?_ ops s rfl
  · intro t c ratio pol ht
    rw [State.setUnit_unit]
    split
    case isTrue h =>
      subst h
      rw [ht]
      cases c <;> rfl
    case isFalse => exact ht
  · intro t ch ratio ht
    simpa using ht

theorem loopStepOps_index (s : State) (u : UnitId) (ops : List StepOp) :
    ((s.loopStepOps u ops).unit u).index = (s.unit u).index := by
  have hindex := congrArg UnitState.index (runOps_unit u ops s u)
  rcases s.loopStepOps_cases u ops with ⟨-, h⟩ | ⟨job, -, h⟩ <;> rw [h, State.setUnit_unit_self] <;> exact hindex

theorem stepDue_index (s : State) (u : UnitId) :
    ((s.stepDue u).unit u).index = nextIndex (s.unit u) (s.unit u).dir := by
  rw [State.stepDue, loopStepOps_index, State.advanceIndex_unit, if_pos rfl]

/-! ### Spin (R127, R129) -/

theorem spin_of_seen {s : State} {u : UnitId} (h : (s.unit u).cancelSeen = true) :
    s.spin u = s.setUnit u
      (if (s.unit u).policyApplies then { s.unit u with cooling := true } else (s.unit u).finish) := by
  rw [State.spin, if_pos h]

theorem spin_of_not_due {s : State} {u : UnitId} (hseen : ¬(s.unit u).cancelSeen = true)
    (h : ¬(s.unit u).deadline ≤ s.time) : s.spin u = s := by
  rw [State.spin, if_neg hseen, if_neg h]

theorem spin_of_due {s : State} {u : UnitId} (hseen : ¬(s.unit u).cancelSeen = true)
    (h : (s.unit u).deadline ≤ s.time) : s.spin u = s.stepDue u := by
  rw [State.spin, if_neg hseen, if_pos h]

/-! ### The loop between Steps -/

theorem move_loop_accum {s : State} {u : UnitId} (hrun : (s.unit u).run = .running)
    (hjob : (s.unit u).stepJob = none) (hphase : (s.unit u).phase = .accum) :
    s.move (.loop u) = s.setUnit u (s.unit u).accum := by
  simp [State.loopStep, hrun, hjob, hphase]

theorem move_loop_spin {s : State} {u : UnitId} (hrun : (s.unit u).run = .running)
    (hjob : (s.unit u).stepJob = none) (hphase : (s.unit u).phase = .spin) : s.move (.loop u) = s.spin u := by
  simp [State.loopStep, hrun, hjob, hphase]

/-- Settles O52: Accum and Spin, each by the conditions it tests in their order. -/
theorem pacingLoopAccumAndSpin : Obligations.PacingLoopAccumAndSpin := by
  rintro s u x fin seen policy boundary rfl hrun hjob rfl hseen hboundary hpolicy
  rw [hboundary, ← policyApplies_iff] at hpolicy
  rw [← cancelSeen_iff] at hseen
  rw [← onBoundary_iff] at hboundary
  rw [hseen, hpolicy, hboundary, ← finish_of_no_job hjob]
  refine ⟨fun hphase => ?accum, fun hphase => ?spin⟩
  case accum =>
    rw [move_loop_accum hrun hjob hphase]
    refine ⟨fun hs hp => ?_, fun hc hb => ?_, fun hcancel hcooled hcont hrem => ?_, fun hcancel hcooled hmore => ?_⟩
    · rw [accum_of_cancelled hs hp]
    · rw [accum_of_cooled hc hb]
    · rw [accum_of_not_ended hcancel hcooled, if_pos ⟨hcont, hrem⟩]
    · rw [accum_of_not_ended hcancel hcooled, if_neg hmore]
  case spin =>
    rw [move_loop_spin hrun hjob hphase]
    refine ⟨fun hs hp => ?_, fun hs hp => ?_, fun hs hearly => ?_, fun hs hdue => ?_⟩
    · rw [spin_of_seen hs, if_neg hp]
    · rw [spin_of_seen hs, if_pos hp]
    · exact spin_of_not_due hs (BitVec.not_le.2 hearly)
    · rw [spin_of_due hs hdue, stepDue_index]

end Sys2Proof.PacingLoop
end

section
/-! The selector map of RDSTAT (R138). A word that the model packs from fields is the concatenation of those fields, the
highest first, and a channel mask holds each channel's flag at the channel's number. A defined selector completes with
its own word; an undefined one is refused. -/

namespace Sys2Proof.StatusWords

open Machine HostChannel UnitChecks

/-! ### Packed fields -/

theorem append_toNat {n m : Nat} (x : BitVec n) (y : BitVec m) : (x ++ y).toNat = x.toNat * 2 ^ m + y.toNat := by
  rw [BitVec.toNat_append, ← Nat.shiftLeft_add_eq_or_of_lt y.isLt, Nat.shiftLeft_eq]

/-- A packed word is the one whose number is the sum of the fields, each at its place. -/
theorem packValue_eq {v : Value} {fs : List (Nat × Nat)} (h : packWord fs = v.toNat) : packValue fs = v := by
  rw [packValue, h, BitVec.ofNat_toNat, BitVec.setWidth_eq]

theorem style_code_toNat (y : Style) : (BitVec.ofNat 2 y.code).toNat = y.code := by cases y <;> rfl

theorem dir_code_toNat (d : Dir) : (BitVec.ofNat 1 d.code).toNat = d.code := by cases d <;> rfl

theorem pol_code_toNat (p : Pol) : (BitVec.ofNat 2 p.code).toNat = p.code := by cases p <;> rfl

theorem run_code_toNat (r : RunState) : (BitVec.ofNat 2 r.code).toNat = r.code := by cases r <;> rfl

theorem packValue_single (n : Nat) : packValue [(0, n)] = BitVec.ofNat 32 n := by
  simp [packValue, packWord]

/-- A register in the low bits of a word whose other bits are 0 (R137). -/
theorem packValue_low {k n : Nat} (h : k + n = 32) (x : BitVec n) :
    packValue [(0, x.toNat)] = (0#k ++ x).cast h := by
  apply packValue_eq
  simp only [packWord, BitVec.toNat_cast, append_toNat, BitVec.toNat_zero]
  ring

theorem driverStatus_eq (initialized : Bool) (addr : BitVec 7) (p : Byte) :
    packValue [(0, initialized.toNat), (8, addr.toNat), (16, p.toNat)] =
      (((0#8 ++ p) ++ 0#1) ++ addr) ++ 0#7 ++ BitVec.ofBool initialized := by
  apply packValue_eq
  simp only [packWord, append_toNat, BitVec.toNat_ofBool, BitVec.toNat_zero]
  ring

theorem unitStatus_eq (x : UnitState) :
    unitStatus x =
      0#6 ++ BitVec.ofBool x.cooling ++ BitVec.ofBool x.cont ++ x.nms ++ 0#6 ++ BitVec.ofNat 2 x.style.code ++
        BitVec.ofNat 1 x.dir.code ++ BitVec.ofBool x.cancelReq ++ BitVec.ofBool x.endFull ++ BitVec.ofBool x.busErr ++
        BitVec.ofNat 2 x.run.code ++ BitVec.ofBool x.ready ++ BitVec.ofBool x.bound := by
  apply packValue_eq
  simp only [packWord, append_toNat, BitVec.toNat_ofBool, style_code_toNat, dir_code_toNat, run_code_toNat,
    BitVec.toNat_zero]
  ring

theorem lastStatus_eq (l : Last) :
    lastStatus l = BitVec.ofBool l.valid ++ 0#13 ++ BitVec.ofNat 2 l.pol.code ++ 0#3 ++ l.ratio := by
  apply packValue_eq
  simp only [packWord, append_toNat, BitVec.toNat_ofBool, pol_code_toNat, BitVec.toNat_zero]
  ring

theorem bindingStatus_eq (x : UnitState) :
    bindingStatus x = x.spr ++ 0#8 ++ (0#1 ++ x.portB) ++ (0#1 ++ x.portA) := by
  apply packValue_eq
  simp only [packWord, append_toNat, BitVec.toNat_zero]
  ring

/-- Bits [31:20] of a channel's status: the owner's kind, and from the fifth of them on its unit. -/
def ownerField : Owner → BitVec 12
  | .free => 0x00#12
  | .host => 0x01#12
  | .unit u => BitVec.ofNat 12 (16 * u.val + 2)

theorem ownerField_toNat (o : Owner) : (ownerField o).toNat = o.kindAndUnit.1 + 16 * o.kindAndUnit.2 := by
  cases o with
  | free | host => rfl
  | unit u =>
    rw [ownerField, BitVec.toNat_ofNat, Owner.kindAndUnit]
    omega

theorem channelStatus_eq (c : Channel) :
    channelStatus c =
      ownerField c.owner ++ 0#2 ++ BitVec.ofBool c.imageValid ++ BitVec.ofBool c.specInv ++ 0#3 ++ c.specRatio := by
  apply packValue_eq
  simp only [packWord, append_toNat, BitVec.toNat_ofBool, ownerField_toNat, BitVec.toNat_zero]
  ring

/-! ### Halves and masks -/

theorem ofNat_toNat_low (x : BitVec 64) : BitVec.ofNat 32 x.toNat = x.extractLsb' 0 32 := by
  apply BitVec.eq_of_toNat_eq
  rw [BitVec.toNat_ofNat, BitVec.extractLsb'_toNat, Nat.shiftRight_zero]

theorem ofNat_toNat_high (x : BitVec 64) : BitVec.ofNat 32 (x.toNat / 2 ^ 32) = x.extractLsb' 32 32 := by
  apply BitVec.eq_of_toNat_eq
  rw [BitVec.toNat_ofNat, BitVec.extractLsb'_toNat, Nat.shiftRight_eq_div_pow]

theorem packWord_shift (fs : List (Nat × Nat)) :
    packWord (fs.map fun f => (f.1 + 1, f.2)) = 2 * packWord fs := by
  induction fs with
  | nil => rfl
  | cons f fs ih =>
    rw [List.map_cons, packWord, packWord, ih]
    ring

/-- One bit packed at each place is the number with those bits. -/
theorem packWord_bits {n : Nat} (f : Fin n → Bool) :
    packWord ((List.finRange n).map fun i => (i.val, (f i).toNat)) = Nat.ofBits f := by
  induction n with
  | zero => rfl
  | succ n ih =>
    have htail := packWord_shift ((List.finRange n).map fun i => (i.val, (f i.succ).toNat))
    rw [List.map_map, ih fun i => f i.succ] at htail
    rw [List.finRange_succ, List.map_cons, List.map_map, packWord, Nat.ofBits_succ, Nat.add_comm]
    simpa [Function.comp_def] using htail

theorem channelMask_getLsbD (s : State) (p : Channel → Bool) (i : Nat) :
    (channelMask s.channels p).getLsbD i = if h : i < 16 then p (s.channel ⟨i, h⟩) else false := by
  have hmask : channelMask s.channels p = BitVec.ofNat 32 (Nat.ofBits fun ch : ChannelId => p (s.channel ch)) :=
    congrArg (BitVec.ofNat 32) (packWord_bits _)
  rw [hmask, BitVec.getLsbD_ofNat, Nat.testBit_ofBits]
  by_cases h : i < 16
  · simp [h, show i < 32 by omega]
  · simp [h]

/-! ### The selectors -/

/-- Past the listed selectors only the two channel ranges are defined. -/
theorem selectorOf_of_ge {sel : Nat} (h : 0x1A ≤ sel) :
    selectorOf sel =
      ((channelSel 0x40 sel).map fun ch => .chip (.image ch)).or
        ((channelSel 0x50 sel).map fun ch => .chip (.channel ch)) := by
  fun_cases selectorOf sel with
  | case20 | case21 => simp [*]
  | _ => omega

theorem selectorOf_image (ch : ChannelId) : selectorOf (0x40 + ch.val) = some (.chip (.image ch)) := by
  rw [selectorOf_of_ge (by omega), channelSel, dif_pos (by omega)]
  simp

theorem selectorOf_channel (ch : ChannelId) : selectorOf (0x50 + ch.val) = some (.chip (.channel ch)) := by
  rw [selectorOf_of_ge (by omega), channelSel, dif_neg (by omega), channelSel, dif_pos (by omega)]
  simp

theorem selectorOf_undefined {sel : Nat} (h : 0x09 ≤ sel ∧ sel ≤ 0x0F ∨ 0x1A ≤ sel ∧ sel ≤ 0x3F ∨ 0x60 ≤ sel) :
    selectorOf sel = none := by
  obtain ⟨hlow, hhigh⟩ | hrest := h
  · interval_cases sel <;> rfl
  · rw [selectorOf_of_ge (by omega), channelSel, dif_neg (by omega), channelSel, dif_neg (by omega)]
    rfl

/-! ### What RDSTAT answers -/

theorem exec_rdstat_of_chip (s : State) {sel : Nat} {v : Value} (c : ChipSel) (h : selectorOf sel = some (.chip c))
    (hv : s.chipWord c = v) : exec (.rdstat 0 sel) s = .next (s.respond 0 v) := by
  simp only [exec, execRdstat, h, hv]
  rfl

theorem exec_rdstat_of_mask (s : State) {sel : Nat} (c : ChipSel) (p : Channel → Bool)
    (h : selectorOf sel = some (.chip c)) (hv : s.chipWord c = channelMask s.channels p) :
    ∃ v : Value, exec (.rdstat 0 sel) s = .next (s.respond 0 v) ∧
      ∀ i, v.getLsbD i = if h : i < 16 then p (s.channel ⟨i, h⟩) else false :=
  ⟨_, exec_rdstat_of_chip s c h hv, channelMask_getLsbD s p⟩

theorem exec_rdstat_of_numbered {s : State} {n sel : Nat} {u : UnitId} {v : Value} (hu : u.val = n)
    (hn : n < s.cfg.units.toNat) (x : UnitSel) (h : selectorOf sel = some (.unit x)) (hv : (s.unit u).word x = v) :
    exec (.rdstat n sel) s = .next (s.respond 0 v) := by
  rw [exec_rdstat_of_unit s n h, withUnit_of_lt hu hn, hv]
  rfl

theorem exec_rdstat_of_undefined {s : State} (hlock : s.busLock ≠ .port) (n : Nat) {sel : Nat}
    (h : selectorOf sel = none) : exec (.rdstat n sel) s = .next (s.respond 7 0) := by
  simp only [exec, execRdstat, h, raise_of_lock_elsewhere hlock]
  rfl

/-- Settles O58: each selector of the map names its word, each packed word is its fields side by side, and every other
selector is in neither the list nor a channel range. -/
theorem rdstatSelectorMap : Obligations.RdstatSelectorMap := by
  refine ⟨fun s => ⟨?driver, ?freq, ?owned, ?disabled, ?timeLow, ?timeHigh, ?numUnits, ?timerHz, ?hostOwned,
      fun ch => ⟨?image, ?channel⟩⟩, ?unit, fun s n sel hlock hsel => ?undefined⟩
  case driver => exact exec_rdstat_of_chip s .driver rfl (driverStatus_eq ..)
  case freq => exact exec_rdstat_of_chip s .freq rfl (packValue_low rfl _)
  case owned => exact exec_rdstat_of_mask s .owned (fun c => decide (c.owner ≠ .free)) rfl rfl
  case disabled => exact exec_rdstat_of_mask s .disabled Channel.disabled rfl rfl
  case timeLow => exact exec_rdstat_of_chip s .timeLow rfl (ofNat_toNat_low _)
  case timeHigh => exact exec_rdstat_of_chip s .timeHigh rfl (ofNat_toNat_high _)
  case numUnits => exact exec_rdstat_of_chip s .numUnits rfl (packValue_single _)
  case timerHz => exact exec_rdstat_of_chip s .timerHz rfl rfl
  case hostOwned => exact exec_rdstat_of_mask s .hostOwned (fun c => decide (c.owner = .host)) rfl rfl
  case image => exact exec_rdstat_of_chip s (.image ch) (selectorOf_image ch) rfl
  case channel => exact exec_rdstat_of_chip s (.channel ch) (selectorOf_channel ch) (channelStatus_eq _)
  case undefined => exact exec_rdstat_of_undefined hlock n (selectorOf_undefined hsel)
  case unit =>
    rintro s n u x hu hn rfl
    refine ⟨?status, ?index, ?tps, ?remaining, ?pf, ?lastA, ?lastB, ?binding, ?deadlineLow, ?deadlineHigh⟩
    case status => exact exec_rdstat_of_numbered hu hn .status rfl (unitStatus_eq _)
    case index => exact exec_rdstat_of_numbered hu hn .index rfl (packValue_low rfl _)
    case tps => exact exec_rdstat_of_numbered hu hn .tps rfl rfl
    case remaining => exact exec_rdstat_of_numbered hu hn .remaining rfl rfl
    case pf => exact exec_rdstat_of_numbered hu hn .pf rfl (packValue_low rfl _)
    case lastA => exact exec_rdstat_of_numbered hu hn .lastA rfl (lastStatus_eq _)
    case lastB => exact exec_rdstat_of_numbered hu hn .lastB rfl (lastStatus_eq _)
    case binding => exact exec_rdstat_of_numbered hu hn .binding rfl (bindingStatus_eq _)
    case deadlineLow => exact exec_rdstat_of_numbered hu hn .deadlineLow rfl (ofNat_toNat_low _)
    case deadlineHigh => exact exec_rdstat_of_numbered hu hn .deadlineHigh rfl (ofNat_toNat_high _)

end Sys2Proof.StatusWords
end

section
/-! PROOF of the register values at reset (spec 70, R155 and R157): the two register banks are filled with one value,
so an accessor of either reads that value whatever its index. -/

namespace Sys2Proof.ResetValues

open Machine

theorem resetWith_channel (c : Config) (ch : ChannelId) : (State.resetWith c).channel ch = Channel.reset := by
  simp only [State.channel, State.resetWith, Vector.getElem_replicate]

theorem resetWith_unit (c : Config) (u : UnitId) : (State.resetWith c).unit u = UnitState.reset := by
  simp only [State.unit, State.resetWith, Vector.getElem_replicate]

theorem resetWith_expander_read (c : Config) (a : Nat) : (State.resetWith c).expander.read a = none := rfl

/-- Settles O13: the banks and the expander by the lemmas above, the single registers by the definition of the reset
state. -/
theorem resetState : Obligations.ResetState := by
  refine ⟨⟨Config.standard, rfl⟩, fun c => ⟨rfl, rfl, rfl, rfl, rfl, rfl, rfl, rfl, ?expander, ?channels, ?units⟩⟩
  case expander => exact resetWith_expander_read c
  case channels => exact resetWith_channel c
  case units => exact resetWith_unit c

end Sys2Proof.ResetValues
end

section
/-! Command words and commands (R77 to R80): the encoder and the decoder undo each other, and the opcode map says which
words are commands. An encoding carries its opcode and 0 in every reserved bit (Laws), so only its operand fields are
left to read back; and the fields of a decoded word, with its reserved ranges 0, are all of the word. -/

namespace Sys2Proof.CommandWords

open Machine FixedBits

/-! ### Decoding an encoding -/

theorem opcodeOf_code (o : Opcode) : opcodeOf o.code = some o := by cases o <;> rfl

theorem decode_of_fields {w : Word} {o : Opcode} (hop : bitField w 7 0 = o.code)
    (hres : reservedClear o.format w = true) : decode w = .ok (o.operands w) := by
  rw [decode, hop, opcodeOf_code]
  exact if_pos hres

theorem encodedForm (i : Instr) : Laws.EncodedForm.Statement i := by
  cases i with
  | init => exact Laws.EncodedForm.init _
  | setfreq => exact Laws.EncodedForm.setfreq _
  | acq => exact Laws.EncodedForm.acq _
  | rel => exact Laws.EncodedForm.rel _
  | setduty => exact Laws.EncodedForm.setduty _ _ _
  | disable => exact Laws.EncodedForm.disable _
  | enable => exact Laws.EncodedForm.enable _
  | cfgmotor => exact Laws.EncodedForm.cfgmotor _ _ _ _
  | selstyle => exact Laws.EncodedForm.selstyle _ _ _
  | nextstep => exact Laws.EncodedForm.nextstep _ _
  | setpf => exact Laws.EncodedForm.setpf _ _
  | dispose => exact Laws.EncodedForm.dispose _
  | setspeed => exact Laws.EncodedForm.setspeed _ _
  | stepfor => exact Laws.EncodedForm.stepfor _ _ _ _
  | cancel => exact Laws.EncodedForm.cancel _
  | stop => exact Laws.EncodedForm.stop _
  | setpolicy => exact Laws.EncodedForm.setpolicy _ _
  | rdstat => exact Laws.EncodedForm.rdstat _ _

theorem style_ofCode_code (y : Style) : Style.ofCode y.code = y := by cases y <;> rfl

theorem dir_ofCode_code (d : Dir) : Dir.ofCode d.code = d := by cases d <;> rfl

theorem toNat_beq_one (b : Bool) : (b.toNat == 1) = b := by cases b <;> rfl

theorem opcode_code_lt (o : Opcode) : o.code < 256 := by cases o <;> decide

/-- Every operand of a well-formed command stays inside 64 bits (R77). -/
theorem code_add_operandBits_lt {i : Instr} (h : i.WellFormed) : i.opcode.code + i.operandBits < 2 ^ 64 := by
  have hop := opcode_code_lt i.opcode
  cases i with
  | setduty ch frac inv =>
    have := Laws.bool_toNat_lt inv; simp only [Instr.operandBits, Instr.WellFormed] at *; omega
  | selstyle unit sty nms =>
    have := Laws.style_code_lt sty; simp only [Instr.operandBits, Instr.WellFormed] at *; omega
  | nextstep unit dir =>
    have := Laws.dir_code_lt dir; simp only [Instr.operandBits, Instr.WellFormed] at *; omega
  | stepfor unit dir cont count =>
    have := Laws.dir_code_lt dir; have := Laws.bool_toNat_lt cont
    simp only [Instr.operandBits, Instr.WellFormed] at *; omega
  | setpolicy unit e =>
    have := Laws.bool_toNat_lt e; simp only [Instr.operandBits, Instr.WellFormed] at *; omega
  | _ => simp only [Instr.operandBits, Instr.WellFormed] at *; omega

theorem bitField_encode {i : Instr} (h : i.WellFormed) (hi lo : Nat) :
    bitField (encode i) hi lo = (i.opcode.code + i.operandBits) / 2 ^ lo % 2 ^ (hi + 1 - lo) :=
  Laws.bitField_ofNat _ hi lo (code_add_operandBits_lt h)

/-- The fields of a well-formed command's word are its operands (R77, R78). -/
theorem operands_encode {i : Instr} (h : i.WellFormed) : i.opcode.operands (encode i) = i := by
  have field := bitField_encode h
  cases i with
  | init addr7 =>
    simp only [Instr.opcode, Opcode.operands, field, Instr.operandBits, Opcode.code, Instr.WellFormed] at *
    congr 1; omega
  | setfreq hz =>
    simp only [Instr.opcode, Opcode.operands, field, Instr.operandBits, Opcode.code, Instr.WellFormed] at *
    congr 1; omega
  | acq ch | rel ch | disable ch | enable ch =>
    have hch := ch.isLt
    simp only [Instr.opcode, Opcode.operands, channelField, field, Instr.operandBits, Opcode.code] at *
    congr 1; ext; simp only; omega
  | setduty ch frac inv =>
    have hch := ch.isLt
    have hinv := Laws.bool_toNat_lt inv
    have hbit : bitField (encode (.setduty ch frac inv)) 16 16 = inv.toNat := by
      simp only [Instr.opcode, field, Instr.operandBits, Opcode.code, Instr.WellFormed] at *; omega
    simp only [Instr.opcode, Opcode.operands, channelField, bitFlag, hbit, toNat_beq_one, field, Instr.operandBits,
      Opcode.code, Instr.WellFormed] at *
    congr 1
    · ext; simp only; omega
    · omega
  | cfgmotor unit pa pb spr =>
    simp only [Instr.opcode, Opcode.operands, unitField, field, Instr.operandBits, Opcode.code, Instr.WellFormed] at *
    congr 1 <;> omega
  | selstyle unit sty nms =>
    have hsty := Laws.style_code_lt sty
    have hcode : bitField (encode (.selstyle unit sty nms)) 17 16 = sty.code := by
      simp only [Instr.opcode, field, Instr.operandBits, Opcode.code, Instr.WellFormed] at *; omega
    simp only [Instr.opcode, Opcode.operands, unitField, hcode, style_ofCode_code, field, Instr.operandBits,
      Opcode.code, Instr.WellFormed] at *
    congr 1 <;> omega
  | nextstep unit dir =>
    have hdir := Laws.dir_code_lt dir
    have hcode : bitField (encode (.nextstep unit dir)) 16 16 = dir.code := by
      simp only [Instr.opcode, field, Instr.operandBits, Opcode.code, Instr.WellFormed] at *; omega
    simp only [Instr.opcode, Opcode.operands, unitField, hcode, dir_ofCode_code, field, Instr.operandBits,
      Opcode.code, Instr.WellFormed] at *
    congr 1; omega
  | setpf unit pf =>
    simp only [Instr.opcode, Opcode.operands, unitField, field, Instr.operandBits, Opcode.code, Instr.WellFormed] at *
    congr 1 <;> omega
  | dispose unit | cancel unit | stop unit =>
    simp only [Instr.opcode, Opcode.operands, unitField, field, Instr.operandBits, Opcode.code, Instr.WellFormed] at *
    congr 1; omega
  | setspeed unit rpm =>
    simp only [Instr.opcode, Opcode.operands, unitField, field, Instr.operandBits, Opcode.code, Instr.WellFormed] at *
    congr 1 <;> omega
  | stepfor unit dir cont count =>
    have hdir := Laws.dir_code_lt dir
    have hcont := Laws.bool_toNat_lt cont
    have hcode : bitField (encode (.stepfor unit dir cont count)) 16 16 = dir.code := by
      simp only [Instr.opcode, field, Instr.operandBits, Opcode.code, Instr.WellFormed] at *; omega
    have hbit : bitField (encode (.stepfor unit dir cont count)) 17 17 = cont.toNat := by
      simp only [Instr.opcode, field, Instr.operandBits, Opcode.code, Instr.WellFormed] at *; omega
    simp only [Instr.opcode, Opcode.operands, unitField, bitFlag, hcode, hbit, dir_ofCode_code, toNat_beq_one, field,
      Instr.operandBits, Opcode.code, Instr.WellFormed] at *
    congr 1 <;> omega
  | setpolicy unit e =>
    have he := Laws.bool_toNat_lt e
    have hbit : bitField (encode (.setpolicy unit e)) 16 16 = e.toNat := by
      simp only [Instr.opcode, field, Instr.operandBits, Opcode.code, Instr.WellFormed] at *; omega
    simp only [Instr.opcode, Opcode.operands, unitField, bitFlag, hbit, toNat_beq_one, field, Instr.operandBits,
      Opcode.code, Instr.WellFormed] at *
    congr 1; omega
  | rdstat unit sel =>
    simp only [Instr.opcode, Opcode.operands, unitField, field, Instr.operandBits, Opcode.code, Instr.WellFormed] at *
    congr 1 <;> omega

/-- Settles O1: the encoding's opcode and reserved bits pass the decoder's checks, and its fields are the operands. -/
theorem decodeOfEncodeIsTheCommand : Obligations.DecodeOfEncodeIsTheCommand := by
  intro i h
  obtain ⟨hop, hres⟩ := encodedForm i h
  rw [decode_of_fields hop hres, operands_encode h]

/-! ### Encoding what was decoded -/

/-- What decodes has an opcode of the map, 0 in its reserved bits, and that opcode's operands (R80). -/
theorem decode_eq_ok_iff {w : Word} {i : Instr} :
    decode w = .ok i ↔ ∃ o : Opcode, bitField w 7 0 = o.code ∧ reservedClear o.format w = true ∧ i = o.operands w := by
  constructor
  · intro h
    obtain ⟨o, hop, hres⟩ := fields_of_decode h
    rw [decode_of_fields hop hres] at h
    injection h with h
    exact ⟨o, hop, hres, h.symm⟩
  · rintro ⟨o, hop, hres, rfl⟩
    exact decode_of_fields hop hres

theorem style_code_ofCode {n : Nat} (h : n < 4) : (Style.ofCode n).code = n := by interval_cases n <;> rfl

theorem dir_code_ofCode {n : Nat} (h : n < 2) : (Dir.ofCode n).code = n := by interval_cases n <;> rfl

theorem toNat_beq_one_of_lt {n : Nat} (h : n < 2) : (n == 1).toNat = n := by interval_cases n <;> rfl

theorem operands_wellFormed (o : Opcode) (w : Word) : (o.operands w).WellFormed := by
  cases o <;> simp only [Opcode.operands, Instr.WellFormed, unitField, bitField] <;> omega

/-- The opcode, the operand fields and the reserved ranges of a word, these 0, add up to the word (R77). -/
theorem code_add_operandBits_operands {o : Opcode} {w : Word} (hop : bitField w 7 0 = o.code)
    (hres : reservedClear o.format w = true) :
    (o.operands w).opcode.code + (o.operands w).operandBits = w.toNat := by
  have hlt := w.isLt
  have hsty : (Style.ofCode (bitField w 17 16)).code = bitField w 17 16 :=
    style_code_ofCode (Nat.mod_lt _ (by decide))
  have hdir : (Dir.ofCode (bitField w 16 16)).code = bitField w 16 16 := dir_code_ofCode (Nat.mod_lt _ (by decide))
  have hbit (k : Nat) : (bitFlag w k).toNat = bitField w k k := by
    refine toNat_beq_one_of_lt (lt_of_lt_of_eq (Nat.mod_lt _ (Nat.two_pow_pos _)) ?_)
    rw [Nat.add_sub_cancel_left, pow_one]
  cases o <;>
    simp only [Opcode.operands, Instr.opcode, Instr.operandBits, Opcode.format, reservedClear, Format.reserved,
      List.all_cons, List.all_nil, Bool.and_true, Bool.and_eq_true, beq_iff_eq, hsty, hdir, hbit, channelField,
      unitField, bitField, Opcode.code] at * <;>
    omega

/-- Settles O2: the decoder reads every bit of a word, either as a field of the command or as a 0 that it requires. -/
theorem encodeOfDecodeIsTheWord : Obligations.EncodeOfDecodeIsTheWord := by
  intro w i h
  obtain ⟨o, hop, hres, rfl⟩ := decode_eq_ok_iff.1 h
  refine ⟨operands_wellFormed o w, ?_⟩
  rw [encode, code_add_operandBits_operands hop hres, BitVec.ofNat_toNat, BitVec.setWidth_eq]

/-! ### The opcode map -/

theorem commandRows_eq_rowOf : ∀ row ∈ commandRows, ∃ o : Opcode, row = rowOf o := by
  have hrows : commandRows = [Opcode.init, .setfreq, .acq, .rel, .setduty, .disable, .enable, .cfgmotor, .selstyle,
    .nextstep, .setpf, .dispose, .setspeed, .stepfor, .cancel, .stop, .setpolicy, .rdstat].map rowOf := by decide
  intro row hrow
  rw [hrows] at hrow
  obtain ⟨o, -, ho⟩ := List.mem_map.1 hrow
  exact ⟨o, ho.symm⟩

/-- A field reads only the bits of its own mask. -/
theorem bitField_and_fieldMask (w : Word) (hi lo : Nat) : bitField (w &&& fieldMask hi lo) hi lo = bitField w hi lo := by
  refine Nat.eq_of_testBit_eq fun i => ?_
  rw [testBit_bitField, testBit_bitField, BitVec.getLsbD_and, getLsbD_fieldMask]
  by_cases hi' : i < hi + 1 - lo
  · by_cases h64 : i + lo < 64
    · simp [hi', h64]
    · simp [hi', h64, BitVec.getLsbD_of_ge w _ (Nat.le_of_not_lt h64)]
  · simp [hi']

/-- A field inside a masked comparison is the same field of the value compared with. -/
theorem bitField_of_row {w : Word} {row : Word × Word} (h : w &&& row.2 = row.1) {hi lo : Nat}
    (hin : row.2 &&& fieldMask hi lo = fieldMask hi lo) : bitField w hi lo = bitField row.1 hi lo := by
  rw [← bitField_and_fieldMask w, ← bitField_and_fieldMask row.1, ← h, BitVec.and_assoc, hin]

/-- A row compares the opcode and every reserved range of its command's format with the OPC value and 0. -/
theorem rowOf_fields (o : Opcode) :
    (rowOf o).2 &&& fieldMask 7 0 = fieldMask 7 0 ∧ bitField (rowOf o).1 7 0 = o.code ∧
    ∀ r ∈ o.format.reserved,
      (rowOf o).2 &&& fieldMask r.1 r.2 = fieldMask r.1 r.2 ∧ bitField (rowOf o).1 r.1 r.2 = 0 := by
  cases o <;> decide

theorem decode_of_row {w : Word} {row : Word × Word} (hmem : row ∈ commandRows) (h : w &&& row.2 = row.1) :
    ∃ i, decode w = .ok i := by
  obtain ⟨o, rfl⟩ := commandRows_eq_rowOf row hmem
  obtain ⟨hopMask, hopCode, hreserved⟩ := rowOf_fields o
  refine ⟨o.operands w, decode_of_fields ((bitField_of_row h hopMask).trans hopCode) (List.all_eq_true.2 fun r hr => ?_)⟩
  obtain ⟨hmask, hzero⟩ := hreserved r hr
  exact beq_iff_eq.2 ((bitField_of_row h hmask).trans hzero)

/-- Settles O3: a row's masked comparison reads the opcode and the reserved ranges, and nothing else of the word. -/
theorem decodeAcceptsExactlyTheOpcodeMap : Obligations.DecodeAcceptsExactlyTheOpcodeMap :=
  fun _ => ⟨fun ⟨_, h⟩ => row_of_decode h, fun ⟨_, hmem, h⟩ => decode_of_row hmem h⟩

/-- Settles O7, by evaluating the decoder on the six words. -/
theorem sampleWordsDecode : Obligations.SampleWordsDecode := by
  refine ⟨?_, ?_, ?_, ?_, ?_, ?_⟩ <;> rfl

/-! ### Taking a word -/

theorem acceptStep_of_decode_ok {s : State} {w : Word} {ws : List Word} {i : Instr} (hcmd : s.commands = w :: ws)
    (hdec : decode w = .ok i) : s.acceptStep = exec i { s with commands := ws } := by
  simp [State.acceptStep, State.takeWord, hcmd, hdec]

theorem step_of_decode_ok {s : State} {w : Word} {ws : List Word} {i : Instr} (hturn : s.nextChoice.1 = .port)
    (hidle : s.port = .idle) (hcmd : s.commands = w :: ws) (hdec : decode w = .ok i) :
    step s = exec i { s.nextChoice.2 with commands := ws } := by
  rw [step_of_port_idle s hturn hidle]
  exact acceptStep_of_decode_ok ((State.nextChoice_commands s).trans hcmd) hdec

/-- A placed word is next: the port is Idle, its turn comes first and the word is the first one waiting. -/
theorem step_givenWord {s : State} {w : Word} {i : Instr} (hdec : decode w = .ok i) :
    step (s.givenWord w) = exec i { s.releasePort with port := .idle } := by
  have hturn : (s.givenWord w).nextChoice = (.port, { s.givenWord w with sched := s.sched }) :=
    State.nextChoice_of_sched _ _ _ rfl
  rw [step_of_decode_ok (by rw [hturn]) rfl rfl hdec, hturn]
  congr 1
  simp [State.givenWord]

/-- Settles O5: the Idle port at its turn takes the first word waiting. -/
theorem stepRunsTheDecodedCommand : Obligations.StepRunsTheDecodedCommand :=
  ⟨fun _ _ _ _ hturn hidle hcmd hdec => step_of_decode_ok hturn hidle hcmd hdec,
    fun _ _ _ _ hdec => step_givenWord hdec⟩

end Sys2Proof.CommandWords
end

section
/-! Commands that answer at once (R118 to R122, R133, R136, R137): each is its checks in order and then one update of the
unit it names, so its outcome is read off by which check fails first. -/

namespace Sys2Proof.ImmediateCommands

open Machine HostChannel UnitChecks StepInterval StatusWords

/-! ### Checks in order (R143) -/

theorem checked_nil (s k : State) : s.checked [] k = k := rfl

/-- A checked command whose first failing check is the first of these, when the port does not hold the lock. -/
theorem checked_refused {s k : State} {c : Option Err} {cs : List (Option Err)} {e : Err} (hlock : s.busLock ≠ .port)
    (h : c = some e) : s.checked (c :: cs) k = s.respond e.code 0 := by
  rw [checked_of_head_some h, raise_of_lock_elsewhere hlock]

/-- Past the unit number and the binding of a bound unit, a unit command goes on to its own checks (R118). -/
theorem withUnit_of_bound {s : State} {n : Nat} {u : UnitId} (hu : u.val = n) (hlt : n < s.cfg.units.toNat)
    (hbound : (s.unit u).bound = true) (cs : UnitId → List (Option Err)) (k : UnitId → State) :
    (s.withUnit n fun u => s.checked (s.needBound u :: cs u) (k u)) = s.checked (cs u) (k u) := by
  rw [withUnit_of_lt hu hlt, checked_of_head_none ((s.needBound_eq_none u).2 hbound)]

theorem needIdle_of_running {s : State} {u : UnitId} (h : (s.unit u).run = .running) :
    s.needIdle u = some .alreadyRunning := by
  simp [State.needIdle, require, h]

theorem needReady_of_not_ready {s : State} {u : UnitId} (h : (s.unit u).ready = false) :
    s.needReady u = some .configuration := by
  rw [State.needReady, h]; rfl

theorem needNoBusErr_of_busErr {s : State} {u : UnitId} (h : (s.unit u).busErr = true) :
    s.needNoBusErr u = some .busIO := by
  rw [State.needNoBusErr, h]; rfl

theorem fractionOk_of_gt {frac : Nat} (h : 65536 < frac) : fractionOk frac = some .configuration :=
  require_of_not (Nat.not_le.2 h) _

theorem require_false {p : Bool} (h : p = false) (e : Err) : require p e = some e := by rw [h]; rfl

/-! ### Driver commands before INIT (R94) -/

theorem exec_of_hostChannel_checks (s : State) {i : Instr} {ch : ChannelId} (h : i.hostChannel = some ch) :
    ∃ cs k, exec i s = .next (s.checked (s.needInit :: cs) k) := by
  cases i with
  | rel | setduty | disable | enable => exact ⟨_, _, rfl⟩
  | _ => cases h

/-- Settles O34: each of these commands checks INITIALIZED first, CFGMOTOR right after the unit number. -/
theorem driverCommandsNeedInit : Obligations.DriverCommandsNeedInit := by
  intro s i hinit hlock hi
  have refused (cs k) : s.checked (s.needInit :: cs) k = s.respond 1 0 :=
    checked_refused (e := .configuration) hlock (needInit_of_not_initialized hinit)
  obtain ⟨hz, rfl⟩ | ⟨ch, rfl⟩ | hhost | ⟨n, pa, pb, spr, rfl, hlt⟩ := hi
  · exact congrArg Host.Outcome.next (refused [] _)
  · exact congrArg Host.Outcome.next (refused [s.needFree ch] _)
  · obtain ⟨ch, hch⟩ := Option.ne_none_iff_exists'.1 hhost
    obtain ⟨cs, k, hexec⟩ := exec_of_hostChannel_checks s hch
    rw [hexec, refused]
  · have hunits : s.cfg.units.toNat ≤ 2 := by cases s.cfg.units <;> decide
    have hexec : exec (.cfgmotor n pa pb spr) s = .next (s.withUnit n _) := rfl
    rw [hexec, withUnit_of_lt (u := ⟨n, by omega⟩) rfl hlt, refused]

/-! ### CFGMOTOR (R119) -/

theorem setOwners_frame (s : State) (chs : List ChannelId) (o : Owner) :
    s.setOwners chs o = { s with channels := (s.setOwners chs o).channels } := by
  induction chs generalizing s with
  | nil => rfl
  | cons ch chs ih => exact ih (s.setOwner ch o)

/-- CFGMOTOR's checks past the unit number. -/
def cfgmotorChecks (s : State) (u : UnitId) (pa pb spr : Nat) : List (Option Err) :=
  [require (!(s.unit u).bound) .configuration, require (portsOk pa pb) .configuration,
    require (decide (spr ≠ 0)) .configuration,
    require (s.allFree (bindingChannels s.cfg.portMap pa pb)) .channelBusy]

theorem exec_cfgmotor {s : State} {n : Nat} {u : UnitId} (hu : u.val = n) (hlt : n < s.cfg.units.toNat)
    (pa pb spr : Nat) :
    exec (.cfgmotor n pa pb spr) s = .next (s.checked (s.needInit :: cfgmotorChecks s u pa pb spr)
      (((s.setOwners (bindingChannels s.cfg.portMap pa pb) (.unit u)).setUnit u
        ((s.unit u).bind pa pb spr)).respondOk 0)) := by
  rw [exec, execCfgmotor, withUnit_of_lt hu hlt]
  rfl

theorem portsOk_iff (pa pb : Nat) : portsOk pa pb = true ↔ 1 ≤ pa ∧ pa ≤ 4 ∧ 1 ≤ pb ∧ pb ≤ 4 ∧ pa ≠ pb := decide_eq_true_iff

theorem allFree_iff (s : State) (chs : List ChannelId) :
    s.allFree chs = true ↔ ∀ ch ∈ chs, (s.channel ch).owner = .free := by
  simp [State.allFree]

/-- Settles O36, by which of CFGMOTOR's checks fails first, if any. -/
theorem cfgmotorBindsSixFreeChannels : Obligations.CfgmotorBindsSixFreeChannels := by
  intro s n pa pb spr
  refine ⟨fun hlock hbad => ?refused, fun u hu hlt hinit => ?known⟩
  case refused =>
    by_cases hlt : n < s.cfg.units.toNat
    · have hinit := hbad.resolve_left (Nat.not_le.2 hlt)
      exact driverCommandsNeedInit s _ hinit hlock (.inr (.inr (.inr ⟨n, pa, pb, spr, rfl, hlt⟩)))
    · exact (unitNumberAndBoundAreCheckedFirst s (.cfgmotor n pa pb spr) n hlock).1 rfl (Nat.le_of_not_lt hlt)
  case known =>
    have initOk := s.needInit_eq_none.2 hinit
    rw [exec_cfgmotor hu hlt, checked_of_head_none initOk, cfgmotorChecks]
    refine ⟨fun hlock hbad => ?operands, fun hbound ha1 ha4 hb1 hb4 hne hspr => ?channels⟩
    case operands =>
      cases hbound : (s.unit u).bound with
      | true => rw [checked_refused hlock (c := require (!true) .configuration) rfl]; rfl
      | false =>
        rw [checked_of_head_none (c := require (!false) .configuration) rfl]
        by_cases hports : portsOk pa pb = true
        · have hspr : spr = 0 := by
            rw [portsOk_iff] at hports
            rcases hbad with h | h | h | h | h
            · exact absurd h (by simp [hbound])
            · omega
            · omega
            · omega
            · exact h
          rw [checked_of_head_none ((require_eq_none _ _).2 hports),
            checked_refused hlock (require_of_not (not_not.2 hspr) _)]
          rfl
        · rw [checked_refused hlock (require_false (Bool.eq_false_iff.2 hports) _)]
          rfl
    case channels =>
      have hports : portsOk pa pb = true := (portsOk_iff pa pb).2 ⟨ha1, ha4, hb1, hb4, hne⟩
      rw [checked_of_head_none ((require_eq_none _ _).2 (by rw [hbound]; rfl)),
        checked_of_head_none ((require_eq_none _ _).2 hports), checked_of_head_none (require_of_true hspr _)]
      refine ⟨fun hlock hbusy => ?busy, fun hfree => ?bound⟩
      case busy =>
        obtain ⟨ch, hch, hne⟩ := hbusy
        have hall : s.allFree (bindingChannels s.cfg.portMap pa pb) = false :=
          Bool.eq_false_iff.2 fun h => hne ((allFree_iff s _).1 h ch hch)
        rw [checked_refused hlock (require_false hall _)]
        rfl
      case bound =>
        rw [checked_of_head_none ((require_eq_none _ _).2 ((allFree_iff s _).2 hfree)), checked_nil]
        refine ⟨_, rfl, ?frame, ?unit, fun v hv => ?others, fun ch => ?channel⟩
        case frame =>
          conv_lhs => rw [setOwners_frame]
          rfl
        case unit => simp [UnitState.bind, UnitState.invalidateLast]
        case others => simp [State.setUnit_unit_ne _ _ _ _ hv.symm]
        case channel => simp [State.setOwners_channel]

/-! ### SELSTYLE (R120) -/

theorem nmsLegal_iff (sty : Style) (nms : Nat) :
    nmsLegal sty nms = true ↔
      (sty = .micro ∧ (nms = 4 ∨ nms = 8 ∨ nms = 16 ∨ nms = 32)) ∨ (sty ≠ .micro ∧ nms = 0) := by
  cases sty <;> simp [nmsLegal, microstepSet]

/-- Settles O37, by which of SELSTYLE's two checks fails first, if any. -/
theorem selstyleSelectsTheTable : Obligations.SelstyleSelectsTheTable := by
  intro s n u sty nms hu hlt hbound
  rw [exec, execSelstyle, withUnit_of_bound hu hlt hbound]
  refine ⟨fun hlock hrun => ?running, fun hrun => ?idle⟩
  case running => rw [checked_refused hlock (needIdle_of_running hrun)]; rfl
  case idle =>
    rw [checked_of_head_none ((s.needIdle_eq_none u).2 hrun)]
    refine ⟨fun hlock hbad => ?refused, fun hok => ?selected⟩
    case refused =>
      have hnms : nmsLegal sty nms = false := by
        rw [Bool.eq_false_iff, ne_eq, nmsLegal_iff]
        tauto
      rw [checked_refused hlock (require_false hnms _)]
      rfl
    case selected =>
      rw [checked_of_head_none ((require_eq_none _ _).2 ((nmsLegal_iff sty nms).2 hok)), checked_nil]
      cases sty <;> rw [packValue_single] <;> rfl

/-! ### NEXTSTEP's refusals (R121) -/

/-- Settles O40: NEXTSTEP's own three checks, in their order. -/
theorem nextstepRefusals : Obligations.NextstepRefusals := by
  intro s n u dir hu hlt hbound hlock
  rw [exec, execNextstep, withUnit_of_bound hu hlt hbound]
  refine ⟨fun hrun => ?running, fun hrun hready => ?notReady, fun hrun hready hbus => ?busErr⟩
  case running => rw [checked_refused hlock (needIdle_of_running hrun)]; rfl
  case notReady =>
    rw [checked_of_head_none ((s.needIdle_eq_none u).2 hrun), checked_refused hlock (needReady_of_not_ready hready)]
    rfl
  case busErr =>
    rw [checked_of_head_none ((s.needIdle_eq_none u).2 hrun), checked_of_head_none ((s.needReady_eq_none u).2 hready),
      checked_refused hlock (needNoBusErr_of_busErr hbus)]
    rfl

/-! ### SETPF and SETPOLICY (R122, R136) -/

/-- Settles O43: SETPF has one check of its own and SETPOLICY none. -/
theorem setpfAndSetpolicySetTheirRegister : Obligations.SetpfAndSetpolicySetTheirRegister := by
  intro s n u hu hlt hbound
  refine ⟨fun pf hpf => ?setpf, fun pf hpf hlock => ?refused, fun e => ?setpolicy⟩
  case setpf =>
    rw [exec, execSetpf, withUnit_of_bound hu hlt hbound, checked_of_head_none ((fractionOk_eq_none pf).2 hpf)]
    rfl
  case refused =>
    rw [exec, execSetpf, withUnit_of_bound hu hlt hbound, checked_refused hlock (fractionOk_of_gt hpf)]
    rfl
  case setpolicy =>
    rw [exec, execSetpolicy, withUnit_of_bound hu hlt hbound]
    rfl

/-! ### STEPFOR (R133) -/

theorem require_cont_iff (cont : Bool) (count : Nat) (e : Err) :
    require (!cont || decide (count = 0)) e = none ↔ cont = false ∨ count = 0 := by
  rw [require_eq_none]
  cases cont <;> simp

/-- Settles O47, by which of STEPFOR's five checks fails first, if any. -/
theorem stepforStartsARun : Obligations.StepforStartsARun := by
  intro s n u dir cont count hu hlt hbound
  rw [exec, execStepfor, withUnit_of_bound hu hlt hbound]
  refine ⟨fun hlock hrun => ?running, fun hrun => ?idle⟩
  case running => rw [checked_refused hlock (needIdle_of_running hrun)]; rfl
  case idle =>
    rw [checked_of_head_none ((s.needIdle_eq_none u).2 hrun)]
    refine ⟨fun hlock hbad => ?refused, fun hcount hready htps => ?checked⟩
    case refused =>
      by_cases hcount : cont = false ∨ count = 0
      · rw [checked_of_head_none ((require_cont_iff cont count _).2 hcount)]
        cases hready : (s.unit u).ready with
        | false => rw [checked_refused hlock (needReady_of_not_ready hready)]; rfl
        | true =>
          have htps : (s.unit u).tps = 0 := by
            rcases hbad with ⟨hcont, hne⟩ | h | h
            · exact (hcount.elim (by simp [hcont]) hne).elim
            · exact absurd h (by simp [hready])
            · exact h
          rw [checked_of_head_none ((s.needReady_eq_none u).2 hready),
            checked_refused hlock (require_of_not (not_not.2 htps) _)]
          rfl
      · have hcont : (!cont || decide (count = 0)) = false := by
          rw [Bool.eq_false_iff]
          exact fun h => hcount ((require_cont_iff cont count .configuration).1 ((require_eq_none _ _).2 h))
        rw [checked_refused hlock (require_false hcont _)]
        rfl
    case checked =>
      rw [checked_of_head_none ((require_cont_iff cont count _).2 hcount),
        checked_of_head_none ((s.needReady_eq_none u).2 hready), checked_of_head_none (require_of_true htps _)]
      refine ⟨fun hlock hbus => ?busErr, fun hbus => ?started⟩
      case busErr => rw [checked_refused hlock (needNoBusErr_of_busErr hbus)]; rfl
      case started =>
        rw [checked_of_head_none ((s.needNoBusErr_eq_none u).2 hbus)]
        rfl

/-! ### RDSTAT's errors (R137, R138) -/

theorem selectorOf_chip {sel : Nat} (h : sel ≤ 0x08 ∨ 0x40 ≤ sel ∧ sel ≤ 0x5F) :
    ∃ c, selectorOf sel = some (.chip c) := by
  rcases h with h | ⟨hlow, hhigh⟩
  · interval_cases sel <;> exact ⟨_, rfl⟩
  · by_cases hsel : sel < 0x50
    · have himage := selectorOf_image ⟨sel - 0x40, by omega⟩
      rw [Nat.add_sub_cancel' hlow] at himage
      exact ⟨_, himage⟩
    · have hchannel := selectorOf_channel ⟨sel - 0x50, by omega⟩
      rw [Nat.add_sub_cancel' (Nat.le_of_not_lt hsel)] at hchannel
      exact ⟨_, hchannel⟩

/-- Settles O59, by what the selector names. -/
theorem rdstatErrors : Obligations.RdstatErrors := by
  intro s n sel hlock
  refine ⟨fun hsel => ?undefined, fun hsel hn => ?chipUnit, fun hsel hn => ?unitNumber, fun hsel hn => ?chip,
    fun hsel hn => ?unit⟩
  case undefined => exact exec_rdstat_of_undefined hlock n (selectorOf_undefined hsel)
  case chipUnit =>
    obtain ⟨c, hc⟩ := selectorOf_chip hsel
    simp only [exec, execRdstat, hc]
    rw [checked_refused hlock (require_of_not hn _)]
    rfl
  case unitNumber =>
    exact (unitNumberAndBoundAreCheckedFirst s (.rdstat n sel) n hlock).1 (if_pos hsel) hn
  case chip =>
    obtain ⟨c, hc⟩ := selectorOf_chip hsel
    subst hn
    exact ⟨_, exec_rdstat_of_chip s c hc rfl⟩
  case unit =>
    obtain ⟨x, hx⟩ := selectorOf_unit hsel
    have hunits : s.cfg.units.toNat ≤ 2 := by cases s.cfg.units <;> decide
    exact ⟨_, exec_rdstat_of_numbered (u := ⟨n, by omega⟩) rfl hn x hx rfl⟩

/-! ### SETTLE_TICKS (R15) -/

theorem ceilDiv_le_iff {a b n : Nat} (hb : 0 < b) : Machine.ceilDiv a b ≤ n ↔ a ≤ n * b := by
  rw [Machine.ceilDiv, ← Nat.lt_succ_iff, Nat.div_lt_iff_lt_mul hb, Nat.succ_mul]
  omega

/-- Settles O11: the ceiling of the quotient is the least multiple that reaches 500 microseconds. -/
theorem settleWaitIsFiveHundredMicroseconds : Obligations.SettleWaitIsFiveHundredMicroseconds := by
  intro c _
  have hmicro : 0 < 1000000 := by decide
  refine ⟨settleTicks_pos c, (ceilDiv_le_iff hmicro).1 (le_max_right _ _), fun n hn hlasts => ?_⟩
  exact max_le hn ((ceilDiv_le_iff hmicro).2 hlasts)

/-! ### The state after reset (R155) -/

/-- Settles O14: at reset nothing is under way, no unit is bound, no channel is owned and no IMAGE is valid. -/
theorem resetIsSound : Obligations.ResetIsSound := by
  have hunit : ∀ u, State.reset.unit u = UnitState.reset := ResetValues.resetWith_unit _
  have hchannel : ∀ ch, State.reset.channel ch = Channel.reset := ResetValues.resetWith_channel _
  have hport : State.reset.port = .idle := rfl
  have hinit : State.reset.initialized = false := rfl
  have hjob : UnitState.reset.stepJob = none := rfl
  have hlock : State.reset.LockOk := by
    simp [State.LockOk, hunit, hport, PortState.inCritical, UnitState.inCritical, PortState.drives, UnitState.reset,
      show State.reset.busLock = .free from rfl]
  refine ⟨rfl, hlock, ?registers, ?ownership, ?jobs, ?holds, ?images, ?last, ?listed, List.Pairwise.nil,
    fun _ => .inl rfl, nofun, rfl, rfl, fun u => ?stopped⟩
  case registers =>
    simp [State.RegistersLegal, hunit, hchannel, hport, hinit, UnitState.Legal, UnitState.BindingLegal, PortState.Legal,
      PortState.drives, UnitState.reset, Channel.reset, Last.reset]
  case ownership =>
    simp [State.OwnershipOk, State.PortOwns, hunit, hchannel, hport, UnitState.reset, Channel.reset]
  case jobs => simp [State.JobsOwn, State.PortJobOwn, hunit, hport, UnitState.reset]
  case holds => simp [State.HoldsOk, hunit, hport, UnitState.reset]
  case images => exact ⟨by decide, hlock, by simp [hchannel, Channel.reset], by simp [hport]⟩
  case last =>
    have hlast : ∀ c, (UnitState.reset.last c).valid = false := by intro c; cases c <;> rfl
    refine ⟨by simp [hunit, hlast], by simp [hunit, UnitState.reset], by simp [hport], fun u _ => ⟨fun _ c => ?_, ?_⟩,
      by simp [hport], by simp [hport]⟩
    · exact Last.trueOf_of_invalid _ _ _ (by rw [hunit, hlast])
    · simp [hunit, UnitState.reset]
  case listed =>
    simp [State.TraceListed, hunit, hport, PortState.Listed, UnitState.reset, show State.reset.trace = [] from rfl]
  case stopped => simp [hunit, UnitState.reset]

end Sys2Proof.ImmediateCommands
end

section
/-! The step relation (R20). `Moved s c t` lists what a turn of agent c can do to s, and `Begun s i t` how command i begins
in s before its first step point; each case carries what the agent or the command has checked. A property of every step
is then a property of the cases of the two relations. -/

namespace Sys2Proof.StepRelation

open Machine

/-! ### What a turn can do -/

/-- A job of the port once it has passed Lock() (R66). -/
def lockedJob (addr : BitVec 7) : PortJob → PortJob
  | .channelWrite w fin => .channelWrite w.lock fin
  | .generalCall a _ => .generalCall a true
  | .prescaleLock p => .prescale addr p .sleep 0 .setfreq
  | .prescale a p stage wait why => .prescale a p stage wait why
  | .hold u why => .hold u why
  | .step u job => .step u ⟨job.write.lock, job.rest⟩
  | .deEnergize u why w rest first => .deEnergize u why w.lock rest first

/-- A job of the port that is not a hold waits for Lock() until it is in its critical section. -/
def IsHold : PortJob → Prop
  | .hold _ _ => True
  | _ => False

/-- The outcomes of one turn. -/
inductive Moved (s : State) : Choice → State → Prop
  | stays (c : Choice) (hc : c ≠ .tick) : Moved s c s
  | tick : Moved s .tick s.tick
  /-- Accum (R126). -/
  | accum (u : UnitId) (hrun : (s.unit u).run = .running) (hjob : (s.unit u).stepJob = none)
      (hphase : (s.unit u).phase = .accum) : Moved s (.loop u) (s.setUnit u (s.unit u).accum)
  /-- Spin sees a cancellation (R127, R129). -/
  | seen (u : UnitId) (hrun : (s.unit u).run = .running) (hjob : (s.unit u).stepJob = none)
      (hphase : (s.unit u).phase = .spin) (hseen : (s.unit u).cancelSeen = true) :
      Moved s (.loop u)
        (s.setUnit u (if (s.unit u).policyApplies then { s.unit u with cooling := true } else (s.unit u).finish))
  /-- Spin finds the deadline reached (R127, R128). -/
  | due (u : UnitId) (hrun : (s.unit u).run = .running) (hjob : (s.unit u).stepJob = none)
      (hphase : (s.unit u).phase = .spin) (hseen : (s.unit u).cancelSeen = false)
      (hdue : (s.unit u).deadline ≤ s.time) :
      Moved s (.loop u)
        ((s.advanceIndex u (s.unit u).dir).loopStepOps u ((s.advanceIndex u (s.unit u).dir).stepOps u))
  /-- A paced Step takes the lock (R66). -/
  | loopLock (u : UnitId) (job : StepJob) (hrun : (s.unit u).run = .running) (hjob : (s.unit u).stepJob = some job)
      (hfree : s.busLock = .free) :
      Moved s (.loop u)
        (State.setUnit { s with busLock := .loop u } u
          { s.unit u with stepJob := some ⟨{ job.write with locked := true }, job.rest⟩ })
  /-- A paced Step's write is acknowledged (R115, R128). -/
  | loopWritten (u : UnitId) (job : StepJob) (hrun : (s.unit u).run = .running)
      (hjob : (s.unit u).stepJob = some job) (hlocked : job.write.locked = true)
      (hack : (s.writeImage (.loop u) job.write).1 = .ack) :
      Moved s (.loop u) ((s.writeImage (.loop u) job.write).2.loopStepOps u job.rest)
  /-- A paced Step's write fails (R115, R144). -/
  | loopFailed (u : UnitId) (job : StepJob) (hrun : (s.unit u).run = .running)
      (hjob : (s.unit u).stepJob = some job) (hlocked : job.write.locked = true)
      (hfail : (s.writeImage (.loop u) job.write).1 ≠ .ack) :
      Moved s (.loop u)
        (((s.writeImage (.loop u) job.write).2.failStep u).setUnit u
          (((s.writeImage (.loop u) job.write).2.failStep u).unit u).finish)
  /-- The port takes the lock (R66). -/
  | portLock (job : PortJob) (hport : s.port = .busy job) (hout : job.inCritical = false) (hhold : ¬IsHold job)
      (hfree : s.busLock = .free) :
      Moved s .port { s with busLock := .port, port := .busy (lockedJob s.busAddr job) }
  /-- The channel write of a host command is answered (R98 to R101). -/
  | channelWritten (w : PendingWrite) (fin : WriteEnd) (hport : s.port = .busy (.channelWrite w fin))
      (hlocked : w.locked = true) :
      Moved s .port ((s.writeImage .port w).2.finishWrite w.ch fin (s.writeImage .port w).1)
  /-- INIT's general call is acknowledged (R95). -/
  | generalCalled (addr : BitVec 7) (hport : s.port = .busy (.generalCall addr true))
      (hack : (s.transact .port (.generalCall 0x06)).1 = .ack) :
      Moved s .port
        { (s.transact .port (.generalCall 0x06)).2.invalidateImages with
          port := .busy (.prescale addr (BitVec.ofNat 8 defaultPrescale) .sleep (settleTicks s.cfg) .init) }
  /-- INIT's general call fails (R95). -/
  | generalCallFailed (addr : BitVec 7) (e : Err) (info : Value) (hport : s.port = .busy (.generalCall addr true))
      (he : e = .deviceNotFound ∨ e = .busIO) (hfail : (s.transact .port (.generalCall 0x06)).1 ≠ .ack) :
      Moved s .port ((s.transact .port (.generalCall 0x06)).2.invalidateImages.unlock.raise e info)
  /-- The end of INIT or SETFREQ (R95, R96). -/
  | prescaleDone (addr : BitVec 7) (p : Byte) (why : PrescaleFor)
      (hport : s.port = .busy (.prescale addr p .done 0 why)) : Moved s .port (s.finishPrescale addr p why)
  /-- A transaction of ProgramPrescale is acknowledged (R90). -/
  | prescaleWritten (addr : BitVec 7) (p : Byte) (stage : PrescaleStage) (why : PrescaleFor) (t : Answer × State)
      (hport : s.port = .busy (.prescale addr p stage 0 why)) (hstage : stage ≠ .done)
      (ht : t = s.transact .port
        (.write addr (BitVec.ofNat 8 (stageWrite s.cfg p stage).1) [(stageWrite s.cfg p stage).2]))
      (hack : t.1 = .ack) :
      Moved s .port
        { t.2 with port := .busy (.prescale addr p stage.next (if stage.settles then settleTicks s.cfg else 0) why) }
  /-- A transaction of ProgramPrescale fails (R95, R96). -/
  | prescaleFailed (addr : BitVec 7) (p : Byte) (stage : PrescaleStage) (why : PrescaleFor) (t : Answer × State)
      (hport : s.port = .busy (.prescale addr p stage 0 why)) (hstage : stage ≠ .done)
      (ht : t = s.transact .port
        (.write addr (BitVec.ofNat 8 (stageWrite s.cfg p stage).1) [(stageWrite s.cfg p stage).2]))
      (hfail : t.1 ≠ .ack) : Moved s .port (t.2.unlock.failPrescale stage why t.1)
  /-- A hold is over (R123, R134, R135). -/
  | released (u : UnitId) (why : HoldFor) (hport : s.port = .busy (.hold u why)) (hrun : (s.unit u).run ≠ .running) :
      Moved s .port (s.afterHold u why)
  /-- A write of NEXTSTEP is acknowledged (R115, R121). -/
  | stepWritten (u : UnitId) (job : StepJob) (hport : s.port = .busy (.step u job)) (hlocked : job.write.locked = true)
      (hack : (s.writeImage .port job.write).1 = .ack) :
      Moved s .port ((s.writeImage .port job.write).2.portStepOps u job.rest)
  /-- A write of NEXTSTEP fails (R115, R121). -/
  | stepFailed (u : UnitId) (job : StepJob) (hport : s.port = .busy (.step u job)) (hlocked : job.write.locked = true)
      (hfail : (s.writeImage .port job.write).1 ≠ .ack) :
      Moved s .port
        (((s.writeImage .port job.write).2.failStep u).conclude (s.writeImage .port job.write).1 0)
  /-- A write of DeEnergize is answered (R117). -/
  | deEnergizeWritten (u : UnitId) (why : DeEnergizeFor) (w : PendingWrite) (rest : List ChannelId) (first : Answer)
      (hport : s.port = .busy (.deEnergize u why w rest first)) (hlocked : w.locked = true) :
      Moved s .port ((s.writeImage .port w).2.deEnergizeFrom u why rest (firstFailure first (s.writeImage .port w).1))

theorem moved_loopStep (s : State) (u : UnitId) : Moved s (.loop u) (s.loopStep u) := by
  rcases s.loopStep_cases u with ⟨-, he⟩ | ⟨hrun, ⟨job, hjob, he⟩ | ⟨hjob, ⟨hphase, he⟩ | ⟨hphase, he⟩⟩⟩ <;> rw [he]
  · exact .stays _ nofun
  · rcases s.loopWrite_cases u job with ⟨hlocked, h⟩ | ⟨hlocked, hfree, h⟩ | ⟨-, -, h⟩ <;> rw [h]
    · unfold State.loopStepAnswered
      split
      case isTrue hack => exact .loopWritten u job hrun hjob hlocked hack
      case isFalse hfail => exact .loopFailed u job hrun hjob hlocked hfail
    · exact .loopLock u job hrun hjob hfree
    · exact .stays _ nofun
  · exact .accum u hrun hjob hphase
  · rcases s.spin_cases u with ⟨hseen, h⟩ | ⟨hseen, hdue, h⟩ | ⟨-, -, h⟩ <;> rw [h]
    · exact .seen u hrun hjob hphase hseen
    · exact .due u hrun hjob hphase hseen hdue
    · exact .stays _ nofun

/-- A channel write of the port, once its three outcomes are known to be turns. -/
theorem moved_portWrite {s : State} {w : PendingWrite} {stay : PendingWrite → PortJob} {k : Answer → State → State}
    (hport : s.port = .busy (stay w)) (hcritical : (stay w).inCritical = w.locked) (hhold : ¬IsHold (stay w))
    (hlocked : lockedJob s.busAddr (stay w) = stay w.lock)
    (hk : w.locked = true → Moved s .port (k (s.writeImage .port w).1 (s.writeImage .port w).2)) :
    Moved s .port (s.portWrite w stay k) := by
  rcases s.portWrite_cases w stay k with ⟨hl, h⟩ | ⟨hl, hfree, h⟩ | ⟨-, -, h⟩ <;> rw [h]
  · exact hk hl
  · rw [← hlocked]
    exact .portLock (stay w) hport (hcritical.trans hl) hhold hfree
  · exact .stays _ nofun

theorem moved_generalCallStep {s : State} {addr : BitVec 7} (hport : s.port = .busy (.generalCall addr true)) :
    Moved s .port (s.generalCallStep addr) := by
  unfold State.generalCallStep
  simp only
  split
  case h_1 hack => exact .generalCalled addr hport hack
  case h_2 hnack => exact .generalCallFailed addr _ _ hport (.inl rfl) (by rw [hnack]; nofun)
  case h_3 d herr => exact .generalCallFailed addr _ _ hport (.inr rfl) (by rw [herr]; nofun)

theorem moved_portStep {s : State} {job : PortJob} (hport : s.port = .busy job) : Moved s .port (s.portStep job) := by
  cases job with
  | channelWrite w fin =>
    exact moved_portWrite (stay := (.channelWrite · fin)) (k := fun r s => s.finishWrite w.ch fin r) hport rfl id rfl
      fun hl => .channelWritten w fin hport hl
  | generalCall addr locked =>
    cases locked with
    | true => exact moved_generalCallStep hport
    | false =>
      rcases s.lockThen_cases .port fun s => { s with port := .busy (.generalCall addr true) } with ⟨hfree, h⟩ | ⟨-, h⟩ <;>
        simp only [State.portStep, Bool.false_eq_true, if_false, h]
      · exact .portLock _ hport rfl id hfree
      · exact .stays _ nofun
  | prescaleLock p =>
    rcases s.lockThen_cases .port fun s => { s with port := .busy (.prescale s.busAddr p .sleep 0 .setfreq) } with
      ⟨hfree, h⟩ | ⟨-, h⟩ <;> simp only [State.portStep, h]
    · exact .portLock _ hport rfl id hfree
    · exact .stays _ nofun
  | prescale addr p stage wait why =>
    unfold State.portStep
    simp only
    split
    case isFalse => exact .stays _ nofun
    case isTrue hwait =>
      subst hwait
      rcases s.prescaleStep_cases addr p stage why with ⟨hstage, h⟩ | ⟨hstage, t, ht, ⟨hack, h⟩ | ⟨hfail, h⟩⟩ <;> rw [h]
      · subst hstage; exact .prescaleDone addr p why hport
      · exact .prescaleWritten addr p stage why t hport hstage ht hack
      · exact .prescaleFailed addr p stage why t hport hstage ht hfail
  | hold u why =>
    unfold State.portStep
    simp only
    split
    case isTrue => exact .stays _ nofun
    case isFalse hrun => exact .released u why hport hrun
  | step u job =>
    refine moved_portWrite (stay := fun w => .step u ⟨w, job.rest⟩) (k := fun r s => s.portStepAnswered u job.rest r)
      hport rfl id rfl fun hl => ?_
    simp only [State.portStepAnswered]
    split
    case isTrue hack => exact .stepWritten u job hport hl hack
    case isFalse hfail => exact .stepFailed u job hport hl hfail
  | deEnergize u why w rest first =>
    exact moved_portWrite (stay := (.deEnergize u why · rest first))
      (k := fun r s => s.deEnergizeFrom u why rest (firstFailure first r)) hport rfl id rfl
      fun hl => .deEnergizeWritten u why w rest first hport hl

/-- Every turn is one of the cases. -/
theorem moved_move (s : State) (c : Choice) : Moved s c (s.move c) := by
  cases c with
  | tick => exact .tick
  | loop u => exact moved_loopStep s u
  | port =>
    cases hport : s.port with
    | idle => rw [State.move_port_of_idle s hport]; exact .stays _ nofun
    | busy job => rw [State.move_port_of_busy s job hport]; exact moved_portStep hport

/-! ### How a command begins -/

/-- The state in which a command whose checks hold has responded, or stands at its first step point. -/
inductive Begun (s : State) : Instr → State → Prop
  | answered (i : Instr) (v : Value) : Begun s i (s.respondOk v)
  | init (a : Nat) (hinit : s.initialized = false) :
      Begun s (.init a) { s with port := .busy (.generalCall (BitVec.ofNat 7 a) false) }
  | setfreq (hz : Nat) (hinit : s.initialized = true) :
      Begun s (.setfreq hz)
        { s with port := .busy (.prescaleLock (BitVec.ofNat 8 (prescaleOf s.cfg.clockHz hz))) }
  | acq (ch : ChannelId) (hinit : s.initialized = true) (hfree : (s.channel ch).owner = .free) :
      Begun s (.acq ch) ((s.setOwner ch .host).respondOk 0)
  | rel (ch : ChannelId) (hinit : s.initialized = true) (hhost : (s.channel ch).owner = .host) :
      Begun s (.rel ch) { s with port := .busy (.channelWrite ⟨ch, fullOff, false⟩ .release) }
  | setduty (ch : ChannelId) (frac : Nat) (inv : Bool) (hinit : s.initialized = true)
      (hhost : (s.channel ch).owner = .host) (hfrac : frac ≤ 65536) :
      Begun s (.setduty ch frac inv)
        (s.portApply ch (BitVec.ofNat 13 (ratioOf frac)) inv (packValue [(0, ratioOf frac)]))
  | disable (ch : ChannelId) (hinit : s.initialized = true) (hhost : (s.channel ch).owner = .host) :
      Begun s (.disable ch)
        { s.setDisabled ch true with port := .busy (.channelWrite ⟨ch, fullOff, false⟩ (.reply 0)) }
  | enable (ch : ChannelId) (hinit : s.initialized = true) (hhost : (s.channel ch).owner = .host) :
      Begun s (.enable ch)
        ((s.setDisabled ch false).portApply ch (s.channel ch).specRatio (s.channel ch).specInv 0)
  | cfgmotor (n pa pb spr : Nat) (u : UnitId) (hinit : s.initialized = true) (hbound : (s.unit u).bound = false)
      (hports : portsOk pa pb = true) (hspr : spr ≠ 0)
      (hfree : ∀ ch ∈ bindingChannels s.cfg.portMap pa pb, (s.channel ch).owner = .free) :
      Begun s (.cfgmotor n pa pb spr)
        (((s.setOwners (bindingChannels s.cfg.portMap pa pb) (.unit u)).setUnit u
          ((s.unit u).bind pa pb spr)).respondOk 0)
  | selstyle (n : Nat) (sty : Style) (nms : Nat) (u : UnitId) (hbound : (s.unit u).bound = true)
      (hrun : (s.unit u).run ≠ .running) (hnms : nmsLegal sty nms = true) :
      Begun s (.selstyle n sty nms)
        ((s.setUnit u ((s.unit u).withStyle sty nms)).respondOk (packValue [(0, tableLen sty nms)]))
  | nextstep (n : Nat) (dir : Dir) (u : UnitId) (hbound : (s.unit u).bound = true) (hrun : (s.unit u).run ≠ .running)
      (hready : (s.unit u).ready = true) (hbus : (s.unit u).busErr = false) :
      Begun s (.nextstep n dir)
        (((s.setUnit u (s.unit u).handStep).advanceIndex u dir).portStepOps u
          (((s.setUnit u (s.unit u).handStep).advanceIndex u dir).stepOps u))
  | setpf (n pf : Nat) (u : UnitId) (hbound : (s.unit u).bound = true) (hpf : pf ≤ 65536) :
      Begun s (.setpf n pf) ((s.setUnit u { s.unit u with pf := BitVec.ofNat 17 pf }).respondOk 0)
  | asked (i : Instr) (u : UnitId) (why : HoldFor) (hbound : (s.unit u).bound = true)
      (hrun : (s.unit u).run = .running) :
      Begun s i { s.setUnit u { s.unit u with cancelReq := true } with port := .busy (.hold u why) }
  | ended (i : Instr) (u : UnitId) (why : HoldFor) (hbound : (s.unit u).bound = true)
      (hrun : (s.unit u).run ≠ .running) : Begun s i (s.afterHold u why)
  | setspeed (n rpm : Nat) (u : UnitId) (tps : Nat) (hbound : (s.unit u).bound = true) (hpos : 0 < tps)
      (hlt : tps < 2 ^ 32) :
      Begun s (.setspeed n rpm)
        ((s.setUnit u { s.unit u with tps := BitVec.ofNat 32 tps }).respondOk (BitVec.ofNat 32 tps))
  | stepfor (n : Nat) (dir : Dir) (cont : Bool) (count : Nat) (u : UnitId) (hbound : (s.unit u).bound = true)
      (hrun : (s.unit u).run ≠ .running) (hready : (s.unit u).ready = true) (htps : (s.unit u).tps ≠ 0)
      (hbus : (s.unit u).busErr = false) :
      Begun s (.stepfor n dir cont count)
        ((s.setUnit u ((s.unit u).startRun s.time dir cont count)).respondOk 0)
  | setpolicy (n : Nat) (e : Bool) (u : UnitId) (hbound : (s.unit u).bound = true) :
      Begun s (.setpolicy n e) ((s.setUnit u { s.unit u with endFull := e }).respondOk 0)

theorem begun_endRun {s : State} (i : Instr) {u : UnitId} (why : HoldFor) (hbound : (s.unit u).bound = true) :
    Begun s i (s.endRun u why) := by
  rcases s.endRun_cases u why with ⟨hrun, h⟩ | ⟨hrun, h⟩ <;> rw [h]
  · exact .asked i u why hbound hrun
  · exact .ended i u why hbound hrun

/-- A command that answers at once has nothing left to run. -/
theorem begun_of_idle {s t : State} {i : Instr} (h : Begun s i t) (hidle : t.port = .idle) :
    ∃ r, Begun s i r ∧ t = r.drive :=
  ⟨t, h, (t.drive_of_idle hidle).symm⟩

/-- Every command raises an error before it has changed anything, or begins and runs along the schedule (R140, R143). -/
theorem exec_begun {i : Instr} {s t : State} (h : exec i s = .next t) :
    (∃ e, t = s.raise e 0) ∨ ∃ r, Begun s i r ∧ t = r.drive := by
  cases i with
  | init a =>
    rcases execInit_cases a s t h with ⟨-, rfl⟩ | ⟨hinit, rfl⟩
    · exact .inr (begun_of_idle (.answered _ 0) rfl)
    · exact .inr ⟨_, .init a hinit, rfl⟩
  | setfreq hz =>
    exact (execSetfreq_cases hz s t h).imp_right fun ⟨hinit, ht⟩ => ⟨_, .setfreq hz hinit, ht⟩
  | acq ch =>
    refine (execAcq_cases ch s t h).imp_right fun ⟨hinit, hfree, ht⟩ => ?_
    subst ht
    exact begun_of_idle (.acq ch hinit hfree) rfl
  | rel ch =>
    exact (execRel_cases ch s t h).imp_right fun ⟨hinit, hhost, ht⟩ => ⟨_, .rel ch hinit hhost, ht⟩
  | setduty ch frac inv =>
    exact (execSetduty_cases ch frac inv s t h).imp_right fun ⟨hinit, hhost, hfrac, ht⟩ =>
      ⟨_, .setduty ch frac inv hinit hhost hfrac, ht⟩
  | disable ch =>
    exact (execDisable_cases ch s t h).imp_right fun ⟨hinit, hhost, ht⟩ => ⟨_, .disable ch hinit hhost, ht⟩
  | enable ch =>
    exact (execEnable_cases ch s t h).imp_right fun ⟨hinit, hhost, ht⟩ => ⟨_, .enable ch hinit hhost, ht⟩
  | cfgmotor n pa pb spr =>
    refine (execCfgmotor_cases n pa pb spr s t h).imp_right fun ⟨u, _, hinit, hbound, hports, hspr, hfree, ht⟩ => ?_
    subst ht
    exact begun_of_idle (.cfgmotor n pa pb spr u hinit hbound hports hspr
      ((ImmediateCommands.allFree_iff s _).1 hfree)) rfl
  | selstyle n sty nms =>
    refine (execSelstyle_cases n sty nms s t h).imp_right fun ⟨u, _, hbound, hrun, hnms, ht⟩ => ?_
    subst ht
    exact begun_of_idle (.selstyle n sty nms u hbound hrun hnms) rfl
  | nextstep n dir =>
    exact (execNextstep_cases n dir s t h).imp_right fun ⟨u, _, hbound, hrun, hready, hbus, ht⟩ =>
      ⟨_, .nextstep n dir u hbound hrun hready hbus, ht⟩
  | setpf n pf =>
    refine (execSetpf_cases n pf s t h).imp_right fun ⟨u, _, hbound, hpf, ht⟩ => ?_
    subst ht
    exact begun_of_idle (.setpf n pf u hbound hpf) rfl
  | dispose n =>
    exact (execDispose_cases n s t h).imp_right fun ⟨u, _, hbound, ht⟩ => ⟨_, begun_endRun _ .dispose hbound, ht⟩
  | setspeed n rpm =>
    refine (execSetspeed_cases n rpm s t h).imp_right fun ⟨u, _, hbound, _, hpos, hlt, ht⟩ => ?_
    subst ht
    exact begun_of_idle (.setspeed n rpm u _ hbound hpos hlt) rfl
  | stepfor n dir cont count =>
    refine (execStepfor_cases n dir cont count s t h).imp_right
      fun ⟨u, _, hbound, hrun, _, hready, htps, hbus, ht⟩ => ?_
    subst ht
    exact begun_of_idle (.stepfor n dir cont count u hbound hrun hready htps hbus) rfl
  | cancel n =>
    exact (execCancel_cases n s t h).imp_right fun ⟨u, _, hbound, ht⟩ => ⟨_, begun_endRun _ .cancel hbound, ht⟩
  | stop n =>
    exact (execStop_cases n s t h).imp_right fun ⟨u, _, hbound, ht⟩ => ⟨_, begun_endRun _ .stop hbound, ht⟩
  | setpolicy n e =>
    refine (execSetpolicy_cases n e s t h).imp_right fun ⟨u, _, hbound, ht⟩ => ?_
    subst ht
    exact begun_of_idle (.setpolicy n e u hbound) rfl
  | rdstat n sel =>
    refine (execRdstat_cases n sel s t h).imp_right fun ⟨v, ht⟩ => ?_
    subst ht
    exact begun_of_idle (.answered _ v) rfl

/-! ### Invariants -/

/-- A property that does not depend on the scheduler's data or on the words waiting, that every turn keeps, and that
every command keeps where it begins or raises an error, is kept by every step. -/
theorem step_keeps_of_turns (P : State → Prop) (hsched : ∀ s cs, P s → P { s with sched := cs })
    (hdraws : ∀ s r n, P s → P { s with round := r, schedDraws := n }) (hcmd : ∀ s ws, P s → P { s with commands := ws })
    (hmove : ∀ s c t, P s → Moved s c t → P t) (hraise : ∀ s e, P s → s.port = .idle → P (s.raise e 0))
    (hbegin : ∀ s i t, P s → s.port = .idle → i.WellFormed → Begun s i t → P t) (s t : State) (h : P s)
    (ht : step s = .next t) : P t := by
  refine step_keeps P hsched hdraws hcmd (fun s c hs => hmove s c _ hs (moved_move s c))
    (fun s hs hidle => hraise s _ hs hidle) (fun w i s t hdec hs hidle hexec => ?_) s t h ht
  rcases exec_begun hexec with ⟨e, rfl⟩ | ⟨r, hr, rfl⟩
  · exact hraise s e hs hidle
  · have hwf := (CommandWords.encodeOfDecodeIsTheWord w i hdec).1
    exact State.drive_keeps P hsched (fun s c hs _ => hmove s c _ hs (moved_move s c)) r (hbegin s i r hs hidle hwf hr)

/-! ### Step and DeEnergize on the way to their next write -/

section RunOps

variable (u : UnitId) (ops : List StepOp) (s : State)

@[simp] theorem runOps_cfg : (runOps u ops s).2.cfg = s.cfg := by rw [runOps_frame]
@[simp] theorem runOps_port : (runOps u ops s).2.port = s.port := by rw [runOps_frame]
@[simp] theorem runOps_initialized : (runOps u ops s).2.initialized = s.initialized := by rw [runOps_frame]
@[simp] theorem runOps_busAddr : (runOps u ops s).2.busAddr = s.busAddr := by rw [runOps_frame]
@[simp] theorem runOps_prescale : (runOps u ops s).2.prescale = s.prescale := by rw [runOps_frame]
@[simp] theorem runOps_busLock : (runOps u ops s).2.busLock = s.busLock := by rw [runOps_frame]
@[simp] theorem runOps_time : (runOps u ops s).2.time = s.time := by rw [runOps_frame]
@[simp] theorem runOps_expander : (runOps u ops s).2.expander = s.expander := by rw [runOps_frame]
@[simp] theorem runOps_trace : (runOps u ops s).2.trace = s.trace := by rw [runOps_frame]
@[simp] theorem runOps_responses : (runOps u ops s).2.responses = s.responses := by rw [runOps_frame]
@[simp] theorem runOps_commands : (runOps u ops s).2.commands = s.commands := by rw [runOps_frame]

end RunOps

/-- What carrying a Step on keeps, where only the ratios of its own operations are stored and recorded. -/
theorem runOps_induction (P : State → Prop) {u : UnitId} {ops : List StepOp}
    (hrec : ∀ t c ratio pol, StepOp.record c ratio pol ∈ ops → P t →
      P (t.setUnit u ((t.unit u).setLast c ⟨true, ratio, pol⟩)))
    (hspec : ∀ t ch ratio, StepOp.apply ch ratio ∈ ops → P t → P (t.setSpec ch ratio false)) {s : State} (h : P s) :
    P (runOps u ops s).2 := by
  induction ops generalizing s with
  | nil => exact h
  | cons op ops ih =>
    have ih' {t : State} := @ih (fun t c ratio pol hm => hrec t c ratio pol (List.mem_cons_of_mem _ hm))
      (fun t ch ratio hm => hspec t ch ratio (List.mem_cons_of_mem _ hm)) t
    cases op with
    | record c ratio pol => exact ih' (hrec s c ratio pol List.mem_cons_self h)
    | apply ch ratio =>
      unfold runOps
      split
      · exact ih' (hspec s ch ratio List.mem_cons_self h)
      · exact hspec s ch ratio List.mem_cons_self h

/-- DeEnergize passes over disabled channels, and then stands at its next write or ends (R117). -/
theorem deEnergizeFrom_induction {u : UnitId} {why : DeEnergizeFor} {first : Answer} (P Q : State → Prop)
    {chs : List ChannelId} (hspec : ∀ t, ∀ ch ∈ chs, P t → P (t.setSpec ch 0 false))
    (hend : ∀ t, P t → Q (t.finishDeEnergize u why first))
    (hwrite : ∀ t ch rest, P t → ch ∈ chs → rest ⊆ chs → (t.channel ch).disabled = false →
      Q { t.setSpec ch 0 false with port := .busy (.deEnergize u why (pendingApply ch 0 false) rest first) })
    {s : State} (h : P s) : Q (s.deEnergizeFrom u why chs first) := by
  induction chs generalizing s with
  | nil => rw [State.deEnergizeFrom_nil]; exact hend s h
  | cons ch rest ih =>
    rw [State.deEnergizeFrom_cons]
    split
    case isTrue =>
      exact ih (fun t d hd => hspec t d (List.mem_cons_of_mem _ hd))
        (fun t d r ht hd hr => hwrite t d r ht (List.mem_cons_of_mem _ hd) (List.subset_cons_of_subset _ hr))
        (hspec s ch List.mem_cons_self h)
    case isFalse hd =>
      exact hwrite s ch rest h List.mem_cons_self (List.subset_cons_self ch rest) (Bool.eq_false_iff.2 hd)

end Sys2Proof.StepRelation
end

section
/-! What a step leaves alone and what it adds (R22, R23, R48, R67): the parameters, the words waiting and the driver's
registers, the trace, and the one response of each command. -/

namespace Sys2Proof.StepFrames

open Machine StepRelation

/-! ### What is kept while a command goes on

`SameDriver s t`: the parameters, the driver's registers, TIME, the trace and the words waiting are the same in t. -/

structure SameDriver (s t : State) : Prop where
  cfg : t.cfg = s.cfg
  initialized : t.initialized = s.initialized
  busAddr : t.busAddr = s.busAddr
  prescale : t.prescale = s.prescale
  freqActual : t.freqActual = s.freqActual
  time : t.time = s.time
  trace : t.trace = s.trace
  commands : t.commands = s.commands
  sched : t.sched = s.sched

theorem SameDriver.refl (s : State) : SameDriver s s := by constructor <;> rfl

theorem SameDriver.trans {s t r : State} (h : SameDriver s t) (g : SameDriver t r) : SameDriver s r where
  cfg := g.cfg.trans h.cfg
  initialized := g.initialized.trans h.initialized
  busAddr := g.busAddr.trans h.busAddr
  prescale := g.prescale.trans h.prescale
  freqActual := g.freqActual.trans h.freqActual
  time := g.time.trans h.time
  trace := g.trace.trans h.trace
  commands := g.commands.trans h.commands
  sched := g.sched.trans h.sched

theorem sameDriver_runOps (u : UnitId) (ops : List StepOp) (s : State) : SameDriver s (runOps u ops s).2 := by
  rw [runOps_frame]; constructor <;> rfl

theorem sameDriver_conclude (s : State) (r : Answer) (v : Value) : SameDriver s (s.conclude r v) := by
  constructor <;> simp

theorem sameDriver_unlock (s : State) : SameDriver s s.unlock := by constructor <;> rfl

theorem sameDriver_failStep (s : State) (u : UnitId) : SameDriver s (s.failStep u) := by constructor <;> rfl

theorem sameDriver_loopStepOps (s : State) (u : UnitId) (ops : List StepOp) : SameDriver s (s.loopStepOps u ops) := by
  have h := sameDriver_runOps u ops s
  rcases s.loopStepOps_cases u ops with ⟨-, he⟩ | ⟨job, -, he⟩ <;> rw [he] <;> exact h.trans (by constructor <;> rfl)

theorem sameDriver_portStepOps (s : State) (u : UnitId) (ops : List StepOp) : SameDriver s (s.portStepOps u ops) := by
  have h := sameDriver_runOps u ops s
  rcases s.portStepOps_cases u ops with ⟨-, he⟩ | ⟨job, -, he⟩ <;> rw [he] <;> exact h.trans (by constructor <;> rfl)

theorem sameDriver_finishDeEnergize (s : State) (u : UnitId) (why : DeEnergizeFor) (first : Answer) :
    SameDriver s (s.finishDeEnergize u why first) := by
  rcases s.finishDeEnergize_cases u why first with ⟨-, -, h⟩ | ⟨-, -, h⟩ | ⟨-, -, h⟩ | ⟨-, -, h⟩ <;> rw [h] <;>
    constructor <;> simp

theorem sameDriver_deEnergizeFrom (s : State) (u : UnitId) (why : DeEnergizeFor) (chs : List ChannelId)
    (first : Answer) : SameDriver s (s.deEnergizeFrom u why chs first) :=
  deEnergizeFrom_induction (SameDriver s) (SameDriver s)
    (fun _ _ _ h => h.trans (by constructor <;> simp))
    (fun t h => h.trans (sameDriver_finishDeEnergize t u why first))
    (fun _ _ _ h _ _ _ => h.trans (by constructor <;> simp)) (.refl s)

theorem sameDriver_afterHold (s : State) (u : UnitId) (why : HoldFor) : SameDriver s (s.afterHold u why) := by
  cases why with
  | cancel => constructor <;> rfl
  | stop => exact sameDriver_deEnergizeFrom s u .stop _ .ack
  | dispose => exact sameDriver_deEnergizeFrom s u .dispose _ .ack

theorem sameDriver_finishWrite (s : State) (ch : ChannelId) (fin : WriteEnd) (r : Answer) :
    SameDriver s (s.finishWrite ch fin r) := by
  cases fin with
  | release => exact SameDriver.trans (t := s.releaseChannel ch) (by constructor <;> rfl) (sameDriver_conclude _ r 0)
  | reply v => exact sameDriver_conclude s r v

theorem sameDriver_failPrescale (s : State) (stage : PrescaleStage) (why : PrescaleFor) (r : Answer) :
    SameDriver s (s.failPrescale stage why r) := by
  unfold State.failPrescale
  split
  · constructor <;> simp
  · exact sameDriver_conclude s _ 0

theorem sameDriver_portApply (s : State) (ch : ChannelId) (ratio : BitVec 13) (inv : Bool) (v : Value) :
    SameDriver s (s.portApply ch ratio inv v) := by
  rcases s.portApply_cases ch ratio inv v with ⟨-, h⟩ | ⟨-, h⟩ <;> rw [h] <;> constructor <;> rfl

/-- Before its first step point a command changes no driver register, issues no transaction and takes no word. -/
theorem sameDriver_of_begun {s t : State} {i : Instr} (h : Begun s i t) : SameDriver s t := by
  cases h with
  | setduty => exact sameDriver_portApply ..
  | enable => exact SameDriver.trans (by constructor <;> rfl) (sameDriver_portApply ..)
  | nextstep n dir u => exact SameDriver.trans (by constructor <;> rfl) (sameDriver_portStepOps _ u _)
  | ended i u why => exact sameDriver_afterHold s u why
  | cfgmotor => constructor <;> simp
  | _ => constructor <;> rfl

/-! ### The one response of a command -/

/-- The codes of a command that has passed its checks (R141). -/
def runCodes : List Nat := [0, 4, 6]

/-- From s to t, a command goes on, or it answers and the port is Idle (R22, R23). -/
def GoesOn (s t : State) : Prop :=
  (t.port ≠ .idle ∧ t.responses = s.responses) ∨
  (t.port = .idle ∧ ∃ code ∈ runCodes, ∃ v, t.responses = s.responses ++ [responseWord code v])

theorem goesOn_of_same_responses {s t r : State} (h : GoesOn t r) (hres : t.responses = s.responses) : GoesOn s r := by
  unfold GoesOn at *
  rwa [← hres]

theorem goesOn_respond {s t : State} (hres : t.responses = s.responses) {code : Nat} (hcode : code ∈ runCodes)
    (v : Value) : GoesOn s (t.respond code v) :=
  .inr ⟨rfl, code, hcode, v, by rw [State.respond_responses, hres]⟩

theorem goesOn_raise {s t : State} (hres : t.responses = s.responses) {e : Err} (he : e = .deviceNotFound ∨ e = .busIO)
    (v : Value) : GoesOn s (t.raise e v) := by
  refine .inr ⟨rfl, e.code, ?_, v, by rw [State.raise_responses, hres]⟩
  rcases he with rfl | rfl <;> decide

theorem goesOn_conclude {s t : State} (hres : t.responses = s.responses) (r : Answer) (v : Value) :
    GoesOn s (t.conclude r v) := by
  cases r with
  | ack => exact goesOn_respond hres (by decide) v
  | nack => exact goesOn_raise hres (.inr rfl) 0
  | err d => exact goesOn_raise hres (.inr rfl) d

theorem goesOn_busy {s t : State} (hres : t.responses = s.responses) {job : PortJob} (hport : t.port = .busy job) :
    GoesOn s t := .inl ⟨by rw [hport]; nofun, hres⟩

theorem goesOn_portStepOps {s t : State} (hres : t.responses = s.responses) (u : UnitId) (ops : List StepOp) :
    GoesOn s (t.portStepOps u ops) := by
  have h : (runOps u ops t).2.responses = s.responses := (runOps_responses u ops t).trans hres
  rcases t.portStepOps_cases u ops with ⟨-, he⟩ | ⟨job, -, he⟩ <;> rw [he]
  · exact goesOn_respond h (by decide) _
  · exact goesOn_busy h rfl

theorem goesOn_finishDeEnergize {s t : State} (hres : t.responses = s.responses) (u : UnitId) (why : DeEnergizeFor)
    (first : Answer) : GoesOn s (t.finishDeEnergize u why first) := by
  rcases t.finishDeEnergize_cases u why first with ⟨-, -, h⟩ | ⟨-, -, h⟩ | ⟨-, -, h⟩ | ⟨-, -, h⟩ <;> rw [h]
  · exact goesOn_respond (by simpa using hres) (by decide) _
  · exact goesOn_conclude (by simpa using hres) _ _
  · exact goesOn_respond (by simpa using hres) (by decide) _
  · exact goesOn_conclude (by simpa using hres) _ _

theorem goesOn_deEnergizeFrom {s t : State} (hres : t.responses = s.responses) (u : UnitId) (why : DeEnergizeFor)
    (chs : List ChannelId) (first : Answer) : GoesOn s (t.deEnergizeFrom u why chs first) :=
  deEnergizeFrom_induction (fun t => t.responses = s.responses) (GoesOn s) (fun _ _ _ h => by simpa using h)
    (fun _ h => goesOn_finishDeEnergize h u why first) (fun _ _ _ h _ _ _ => goesOn_busy (by simpa using h) rfl) hres

theorem goesOn_afterHold (s : State) (u : UnitId) (why : HoldFor) : GoesOn s (s.afterHold u why) := by
  cases why with
  | cancel => exact goesOn_respond rfl (by decide) _
  | stop => exact goesOn_deEnergizeFrom rfl u .stop _ .ack
  | dispose => exact goesOn_deEnergizeFrom rfl u .dispose _ .ack

theorem goesOn_portApply {s t : State} (hres : t.responses = s.responses) (ch : ChannelId) (ratio : BitVec 13)
    (inv : Bool) (v : Value) : GoesOn s (t.portApply ch ratio inv v) := by
  rcases t.portApply_cases ch ratio inv v with ⟨-, h⟩ | ⟨-, h⟩ <;> rw [h]
  · exact goesOn_respond (by simpa using hres) (by decide) _
  · exact goesOn_busy (by simpa using hres) rfl

theorem goesOn_finishWrite {s t : State} (hres : t.responses = s.responses) (ch : ChannelId) (fin : WriteEnd)
    (r : Answer) : GoesOn s (t.finishWrite ch fin r) := by
  cases fin with
  | release => exact goesOn_conclude (by simpa using hres) r 0
  | reply v => exact goesOn_conclude hres r v

theorem goesOn_failPrescale {s t : State} (hres : t.responses = s.responses) (stage : PrescaleStage) (why : PrescaleFor)
    (r : Answer) : GoesOn s (t.failPrescale stage why r) := by
  unfold State.failPrescale
  split
  · exact goesOn_raise hres (.inl rfl) 0
  · exact goesOn_conclude hres _ 0

theorem goesOn_finishPrescale (s : State) (addr : BitVec 7) (p : Byte) (why : PrescaleFor) :
    GoesOn s (s.finishPrescale addr p why) := by
  cases why <;> exact goesOn_respond rfl (by decide) _

/-- A command goes on, or answers, right where it begins. -/
theorem goesOn_of_begun {s t : State} {i : Instr} (h : Begun s i t) : GoesOn s t := by
  cases h with
  | setduty => exact goesOn_portApply rfl ..
  | enable => exact goesOn_portApply (by simp) ..
  | nextstep n dir u => exact goesOn_portStepOps rfl u _
  | ended i u why => exact goesOn_afterHold s u why
  | answered | acq | selstyle | setpf | setspeed | stepfor | setpolicy | cfgmotor =>
    exact goesOn_respond (by simp) (by decide) _
  | init | setfreq | rel | disable | asked => exact goesOn_busy rfl rfl

theorem loopStepOps_responses (s : State) (u : UnitId) (ops : List StepOp) :
    (s.loopStepOps u ops).responses = s.responses := by
  rcases s.loopStepOps_cases u ops with ⟨-, h⟩ | ⟨job, -, h⟩ <;> rw [h] <;> simp

theorem tick_eq_idle_iff (p : PortState) : p.tick = .idle ↔ p = .idle := by
  fun_cases PortState.tick p <;> simp

/-- The environment and the pacing loops give no response and leave an Idle port Idle and a Busy one Busy (R20). -/
theorem responses_of_moved_other {s t : State} {c : Choice} (h : Moved s c t) (hc : c ≠ .port ∨ s.port = .idle) :
    t.responses = s.responses ∧ (t.port = .idle ↔ s.port = .idle) := by
  cases h with
  | stays => exact ⟨rfl, .rfl⟩
  | tick => exact ⟨rfl, tick_eq_idle_iff s.port⟩
  | accum | seen | loopLock => exact ⟨rfl, .rfl⟩
  | due u | loopWritten u => exact ⟨by rw [loopStepOps_responses]; simp, by rw [State.loopStepOps_port]; simp⟩
  | loopFailed => exact ⟨by simp, by simp⟩
  | portLock | channelWritten | generalCalled | generalCallFailed | prescaleDone | prescaleWritten | prescaleFailed |
      released | stepWritten | stepFailed | deEnergizeWritten => simp_all

/-- A Busy port's command goes on with every turn, or answers. -/
theorem goesOn_of_moved {s t : State} {c : Choice} (h : Moved s c t) (hbusy : s.port ≠ .idle) : GoesOn s t := by
  cases h with
  | portLock | generalCalled => exact goesOn_busy (by simp) rfl
  | channelWritten w fin => exact goesOn_finishWrite (by simp) _ fin _
  | generalCallFailed addr e info _ he => exact goesOn_raise (by simp) he info
  | prescaleDone => exact goesOn_finishPrescale ..
  | prescaleWritten addr p stage why t _ _ ht => subst ht; exact goesOn_busy (by simp) rfl
  | prescaleFailed addr p stage why t _ _ ht => subst ht; exact goesOn_failPrescale (by simp) ..
  | released u why => exact goesOn_afterHold s u why
  | stepWritten u => exact goesOn_portStepOps (by simp) u _
  | stepFailed => exact goesOn_conclude (by simp) _ 0
  | deEnergizeWritten u why w rest => exact goesOn_deEnergizeFrom (by simp) u why rest _
  | stays => exact .inl ⟨hbusy, rfl⟩
  | tick => exact .inl ⟨fun h => hbusy ((tick_eq_idle_iff s.port).1 h), rfl⟩
  | accum | seen | loopLock => exact .inl ⟨hbusy, rfl⟩
  | due u | loopWritten u =>
    exact .inl ⟨by rw [State.loopStepOps_port]; simpa using hbusy, by rw [loopStepOps_responses]; simp⟩
  | loopFailed => exact .inl ⟨by simpa using hbusy, by simp⟩

theorem goesOn_drive {s t : State} (h : GoesOn s t) : GoesOn s t.drive := by
  refine State.drive_keeps (GoesOn s) (fun _ _ h => h) (fun t c ht hbusy => ?_) t h
  obtain ⟨-, hres⟩ := ht.resolve_right fun h => hbusy h.1
  exact goesOn_of_same_responses (goesOn_of_moved (moved_move t c) hbusy) hres

/-- A command raises an error before it has changed anything, or goes on, or answers. -/
theorem exec_goesOn {i : Instr} {s t : State} (h : exec i s = .next t) : (∃ e, t = s.raise e 0) ∨ GoesOn s t := by
  refine (exec_begun h).imp_right ?_
  rintro ⟨r, hr, rfl⟩
  exact goesOn_drive (goesOn_of_begun hr)

/-! ### Response words (R76, R141) -/

theorem responseWord_legal {code : Nat} (h : code ≤ 7) (v : Value) : ResponseLegal (responseWord code v) := by
  have hv := v.isLt
  unfold ResponseLegal responseWord
  rw [Laws.bitField_ofNat _ _ _ (by omega), Laws.bitField_ofNat _ _ _ (by omega)]
  omega

theorem errCode_le (e : Err) : e.code ≤ 7 := by cases e <;> decide

theorem runCodes_le : ∀ code ∈ runCodes, code ≤ 7 := by decide

theorem responsesLegal_of_goesOn {s t : State} (hs : ∀ w ∈ s.responses, ResponseLegal w) (h : GoesOn s t) :
    ∀ w ∈ t.responses, ResponseLegal w := by
  rcases h with ⟨-, hres⟩ | ⟨-, code, hcode, v, hres⟩ <;> rw [hres]
  · exact hs
  · exact List.forall_mem_append.2 ⟨hs, List.forall_mem_singleton.2 (responseWord_legal (runCodes_le code hcode) v)⟩

/-- Settles O21: a turn responds only for the port's command, with one of the codes of R141. -/
theorem responsesStayLegal : Obligations.ResponsesStayLegal := by
  refine step_keeps_of_turns (fun s => ∀ w ∈ s.responses, ResponseLegal w) (fun _ _ h => h) (fun _ _ _ h => h)
    (fun _ _ h => h) (fun s c t hs hmoved => ?move) (fun s e hs _ => ?raise)
    (fun s i t hs _ _ hbegun => responsesLegal_of_goesOn hs (goesOn_of_begun hbegun))
  case move =>
    by_cases hidle : s.port = .idle
    · rw [(responses_of_moved_other hmoved (.inr hidle)).1]
      exact hs
    · exact responsesLegal_of_goesOn hs (goesOn_of_moved hmoved hidle)
  case raise =>
    rw [State.raise_responses]
    exact List.forall_mem_append.2 ⟨hs, List.forall_mem_singleton.2 (responseWord_legal (errCode_le e) 0)⟩

theorem responseWord_inj {c d : Nat} {v w : Value} (hc : c < 2 ^ 32) (hd : d < 2 ^ 32)
    (h : responseWord c v = responseWord d w) : c = d ∧ v = w := by
  have hv := v.isLt
  have hw := w.isLt
  have hnat := congrArg BitVec.toNat h
  rw [responseWord, responseWord, BitVec.toNat_ofNat, BitVec.toNat_ofNat, Nat.mod_eq_of_lt (by omega),
    Nat.mod_eq_of_lt (by omega)] at hnat
  exact ⟨by omega, BitVec.eq_of_toNat_eq (by omega)⟩

theorem append_singleton_inj {rs : List Word} {a b : Word} (h : rs ++ [a] = rs ++ [b]) : a = b :=
  List.singleton_inj.1 (List.append_cancel_left h)

/-- Settles O60: past its checks a command answers with OK, DeviceNotFoundError or BusIOError only, so a refused one has
raised its error before it changed anything. -/
theorem refusedCommandsChangeNothing : Obligations.RefusedCommandsChangeNothing := by
  intro i s t code v hlock hidle hexec hres hcode
  rcases exec_goesOn hexec with ⟨e, rfl⟩ | ⟨-, hsame⟩ | ⟨-, c, hc, w, hanswer⟩
  · rw [State.raise_responses] at hres
    have he := errCode_le e
    obtain ⟨rfl, rfl⟩ := responseWord_inj (by omega) (by omega) (append_singleton_inj hres)
    exact ⟨rfl, FixedBits.raise_of_idle s e 0 hidle hlock⟩
  · rw [hsame] at hres
    exact absurd (congrArg List.length hres) (by simp)
  · rw [hanswer] at hres
    have hle := runCodes_le c hc
    obtain ⟨rfl, -⟩ := responseWord_inj (by omega) (by omega) (append_singleton_inj hres)
    simp only [runCodes, List.mem_cons, List.not_mem_nil, or_false] at hc
    omega

/-! ### What no turn but the tick touches

`Extends s t`: the parameters, TIME and the words waiting are the same in t, the trace has grown at most, and the driver is
initialized if it was. -/

structure Extends (s t : State) : Prop where
  cfg : t.cfg = s.cfg
  time : t.time = s.time
  commands : t.commands = s.commands
  trace : s.trace <+: t.trace
  initialized : s.initialized = true → t.initialized = true

theorem Extends.refl (s : State) : Extends s s := ⟨rfl, rfl, rfl, List.prefix_rfl, id⟩

theorem SameDriver.extends {s t : State} (h : SameDriver s t) : Extends s t :=
  ⟨h.cfg, h.time, h.commands, h.trace ▸ List.prefix_rfl, fun hi => h.initialized.trans hi⟩

theorem Extends.trans {s t r : State} (h : Extends s t) (g : Extends t r) : Extends s r where
  cfg := g.cfg.trans h.cfg
  time := g.time.trans h.time
  commands := g.commands.trans h.commands
  trace := h.trace.trans g.trace
  initialized := fun hi => g.initialized (h.initialized hi)

theorem extends_transact (s : State) (a : Agent) (op : BusOp) : Extends s (s.transact a op).2 :=
  ⟨by simp, by simp, by simp, by rw [State.transact_trace]; exact List.prefix_append _ _, by simp⟩

theorem extends_writeImage (s : State) (a : Agent) (w : PendingWrite) : Extends s (s.writeImage a w).2 :=
  ⟨by simp, by simp, by simp, by rw [State.writeImage_trace]; exact List.prefix_append _ _, by simp⟩

theorem extends_finishPrescale (s : State) (addr : BitVec 7) (p : Byte) (why : PrescaleFor) :
    Extends s (s.finishPrescale addr p why) := by
  cases why with
  | init => exact ⟨rfl, rfl, rfl, List.prefix_rfl, fun _ => rfl⟩
  | setfreq => exact ⟨rfl, rfl, rfl, List.prefix_rfl, id⟩

/-- A turn of the port or of a pacing loop adds to the trace at most, and takes no word (R22, R48, R67). -/
theorem extends_of_moved {s t : State} {c : Choice} (h : Moved s c t) (hc : c ≠ .tick) : Extends s t := by
  cases h with
  | tick => exact absurd rfl hc
  | stays | accum | seen | loopLock | portLock => exact ⟨rfl, rfl, rfl, List.prefix_rfl, id⟩
  | due u => exact (SameDriver.trans (by constructor <;> rfl) (sameDriver_loopStepOps _ u _)).extends
  | loopWritten u => exact (extends_writeImage ..).trans (sameDriver_loopStepOps _ u _).extends
  | loopFailed u job =>
    exact (extends_writeImage s (.loop u) job.write).trans (SameDriver.extends (by constructor <;> simp))
  | channelWritten => exact (extends_writeImage ..).trans (sameDriver_finishWrite ..).extends
  | generalCalled | generalCallFailed =>
    exact (extends_transact s .port (.generalCall 0x06)).trans (SameDriver.extends (by constructor <;> simp))
  | prescaleDone => exact extends_finishPrescale ..
  | prescaleWritten addr p stage why t _ _ ht =>
    subst ht; exact (extends_transact ..).trans (SameDriver.extends (by constructor <;> rfl))
  | prescaleFailed addr p stage why t _ _ ht =>
    subst ht
    exact (extends_transact ..).trans ((sameDriver_unlock _).trans (sameDriver_failPrescale ..)).extends
  | released u why => exact (sameDriver_afterHold s u why).extends
  | stepWritten u => exact (extends_writeImage ..).trans (sameDriver_portStepOps _ u _).extends
  | stepFailed =>
    exact (extends_writeImage ..).trans ((sameDriver_failStep _ _).trans (sameDriver_conclude ..)).extends
  | deEnergizeWritten => exact (extends_writeImage ..).trans (sameDriver_deEnergizeFrom ..).extends

theorem cfg_of_moved {s t : State} {c : Choice} (h : Moved s c t) : t.cfg = s.cfg := by
  by_cases hc : c = .tick
  · subst hc
    cases h with
    | stays _ hc => exact absurd rfl hc
    | tick => rfl
  · exact (extends_of_moved h hc).cfg

/-! ### Words waiting, executed and answered (R22, R23) -/

theorem commands_of_moved {s t : State} {c : Choice} (h : Moved s c t) : t.commands = s.commands := by
  by_cases hc : c = .tick
  · subst hc
    cases h with
    | stays _ hc => exact absurd rfl hc
    | tick => rfl
  · exact (extends_of_moved h hc).commands

/-- What runs along the schedule after a command has begun takes no word. -/
theorem commands_drive (s : State) : s.drive.commands = s.commands :=
  State.drive_keeps (fun t => t.commands = s.commands) (fun _ _ h => h)
    (fun t c h _ => (commands_of_moved (moved_move t c)).trans h) s rfl

theorem commands_of_exec {i : Instr} {s t : State} (h : exec i s = .next t) : t.commands = s.commands := by
  rcases exec_begun h with ⟨e, rfl⟩ | ⟨r, hr, rfl⟩
  · simp
  · exact (commands_drive r).trans (sameDriver_of_begun hr).commands

theorem commandCount_idle {s : State} (h : s.port = .idle) :
    s.commandCount = s.commands.length + s.responses.length := by
  simp [State.commandCount, h]

theorem commandCount_busy {s : State} (h : s.port ≠ .idle) :
    s.commandCount = s.commands.length + 1 + s.responses.length := by
  unfold State.commandCount
  split
  · contradiction
  · rfl

/-- A command that goes on is still counted as the port's; one that has answered is counted as a response. -/
theorem commandCount_of_goesOn {s t : State} (h : GoesOn s t) :
    t.commandCount = t.commands.length + 1 + s.responses.length := by
  rcases h with ⟨hbusy, hres⟩ | ⟨hidle, code, -, v, hres⟩
  · rw [commandCount_busy hbusy, hres]
  · rw [commandCount_idle hidle, hres, List.length_append, List.length_singleton]
    omega

theorem commandCount_of_moved {s t : State} {c : Choice} (h : Moved s c t) : t.commandCount = s.commandCount := by
  have hcommands := commands_of_moved h
  by_cases hidle : s.port = .idle
  · obtain ⟨hres, hport⟩ := responses_of_moved_other h (.inr hidle)
    rw [commandCount_idle hidle, commandCount_idle (hport.2 hidle), hres, hcommands]
  · rw [commandCount_busy hidle, commandCount_of_goesOn (goesOn_of_moved h hidle), hcommands]

/-- The word that a command executes becomes a response, or stays the port's command. -/
theorem commandCount_of_exec {i : Instr} {s t : State} (h : exec i s = .next t) :
    t.commandCount = s.commands.length + 1 + s.responses.length := by
  rcases exec_goesOn h with ⟨e, rfl⟩ | hgoes
  · rw [commandCount_idle (State.raise_port s e 0), State.raise_responses, State.raise_commands, List.length_append,
      List.length_singleton]
    omega
  · rw [commandCount_of_goesOn hgoes, commands_of_exec h]

/-- An Idle port that takes a step at its turn has no word to take, or answers the next one as illegal, or executes it. -/
theorem acceptStep_cases {s t : State} (h : s.acceptStep = .next t) :
    (s.commands = [] ∧ t = s) ∨ ∃ w ws, s.commands = w :: ws ∧
      ((∃ e, t = State.raise { s with commands := ws } e 0) ∨
        ∃ i, decode w = .ok i ∧ exec i { s with commands := ws } = .next t) := by
  unfold State.acceptStep State.takeWord at h
  cases hc : s.commands with
  | nil =>
    rw [hc] at h
    injection h with h
    exact .inl ⟨rfl, h.symm⟩
  | cons w ws =>
    rw [hc] at h
    refine .inr ⟨w, ws, rfl, ?_⟩
    simp only at h
    split at h
    case h_1 i hdec => exact .inr ⟨i, hdec, h⟩
    case h_2 e hdec =>
      injection h with h
      exact .inl ⟨_, h.symm⟩

theorem commandCount_acceptStep {s t : State} (hidle : s.port = .idle) (h : s.acceptStep = .next t) :
    t.commandCount = s.commandCount := by
  rw [commandCount_idle hidle]
  rcases acceptStep_cases h with ⟨-, rfl⟩ | ⟨w, ws, hc, ⟨e, rfl⟩ | ⟨i, -, hexec⟩⟩
  · exact commandCount_idle hidle
  · rw [commandCount_idle (State.raise_port _ e 0), State.raise_responses, State.raise_commands, hc]
    simp only [List.length_append, List.length_cons, List.length_nil]
    omega
  · rw [commandCount_of_exec hexec, hc, List.length_cons]

theorem responses_prefix_of_goesOn {s t : State} (h : GoesOn s t) : s.responses <+: t.responses := by
  rcases h with ⟨-, hres⟩ | ⟨-, code, -, v, hres⟩
  · rw [hres]
  · exact hres ▸ List.prefix_append _ _

/-- What the outside has seen of the state `s` stands in t, with the same parameters (R22, R24, R67). -/
def History (s t : State) : Prop :=
  t.cfg = s.cfg ∧ s.trace <+: t.trace ∧ s.responses <+: t.responses ∧ (s.initialized = true → t.initialized = true)

theorem History.moved {s t r : State} {c : Choice} (h : History s t) (hm : Moved t c r) : History s r := by
  obtain ⟨hcfg, htrace, hres, hinit⟩ := h
  have hgrow : t.responses <+: r.responses := by
    by_cases hidle : t.port = .idle
    · exact (responses_of_moved_other hm (.inr hidle)).1 ▸ List.prefix_rfl
    · exact responses_prefix_of_goesOn (goesOn_of_moved hm hidle)
  by_cases hc : c = .tick
  · subst hc
    cases hm with
    | stays _ hc => exact absurd rfl hc
    | tick => exact ⟨hcfg, htrace, hres, hinit⟩
  · have he := extends_of_moved hm hc
    exact ⟨he.cfg.trans hcfg, htrace.trans he.trace, hres.trans hgrow, fun hi => he.initialized (hinit hi)⟩

theorem History.step {s t : State} (h : step s = .next t) : History s t := by
  refine step_keeps_of_turns (History s) (fun _ _ h => h) (fun _ _ _ h => h) (fun _ _ h => h)
    (fun _ _ _ hs hmoved => hs.moved hmoved) (fun t e ht _ => ?raise) (fun r i t ht _ _ hbegun => ?begin)
    s t ⟨rfl, List.prefix_rfl, List.prefix_rfl, id⟩ h
  case raise =>
    obtain ⟨hcfg, htrace, hres, hinit⟩ := ht
    refine ⟨by simpa using hcfg, by simpa using htrace, ?_, by simpa using hinit⟩
    rw [State.raise_responses]
    exact hres.trans (List.prefix_append _ _)
  case begin =>
    obtain ⟨hcfg, htrace, hres, hinit⟩ := ht
    have hd := sameDriver_of_begun hbegun
    exact ⟨hd.cfg.trans hcfg, hd.trace ▸ htrace, hres.trans (responses_prefix_of_goesOn (goesOn_of_begun hbegun)),
      fun hi => hd.initialized.trans (hinit hi)⟩

/-- Settles O22: a word is taken where a command begins, and counted with the port or with the responses from then on. -/
theorem everyCommandIsAnsweredOnce : Obligations.EveryCommandIsAnsweredOnce := by
  refine ⟨fun s t h => ?_, fun s t h => History.step h⟩
  have hcount : s.nextChoice.2.commandCount = s.commandCount := by simp [State.commandCount]
  rcases step_cases s with ⟨-, hidle, he⟩ | ⟨-, he⟩
  · have hidle' : s.nextChoice.2.port = .idle := (State.nextChoice_port s).trans hidle
    exact ⟨(commandCount_acceptStep hidle' (he ▸ h)).trans hcount, fun hbusy => absurd hidle hbusy⟩
  · rw [he] at h
    injection h with h
    subst h
    have hm := moved_move s.nextChoice.2 s.nextChoice.1
    exact ⟨(commandCount_of_moved hm).trans hcount, fun _ => (commands_of_moved hm).trans (State.nextChoice_commands s)⟩

/-! ### TIME and quiescence (R48, R168) -/

/-- Choosing who steps next moves the scheduler's data only. -/
theorem nextChoice_frame (s : State) :
    ∃ sc r n, s.nextChoice.2 = { s with sched := sc, round := r, schedDraws := n } := by
  unfold State.nextChoice
  split <;> exact ⟨_, _, _, rfl⟩

theorem time_move (s : State) (c : Choice) : (s.move c).time = if c = .tick then s.time + 1 else s.time := by
  by_cases hc : c = .tick
  · subst hc; rfl
  · rw [if_neg hc]
    exact (extends_of_moved (moved_move s c) hc).time

/-- A turn in a quiescent block is the environment's, or changes nothing. -/
theorem move_quiescent {s : State} (h : s.Quiescent) (c : Choice) :
    s.move c = if c = .tick then { s with time := s.time + 1 } else s := by
  obtain ⟨hidle, -, hrun⟩ := h
  cases c with
  | tick => simp [State.tick, hidle, PortState.tick_idle]
  | port => exact State.move_port_of_idle s hidle
  | loop u => simp [State.loopStep, hrun u]

/-- Settles O23: of the turns only the tick moves TIME, a command's own part is none of them, and a quiescent block has no
other step. -/
theorem timeMovesOnlyByTicks : Obligations.TimeMovesOnlyByTicks := by
  refine ⟨time_move, fun i s t hsched h => ?exec, fun s t hq hcmd h => ?quiescent⟩
  case exec =>
    rcases exec_begun h with ⟨e, rfl⟩ | ⟨r, hr, rfl⟩
    · simp
    · have hd := sameDriver_of_begun hr
      have hdrive : r.drive = { r with sched := [] } := by rw [State.drive, hd.sched, hsched]; rfl
      rw [hdrive]
      exact hd.time
  case quiescent =>
    obtain ⟨sc, r, n, hframe⟩ := nextChoice_frame s
    rcases step_cases s with ⟨-, hidle, he⟩ | ⟨-, he⟩ <;> rw [he, hframe] at h
    · rcases acceptStep_cases h with ⟨-, rfl⟩ | ⟨w, ws, hc, -⟩
      · exact ⟨rfl, .inl rfl⟩
      · rw [hcmd] at hc
        cases hc
    · injection h with h
      rw [move_quiescent (by exact hq)] at h
      split at h <;> subst h
      · exact ⟨rfl, .inr rfl⟩
      · exact ⟨rfl, .inl rfl⟩

end Sys2Proof.StepFrames
end

section
/-! Mutual exclusion (R66): every turn and every command keeps the lock with the one agent in its critical section. A
pacing loop's turn changes its own unit only, so it is enough that the rest of the block is in order but for that unit
(`LockOkBut`); a command of the port changes the port, so it is enough that the units are (`UnitsLockOk`). -/

namespace Sys2Proof.LockExclusion

open Machine StepRelation StepFrames

/-! ### A pacing loop's turn -/

/-- The lock is exclusive but for what unit u's pacing loop holds, and that loop does not have it. -/
structure LockOkBut (s : State) (u : UnitId) : Prop where
  port : s.busLock = .port ↔ s.port.inCritical = true
  loops : ∀ v, v ≠ u → (s.busLock = .loop v ↔ (s.unit v).inCritical = true)
  out : s.busLock ≠ .loop u
  stopped : ∀ v, v ≠ u → (s.unit v).run ≠ .running → (s.unit v).stepJob = none
  driven : ∀ v, s.port.drives = some v → (s.unit v).run ≠ .running

theorem inCritical_of_no_job {x : UnitState} (h : x.stepJob = none) : x.inCritical = false := by
  rw [UnitState.inCritical, h]

theorem lockOkBut_of_out {s : State} (h : s.LockOk) {u : UnitId} (hout : (s.unit u).inCritical = false) :
    LockOkBut s u := by
  obtain ⟨hport, hloops, hstopped, hdriven⟩ := h
  exact ⟨hport, fun v _ => hloops v, fun he => absurd ((hloops u).1 he) (by simp [hout]), fun v _ => hstopped v, hdriven⟩

/-- After unit u's transaction the lock is free, and no other agent was in its critical section. -/
theorem lockOkBut_writeImage {s : State} (h : s.LockOk) {u : UnitId} (hin : (s.unit u).inCritical = true)
    (w : PendingWrite) : LockOkBut (s.writeImage (.loop u) w).2 u := by
  obtain ⟨hport, hloops, hstopped, hdriven⟩ := h
  have hlock := (hloops u).2 hin
  refine ⟨?_, fun v hv => ?_, by simp, fun v _ => by simpa using hstopped v, fun v => by simpa using hdriven v⟩
  · rw [hlock] at hport
    simpa using hport
  · have hloop := hloops v
    rw [hlock] at hloop
    simpa [hv.symm] using hloop

/-- With the unit's own loop out of its critical section again, the lock is exclusive. -/
theorem lockOk_setUnit {s : State} {u : UnitId} (h : LockOkBut s u) {y : UnitState} (hout : y.inCritical = false)
    (hstopped : y.run ≠ .running → y.stepJob = none) (hdriven : s.port.drives = some u → y.run ≠ .running) :
    (s.setUnit u y).LockOk := by
  refine ⟨by simpa using h.port, fun v => ?_, fun v => ?_, fun v => ?_⟩ <;> rw [State.setUnit_unit]
  all_goals by_cases hv : u = v
  · subst hv
    rw [if_pos rfl, hout]
    simpa using h.out
  · rw [if_neg hv]
    exact h.loops v (Ne.symm hv)
  · rw [if_pos hv]; exact hstopped
  · rw [if_neg hv]; exact h.stopped v (Ne.symm hv)
  · subst hv; rw [if_pos rfl]; exact hdriven
  · rw [if_neg hv]; exact h.driven v

/-- What is in order but for unit u stays so when a turn of u's loop changes only other registers of the block. -/
theorem LockOkBut.congr {s t : State} {u : UnitId} (h : LockOkBut s u) (hlock : t.busLock = s.busLock)
    (hport : t.port = s.port)
    (hunits : ∀ v, (t.unit v).run = (s.unit v).run ∧ (v ≠ u → (t.unit v).stepJob = (s.unit v).stepJob)) :
    LockOkBut t u where
  port := by rw [hlock, hport]; exact h.port
  loops v hv := by
    have hcritical : (t.unit v).inCritical = (s.unit v).inCritical := by
      unfold UnitState.inCritical; rw [(hunits v).2 hv]
    rw [hlock, hcritical]
    exact h.loops v hv
  out := by rw [hlock]; exact h.out
  stopped v hv := by rw [(hunits v).1, (hunits v).2 hv]; exact h.stopped v hv
  driven v := by rw [hport, (hunits v).1]; exact h.driven v

theorem lockOk_loopStepOps {s : State} {u : UnitId} (h : LockOkBut s u) (hrun : (s.unit u).run = .running)
    (ops : List StepOp) : (s.loopStepOps u ops).LockOk := by
  have hview := runOps_run u ops s
  have hbut : LockOkBut (runOps u ops s).2 u :=
    h.congr (runOps_busLock u ops s) (runOps_port u ops s) fun v => ⟨(hview v).1, fun _ => (hview v).2⟩
  have hrun' : ((runOps u ops s).2.unit u).run = .running := (hview u).1.trans hrun
  have hfree : s.port.drives ≠ some u := fun hd => h.driven u hd hrun
  rcases s.loopStepOps_cases u ops with ⟨-, he⟩ | ⟨job, hjob, he⟩ <;> rw [he]
  · exact lockOk_setUnit hbut (inCritical_of_no_job rfl) (fun _ => rfl) fun hd =>
      absurd (runOps_port u ops s ▸ hd) hfree
  · exact lockOk_setUnit hbut (runOps_job_unlocked u ops s job hjob) (fun hn => absurd hrun' hn) fun hd =>
      absurd (runOps_port u ops s ▸ hd) hfree

/-! ### A turn of the port -/

/-- The pacing loops' part of mutual exclusion, with the lock not the port's. -/
structure UnitsLockOk (s : State) : Prop where
  out : s.busLock ≠ .port
  loops : ∀ u, s.busLock = .loop u ↔ (s.unit u).inCritical = true
  stopped : ∀ u, (s.unit u).run ≠ .running → (s.unit u).stepJob = none

theorem unitsLockOk_of_out {s : State} (h : s.LockOk) (hout : s.port.inCritical = false) : UnitsLockOk s := by
  obtain ⟨hport, hloops, hstopped, -⟩ := h
  exact ⟨fun he => absurd (hport.1 he) (by simp [hout]), hloops, hstopped⟩

/-- Leaving its critical section, the port leaves the lock free, and no loop is in one. -/
theorem unitsLockOk_of_unlocked {s t : State} (h : s.LockOk) (hin : s.port.inCritical = true)
    (hfree : t.busLock = .free) (hunits : ∀ v, t.unit v = s.unit v) : UnitsLockOk t := by
  obtain ⟨hport, hloops, hstopped, -⟩ := h
  refine ⟨by simp [hfree], fun v => ?_, fun v => by rw [hunits]; exact hstopped v⟩
  have hloop := hloops v
  rw [hport.2 hin] at hloop
  rw [hfree, hunits]
  simpa using hloop

theorem UnitsLockOk.congr {s t : State} (h : UnitsLockOk s) (hlock : t.busLock = s.busLock)
    (hunits : ∀ v, (t.unit v).run = (s.unit v).run ∧ (t.unit v).stepJob = (s.unit v).stepJob) : UnitsLockOk t where
  out := by rw [hlock]; exact h.out
  loops v := by
    have hcritical : (t.unit v).inCritical = (s.unit v).inCritical := by
      unfold UnitState.inCritical; rw [(hunits v).2]
    rw [hlock, hcritical]
    exact h.loops v
  stopped v := by rw [(hunits v).1, (hunits v).2]; exact h.stopped v

/-- A command that stops a unit, or writes it with no Step under way, keeps the loops' part. -/
theorem UnitsLockOk.setUnit {s : State} (h : UnitsLockOk s) {u : UnitId} {y : UnitState} (hjob : y.stepJob = none)
    (hbefore : (s.unit u).stepJob = none) : UnitsLockOk (s.setUnit u y) := by
  refine ⟨h.out, fun v => ?_, fun v => ?_⟩ <;> rw [State.setUnit_unit] <;> by_cases hv : u = v
  · subst hv
    rw [if_pos rfl, inCritical_of_no_job hjob, ← inCritical_of_no_job hbefore]
    exact h.loops u
  · rw [if_neg hv]; exact h.loops v
  · rw [if_pos hv]; exact fun _ => hjob
  · rw [if_neg hv]; exact h.stopped v

theorem lockOk_of_units {s : State} (h : UnitsLockOk s) (hout : s.port.inCritical = false)
    (hdriven : ∀ u, s.port.drives = some u → (s.unit u).run ≠ .running) : s.LockOk :=
  ⟨⟨fun he => absurd he h.out, fun hin => by rw [hout] at hin; cases hin⟩, h.loops, h.stopped, hdriven⟩

theorem lockOk_of_idle {s : State} (h : UnitsLockOk s) (hidle : s.port = .idle) : s.LockOk :=
  lockOk_of_units h (by rw [hidle]; rfl) (by rw [hidle]; nofun)

theorem unitsLockOk_raise {s : State} (h : UnitsLockOk s) (e : Err) (info : Value) : UnitsLockOk (s.raise e info) :=
  h.congr (by rw [State.raise_busLock, if_neg h.out]) fun v => by simp

theorem lockOk_raise {s : State} (h : UnitsLockOk s) (e : Err) (info : Value) : (s.raise e info).LockOk :=
  lockOk_of_idle (unitsLockOk_raise h e info) rfl

theorem lockOk_respondOk {s : State} (h : UnitsLockOk s) (v : Value) : (s.respondOk v).LockOk :=
  lockOk_of_idle (h.congr rfl fun _ => ⟨rfl, rfl⟩) rfl

theorem lockOk_conclude {s : State} (h : UnitsLockOk s) (r : Answer) (v : Value) : (s.conclude r v).LockOk := by
  cases r with
  | ack => exact lockOk_respondOk h v
  | nack => exact lockOk_raise h .busIO 0
  | err d => exact lockOk_raise h .busIO d

theorem lockOk_portStepOps {s : State} (h : UnitsLockOk s) {u : UnitId} (hrun : (s.unit u).run ≠ .running)
    (ops : List StepOp) : (s.portStepOps u ops).LockOk := by
  have hview := runOps_run u ops s
  have hunits : UnitsLockOk (runOps u ops s).2 := h.congr (runOps_busLock u ops s) hview
  rcases s.portStepOps_cases u ops with ⟨-, he⟩ | ⟨job, hjob, he⟩ <;> rw [he]
  · exact lockOk_respondOk hunits _
  · refine lockOk_of_units (hunits.congr rfl fun _ => ⟨rfl, rfl⟩) (runOps_job_unlocked u ops s job hjob) ?_
    rintro v ⟨⟩
    exact (hview u).1 ▸ hrun

theorem lockOk_finishDeEnergize {s : State} (h : UnitsLockOk s) {u : UnitId} (hrun : (s.unit u).run ≠ .running)
    (why : DeEnergizeFor) (first : Answer) : (s.finishDeEnergize u why first).LockOk := by
  have hjob := h.stopped u hrun
  have hdeenergized (r : Answer) : ((s.unit u).deEnergized r).stepJob = none := by
    unfold UnitState.deEnergized; split <;> exact hjob
  have hforget : UnitsLockOk (s.forgetUnit u) := h.congr rfl fun _ => ⟨rfl, rfl⟩
  rcases s.finishDeEnergize_cases u why first with ⟨-, -, he⟩ | ⟨-, -, he⟩ | ⟨-, -, he⟩ | ⟨-, -, he⟩ <;> rw [he]
  · refine lockOk_respondOk (h.setUnit ?_ hjob) 0
    exact hdeenergized .ack
  · refine lockOk_conclude (hforget.setUnit ?_ hjob) first 0
    exact hdeenergized first
  · exact lockOk_respondOk ((h.congr (by simp) (by simp)).setUnit rfl (by simpa using hjob)) 0
  · exact lockOk_conclude ((hforget.congr (by simp) (by simp)).setUnit rfl (by simpa using hjob)) first 0

theorem lockOk_deEnergizeFrom {s : State} (h : UnitsLockOk s) {u : UnitId} (hrun : (s.unit u).run ≠ .running)
    (why : DeEnergizeFor) (chs : List ChannelId) (first : Answer) : (s.deEnergizeFrom u why chs first).LockOk := by
  refine deEnergizeFrom_induction (fun t => UnitsLockOk t ∧ (t.unit u).run ≠ .running) State.LockOk
    (fun t ch _ ht => ?skip) (fun t ht => lockOk_finishDeEnergize ht.1 ht.2 why first)
    (fun t ch rest ht _ _ _ => ?write) ⟨h, hrun⟩
  case skip => exact ⟨ht.1.congr rfl (by simp), by simpa using ht.2⟩
  case write =>
    refine lockOk_of_units (ht.1.congr rfl (by simp)) rfl ?_
    rintro v ⟨⟩
    simpa using ht.2

theorem lockOk_afterHold {s : State} (h : UnitsLockOk s) {u : UnitId} (hrun : (s.unit u).run ≠ .running)
    (why : HoldFor) : (s.afterHold u why).LockOk := by
  cases why with
  | cancel => exact lockOk_respondOk h _
  | stop => exact lockOk_deEnergizeFrom h hrun .stop _ .ack
  | dispose => exact lockOk_deEnergizeFrom h hrun .dispose _ .ack

theorem lockOk_portApply {s : State} (h : UnitsLockOk s) (ch : ChannelId) (ratio : BitVec 13) (inv : Bool) (v : Value) :
    (s.portApply ch ratio inv v).LockOk := by
  have hspec : UnitsLockOk (s.setSpec ch ratio inv) := h.congr rfl (by simp)
  rcases s.portApply_cases ch ratio inv v with ⟨-, he⟩ | ⟨-, he⟩ <;> rw [he]
  · exact lockOk_respondOk hspec v
  · exact lockOk_of_units (hspec.congr rfl (by simp)) rfl nofun

theorem lockOk_finishWrite {s : State} (h : UnitsLockOk s) (ch : ChannelId) (fin : WriteEnd) (r : Answer) :
    (s.finishWrite ch fin r).LockOk := by
  cases fin with
  | release => exact lockOk_conclude (s := s.releaseChannel ch) (h.congr rfl fun _ => ⟨rfl, rfl⟩) r 0
  | reply v => exact lockOk_conclude h r v

theorem lockOk_failPrescale {s : State} (h : UnitsLockOk s) (stage : PrescaleStage) (why : PrescaleFor) (r : Answer) :
    (s.failPrescale stage why r).LockOk := by
  unfold State.failPrescale
  split
  · exact lockOk_raise h .deviceNotFound 0
  · exact lockOk_conclude h _ 0

/-! ### Every step -/

theorem accum_run_of_job {x : UnitState} (h : x.stepJob = none) : x.accum.stepJob = none := by
  rcases x.accum_cases with he | he | he <;> rw [he] <;> first | rfl | exact h

theorem tick_inCritical (p : PortState) : p.tick.inCritical = p.inCritical := by
  fun_cases PortState.tick p <;> rfl

theorem tick_drives (p : PortState) : p.tick.drives = p.drives := by
  fun_cases PortState.tick p <;> rfl

theorem drives_of_not_step {p : PortState} {job : PortJob} (hp : p = .busy job)
    (hdrives : (PortState.busy job).drives = none) (u : UnitId) : p.drives ≠ some u := by
  rw [hp, hdrives]; nofun

/-- The port's critical section goes on: the lock and the units are as before. -/
theorem lockOk_of_same_section {s t : State} (h : s.LockOk) (hin : s.port.inCritical = t.port.inCritical)
    (hlock : t.busLock = s.busLock) (hunits : ∀ v, t.unit v = s.unit v)
    (hdriven : ∀ u, t.port.drives = some u → s.port.drives = some u) : t.LockOk := by
  obtain ⟨hport, hloops, hstopped, hdriven'⟩ := h
  refine ⟨by rw [hlock, ← hin]; exact hport, fun v => by rw [hlock, hunits]; exact hloops v,
    fun v => by rw [hunits]; exact hstopped v, fun v hv => by rw [hunits]; exact hdriven' v (hdriven v hv)⟩

theorem lockedJob_drives (addr : BitVec 7) (job : PortJob) :
    (PortState.busy (lockedJob addr job)).drives = (PortState.busy job).drives := by
  cases job <;> rfl

theorem lockedJob_inCritical (addr : BitVec 7) {job : PortJob} (h : ¬IsHold job) :
    (lockedJob addr job).inCritical = true := by
  cases job with
  | hold => exact absurd trivial h
  | _ => rfl

/-- From Free no agent is in a critical section, so the one that takes the lock is alone in it. -/
theorem lockOk_portLock {s : State} (h : s.LockOk) {job : PortJob} (hport : s.port = .busy job) (hhold : ¬IsHold job)
    (hfree : s.busLock = .free) :
    State.LockOk { s with busLock := .port, port := .busy (lockedJob s.busAddr job) } := by
  obtain ⟨-, hloops, hstopped, hdriven⟩ := h
  refine ⟨⟨fun _ => lockedJob_inCritical s.busAddr hhold, fun _ => rfl⟩, fun v => ?_, hstopped, fun v hv => ?_⟩
  · have hloop := hloops v
    rw [hfree] at hloop
    simpa using hloop
  · rw [lockedJob_drives, ← hport] at hv
    exact hdriven v hv

theorem lockOk_loopLock {s : State} (h : s.LockOk) {u : UnitId} {job : StepJob} (hrun : (s.unit u).run = .running)
    (hfree : s.busLock = .free) :
    (State.setUnit { s with busLock := .loop u } u
      { s.unit u with stepJob := some ⟨{ job.write with locked := true }, job.rest⟩ }).LockOk := by
  obtain ⟨hport, hloops, hstopped, hdriven⟩ := h
  rw [hfree] at hport
  refine ⟨by simpa using hport, fun v => ?_, fun v => ?_, fun v hv => ?_⟩ <;> rw [State.setUnit_unit] <;>
    by_cases huv : u = v
  · subst huv
    rw [if_pos rfl]
    exact ⟨fun _ => rfl, fun _ => rfl⟩
  · rw [if_neg huv]
    have hloop := hloops v
    rw [hfree] at hloop
    simpa [huv] using hloop
  · rw [if_pos huv]; exact fun hn => absurd hrun hn
  · rw [if_neg huv]; exact hstopped v
  · subst huv; exact absurd hrun (hdriven u hv)
  · rw [if_neg huv]; exact hdriven v hv

theorem inCritical_of_job {x : UnitState} {job : StepJob} (hjob : x.stepJob = some job)
    (hlocked : job.write.locked = true) : x.inCritical = true := by
  rw [UnitState.inCritical, hjob]; exact hlocked

theorem lockOk_of_moved {s t : State} {c : Choice} (h : s.LockOk) (hm : Moved s c t) : t.LockOk := by
  have hdriven := h.2.2.2
  have unlocked {job : PortJob} (hport : s.port = .busy job) (hin : job.inCritical = true) {t : State}
      (hfree : t.busLock = .free) (hunits : ∀ v, t.unit v = s.unit v) : UnitsLockOk t :=
    unitsLockOk_of_unlocked h (by rw [hport]; exact hin) hfree hunits
  cases hm with
  | stays => exact h
  | tick =>
    exact lockOk_of_same_section h (tick_inCritical s.port).symm rfl (fun _ => rfl)
      fun u hu => (tick_drives s.port) ▸ hu
  | accum u hrun hjob =>
    exact lockOk_setUnit (lockOkBut_of_out h (inCritical_of_no_job hjob))
      (inCritical_of_no_job (accum_run_of_job hjob)) (fun _ => accum_run_of_job hjob)
      fun hd => absurd hrun (hdriven u hd)
  | seen u hrun hjob =>
    have hnone : (if (s.unit u).policyApplies then { s.unit u with cooling := true } else (s.unit u).finish).stepJob =
        none := by split <;> [exact hjob; rfl]
    exact lockOk_setUnit (lockOkBut_of_out h (inCritical_of_no_job hjob)) (inCritical_of_no_job hnone)
      (fun _ => hnone) fun hd => absurd hrun (hdriven u hd)
  | due u hrun hjob =>
    refine lockOk_loopStepOps (s := s.advanceIndex u (s.unit u).dir)
      ((lockOkBut_of_out h (inCritical_of_no_job hjob)).congr rfl rfl fun v => ?_) (by simpa using hrun) _
    rw [State.advanceIndex_unit]
    split <;> exact ⟨rfl, fun _ => rfl⟩
  | loopLock u job hrun hjob hfree => exact lockOk_loopLock h hrun hfree
  | loopWritten u job hrun hjob hlocked =>
    exact lockOk_loopStepOps (lockOkBut_writeImage h (inCritical_of_job hjob hlocked) job.write) (by simpa using hrun) _
  | loopFailed u job hrun hjob hlocked =>
    have hbut := lockOkBut_writeImage h (inCritical_of_job hjob hlocked) job.write
    refine lockOk_setUnit (s := (s.writeImage (.loop u) job.write).2.failStep u)
      (hbut.congr (by simp) (by simp) fun v => ?_) (inCritical_of_no_job rfl) (fun _ => rfl) fun _ => nofun
    rw [State.failStep_unit]
    split <;> exact ⟨rfl, fun _ => rfl⟩
  | portLock job hport hout hhold hfree => exact lockOk_portLock h hport hhold hfree
  | channelWritten w fin hport hlocked =>
    exact lockOk_finishWrite (unlocked hport hlocked (by simp) (by simp)) _ fin _
  | generalCalled addr hport =>
    exact lockOk_of_same_section h (by rw [hport]; rfl) (by simp) (by simp) nofun
  | generalCallFailed addr e info hport =>
    exact lockOk_raise (unlocked hport rfl (by simp) (by simp)) e info
  | prescaleDone addr p why hport =>
    cases why <;> refine lockOk_respondOk (unlocked hport rfl ?_ fun _ => ?_) _ <;> rfl
  | prescaleWritten addr p stage why t hport _ ht =>
    subst ht
    exact lockOk_of_same_section h (by rw [hport]; rfl) (by simp) (by simp) nofun
  | prescaleFailed addr p stage why t hport _ ht =>
    subst ht
    exact lockOk_failPrescale (unlocked hport rfl (by simp) (by simp)) stage why _
  | released u why hport hrun =>
    exact lockOk_afterHold (unitsLockOk_of_out h (by rw [hport]; rfl)) hrun why
  | stepWritten u job hport hlocked =>
    exact lockOk_portStepOps (unlocked hport hlocked (by simp) (by simp))
      (by simpa using hdriven u (by rw [hport]; rfl)) _
  | stepFailed u job hport hlocked =>
    have hu : UnitsLockOk (s.writeImage .port job.write).2 := unlocked hport hlocked (by simp) (by simp)
    refine lockOk_conclude (s := (s.writeImage .port job.write).2.failStep u) (hu.congr (by simp) fun v => ?_) _ 0
    rw [State.failStep_unit]
    split <;> exact ⟨rfl, rfl⟩
  | deEnergizeWritten u why w rest first hport hlocked =>
    exact lockOk_deEnergizeFrom (unlocked hport hlocked (by simp) (by simp))
      (by simpa using hdriven u (by rw [hport]; rfl)) why rest _

/-- A unit's registers other than RUN and its Step are no matter of the lock. -/
theorem UnitsLockOk.setUnit_same {s : State} (h : UnitsLockOk s) {u : UnitId} {y : UnitState}
    (hrun : y.run = (s.unit u).run) (hjob : y.stepJob = (s.unit u).stepJob) : UnitsLockOk (s.setUnit u y) := by
  refine h.congr rfl fun v => ?_
  rw [State.setUnit_unit]
  split
  case isTrue hv => subst hv; exact ⟨hrun, hjob⟩
  case isFalse => exact ⟨rfl, rfl⟩

theorem lockOk_of_begun {s t : State} {i : Instr} (h : s.LockOk) (hidle : s.port = .idle) (hb : Begun s i t) :
    t.LockOk := by
  have hu : UnitsLockOk s := unitsLockOk_of_out h (by rw [hidle]; rfl)
  have busy {t : State} (ht : UnitsLockOk t) {job : PortJob} (hport : t.port = .busy job)
      (hout : job.inCritical = false) (hdrives : (PortState.busy job).drives = none) : t.LockOk :=
    lockOk_of_units ht (by rw [hport]; exact hout) fun u hd => absurd hd (drives_of_not_step hport hdrives u)
  cases hb with
  | answered i v => exact lockOk_respondOk hu v
  | init | setfreq | rel => exact busy (hu.congr rfl fun _ => ⟨rfl, rfl⟩) rfl rfl rfl
  | disable => exact busy (hu.congr rfl fun _ => by simp) rfl rfl rfl
  | acq => exact lockOk_respondOk (hu.congr rfl fun _ => by simp) 0
  | setduty => exact lockOk_portApply hu ..
  | enable ch => exact lockOk_portApply (s := s.setDisabled ch false) (hu.congr rfl fun _ => by simp) ..
  | cfgmotor n pa pb spr u =>
    have howners : UnitsLockOk (s.setOwners (bindingChannels s.cfg.portMap pa pb) (.unit u)) :=
      hu.congr (by simp) (by simp)
    refine lockOk_respondOk (howners.setUnit_same ?_ ?_) 0 <;> rw [State.setOwners_unit] <;> rfl
  | selstyle | setpf | setspeed | setpolicy => refine lockOk_respondOk (hu.setUnit_same ?_ ?_) _ <;> rfl
  | nextstep n dir u hbound hrun =>
    have hrun' : (s.unit u).handStep.run ≠ .running := by
      unfold UnitState.handStep
      simp only
      split
      · nofun
      · exact hrun
    have hjob := hu.stopped u hrun
    refine lockOk_portStepOps (s := (s.setUnit u (s.unit u).handStep).advanceIndex u dir)
      ((UnitsLockOk.setUnit hu (y := (s.unit u).handStep) hjob hjob).congr rfl fun v => ?_) (by simpa using hrun') _
    rw [State.advanceIndex_unit]
    split <;> exact ⟨rfl, rfl⟩
  | asked i u why =>
    have hasked : UnitsLockOk (s.setUnit u { s.unit u with cancelReq := true }) := hu.setUnit_same rfl rfl
    exact busy (hasked.congr rfl fun _ => ⟨rfl, rfl⟩) rfl rfl rfl
  | ended i u why _ hrun => exact lockOk_afterHold hu hrun why
  | stepfor n dir cont count u _ hrun =>
    refine lockOk_respondOk (hu.setUnit ?_ (hu.stopped u hrun)) 0
    rfl

/-- Settles O15: every turn and every command keeps the lock exclusive. -/
theorem lockStaysExclusive : Obligations.LockStaysExclusive :=
  step_keeps_of_turns State.LockOk (fun _ _ h => h) (fun _ _ _ h => h) (fun _ _ h => h)
    (fun _ _ _ h hm => lockOk_of_moved h hm)
    (fun _ e h hidle => lockOk_raise (unitsLockOk_of_out h (by rw [hidle]; rfl)) e 0)
    (fun _ _ _ h hidle _ hb => lockOk_of_begun h hidle hb)

end Sys2Proof.LockExclusion
end

section
/-! Legal register values (R26, R30, R33, R34, R36 to R39): every update writes values in range. A Step's ratios are
those of legal coil currents and power factors (R109, R111), because a unit that steps is READY with INDEX inside its
table. -/

namespace Sys2Proof.RegisterRanges

open Machine StepRelation StepFrames StepTables

/-! ### The registers without the port -/

/-- The units, the specs and the prescale hold legal values. -/
structure RegsOk (s : State) : Prop where
  units : ∀ u, (s.unit u).Legal ∧ (s.unit u).BindingLegal
  specs : ∀ ch, ratioLegal (s.channel ch).specRatio
  prescale : s.initialized = true → 3 ≤ s.prescale.toNat

theorem regsOk_of_registersLegal {s : State} (h : s.RegistersLegal) : RegsOk s := ⟨h.1, h.2.1, h.2.2.1⟩

/-- An update of one unit keeps the registers legal if it leaves that unit legal. -/
theorem RegsOk.update {s t : State} (h : RegsOk s) (u : UnitId) (hlegal : (t.unit u).Legal)
    (hbinding : (t.unit u).BindingLegal) (hothers : ∀ v, v ≠ u → t.unit v = s.unit v)
    (hspecs : ∀ ch, (t.channel ch).specRatio = (s.channel ch).specRatio)
    (hinit : t.initialized = s.initialized) (hprescale : t.prescale = s.prescale) : RegsOk t where
  units v := by
    by_cases hv : v = u
    · subst hv; exact ⟨hlegal, hbinding⟩
    · rw [hothers v hv]; exact h.units v
  specs ch := by rw [hspecs]; exact h.specs ch
  prescale := by rw [hinit, hprescale]; exact h.prescale

theorem RegsOk.congr {s t : State} (h : RegsOk s) (hunits : ∀ v, t.unit v = s.unit v)
    (hspecs : ∀ ch, (t.channel ch).specRatio = (s.channel ch).specRatio) (hinit : t.initialized = s.initialized)
    (hprescale : t.prescale = s.prescale) : RegsOk t :=
  h.update 0 (hunits 0 ▸ (h.units 0).1) (hunits 0 ▸ (h.units 0).2) (fun v _ => hunits v) hspecs hinit hprescale

theorem RegsOk.setUnit {s : State} (h : RegsOk s) (u : UnitId) {y : UnitState} (hlegal : y.Legal)
    (hbinding : y.BindingLegal) : RegsOk (s.setUnit u y) :=
  h.update u (by simpa using hlegal) (by simpa using hbinding) (fun v hv => State.setUnit_unit_ne s u v y (Ne.symm hv))
    (by simp) rfl rfl

theorem RegsOk.setSpec {s : State} (h : RegsOk s) (ch : ChannelId) {ratio : BitVec 13} (hratio : ratioLegal ratio)
    (inv : Bool) : RegsOk (s.setSpec ch ratio inv) where
  units v := by simpa using h.units v
  specs d := by
    rw [State.setSpec_channel]
    split
    · exact hratio
    · exact h.specs d
  prescale := h.prescale

theorem ratioLegal_zero : ratioLegal 0 := by decide

theorem ratioLegal_ofNat {n : Nat} (h : n ≤ 4096) : ratioLegal (BitVec.ofNat 13 n) := by
  rw [ratioLegal, BitVec.toNat_ofNat]
  exact le_trans (Nat.mod_le _ _) h

theorem specRatio_writeImage (s : State) (a : Agent) (w : PendingWrite) (ch : ChannelId) :
    ((s.writeImage a w).2.channel ch).specRatio = (s.channel ch).specRatio := by
  rw [State.writeImage_channel]
  split
  · unfold Channel.answered; split <;> rfl
  · rfl

theorem RegsOk.writeImage {s : State} (h : RegsOk s) (a : Agent) (w : PendingWrite) : RegsOk (s.writeImage a w).2 :=
  h.congr (by simp) (specRatio_writeImage s a w) (by simp) (by simp)

/-! ### A unit's registers -/

section Unit

variable {x : UnitState}

theorem legal_finish (h : x.Legal) : x.finish.Legal := by
  obtain ⟨hpf, hA, hB, hready, -, -⟩ := h
  exact ⟨hpf, hA, hB, hready, nofun, nofun⟩

theorem legal_accum (h : x.Legal) : x.accum.Legal := by
  rcases x.accum_cases with he | he | he <;> rw [he] <;> [exact legal_finish h; exact h; exact h]

theorem bindingLegal_accum (h : x.BindingLegal) : x.accum.BindingLegal := by
  rcases x.accum_cases with he | he | he <;> rw [he] <;> exact h

/-- A failed Step leaves both LASTs' ratios as they were, and the run is over (R115, R144). -/
theorem legal_failed (h : x.Legal) : ({ x.invalidateLast with busErr := true } : UnitState).finish.Legal := by
  obtain ⟨hpf, hA, hB, hready, -, -⟩ := h
  exact ⟨hpf, hA, hB, hready, nofun, nofun⟩

theorem legal_failed_of_idle (h : x.Legal) (hrun : x.run ≠ .running) :
    ({ x.invalidateLast with busErr := true } : UnitState).Legal := by
  obtain ⟨hpf, hA, hB, hready, -, hops⟩ := h
  exact ⟨hpf, hA, hB, hready, fun hr => absurd hr hrun, hops⟩

theorem legal_setLast (h : x.Legal) (c : Coil) {ratio : BitVec 13} (hratio : ratioLegal ratio) (pol : Pol) :
    (x.setLast c ⟨true, ratio, pol⟩).Legal := by
  obtain ⟨hpf, hA, hB, hready, hrun, hops⟩ := h
  cases c with
  | a => exact ⟨hpf, hratio, hB, hready, hrun, hops⟩
  | b => exact ⟨hpf, hA, hratio, hready, hrun, hops⟩

theorem legal_stepDone (h : x.Legal) : x.stepDone.Legal := by
  obtain ⟨hpf, hA, hB, hready, hrun, -⟩ := h
  exact ⟨hpf, hA, hB, hready, hrun, nofun⟩

theorem legal_withJob (h : x.Legal) {job : StepJob} (hops : ∀ op ∈ job.rest, op.Legal) :
    ({ x with stepJob := some job } : UnitState).Legal := by
  obtain ⟨hpf, hA, hB, hready, hrun, -⟩ := h
  refine ⟨hpf, hA, hB, hready, hrun, ?_⟩
  rintro _ ⟨⟩
  exact hops

/-- INDEX stays inside the table of a READY unit (R36). -/
theorem nextIndex_lt (hnms : nmsLegal x.style x.nms.toNat = true) (dir : Dir) :
    (nextIndex x dir).toNat < tableLen x.style x.nms.toNat := by
  obtain ⟨hlen, -⟩ := tableLen_mem x.style x.nms.toNat hnms
  rw [nextIndex_toNat x dir hnms]
  exact Nat.mod_lt _ (by omega)

theorem legal_advanced (h : x.Legal) (dir : Dir) : ({ x with index := nextIndex x dir } : UnitState).Legal := by
  obtain ⟨hpf, hA, hB, hready, hrun, hops⟩ := h
  exact ⟨hpf, hA, hB, fun hr => ⟨(hready hr).1, nextIndex_lt (hready hr).1 dir⟩, hrun, hops⟩

theorem legal_handStep (h : x.Legal) (hrun : x.run ≠ .running) : x.handStep.Legal := by
  obtain ⟨hpf, hA, hB, hready, -, hops⟩ := h
  refine ⟨hpf, hA, hB, hready, fun hr => ?_, hops⟩
  unfold UnitState.handStep at hr
  simp only at hr
  split at hr
  · cases hr
  · exact absurd hr hrun

theorem legal_deEnergized (h : x.Legal) (first : Answer) {run : RunState} (hrun : run ≠ .running) :
    ({ x.deEnergized first with run := run } : UnitState).Legal := by
  obtain ⟨hpf, hA, hB, hready, -, hops⟩ := h
  unfold UnitState.deEnergized
  split
  · exact ⟨hpf, ratioLegal_zero, ratioLegal_zero, hready, fun hr => absurd hr hrun, hops⟩
  · exact ⟨hpf, hA, hB, hready, fun hr => absurd hr hrun, hops⟩

theorem bindingLegal_deEnergized (h : x.BindingLegal) (first : Answer) (run : RunState) :
    ({ x.deEnergized first with run := run } : UnitState).BindingLegal := by
  unfold UnitState.deEnergized
  split <;> exact h

end Unit

theorem legal_reset : UnitState.reset.Legal := by
  refine ⟨by decide, ratioLegal_zero, ratioLegal_zero, nofun, nofun, nofun⟩

theorem bindingLegal_reset : UnitState.reset.BindingLegal := ⟨nofun, fun _ => rfl⟩

/-! ### The operations of Step -/

theorem legal_ite {p : Prop} [Decidable p] {op : StepOp} (h : op.Legal) : ∀ o ∈ (if p then [op] else []), o.Legal := by
  split
  · exact List.forall_mem_singleton.2 h
  · nofun

theorem coilOps_legal (t : PortTriple) (last : Last) (c : Coil) {cur : Int} {pf : Nat} (hcur : cur.natAbs ≤ 65536)
    (hpf : pf ≤ 65536) : ∀ op ∈ coilOps t last c cur pf, op.Legal := by
  have hratio : ratioLegal (BitVec.ofNat 13 (coilRatio cur pf)) := ratioLegal_ofNat (coilRatio_le cur pf hcur hpf)
  have hoff (tg : Bool × Bool) (old) : ∀ op ∈ offWrites t tg old, op.Legal :=
    List.forall_mem_append.2 ⟨legal_ite ratioLegal_zero, legal_ite ratioLegal_zero⟩
  have hon (tg : Bool × Bool) (old) : ∀ op ∈ onWrites t tg old, op.Legal :=
    List.forall_mem_append.2 ⟨legal_ite (op := .apply _ 4096) (ratioLegal_ofNat le_rfl),
      legal_ite (op := .apply _ 4096) (ratioLegal_ofNat le_rfl)⟩
  unfold coilOps
  refine List.forall_mem_append.2 ⟨List.forall_mem_append.2 ⟨?_, legal_ite hratio⟩, List.forall_mem_singleton.2 hratio⟩
  split
  · exact List.forall_mem_append.2 ⟨hoff _ _, hon _ _⟩
  · nofun

/-- The operations of a READY unit's Step are legal: its entry is one of the table's (R108, R109). -/
theorem stepOps_legal {s : State} {u : UnitId} (h : (s.unit u).Legal) (hready : (s.unit u).ready = true) :
    ∀ op ∈ s.stepOps u, op.Legal := by
  obtain ⟨hpf, -, -, hstyle, -, -⟩ := h
  obtain ⟨hnms, hindex⟩ := hstyle hready
  obtain ⟨ha, hb⟩ := tableEntry_currentsInRange hindex
  simp only [State.stepOps, entryOf_eq _ hready hnms hindex]
  exact List.forall_mem_append.2 ⟨coilOps_legal _ _ _ hb hpf, coilOps_legal _ _ _ ha hpf⟩

theorem runOps_regsOk {s : State} (h : RegsOk s) (u : UnitId) {ops : List StepOp} (hops : ∀ op ∈ ops, op.Legal) :
    RegsOk (runOps u ops s).2 := by
  refine runOps_induction RegsOk (fun t c ratio pol hm ht => ?_) (fun t ch ratio hm ht => ht.setSpec ch (hops _ hm) false) h
  exact ht.setUnit u (legal_setLast (ht.units u).1 c (hops _ hm) pol) (by cases c <;> exact (ht.units u).2)

theorem runOps_job_legal {u : UnitId} {ops : List StepOp} {s : State} {job : StepJob} (hops : ∀ op ∈ ops, op.Legal)
    (h : (runOps u ops s).1 = some job) : ∀ op ∈ job.rest, op.Legal := by
  obtain ⟨-, -, -, -, hrest⟩ := runOps_job u ops s job h
  exact fun op hop => hops op (hrest hop)

theorem loopStepOps_regsOk {s : State} (h : RegsOk s) (u : UnitId) {ops : List StepOp} (hops : ∀ op ∈ ops, op.Legal) :
    RegsOk (s.loopStepOps u ops) := by
  have hrun := runOps_regsOk h u hops
  obtain ⟨hlegal, hbinding⟩ := hrun.units u
  rcases s.loopStepOps_cases u ops with ⟨-, he⟩ | ⟨job, hjob, he⟩ <;> rw [he]
  · exact hrun.setUnit u (legal_stepDone hlegal) hbinding
  · exact hrun.setUnit u (legal_withJob hlegal (runOps_job_legal hops hjob)) hbinding

/-! ### The port's commands -/

theorem registersLegal_of_regsOk {s : State} (h : RegsOk s) (hport : s.port.Legal)
    (hdriven : ∀ u, s.port.drives = some u → (s.unit u).run ≠ .running) : s.RegistersLegal :=
  ⟨h.units, h.specs, h.prescale, hport, hdriven⟩

theorem registersLegal_of_idle {s : State} (h : RegsOk s) (hidle : s.port = .idle) : s.RegistersLegal :=
  registersLegal_of_regsOk h (by rw [hidle]; trivial) (by rw [hidle]; nofun)

theorem RegsOk.conclude {s : State} (h : RegsOk s) (r : Answer) (v : Value) : (s.conclude r v).RegistersLegal :=
  registersLegal_of_idle (h.congr (by simp) (by simp) (by simp) (by simp)) (by simp)

theorem RegsOk.raise {s : State} (h : RegsOk s) (e : Err) (v : Value) : (s.raise e v).RegistersLegal :=
  registersLegal_of_idle (h.congr (by simp) (by simp) (by simp) (by simp)) rfl

theorem RegsOk.respondOk {s : State} (h : RegsOk s) (v : Value) : (s.respondOk v).RegistersLegal :=
  registersLegal_of_idle (h.congr (by simp) (by simp) (by simp) (by simp)) rfl

theorem RegsOk.busy {s : State} (h : RegsOk s) {job : PortJob} (hport : PortState.Legal (.busy job))
    (hdriven : ∀ u, (PortState.busy job).drives = some u → (s.unit u).run ≠ .running) :
    State.RegistersLegal { s with port := .busy job } :=
  registersLegal_of_regsOk (h.congr (fun _ => rfl) (fun _ => rfl) rfl rfl) hport hdriven

theorem portStepOps_registersLegal {s : State} (h : RegsOk s) {u : UnitId} (hrun : (s.unit u).run ≠ .running)
    {ops : List StepOp} (hops : ∀ op ∈ ops, op.Legal) : (s.portStepOps u ops).RegistersLegal := by
  have hregs := runOps_regsOk h u hops
  rcases s.portStepOps_cases u ops with ⟨-, he⟩ | ⟨job, hjob, he⟩ <;> rw [he]
  · exact hregs.respondOk _
  · refine hregs.busy (runOps_job_legal hops hjob) ?_
    rintro v ⟨⟩
    exact (runOps_run u ops s u).1 ▸ hrun

theorem finishDeEnergize_registersLegal {s : State} (h : RegsOk s) (u : UnitId) (why : DeEnergizeFor) (first : Answer) :
    (s.finishDeEnergize u why first).RegistersLegal := by
  obtain ⟨hlegal, hbinding⟩ := h.units u
  have hforget : RegsOk (s.forgetUnit u) := h.congr (by simp) (by simp) (by simp) (by simp)
  have howners {t : State} (ht : RegsOk t) (chs : List ChannelId) : RegsOk (t.setOwners chs .free) :=
    ht.congr (by simp) (fun ch => by rw [State.setOwners_channel]; split <;> rfl) (by simp) (by simp)
  rcases s.finishDeEnergize_cases u why first with ⟨-, -, he⟩ | ⟨-, -, he⟩ | ⟨-, -, he⟩ | ⟨-, -, he⟩ <;> rw [he]
  · exact (h.setUnit u (legal_deEnergized hlegal .ack (run := .stopped) nofun)
      (bindingLegal_deEnergized hbinding .ack .stopped)).respondOk 0
  · exact (hforget.setUnit u (legal_deEnergized hlegal first (run := .braking) nofun)
      (bindingLegal_deEnergized hbinding first .braking)).conclude first 0
  · exact ((howners h _).setUnit u legal_reset bindingLegal_reset).respondOk 0
  · exact ((howners hforget _).setUnit u legal_reset bindingLegal_reset).conclude first 0

theorem deEnergizeFrom_registersLegal {s : State} (h : RegsOk s) {u : UnitId} (hrun : (s.unit u).run ≠ .running)
    (why : DeEnergizeFor) (chs : List ChannelId) (first : Answer) :
    (s.deEnergizeFrom u why chs first).RegistersLegal := by
  refine deEnergizeFrom_induction (fun t => RegsOk t ∧ (t.unit u).run ≠ .running) State.RegistersLegal
    (fun t ch _ ht => ⟨ht.1.setSpec ch ratioLegal_zero false, by simpa using ht.2⟩)
    (fun t ht => finishDeEnergize_registersLegal ht.1 u why first) (fun t ch rest ht _ _ _ => ?_) ⟨h, hrun⟩
  refine (ht.1.setSpec ch ratioLegal_zero false).busy trivial ?_
  rintro v ⟨⟩
  simpa using ht.2

theorem afterHold_registersLegal {s : State} (h : RegsOk s) {u : UnitId} (hrun : (s.unit u).run ≠ .running)
    (why : HoldFor) : (s.afterHold u why).RegistersLegal := by
  cases why with
  | cancel => exact h.respondOk _
  | stop => exact deEnergizeFrom_registersLegal h hrun .stop _ .ack
  | dispose => exact deEnergizeFrom_registersLegal h hrun .dispose _ .ack

theorem portApply_registersLegal {s : State} (h : RegsOk s) (ch : ChannelId) {ratio : BitVec 13}
    (hratio : ratioLegal ratio) (inv : Bool) (v : Value) : (s.portApply ch ratio inv v).RegistersLegal := by
  rcases s.portApply_cases ch ratio inv v with ⟨-, he⟩ | ⟨-, he⟩ <;> rw [he]
  · exact (h.setSpec ch hratio inv).respondOk v
  · exact (h.setSpec ch hratio inv).busy trivial nofun

theorem finishWrite_registersLegal {s : State} (h : RegsOk s) (ch : ChannelId) (fin : WriteEnd) (r : Answer) :
    (s.finishWrite ch fin r).RegistersLegal := by
  cases fin with
  | release =>
    refine RegsOk.conclude (s := s.releaseChannel ch) ⟨h.units, fun d => ?_, h.prescale⟩ r 0
    rw [State.releaseChannel_channel]
    split
    · exact ratioLegal_zero
    · exact h.specs d
  | reply v => exact h.conclude r v

theorem finishPrescale_registersLegal {s : State} (h : RegsOk s) (addr : BitVec 7) {p : Byte} (hp : 3 ≤ p.toNat)
    (why : PrescaleFor) : (s.finishPrescale addr p why).RegistersLegal := by
  cases why <;> exact registersLegal_of_idle ⟨h.units, h.specs, fun _ => hp⟩ rfl

theorem failPrescale_registersLegal {s : State} (h : RegsOk s) (stage : PrescaleStage) (why : PrescaleFor) (r : Answer) :
    (s.failPrescale stage why r).RegistersLegal := by
  unfold State.failPrescale
  split
  · exact h.raise .deviceNotFound 0
  · exact h.conclude _ 0

/-! ### Every step -/

/-- An update of the other fields keeps every register, and the port where its job is as legal as before. -/
theorem registersLegal_of_same {s t : State} (h : s.RegistersLegal) (hunits : ∀ v, t.unit v = s.unit v)
    (hspecs : ∀ ch, (t.channel ch).specRatio = (s.channel ch).specRatio) (hinit : t.initialized = s.initialized)
    (hprescale : t.prescale = s.prescale) (hport : t.port.Legal)
    (hdriven : ∀ u, t.port.drives = some u → s.port.drives = some u) : t.RegistersLegal :=
  registersLegal_of_regsOk ((regsOk_of_registersLegal h).congr hunits hspecs hinit hprescale) hport
    fun u hu => hunits u ▸ h.2.2.2.2 u (hdriven u hu)

/-- A pacing loop's turn keeps the port and its unit's RUN or ends its run. -/
theorem registersLegal_of_loop {s t : State} (h : s.RegistersLegal) {u : UnitId} (hrun : (s.unit u).run = .running)
    (ht : RegsOk t) (hport : t.port = s.port) (hothers : ∀ v, v ≠ u → t.unit v = s.unit v) : t.RegistersLegal := by
  obtain ⟨-, -, -, hlegal, hdriven⟩ := h
  refine registersLegal_of_regsOk ht (hport ▸ hlegal) fun v hv => ?_
  rw [hport] at hv
  rw [hothers v fun hvu => hdriven v hv (hvu ▸ hrun)]
  exact hdriven v hv

theorem tick_legal {p : PortState} (h : p.Legal) : p.tick.Legal := by
  unfold PortState.tick
  split <;> exact h

theorem lockedJob_legal (addr : BitVec 7) {job : PortJob} (h : PortState.Legal (.busy job)) :
    PortState.Legal (.busy (lockedJob addr job)) := by
  cases job <;> exact h

theorem defaultPrescale_legal : 3 ≤ (BitVec.ofNat 8 defaultPrescale).toNat := by decide

theorem loopStepOps_unit_of_ne (s : State) {u v : UnitId} (hv : v ≠ u) (ops : List StepOp) :
    (s.loopStepOps u ops).unit v = s.unit v := by
  rcases s.loopStepOps_cases u ops with ⟨-, he⟩ | ⟨job, -, he⟩ <;>
    rw [he, State.setUnit_unit_ne _ _ _ _ (Ne.symm hv), runOps_unit_of_ne u ops s v hv]

theorem registersLegal_of_moved {s t : State} {c : Choice} (h : s.RegistersLegal) (hm : Moved s c t) :
    t.RegistersLegal := by
  have hregs := regsOk_of_registersLegal h
  have ⟨hunits, _, _, hlegal, hdriven⟩ := h
  cases hm with
  | stays => exact h
  | tick =>
    exact registersLegal_of_same h (fun _ => rfl) (fun _ => rfl) rfl rfl (tick_legal hlegal)
      fun u hu => LockExclusion.tick_drives s.port ▸ hu
  | accum u hrun =>
    exact registersLegal_of_loop h hrun
      (hregs.setUnit u (legal_accum (hunits u).1) (bindingLegal_accum (hunits u).2)) rfl
      fun v hv => State.setUnit_unit_ne _ _ _ _ (Ne.symm hv)
  | seen u hrun =>
    refine registersLegal_of_loop h hrun (hregs.setUnit u ?_ ?_) rfl fun v hv => State.setUnit_unit_ne _ _ _ _ (Ne.symm hv)
    · split <;> [exact (hunits u).1; exact legal_finish (hunits u).1]
    · split <;> exact (hunits u).2
  | due u hrun =>
    obtain ⟨hu, hbinding⟩ := hunits u
    have hready : (s.unit u).ready = true := (hu.2.2.2.2.1 hrun).2.1
    have hadvanced : RegsOk (s.advanceIndex u (s.unit u).dir) := hregs.setUnit u (legal_advanced hu _) hbinding
    refine registersLegal_of_loop h hrun (loopStepOps_regsOk hadvanced u
      (stepOps_legal (hadvanced.units u).1 (by simpa using hready))) (by simp) fun v hv => ?_
    rw [loopStepOps_unit_of_ne _ hv]
    simp [Ne.symm hv]
  | loopLock u job hrun hjob =>
    obtain ⟨hu, hbinding⟩ := hunits u
    refine registersLegal_of_loop h hrun (RegsOk.setUnit (s := { s with busLock := .loop u }) ⟨hunits, hregs.specs,
      hregs.prescale⟩ u (legal_withJob hu (hu.2.2.2.2.2 job hjob)) hbinding) rfl fun v hv => ?_
    rw [State.setUnit_unit_ne _ _ _ _ (Ne.symm hv)]
    rfl
  | loopWritten u job hrun hjob =>
    refine registersLegal_of_loop h hrun (loopStepOps_regsOk (hregs.writeImage _ _) u
      ((hunits u).1.2.2.2.2.2 job hjob)) (by simp) fun v hv => ?_
    rw [loopStepOps_unit_of_ne _ hv]
    simp
  | loopFailed u job hrun =>
    obtain ⟨hu, hbinding⟩ := hunits u
    have hself : (((s.writeImage (.loop u) job.write).2.failStep u).unit u).finish =
        ({ (s.unit u).invalidateLast with busErr := true } : UnitState).finish := by simp
    have hothers : ∀ v, v ≠ u → ((s.writeImage (.loop u) job.write).2.failStep u).unit v = s.unit v := by
      intro v hv; simp [Ne.symm hv]
    rw [hself]
    refine registersLegal_of_loop h hrun (hregs.update u ?_ ?_ (fun v hv => ?_) (fun ch => ?_) (by simp) (by simp))
      (by simp) fun v hv => ?_
    · rw [State.setUnit_unit_self]; exact legal_failed hu
    · rw [State.setUnit_unit_self]; exact hbinding
    · rw [State.setUnit_unit_ne _ _ _ _ (Ne.symm hv), hothers v hv]
    · simpa using specRatio_writeImage s (.loop u) job.write ch
    · rw [State.setUnit_unit_ne _ _ _ _ (Ne.symm hv), hothers v hv]
  | portLock job hport =>
    rw [hport] at hlegal
    refine registersLegal_of_same h (fun _ => rfl) (fun _ => rfl) rfl rfl (lockedJob_legal s.busAddr hlegal) fun u hu => ?_
    rw [hport, ← LockExclusion.lockedJob_drives s.busAddr]
    exact hu
  | channelWritten => exact finishWrite_registersLegal (hregs.writeImage _ _) ..
  | generalCalled =>
    exact registersLegal_of_same h (by simp) (by simp) (by simp) (by simp) defaultPrescale_legal nofun
  | generalCallFailed => exact RegsOk.raise (hregs.congr (by simp) (by simp) (by simp) (by simp)) ..
  | prescaleDone addr p why hport =>
    rw [hport] at hlegal
    exact finishPrescale_registersLegal hregs addr hlegal why
  | prescaleWritten addr p stage why t hport _ ht =>
    subst ht
    rw [hport] at hlegal
    exact registersLegal_of_same h (by simp) (by simp) (by simp) (by simp) hlegal nofun
  | prescaleFailed addr p stage why t hport _ ht =>
    subst ht
    exact failPrescale_registersLegal (hregs.congr (by simp) (by simp) (by simp) (by simp)) ..
  | released u why _ hrun => exact afterHold_registersLegal hregs hrun why
  | stepWritten u job hport =>
    rw [hport] at hlegal
    exact portStepOps_registersLegal (hregs.writeImage _ _) (by simpa using hdriven u (by rw [hport]; rfl)) hlegal
  | stepFailed u job hport =>
    have hrun := hdriven u (by rw [hport]; rfl)
    refine RegsOk.conclude (s := (s.writeImage .port job.write).2.failStep u) ?_ _ 0
    refine (hregs.writeImage .port job.write).update u ?_ ?_ (fun v hv => by simp [Ne.symm hv]) (by simp) (by simp) (by simp)
    · rw [State.failStep_unit, if_pos rfl, State.writeImage_unit]; exact legal_failed_of_idle (hunits u).1 hrun
    · rw [State.failStep_unit, if_pos rfl, State.writeImage_unit]; exact (hunits u).2
  | deEnergizeWritten u why w rest first hport =>
    exact deEnergizeFrom_registersLegal (hregs.writeImage _ _) (by simpa using hdriven u (by rw [hport]; rfl)) ..

theorem bind_legal {x : UnitState} (h : x.Legal) (hrun : x.run ≠ .running) (pa pb spr : Nat) :
    (x.bind pa pb spr).Legal := by
  obtain ⟨hpf, hA, hB, hready, -, hops⟩ := h
  exact ⟨hpf, hA, hB, hready, fun hr => absurd hr hrun, hops⟩

/-- The ports and SPR that CFGMOTOR has checked fit their registers (R33, R119). -/
theorem bind_bindingLegal {x : UnitState} (h : x.BindingLegal) {pa pb spr : Nat} (hports : portsOk pa pb = true)
    (hspr : spr ≠ 0) (hfits : spr < 2 ^ 16) : (x.bind pa pb spr).BindingLegal := by
  have hp := hports
  rw [ImmediateCommands.portsOk_iff] at hp
  have hpa : (BitVec.ofNat 3 pa).toNat = pa := by rw [BitVec.toNat_ofNat]; omega
  have hpb : (BitVec.ofNat 3 pb).toNat = pb := by rw [BitVec.toNat_ofNat]; omega
  refine ⟨fun _ => ⟨?_, fun hz => hspr ?_⟩, h.2⟩
  · simpa [UnitState.bind, hpa, hpb] using hports
  · have hmod : spr % 2 ^ 16 = 0 := congrArg BitVec.toNat hz
    rwa [Nat.mod_eq_of_lt hfits] at hmod

theorem withStyle_legal {x : UnitState} (h : x.Legal) (hrun : x.run ≠ .running) {sty : Style} {nms : Nat}
    (hnms : nmsLegal sty nms = true) : (x.withStyle sty nms).Legal := by
  obtain ⟨hpf, hA, hB, -, -, hops⟩ := h
  have hlen := tableLen_mem sty nms hnms
  have hfits : (BitVec.ofNat 8 nms).toNat = nms := by
    rw [ImmediateCommands.nmsLegal_iff] at hnms
    rw [BitVec.toNat_ofNat]
    omega
  refine ⟨hpf, hA, hB, fun _ => ?_, fun hr => absurd hr hrun, hops⟩
  simp only [UnitState.withStyle, hfits]
  exact ⟨hnms, Nat.lt_of_lt_of_le (by decide : 0 < 4) hlen.1⟩

theorem withStyle_bindingLegal {x : UnitState} (h : x.BindingLegal) {sty : Style} {nms : Nat}
    (hnms : nmsLegal sty nms = true) : (x.withStyle sty nms).BindingLegal := by
  refine ⟨h.1, fun hsty => ?_⟩
  rcases (ImmediateCommands.nmsLegal_iff sty nms).1 hnms with ⟨hmicro, -⟩ | ⟨-, rfl⟩
  · exact absurd hmicro hsty
  · rfl

theorem registersLegal_of_begun {s t : State} {i : Instr} (h : s.RegistersLegal) (hwf : i.WellFormed)
    (hb : Begun s i t) : t.RegistersLegal := by
  have hregs := regsOk_of_registersLegal h
  have hunits := hregs.units
  cases hb with
  | answered i v => exact hregs.respondOk v
  | init => exact hregs.busy trivial nofun
  | setfreq hz =>
    refine hregs.busy ?_ nofun
    have hmem := prescaleOf_mem s.cfg.clockHz hz
    simp only [PortState.Legal, BitVec.toNat_ofNat]
    omega
  | acq ch =>
    refine RegsOk.respondOk (s := s.setOwner ch .host) (hregs.congr (by simp) (fun d => ?_) rfl rfl) 0
    rw [State.setOwner_channel]; split <;> rfl
  | rel => exact hregs.busy trivial nofun
  | setduty ch frac inv _ _ hfrac =>
    exact portApply_registersLegal hregs ch (ratioLegal_ofNat (ratioOf_le frac hfrac)) inv _
  | disable ch =>
    refine RegsOk.busy (s := s.setDisabled ch true) (hregs.congr (by simp) (fun d => ?_) rfl rfl) trivial nofun
    rw [State.setDisabled_channel]; split <;> rfl
  | enable ch =>
    refine portApply_registersLegal (s := s.setDisabled ch false) (hregs.congr (by simp) (fun d => ?_) rfl rfl) ch
      (hregs.specs ch) _ 0
    rw [State.setDisabled_channel]; split <;> rfl
  | cfgmotor n pa pb spr u _ hbound hports hspr =>
    obtain ⟨hu, hbinding⟩ := hunits u
    have hrun : (s.unit u).run ≠ .running := fun hr => by
      have := (hu.2.2.2.2.1 hr).1
      rw [hbound] at this
      cases this
    refine RegsOk.respondOk (hregs.update u ?_ ?_ (fun v hv => ?_) (fun ch => ?_) (by simp) (by simp)) 0
    · simpa using bind_legal hu hrun pa pb spr
    · simpa using bind_bindingLegal hbinding hports hspr hwf.2.2.2
    · simp [State.setUnit_unit_ne _ _ _ _ (Ne.symm hv)]
    · rw [State.setUnit_channel, State.setOwners_channel]; split <;> rfl
  | selstyle n sty nms u _ hrun hnms =>
    exact (hregs.setUnit u (withStyle_legal (hunits u).1 hrun hnms) (withStyle_bindingLegal (hunits u).2 hnms)).respondOk _
  | nextstep n dir u _ hrun hready =>
    obtain ⟨hu, hbinding⟩ := hunits u
    have hhand : RegsOk (s.setUnit u (s.unit u).handStep) := hregs.setUnit u (legal_handStep hu hrun) hbinding
    obtain ⟨hu', hbinding'⟩ := hhand.units u
    have hadvanced : RegsOk ((s.setUnit u (s.unit u).handStep).advanceIndex u dir) :=
      hhand.setUnit u (legal_advanced hu' dir) hbinding'
    refine portStepOps_registersLegal hadvanced ?_ (stepOps_legal (hadvanced.units u).1 ?_)
    · simp only [State.advanceIndex_unit, if_true, State.setUnit_unit_self, UnitState.handStep]
      split <;> [nofun; exact hrun]
    · simpa [UnitState.handStep] using hready
  | setpf n pf u _ hpf =>
    obtain ⟨⟨-, hA, hB, hready, hrun, hops⟩, hbinding⟩ := hunits u
    refine RegsOk.respondOk (hregs.setUnit u ?_ ?_) 0
    · refine ⟨?_, hA, hB, hready, hrun, hops⟩
      rw [BitVec.toNat_ofNat]
      exact le_trans (Nat.mod_le _ _) hpf
    · exact hbinding
  | asked i u why =>
    have hasked : RegsOk (s.setUnit u { s.unit u with cancelReq := true }) :=
      hregs.setUnit u (y := { s.unit u with cancelReq := true }) (hunits u).1 (hunits u).2
    exact hasked.busy trivial nofun
  | ended i u why _ hrun => exact afterHold_registersLegal hregs hrun why
  | setspeed n rpm u tps _ hpos hlt =>
    obtain ⟨⟨hpf, hA, hB, hready, hrun, hops⟩, hbinding⟩ := hunits u
    refine RegsOk.respondOk (hregs.setUnit u ?_ ?_) _
    · refine ⟨hpf, hA, hB, hready, fun hr => ?_, hops⟩
      obtain ⟨hbound, hready', -, hbus⟩ := hrun hr
      refine ⟨hbound, hready', fun hz => Nat.ne_of_gt hpos ?_, hbus⟩
      have hmod : tps % 2 ^ 32 = 0 := congrArg BitVec.toNat hz
      rwa [Nat.mod_eq_of_lt hlt] at hmod
    · exact hbinding
  | stepfor n dir cont count u hbound _ hready htps hbus =>
    obtain ⟨⟨hpf, hA, hB, hstyle, -, -⟩, hbinding⟩ := hunits u
    refine RegsOk.respondOk (hregs.setUnit u ?_ ?_) 0
    · exact ⟨hpf, hA, hB, hstyle, fun _ => ⟨hbound, hready, htps, hbus⟩, nofun⟩
    · exact hbinding
  | setpolicy n e u =>
    refine RegsOk.respondOk (hregs.setUnit u ?_ ?_) 0
    · exact (hunits u).1
    · exact (hunits u).2

/-- Settles O16: every turn and every command writes legal values only. -/
theorem registersStayLegal : Obligations.RegistersStayLegal :=
  step_keeps_of_turns State.RegistersLegal (fun _ _ h => h) (fun _ _ _ h => h) (fun _ _ h => h)
    (fun _ _ _ h hm => registersLegal_of_moved h hm) (fun _ e h _ => (regsOk_of_registersLegal h).raise e 0)
    (fun _ _ _ h _ hwf hb => registersLegal_of_begun h hwf hb)

end Sys2Proof.RegisterRanges
end

section
/-! Channel ownership (R28, R33, R92, R110). Most turns leave owners, DISABLED and bindings as they are (`SameOwners`), so
that only the port's job has to be looked at; ownership itself changes with ACQ, REL, DISABLE, ENABLE, CFGMOTOR and
DISPOSE. What is under way names its own agent's channels, because a Step's operations and DeEnergize's list do. -/

namespace Sys2Proof.ChannelOwners

open Machine StepRelation StepFrames

/-! ### Updates that leave ownership alone -/

structure SameOwners (s t : State) : Prop where
  cfg : t.cfg = s.cfg
  ports : ∀ v, (t.unit v).bound = (s.unit v).bound ∧ (t.unit v).portA = (s.unit v).portA ∧
    (t.unit v).portB = (s.unit v).portB
  channels : ∀ ch, (t.channel ch).owner = (s.channel ch).owner ∧ (t.channel ch).disabled = (s.channel ch).disabled

theorem SameOwners.refl (s : State) : SameOwners s s := ⟨rfl, fun _ => ⟨rfl, rfl, rfl⟩, fun _ => ⟨rfl, rfl⟩⟩

theorem SameOwners.trans {s t r : State} (h : SameOwners s t) (g : SameOwners t r) : SameOwners s r where
  cfg := g.cfg.trans h.cfg
  ports v :=
    ⟨(g.ports v).1.trans (h.ports v).1, (g.ports v).2.1.trans (h.ports v).2.1, (g.ports v).2.2.trans (h.ports v).2.2⟩
  channels ch := ⟨(g.channels ch).1.trans (h.channels ch).1, (g.channels ch).2.trans (h.channels ch).2⟩

theorem unitChannels_congr {s t : State} {u : UnitId} (hcfg : t.cfg = s.cfg)
    (ha : (t.unit u).portA = (s.unit u).portA) (hb : (t.unit u).portB = (s.unit u).portB) :
    t.unitChannels u = s.unitChannels u := by
  rw [State.unitChannels, State.coilTriple_congr hcfg ha hb]
  rfl

theorem SameOwners.unitChannels {s t : State} (h : SameOwners s t) (u : UnitId) : t.unitChannels u = s.unitChannels u :=
  unitChannels_congr h.cfg (h.ports u).2.1 (h.ports u).2.2

/-- An update of registers that are neither ports, bindings, owners nor DISABLED. -/
theorem sameOwners_of_eq {s t : State} (hcfg : t.cfg = s.cfg) (hunits : ∀ v, t.unit v = s.unit v)
    (hchannels : ∀ ch, t.channel ch = s.channel ch) : SameOwners s t :=
  ⟨hcfg, fun v => by rw [hunits]; exact ⟨rfl, rfl, rfl⟩, fun ch => by rw [hchannels]; exact ⟨rfl, rfl⟩⟩

theorem sameOwners_setUnit (s : State) {u : UnitId} {y : UnitState} (hbound : y.bound = (s.unit u).bound)
    (ha : y.portA = (s.unit u).portA) (hb : y.portB = (s.unit u).portB) : SameOwners s (s.setUnit u y) := by
  refine ⟨rfl, fun v => ?_, fun ch => by simp⟩
  rw [State.setUnit_unit]
  split
  case isTrue hv => subst hv; exact ⟨hbound, ha, hb⟩
  case isFalse => exact ⟨rfl, rfl, rfl⟩

theorem sameOwners_setSpec (s : State) (ch : ChannelId) (ratio : BitVec 13) (inv : Bool) :
    SameOwners s (s.setSpec ch ratio inv) := by
  refine ⟨rfl, fun v => by simp, fun d => ?_⟩
  rw [State.setSpec_channel]
  split <;> exact ⟨rfl, rfl⟩

theorem sameOwners_runOps (u : UnitId) (ops : List StepOp) (s : State) : SameOwners s (runOps u ops s).2 := by
  refine runOps_induction (SameOwners s) (fun t c ratio pol _ ht => ht.trans (sameOwners_setUnit t ?_ ?_ ?_))
    (fun t ch ratio _ ht => ht.trans (sameOwners_setSpec t ch ratio false)) (.refl s) <;> cases c <;> rfl

theorem sameOwners_loopStepOps (s : State) (u : UnitId) (ops : List StepOp) : SameOwners s (s.loopStepOps u ops) := by
  have h := sameOwners_runOps u ops s
  rcases s.loopStepOps_cases u ops with ⟨-, he⟩ | ⟨job, -, he⟩ <;> rw [he] <;>
    exact h.trans (sameOwners_setUnit _ rfl rfl rfl)

theorem sameOwners_writeImage (s : State) (a : Agent) (w : PendingWrite) : SameOwners s (s.writeImage a w).2 := by
  refine ⟨by simp, fun v => by simp, fun ch => ?_⟩
  rw [State.writeImage_channel]
  split
  · unfold Channel.answered; split <;> exact ⟨rfl, rfl⟩
  · exact ⟨rfl, rfl⟩

theorem sameOwners_transact (s : State) (a : Agent) (op : BusOp) : SameOwners s (s.transact a op).2 :=
  sameOwners_of_eq (by simp) (by simp) (by simp)

theorem sameOwners_advanceIndex (s : State) (u : UnitId) (dir : Dir) : SameOwners s (s.advanceIndex u dir) :=
  sameOwners_setUnit s rfl rfl rfl

theorem sameOwners_failStep (s : State) (u : UnitId) : SameOwners s (s.failStep u) :=
  (sameOwners_of_eq (t := s.forgetUnit u) (by simp) (by simp) (by simp)).trans (sameOwners_setUnit _ rfl rfl rfl)

theorem sameOwners_conclude (s : State) (r : Answer) (v : Value) : SameOwners s (s.conclude r v) :=
  sameOwners_of_eq (by simp) (by simp) (by simp)

theorem sameOwners_unlock (s : State) : SameOwners s s.unlock := sameOwners_of_eq rfl (fun _ => rfl) fun _ => rfl

theorem sameOwners_raise (s : State) (e : Err) (v : Value) : SameOwners s (s.raise e v) :=
  sameOwners_of_eq (by simp) (by simp) (by simp)

theorem sameOwners_invalidateImages (s : State) : SameOwners s s.invalidateImages :=
  ⟨rfl, fun _ => ⟨rfl, rfl, rfl⟩, fun ch => by rw [State.invalidateImages_channel]; exact ⟨rfl, rfl⟩⟩

theorem sameOwners_finishPrescale (s : State) (addr : BitVec 7) (p : Byte) (why : PrescaleFor) :
    SameOwners s (s.finishPrescale addr p why) := by
  cases why <;> exact sameOwners_of_eq rfl (fun _ => rfl) fun _ => rfl

theorem sameOwners_failPrescale (s : State) (stage : PrescaleStage) (why : PrescaleFor) (r : Answer) :
    SameOwners s (s.failPrescale stage why r) := by
  unfold State.failPrescale
  split
  · exact sameOwners_raise s .deviceNotFound 0
  · exact sameOwners_conclude s _ 0

theorem sameOwners_portStepOps (s : State) (u : UnitId) (ops : List StepOp) : SameOwners s (s.portStepOps u ops) := by
  have h := sameOwners_runOps u ops s
  rcases s.portStepOps_cases u ops with ⟨-, he⟩ | ⟨job, -, he⟩ <;> rw [he] <;>
    exact h.trans (sameOwners_of_eq rfl (fun _ => rfl) fun _ => rfl)

/-- A pacing loop touches no owner, no DISABLED and no binding (R110). -/
theorem sameOwners_of_loop {s t : State} {u : UnitId} (h : Moved s (.loop u) t) : SameOwners s t := by
  cases h with
  | stays => exact .refl s
  | accum _ =>
    rcases (s.unit u).accum_cases with he | he | he <;> rw [he] <;> exact sameOwners_setUnit s rfl rfl rfl
  | seen _ => split <;> exact sameOwners_setUnit s rfl rfl rfl
  | due _ => exact (sameOwners_advanceIndex s u _).trans (sameOwners_loopStepOps _ u _)
  | loopLock _ job =>
    exact SameOwners.trans (t := { s with busLock := .loop u }) (sameOwners_of_eq rfl (fun _ => rfl) fun _ => rfl)
      (sameOwners_setUnit _ rfl rfl rfl)
  | loopWritten _ job => exact (sameOwners_writeImage s _ job.write).trans (sameOwners_loopStepOps _ u _)
  | loopFailed _ job =>
    exact ((sameOwners_writeImage s _ job.write).trans (sameOwners_failStep _ u)).trans (sameOwners_setUnit _ rfl rfl rfl)

/-! ### Sound ownership without the port's job -/

/-- The clauses of OwnershipOk that do not depend on the port. -/
structure Owned (s : State) : Prop where
  units : ∀ u, (s.unit u).bound = true →
    portsOk (s.unit u).portA.toNat (s.unit u).portB.toNat = true ∧
    ∀ ch ∈ s.unitChannels u, (s.channel ch).owner = .unit u
  owners : ∀ ch u, (s.channel ch).owner = .unit u → (s.unit u).bound = true ∧ ch ∈ s.unitChannels u
  disabled : ∀ ch, (s.channel ch).disabled = true → (s.channel ch).owner = .host

theorem owned_of_ownershipOk {s : State} (h : s.OwnershipOk) : Owned s := ⟨h.1, h.2.1, h.2.2.1⟩

theorem ownershipOk_of_owned {s : State} (h : Owned s) (hport : s.PortOwns) : s.OwnershipOk :=
  ⟨h.units, h.owners, h.disabled, hport⟩

theorem Owned.congr {s t : State} (h : Owned s) (hs : SameOwners s t) : Owned t where
  units u hu := by
    rw [(hs.ports u).1] at hu
    obtain ⟨hports, hown⟩ := h.units u hu
    refine ⟨by rw [(hs.ports u).2.1, (hs.ports u).2.2]; exact hports, fun ch hch => ?_⟩
    rw [hs.unitChannels] at hch
    rw [(hs.channels ch).1]
    exact hown ch hch
  owners ch u ho := by
    rw [(hs.channels ch).1] at ho
    rw [(hs.ports u).1, hs.unitChannels]
    exact h.owners ch u ho
  disabled ch hd := by
    rw [(hs.channels ch).2] at hd
    rw [(hs.channels ch).1]
    exact h.disabled ch hd

/-- A channel of a bound unit is that unit's, so it is not of the host and not disabled (R28, R29). -/
theorem Owned.not_disabled {s : State} (h : Owned s) {u : UnitId} (hbound : (s.unit u).bound = true) {ch : ChannelId}
    (hch : ch ∈ s.unitChannels u) : (s.channel ch).disabled = false := by
  refine Bool.eq_false_iff.2 fun hd => ?_
  have hhost := h.disabled ch hd
  rw [(h.units u hbound).2 ch hch] at hhost
  cases hhost

/-- Two units share no channel (R110). -/
theorem Owned.disjoint {s : State} (h : Owned s) {u v : UnitId} (hu : (s.unit u).bound = true)
    (hv : (s.unit v).bound = true) {ch : ChannelId} (hcu : ch ∈ s.unitChannels u) (hcv : ch ∈ s.unitChannels v) :
    u = v := by
  have he := (h.units u hu).2 ch hcu
  rw [(h.units v hv).2 ch hcv] at he
  injection he with he
  exact he.symm

/-- A host channel, or one that becomes Free or the host's, is in no unit's set (R97, R98). -/
theorem Owned.setOwner {s t : State} (h : Owned s) {ch : ChannelId} (hcfg : t.cfg = s.cfg)
    (hunits : ∀ v, t.unit v = s.unit v) (hbefore : ∀ u, (s.channel ch).owner ≠ .unit u)
    (hafter : ∀ u, (t.channel ch).owner ≠ .unit u)
    (hdisabled : (t.channel ch).disabled = true → (t.channel ch).owner = .host)
    (hothers : ∀ d, d ≠ ch → t.channel d = s.channel d) : Owned t := by
  have hchs : ∀ u, t.unitChannels u = s.unitChannels u := fun u =>
    unitChannels_congr hcfg (by rw [hunits]) (by rw [hunits])
  refine ⟨fun u hu => ?_, fun d u ho => ?_, fun d hd => ?_⟩
  · rw [hunits] at hu ⊢
    obtain ⟨hports, hown⟩ := h.units u hu
    refine ⟨hports, fun d hd => ?_⟩
    rw [hchs] at hd
    have howner := hown d hd
    rwa [hothers d fun hdc => hbefore u (hdc ▸ howner)]
  · by_cases hdc : d = ch
    · subst hdc; exact absurd ho (hafter u)
    · rw [hothers d hdc] at ho
      rw [hunits, hchs]
      exact h.owners d u ho
  · by_cases hdc : d = ch
    · subst hdc; exact hdisabled hd
    · rw [hothers d hdc] at hd ⊢
      exact h.disabled d hd

theorem owned_releaseChannel {s : State} (h : Owned s) {ch : ChannelId} (hhost : (s.channel ch).owner = .host) :
    Owned (s.releaseChannel ch) := by
  have hself : (s.releaseChannel ch).channel ch =
      { s.channel ch with owner := .free, disabled := false, specRatio := 0, specInv := false } := by
    rw [State.releaseChannel_channel, if_pos rfl]
  refine h.setOwner (ch := ch) rfl (fun _ => rfl) (by simp [hhost]) (by simp [hself]) (by simp [hself]) fun d hd => ?_
  rw [State.releaseChannel_channel, if_neg (Ne.symm hd)]

theorem owned_acq {s : State} (h : Owned s) {ch : ChannelId} (hfree : (s.channel ch).owner = .free) :
    Owned (s.setOwner ch .host) := by
  refine h.setOwner (ch := ch) rfl (by simp) (by simp [hfree]) ?_ ?_ fun d hd => ?_ <;> rw [State.setOwner_channel]
  · simp
  · simp
  · rw [if_neg (Ne.symm hd)]

theorem owned_setDisabled {s : State} (h : Owned s) {ch : ChannelId} (hhost : (s.channel ch).owner = .host) (b : Bool) :
    Owned (s.setDisabled ch b) := by
  refine h.setOwner (ch := ch) rfl (by simp) (by simp [hhost]) ?_ ?_ fun d hd => ?_ <;> rw [State.setDisabled_channel]
  · simp [hhost]
  · simp [hhost]
  · rw [if_neg (Ne.symm hd)]

/-- DISPOSE frees the unit's channels and unbinds it (R123). -/
theorem owned_dispose {s : State} (h : Owned s) {u : UnitId} (hbound : (s.unit u).bound = true) :
    Owned ((s.setOwners (s.unitChannels u) .free).setUnit u UnitState.reset) := by
  have hunit : ∀ v, v ≠ u → ((s.setOwners (s.unitChannels u) .free).setUnit u UnitState.reset).unit v = s.unit v := by
    intro v hv
    rw [State.setUnit_unit_ne _ _ _ _ (Ne.symm hv), State.setOwners_unit]
  have hself : ((s.setOwners (s.unitChannels u) .free).setUnit u UnitState.reset).unit u = UnitState.reset := by simp
  have hchs : ∀ v, v ≠ u → ((s.setOwners (s.unitChannels u) .free).setUnit u UnitState.reset).unitChannels v =
      s.unitChannels v := fun v hv => unitChannels_congr (by simp) (by rw [hunit v hv]) (by rw [hunit v hv])
  refine ⟨fun v hv => ?_, fun ch v ho => ?_, fun ch hd => ?_⟩
  · have hvu : v ≠ u := fun he => by rw [he, hself] at hv; cases hv
    rw [hunit v hvu] at hv ⊢
    obtain ⟨hports, hown⟩ := h.units v hv
    refine ⟨hports, fun ch hch => ?_⟩
    rw [hchs v hvu] at hch
    rw [State.setUnit_channel, State.setOwners_owner, if_neg fun hcu => hvu (h.disjoint hv hbound hch hcu)]
    exact hown ch hch
  · rw [State.setUnit_channel, State.setOwners_owner] at ho
    split at ho
    · cases ho
    case isFalse hcu =>
      obtain ⟨hb, hcv⟩ := h.owners ch v ho
      have hvu : v ≠ u := fun he => hcu (he ▸ hcv)
      rw [hunit v hvu, hchs v hvu]
      exact ⟨hb, hcv⟩
  · rw [State.setUnit_channel, State.setOwners_channel] at hd
    rw [State.setUnit_channel, State.setOwners_owner]
    split at hd
    case isTrue hcu =>
      rw [h.not_disabled hbound hcu] at hd
      cases hd
    case isFalse hcu =>
      rw [if_neg hcu]
      exact h.disabled ch hd

theorem bind_ports {pa pb : Nat} (hports : portsOk pa pb = true) :
    (BitVec.ofNat 3 pa).toNat = pa ∧ (BitVec.ofNat 3 pb).toNat = pb := by
  rw [ImmediateCommands.portsOk_iff] at hports
  constructor <;> rw [BitVec.toNat_ofNat] <;> omega

/-- The channels that a unit binds with two ports are the six of those ports (R119). -/
theorem mem_unitChannels_bind {s : State} {u : UnitId} {pa pb : Nat} (hports : portsOk pa pb = true)
    (ha : (s.unit u).portA = BitVec.ofNat 3 pa) (hb : (s.unit u).portB = BitVec.ofNat 3 pb) (ch : ChannelId) :
    ch ∈ s.unitChannels u ↔ ch ∈ bindingChannels s.cfg.portMap pa pb := by
  obtain ⟨hpa, hpb⟩ := bind_ports hports
  simp only [State.unitChannels, State.coilTriple, UnitState.port, ha, hb, hpa, hpb, bindingChannels, List.mem_append]
  exact Or.comm

/-- CFGMOTOR binds an unbound unit to six Free channels (R119). -/
theorem owned_bind {s : State} (h : Owned s) {u : UnitId} (hbound : (s.unit u).bound = false) {pa pb : Nat} (spr : Nat)
    (hports : portsOk pa pb = true)
    (hfree : ∀ ch ∈ bindingChannels s.cfg.portMap pa pb, (s.channel ch).owner = .free) :
    Owned ((s.setOwners (bindingChannels s.cfg.portMap pa pb) (.unit u)).setUnit u ((s.unit u).bind pa pb spr)) := by
  have hunit : ∀ v, v ≠ u → ((s.setOwners (bindingChannels s.cfg.portMap pa pb) (.unit u)).setUnit u
      ((s.unit u).bind pa pb spr)).unit v = s.unit v := by
    intro v hv
    rw [State.setUnit_unit_ne _ _ _ _ (Ne.symm hv), State.setOwners_unit]
  have hself : ((s.setOwners (bindingChannels s.cfg.portMap pa pb) (.unit u)).setUnit u
      ((s.unit u).bind pa pb spr)).unit u = (s.unit u).bind pa pb spr := by simp
  have hmem : ∀ ch, ch ∈ ((s.setOwners (bindingChannels s.cfg.portMap pa pb) (.unit u)).setUnit u
      ((s.unit u).bind pa pb spr)).unitChannels u ↔ ch ∈ bindingChannels s.cfg.portMap pa pb := by
    intro ch
    rw [mem_unitChannels_bind hports (by rw [hself]; rfl) (by rw [hself]; rfl)]
    simp
  have hchs : ∀ v, v ≠ u → ((s.setOwners (bindingChannels s.cfg.portMap pa pb) (.unit u)).setUnit u
      ((s.unit u).bind pa pb spr)).unitChannels v = s.unitChannels v :=
    fun v hv => unitChannels_congr (by simp) (by rw [hunit v hv]) (by rw [hunit v hv])
  refine ⟨fun v hv => ?_, fun ch v ho => ?_, fun ch hd => ?_⟩
  · by_cases hvu : v = u
    · subst hvu
      refine ⟨?_, fun ch hch => ?_⟩
      · obtain ⟨hpa, hpb⟩ := bind_ports hports
        rw [hself]
        simpa [UnitState.bind, hpa, hpb] using hports
      · rw [State.setUnit_channel, State.setOwners_owner, if_pos ((hmem ch).1 hch)]
    · rw [hunit v hvu] at hv ⊢
      obtain ⟨hports', hown⟩ := h.units v hv
      refine ⟨hports', fun ch hch => ?_⟩
      rw [hchs v hvu] at hch
      have howner := hown ch hch
      rw [State.setUnit_channel, State.setOwners_owner, if_neg fun hcu => ?_]
      · exact howner
      · rw [hfree ch hcu] at howner
        cases howner
  · rw [State.setUnit_channel, State.setOwners_owner] at ho
    split at ho
    case isTrue hcu =>
      injection ho with ho
      subst ho
      exact ⟨by rw [hself]; rfl, (hmem ch).2 hcu⟩
    case isFalse hcu =>
      obtain ⟨hb, hcv⟩ := h.owners ch v ho
      have hvu : v ≠ u := fun he => by rw [he, hbound] at hb; cases hb
      rw [hunit v hvu, hchs v hvu]
      exact ⟨hb, hcv⟩
  · rw [State.setUnit_channel, State.setOwners_channel] at hd
    rw [State.setUnit_channel, State.setOwners_owner]
    split at hd
    case isTrue hcu =>
      have hhost := h.disabled ch hd
      rw [hfree ch hcu] at hhost
      cases hhost
    case isFalse hcu =>
      rw [if_neg hcu]
      exact h.disabled ch hd

/-! ### Ownership is kept -/

theorem portOwns_of_idle {s : State} (h : s.port = .idle) : s.PortOwns := by rw [State.PortOwns, h]; trivial

theorem ownershipOk_of_idle {s t : State} (h : Owned s) (hs : SameOwners s t) (hidle : t.port = .idle) : t.OwnershipOk :=
  ownershipOk_of_owned (h.congr hs) (portOwns_of_idle hidle)

/-- The port's job rests on the same owners as before. -/
theorem portOwns_congr {s t : State} (h : s.PortOwns) (hs : SameOwners s t) (hport : t.port = s.port) : t.PortOwns := by
  unfold State.PortOwns at *
  rw [hport]
  split
  · simp_all [(hs.channels _).1]
  · simp_all [(hs.ports _).1]
  · simp_all [(hs.ports _).1]
  · trivial

theorem ownershipOk_portStepOps {s : State} (h : Owned s) (u : UnitId) (ops : List StepOp) :
    (s.portStepOps u ops).OwnershipOk := by
  refine ownershipOk_of_owned (h.congr (sameOwners_portStepOps s u ops)) ?_
  rcases s.portStepOps_cases u ops with ⟨-, he⟩ | ⟨job, -, he⟩ <;> rw [he] <;> trivial

theorem ownershipOk_finishDeEnergize {s : State} (h : Owned s) {u : UnitId} (hbound : (s.unit u).bound = true)
    (why : DeEnergizeFor) (first : Answer) : (s.finishDeEnergize u why first).OwnershipOk := by
  have hforget : SameOwners s (s.forgetUnit u) := sameOwners_of_eq (by simp) (by simp) (by simp)
  have hchs : (s.forgetUnit u).unitChannels u = s.unitChannels u := hforget.unitChannels u
  have hd (r : Answer) : ((s.unit u).deEnergized r).bound = (s.unit u).bound ∧
      ((s.unit u).deEnergized r).portA = (s.unit u).portA ∧ ((s.unit u).deEnergized r).portB = (s.unit u).portB := by
    unfold UnitState.deEnergized; split <;> exact ⟨rfl, rfl, rfl⟩
  rcases s.finishDeEnergize_cases u why first with ⟨-, -, he⟩ | ⟨-, -, he⟩ | ⟨-, -, he⟩ | ⟨-, -, he⟩ <;> rw [he]
  · obtain ⟨hb, ha, hp⟩ := hd .ack
    refine ownershipOk_of_idle h ((sameOwners_setUnit s ?_ ?_ ?_).trans (sameOwners_conclude _ .ack 0)) rfl
    · exact hb
    · exact ha
    · exact hp
  · obtain ⟨hb, ha, hp⟩ := hd first
    refine ownershipOk_of_idle (h.congr hforget)
      ((sameOwners_setUnit (s.forgetUnit u) ?_ ?_ ?_).trans (sameOwners_conclude _ first 0)) (by simp)
    · exact hb
    · exact ha
    · exact hp
  · exact ownershipOk_of_idle (owned_dispose h hbound) (sameOwners_conclude _ .ack 0) rfl
  · have hdispose := owned_dispose (h.congr hforget) (u := u) hbound
    rw [hchs] at hdispose
    exact ownershipOk_of_idle hdispose (sameOwners_conclude _ first 0) (by simp)

theorem ownershipOk_deEnergizeFrom {s : State} (h : Owned s) {u : UnitId} (hbound : (s.unit u).bound = true)
    (why : DeEnergizeFor) (chs : List ChannelId) (first : Answer) : (s.deEnergizeFrom u why chs first).OwnershipOk := by
  have hskip (t : State) (ch : ChannelId) (ht : Owned t ∧ (t.unit u).bound = true) :
      Owned (t.setSpec ch 0 false) ∧ ((t.setSpec ch 0 false).unit u).bound = true :=
    ⟨ht.1.congr (sameOwners_setSpec t ch 0 false), by simpa using ht.2⟩
  refine deEnergizeFrom_induction (fun t => Owned t ∧ (t.unit u).bound = true) State.OwnershipOk
    (fun t ch _ ht => hskip t ch ht) (fun t ht => ownershipOk_finishDeEnergize ht.1 ht.2 why first)
    (fun t ch rest ht _ _ _ => ?_) ⟨h, hbound⟩
  obtain ⟨hown, hb⟩ := hskip t ch ht
  exact ownershipOk_of_owned (hown.congr (sameOwners_of_eq rfl (fun _ => rfl) fun _ => rfl)) hb

theorem ownershipOk_afterHold {s : State} (h : Owned s) {u : UnitId} (hbound : (s.unit u).bound = true) (why : HoldFor) :
    (s.afterHold u why).OwnershipOk := by
  cases why with
  | cancel => exact ownershipOk_of_idle h (sameOwners_conclude s .ack _) rfl
  | stop => exact ownershipOk_deEnergizeFrom h hbound .stop _ .ack
  | dispose => exact ownershipOk_deEnergizeFrom h hbound .dispose _ .ack

theorem ownershipOk_finishWrite {s : State} (h : Owned s) {ch : ChannelId} {fin : WriteEnd}
    (hhost : fin = .release → (s.channel ch).owner = .host) (r : Answer) : (s.finishWrite ch fin r).OwnershipOk := by
  cases fin with
  | release => exact ownershipOk_of_idle (owned_releaseChannel h (hhost rfl)) (sameOwners_conclude _ r 0) (by
      rw [State.finishWrite]; simp)
  | reply v => exact ownershipOk_of_idle h (sameOwners_conclude s r v) (by rw [State.finishWrite]; simp)

theorem ownershipOk_portApply {s : State} (h : Owned s) (ch : ChannelId) (ratio : BitVec 13) (inv : Bool) (v : Value) :
    (s.portApply ch ratio inv v).OwnershipOk := by
  have hspec := sameOwners_setSpec s ch ratio inv
  rcases s.portApply_cases ch ratio inv v with ⟨-, he⟩ | ⟨-, he⟩ <;> rw [he] <;>
    exact ownershipOk_of_owned (h.congr (hspec.trans (sameOwners_of_eq rfl (fun _ => rfl) fun _ => rfl))) trivial

theorem ownershipOk_of_moved {s t : State} {c : Choice} (h : s.OwnershipOk) (hm : Moved s c t) : t.OwnershipOk := by
  have howned := owned_of_ownershipOk h
  have hport := h.2.2.2
  have loop {u : UnitId} {t : State} (hm : Moved s (.loop u) t) (hp : t.port = s.port) : t.OwnershipOk :=
    ownershipOk_of_owned (howned.congr (sameOwners_of_loop hm)) (portOwns_congr hport (sameOwners_of_loop hm) hp)
  cases hm with
  | stays => exact h
  | tick =>
    refine ownershipOk_of_owned (howned.congr (sameOwners_of_eq rfl (fun _ => rfl) fun _ => rfl)) ?_
    cases hp : s.port with
    | idle => simp [State.PortOwns, State.tick, hp, PortState.tick]
    | busy job => cases job <;> simp_all [State.PortOwns, State.tick, PortState.tick]
  | accum u hrun hjob hphase => exact loop (.accum u hrun hjob hphase) rfl
  | seen u hrun hjob hphase hseen => exact loop (.seen u hrun hjob hphase hseen) rfl
  | due u hrun hjob hphase hseen hdue => exact loop (.due u hrun hjob hphase hseen hdue) (by simp)
  | loopLock u job hrun hjob hfree => exact loop (.loopLock u job hrun hjob hfree) rfl
  | loopWritten u job hrun hjob hl hack => exact loop (.loopWritten u job hrun hjob hl hack) (by simp)
  | loopFailed u job hrun hjob hl hfail => exact loop (.loopFailed u job hrun hjob hl hfail) (by simp)
  | portLock job hjob _ hhold =>
    refine ownershipOk_of_owned (howned.congr (sameOwners_of_eq rfl (fun _ => rfl) fun _ => rfl)) ?_
    cases job with
    | channelWrite w fin => cases fin <;> simp_all [State.PortOwns, lockedJob, PendingWrite.lock]
    | hold => exact absurd trivial hhold
    | _ => simp_all [State.PortOwns, lockedJob]
  | channelWritten w fin hjob =>
    have hsame := sameOwners_writeImage s .port w
    refine ownershipOk_finishWrite (howned.congr hsame) (fun hfin => ?_) _
    subst hfin
    rw [(hsame.channels w.ch).1]
    simpa [State.PortOwns, hjob] using hport
  | generalCalled =>
    exact ownershipOk_of_owned (howned.congr (((sameOwners_transact s _ _).trans (sameOwners_invalidateImages _)).trans
      (sameOwners_of_eq rfl (fun _ => rfl) fun _ => rfl))) trivial
  | generalCallFailed addr e info =>
    exact ownershipOk_of_idle howned (((sameOwners_transact s _ _).trans (sameOwners_invalidateImages _)).trans
      ((sameOwners_unlock _).trans (sameOwners_raise _ e info))) rfl
  | prescaleDone addr p why =>
    exact ownershipOk_of_idle howned (sameOwners_finishPrescale s addr p why) (by cases why <;> rfl)
  | prescaleWritten addr p stage why t _ _ ht =>
    have hsame : SameOwners s t.2 := by subst ht; exact sameOwners_transact s _ _
    exact ownershipOk_of_owned ((howned.congr hsame).congr (sameOwners_of_eq rfl (fun _ => rfl) fun _ => rfl)) trivial
  | prescaleFailed addr p stage why t _ _ ht =>
    have hsame : SameOwners s t.2 := by subst ht; exact sameOwners_transact s _ _
    refine ownershipOk_of_idle (howned.congr hsame)
      ((sameOwners_unlock _).trans (sameOwners_failPrescale _ stage why _)) ?_
    unfold State.failPrescale
    split <;> simp
  | released u why hjob =>
    exact ownershipOk_afterHold howned (by simpa [State.PortOwns, hjob] using hport) why
  | stepWritten u => exact ownershipOk_portStepOps (howned.congr (sameOwners_writeImage s .port _)) u _
  | stepFailed u job =>
    exact ownershipOk_of_idle howned (((sameOwners_writeImage s .port job.write).trans (sameOwners_failStep _ u)).trans
      (sameOwners_conclude _ _ 0)) (by simp)
  | deEnergizeWritten u why w rest first hjob =>
    refine ownershipOk_deEnergizeFrom (howned.congr (sameOwners_writeImage s .port w)) ?_ why rest _
    rw [State.writeImage_unit]
    simpa [State.PortOwns, hjob] using hport

theorem ownershipOk_of_begun {s t : State} {i : Instr} (h : s.OwnershipOk) (hb : Begun s i t) : t.OwnershipOk := by
  have howned := owned_of_ownershipOk h
  have same {t r : State} (ht : Owned t) (hunits : ∀ v, r.unit v = t.unit v) (hcfg : r.cfg = t.cfg)
      (hchannels : ∀ ch, r.channel ch = t.channel ch) (hport : r.PortOwns) : r.OwnershipOk :=
    ownershipOk_of_owned (ht.congr (sameOwners_of_eq hcfg hunits hchannels)) hport
  have unit {u : UnitId} {y : UnitState} (hbound : y.bound = (s.unit u).bound) (ha : y.portA = (s.unit u).portA)
      (hb : y.portB = (s.unit u).portB) : Owned (s.setUnit u y) := howned.congr (sameOwners_setUnit s hbound ha hb)
  cases hb with
  | answered | init | setfreq => exact same howned (fun _ => rfl) rfl (fun _ => rfl) trivial
  | acq ch _ hfree => exact same (owned_acq howned hfree) (fun _ => rfl) rfl (fun _ => rfl) trivial
  | rel ch _ hhost => exact same howned (fun _ => rfl) rfl (fun _ => rfl) hhost
  | setduty => exact ownershipOk_portApply howned ..
  | disable ch _ hhost => exact same (owned_setDisabled howned hhost true) (fun _ => rfl) rfl (fun _ => rfl) trivial
  | enable ch _ hhost => exact ownershipOk_portApply (owned_setDisabled howned hhost false) ..
  | cfgmotor n pa pb spr u _ hbound hports _ hfree =>
    exact same (owned_bind howned hbound spr hports hfree) (fun _ => rfl) rfl (fun _ => rfl) trivial
  | selstyle n sty nms u =>
    exact same (unit (u := u) (y := (s.unit u).withStyle sty nms) rfl rfl rfl) (fun _ => rfl) rfl (fun _ => rfl) trivial
  | nextstep n dir u =>
    have hhand : SameOwners s (s.setUnit u (s.unit u).handStep) := sameOwners_setUnit s rfl rfl rfl
    exact ownershipOk_portStepOps (howned.congr (hhand.trans (sameOwners_advanceIndex _ u dir))) u _
  | setpf n pf u =>
    exact same (unit (u := u) (y := { s.unit u with pf := BitVec.ofNat 17 pf }) rfl rfl rfl) (fun _ => rfl) rfl
      (fun _ => rfl) trivial
  | asked i u why hbound =>
    refine same (unit (u := u) (y := { s.unit u with cancelReq := true }) rfl rfl rfl) (fun _ => rfl) rfl
      (fun _ => rfl) ?_
    simpa [State.PortOwns] using hbound
  | ended i u why hbound => exact ownershipOk_afterHold howned hbound why
  | setspeed n rpm u tps =>
    exact same (unit (u := u) (y := { s.unit u with tps := BitVec.ofNat 32 tps }) rfl rfl rfl) (fun _ => rfl) rfl
      (fun _ => rfl) trivial
  | stepfor n dir cont count u =>
    exact same (unit (u := u) (y := (s.unit u).startRun s.time dir cont count) rfl rfl rfl) (fun _ => rfl) rfl
      (fun _ => rfl) trivial
  | setpolicy n e u =>
    exact same (unit (u := u) (y := { s.unit u with endFull := e }) rfl rfl rfl) (fun _ => rfl) rfl (fun _ => rfl)
      trivial

/-- Settles O17: every turn and every command keeps ownership sound. -/
theorem ownershipStaysSound : Obligations.OwnershipStaysSound :=
  step_keeps_of_turns State.OwnershipOk (fun _ _ h => h) (fun _ _ _ h => h) (fun _ _ h => h)
    (fun _ _ _ h hm => ownershipOk_of_moved h hm)
    (fun s e h _ => ownershipOk_of_idle (owned_of_ownershipOk h) (sameOwners_raise s e 0) rfl)
    (fun _ _ _ h _ _ hb => ownershipOk_of_begun h hb)

end Sys2Proof.ChannelOwners
end

section
/-! The bus (R53, R63, R67). A turn issues at most one transaction, and which one is told by what was under way (`Issues`);
a command issues none where it begins. The trace and the expander's registers follow from that. -/

namespace Sys2Proof.BusTrace

open Machine StepRelation StepFrames

/-! ### Paced Steps under way -/

/-- Where the Step of unit u's pacing loop can come from in one turn. -/
inductive NextJob (s : State) (u : UnitId) : StepJob → Prop
  | same (job : StepJob) (h : (s.unit u).stepJob = some job) : NextJob s u job
  | locked (job : StepJob) (h : (s.unit u).stepJob = some job) : NextJob s u ⟨{ job.write with locked := true }, job.rest⟩
  | begun (dir : Dir) (r : State) (job : StepJob) (hrun : (s.unit u).run = .running)
      (h : (runOps u ((s.advanceIndex u dir).stepOps u) r).1 = some job) : NextJob s u job
  | next (job : StepJob) (r : State) (job' : StepJob) (h : (s.unit u).stepJob = some job)
      (h' : (runOps u job.rest r).1 = some job') : NextJob s u job'

/-- An update of one unit that keeps its Step or drops it. -/
theorem setUnit_stepJob {s : State} {u v : UnitId} {y : UnitState} {job : StepJob}
    (h : ((s.setUnit v y).unit u).stepJob = some job) (hy : y.stepJob = (s.unit v).stepJob ∨ y.stepJob = none) :
    (s.unit u).stepJob = some job := by
  rw [State.setUnit_unit] at h
  split at h
  case isTrue hv =>
    subst hv
    rcases hy with hy | hy <;> rw [hy] at h
    · exact h
    · cases h
  case isFalse => exact h

theorem advanceIndex_stepJob {s : State} {u v : UnitId} {dir : Dir} {job : StepJob}
    (h : ((s.advanceIndex v dir).unit u).stepJob = some job) : (s.unit u).stepJob = some job := by
  rw [State.advanceIndex_unit] at h
  split at h <;> exact h

/-- After carrying a paced Step on, unit u has the write it came to under way, or no Step. -/
theorem loopStepOps_stepJob {s : State} {u v : UnitId} {ops : List StepOp} {job : StepJob}
    (h : ((s.loopStepOps u ops).unit v).stepJob = some job) :
    v = u ∧ (runOps u ops s).1 = some job ∨ (s.unit v).stepJob = some job := by
  rcases s.loopStepOps_cases u ops with ⟨-, he⟩ | ⟨job', hjob', he⟩ <;> rw [he, State.setUnit_unit] at h <;> split at h
  · cases h
  · exact .inr ((runOps_run u ops s v).2 ▸ h)
  · cases h
    exact .inl ⟨Eq.symm (by assumption), hjob'⟩
  · exact .inr ((runOps_run u ops s v).2 ▸ h)

theorem failStep_stepJob {s : State} {u v : UnitId} {job : StepJob} (h : ((s.failStep u).unit v).stepJob = some job) :
    (s.unit v).stepJob = some job := by
  rw [State.failStep_unit] at h
  split at h <;> exact h

theorem deEnergized_stepJob (x : UnitState) (r : Answer) : (x.deEnergized r).stepJob = x.stepJob := by
  unfold UnitState.deEnergized; split <;> rfl

theorem finishDeEnergize_stepJob {s : State} {u v : UnitId} {why : DeEnergizeFor} {first : Answer} {job : StepJob}
    (h : ((s.finishDeEnergize u why first).unit v).stepJob = some job) : (s.unit v).stepJob = some job := by
  rcases s.finishDeEnergize_cases u why first with ⟨-, -, he⟩ | ⟨-, -, he⟩ | ⟨-, -, he⟩ | ⟨-, -, he⟩ <;> rw [he] at h <;>
    simp only [State.conclude_unit, State.respondOk_unit] at h
  · exact setUnit_stepJob h (.inl (deEnergized_stepJob _ .ack))
  · exact setUnit_stepJob (s := s.forgetUnit u) h (.inl (deEnergized_stepJob _ first))
  · simpa using setUnit_stepJob h (.inr rfl)
  · simpa using setUnit_stepJob h (.inr rfl)

theorem deEnergizeFrom_stepJob {s : State} {u v : UnitId} {why : DeEnergizeFor} {chs : List ChannelId} {first : Answer}
    {job : StepJob} (h : ((s.deEnergizeFrom u why chs first).unit v).stepJob = some job) :
    (s.unit v).stepJob = some job :=
  deEnergizeFrom_induction (fun t => (t.unit v).stepJob = some job → (s.unit v).stepJob = some job)
    (fun t => (t.unit v).stepJob = some job → (s.unit v).stepJob = some job)
    (fun _ _ _ ht => by simpa using ht) (fun _ ht hj => ht (finishDeEnergize_stepJob hj))
    (fun _ _ _ ht _ _ _ => by simpa using ht) id h

theorem afterHold_stepJob {s : State} {u v : UnitId} {why : HoldFor} {job : StepJob}
    (h : ((s.afterHold u why).unit v).stepJob = some job) : (s.unit v).stepJob = some job := by
  cases why with
  | cancel => exact h
  | stop => exact deEnergizeFrom_stepJob h
  | dispose => exact deEnergizeFrom_stepJob h

theorem portStepOps_stepJob (s : State) (u v : UnitId) (ops : List StepOp) :
    ((s.portStepOps u ops).unit v).stepJob = (s.unit v).stepJob := by
  have h := (runOps_run u ops s v).2
  rcases s.portStepOps_cases u ops with ⟨-, he⟩ | ⟨job, -, he⟩ <;> rw [he] <;> exact h

@[simp] theorem portApply_unit (s : State) (ch : ChannelId) (ratio : BitVec 13) (inv : Bool) (v : Value) (u : UnitId) :
    (s.portApply ch ratio inv v).unit u = s.unit u := by
  rcases s.portApply_cases ch ratio inv v with ⟨-, he⟩ | ⟨-, he⟩ <;> rw [he]
  · simp
  · rfl

@[simp] theorem finishWrite_unit (s : State) (ch : ChannelId) (fin : WriteEnd) (r : Answer) (u : UnitId) :
    (s.finishWrite ch fin r).unit u = s.unit u := by
  cases fin <;> simp [State.finishWrite]

@[simp] theorem finishPrescale_unit (s : State) (addr : BitVec 7) (p : Byte) (why : PrescaleFor) (u : UnitId) :
    (s.finishPrescale addr p why).unit u = s.unit u := by
  cases why <;> rfl

@[simp] theorem failPrescale_unit (s : State) (stage : PrescaleStage) (why : PrescaleFor) (r : Answer) (u : UnitId) :
    (s.failPrescale stage why r).unit u = s.unit u := by
  unfold State.failPrescale
  split <;> simp

theorem stepJob_of_moved {s t : State} {c : Choice} (hm : Moved s c t) {u : UnitId} {job : StepJob}
    (h : (t.unit u).stepJob = some job) : NextJob s u job := by
  cases hm with
  | stays | tick => exact .same job h
  | accum v hrun hjob =>
    refine .same job (setUnit_stepJob h (.inr ?_))
    exact LockExclusion.accum_run_of_job hjob
  | seen v hrun hjob =>
    refine .same job (setUnit_stepJob h (.inr ?_))
    split
    · exact hjob
    · rfl
  | due v hrun =>
    rcases loopStepOps_stepJob h with ⟨rfl, h⟩ | h
    · exact .begun _ _ job hrun h
    · exact .same job (advanceIndex_stepJob h)
  | loopLock v job' hrun hjob =>
    rw [State.setUnit_unit] at h
    split at h
    case isTrue hv => subst hv; cases h; exact .locked job' hjob
    case isFalse => exact .same job h
  | loopWritten v job' hrun hjob =>
    rcases loopStepOps_stepJob h with ⟨rfl, h⟩ | h
    · exact .next job' _ job hjob h
    · exact .same job (by simpa using h)
  | loopFailed v job' => exact .same job (by simpa using failStep_stepJob (setUnit_stepJob h (.inr rfl)))
  | prescaleWritten addr p stage why t' _ _ ht => subst ht; exact .same job (by simpa using h)
  | prescaleFailed addr p stage why t' _ _ ht => subst ht; exact .same job (by simpa using h)
  | released v why => exact .same job (afterHold_stepJob h)
  | stepWritten v => exact .same job (by simpa [portStepOps_stepJob] using h)
  | stepFailed v job' => exact .same job (by simpa using failStep_stepJob (by simpa using h))
  | deEnergizeWritten v why w => exact .same job (by simpa using deEnergizeFrom_stepJob h)
  | channelWritten | prescaleDone | portLock | generalCalled | generalCallFailed => exact .same job (by simpa using h)

theorem stepJob_of_begun {s t : State} {i : Instr} (hb : Begun s i t) {u : UnitId} {job : StepJob}
    (h : (t.unit u).stepJob = some job) : (s.unit u).stepJob = some job := by
  cases hb with
  | nextstep n dir v =>
    rw [portStepOps_stepJob] at h
    exact setUnit_stepJob (advanceIndex_stepJob h) (.inl rfl)
  | ended i v why => exact afterHold_stepJob h
  | cfgmotor n pa pb spr v => simpa using setUnit_stepJob h (.inl (by simp [UnitState.bind, UnitState.invalidateLast]))
  | stepfor => exact setUnit_stepJob h (.inr rfl)
  | selstyle | setpf | setspeed | setpolicy | asked => exact setUnit_stepJob h (.inl rfl)
  | _ => simpa using h

/-! ### What the port has under way -/

theorem portStepOps_port (s : State) (u : UnitId) (ops : List StepOp) :
    (s.portStepOps u ops).port = .idle ∨
      ∃ job, (runOps u ops s).1 = some job ∧ (s.portStepOps u ops).port = .busy (.step u job) := by
  rcases s.portStepOps_cases u ops with ⟨-, he⟩ | ⟨job, hjob, he⟩ <;> rw [he]
  · exact .inl rfl
  · exact .inr ⟨job, hjob, rfl⟩

@[simp] theorem finishDeEnergize_port (s : State) (u : UnitId) (why : DeEnergizeFor) (first : Answer) :
    (s.finishDeEnergize u why first).port = .idle := by
  rcases s.finishDeEnergize_cases u why first with ⟨-, -, he⟩ | ⟨-, -, he⟩ | ⟨-, -, he⟩ | ⟨-, -, he⟩ <;> rw [he] <;> simp

theorem deEnergizeFrom_port (s : State) (u : UnitId) (why : DeEnergizeFor) (chs : List ChannelId) (first : Answer) :
    (s.deEnergizeFrom u why chs first).port = .idle ∨ ∃ ch ∈ chs, ∃ rest ⊆ chs,
      (s.deEnergizeFrom u why chs first).port = .busy (.deEnergize u why (pendingApply ch 0 false) rest first) :=
  deEnergizeFrom_induction (fun _ => True)
    (fun t => t.port = .idle ∨ ∃ ch ∈ chs, ∃ rest ⊆ chs,
      t.port = .busy (.deEnergize u why (pendingApply ch 0 false) rest first))
    (fun _ _ _ _ => trivial) (fun t _ => .inl (finishDeEnergize_port t u why first))
    (fun _ ch rest _ hch hrest _ => .inr ⟨ch, hch, rest, hrest, rfl⟩) trivial

theorem afterHold_port (s : State) (u : UnitId) (why : HoldFor) :
    (s.afterHold u why).port = .idle ∨ ∃ why', ∃ ch ∈ s.unitChannels u, ∃ rest ⊆ s.unitChannels u,
      (s.afterHold u why).port = .busy (.deEnergize u why' (pendingApply ch 0 false) rest .ack) := by
  cases why with
  | cancel => exact .inl rfl
  | stop => exact (deEnergizeFrom_port s u .stop _ .ack).imp_right fun h => ⟨.stop, h⟩
  | dispose => exact (deEnergizeFrom_port s u .dispose _ .ack).imp_right fun h => ⟨.dispose, h⟩

theorem portApply_port (s : State) (ch : ChannelId) (ratio : BitVec 13) (inv : Bool) (v : Value) :
    (s.portApply ch ratio inv v).port = .idle ∨
      (s.portApply ch ratio inv v).port = .busy (.channelWrite (pendingApply ch ratio inv) (.reply v)) := by
  rcases s.portApply_cases ch ratio inv v with ⟨-, he⟩ | ⟨-, he⟩ <;> rw [he]
  · exact .inl rfl
  · exact .inr rfl

@[simp] theorem finishWrite_port (s : State) (ch : ChannelId) (fin : WriteEnd) (r : Answer) :
    (s.finishWrite ch fin r).port = .idle := by
  cases fin <;> simp [State.finishWrite]

@[simp] theorem finishPrescale_port (s : State) (addr : BitVec 7) (p : Byte) (why : PrescaleFor) :
    (s.finishPrescale addr p why).port = .idle := by
  cases why <;> rfl

@[simp] theorem failPrescale_port (s : State) (stage : PrescaleStage) (why : PrescaleFor) (r : Answer) :
    (s.failPrescale stage why r).port = .idle := by
  unfold State.failPrescale
  split <;> simp

/-! ### The transaction of a turn -/

/-- The channel write that a job of the port has under way. -/
def portWrite? : PortJob → Option PendingWrite
  | .channelWrite w _ => some w
  | .step _ job => some job.write
  | .deEnergize _ _ w _ _ => some w
  | _ => none

/-- In state s, agent a's turn c issues transaction op (R53). -/
inductive Issues (s : State) : Choice → Agent → BusOp → Prop
  | generalCall (addr : BitVec 7) (hport : s.port = .busy (.generalCall addr true)) :
      Issues s .port .port (.generalCall 0x06)
  | prescale (addr : BitVec 7) (p : Byte) (stage : PrescaleStage) (why : PrescaleFor)
      (hport : s.port = .busy (.prescale addr p stage 0 why)) (hstage : stage ≠ .done) :
      Issues s .port .port (.write addr (BitVec.ofNat 8 (stageWrite s.cfg p stage).1) [(stageWrite s.cfg p stage).2])
  | image (job : PortJob) (w : PendingWrite) (hport : s.port = .busy job) (hw : portWrite? job = some w)
      (hlocked : w.locked = true) : Issues s .port .port (s.writeOp w)
  | paced (u : UnitId) (job : StepJob) (hjob : (s.unit u).stepJob = some job) (hlocked : job.write.locked = true) :
      Issues s (.loop u) (.loop u) (s.writeOp job.write)

/-- From s to t one transaction: it is at the end of the trace, and the expander has taken it; the port may then forget
registers of the expander (item U1). -/
structure Transacted (s t : State) (a : Agent) (op : BusOp) (r : Answer) : Prop where
  trace : t.trace = s.trace ++ [⟨a, s.time, op, r⟩]
  expander : ∃ as, t.expander = (s.expander.after op r).forgetAll as
  paced : a ≠ .port → t.expander = s.expander.after op r

/-- From s to t no transaction. -/
structure Untouched (s t : State) : Prop where
  trace : t.trace = s.trace
  expander : t.expander = s.expander

theorem forgetAll_nil (m : Memory) : m.forgetAll [] = m := by simp [Memory.forgetAll]

theorem transacted_of_after {s t : State} {a : Agent} {op : BusOp} {r : Answer}
    (htrace : t.trace = s.trace ++ [⟨a, s.time, op, r⟩]) (hexp : t.expander = s.expander.after op r) :
    Transacted s t a op r :=
  ⟨htrace, ⟨[], by rw [forgetAll_nil]; exact hexp⟩, fun _ => hexp⟩

theorem loopStepOps_expander (s : State) (u : UnitId) (ops : List StepOp) :
    (s.loopStepOps u ops).expander = s.expander := by
  rcases s.loopStepOps_cases u ops with ⟨-, he⟩ | ⟨job, -, he⟩ <;> rw [he] <;> simp

theorem portStepOps_expander (s : State) (u : UnitId) (ops : List StepOp) :
    (s.portStepOps u ops).expander = s.expander := by
  rcases s.portStepOps_cases u ops with ⟨-, he⟩ | ⟨job, -, he⟩ <;> rw [he] <;> simp

theorem failStep_expander (s : State) (u : UnitId) :
    (s.failStep u).expander = s.expander.forgetAll (s.unitCells u) := rfl

theorem finishWrite_expander (s : State) (ch : ChannelId) (fin : WriteEnd) (r : Answer) :
    (s.finishWrite ch fin r).expander = s.expander := by
  cases fin <;> simp [State.finishWrite]

theorem failPrescale_expander (s : State) (stage : PrescaleStage) (why : PrescaleFor) (r : Answer) :
    (s.failPrescale stage why r).expander = s.expander := by
  unfold State.failPrescale
  split <;> simp

theorem finishPrescale_expander (s : State) (addr : BitVec 7) (p : Byte) (why : PrescaleFor) :
    (s.finishPrescale addr p why).expander = s.expander := by
  cases why <;> rfl

theorem finishPrescale_trace (s : State) (addr : BitVec 7) (p : Byte) (why : PrescaleFor) :
    (s.finishPrescale addr p why).trace = s.trace := by
  cases why <;> rfl

theorem portApply_expander (s : State) (ch : ChannelId) (ratio : BitVec 13) (inv : Bool) (v : Value) :
    (s.portApply ch ratio inv v).expander = s.expander := by
  rcases s.portApply_cases ch ratio inv v with ⟨-, he⟩ | ⟨-, he⟩ <;> rw [he] <;> simp

/-- After DeEnergize nothing of the unit's registers is known if a write failed (item U1). -/
theorem finishDeEnergize_expander (s : State) (u : UnitId) (why : DeEnergizeFor) (first : Answer) :
    (s.finishDeEnergize u why first).expander =
      if first = .ack then s.expander else s.expander.forgetAll (s.unitCells u) := by
  rcases s.finishDeEnergize_cases u why first with ⟨-, hr, he⟩ | ⟨-, hr, he⟩ | ⟨-, hr, he⟩ | ⟨-, hr, he⟩ <;> rw [he] <;>
    simp [hr]

theorem deEnergizeFrom_expander (s : State) (u : UnitId) (why : DeEnergizeFor) (chs : List ChannelId)
    (first : Answer) : (∃ as, (s.deEnergizeFrom u why chs first).expander = s.expander.forgetAll as) ∧
      (first = .ack → (s.deEnergizeFrom u why chs first).expander = s.expander) :=
  deEnergizeFrom_induction (fun t => t.expander = s.expander)
    (fun t => (∃ as, t.expander = s.expander.forgetAll as) ∧ (first = .ack → t.expander = s.expander))
    (fun _ _ _ h => h)
    (fun t h => by
      rw [finishDeEnergize_expander, h]
      by_cases hr : first = .ack
      · rw [if_pos hr]; exact ⟨⟨[], (forgetAll_nil _).symm⟩, fun _ => rfl⟩
      · rw [if_neg hr]; exact ⟨⟨_, rfl⟩, fun h => absurd h hr⟩)
    (fun _ _ _ h _ _ _ => ⟨⟨[], (h.trans (forgetAll_nil _).symm)⟩, fun _ => h⟩) rfl

theorem afterHold_expander (s : State) (u : UnitId) (why : HoldFor) : (s.afterHold u why).expander = s.expander := by
  cases why with
  | cancel => rfl
  | stop => exact (deEnergizeFrom_expander s u .stop _ .ack).2 rfl
  | dispose => exact (deEnergizeFrom_expander s u .dispose _ .ack).2 rfl

/-- A turn issues no transaction, or the one its agent has under way. -/
theorem bus_of_moved {s t : State} {c : Choice} (hm : Moved s c t) :
    Untouched s t ∨ ∃ a op r, Issues s c a op ∧ Transacted s t a op r := by
  cases hm with
  | stays | tick | accum | seen | loopLock | portLock => exact .inl ⟨rfl, rfl⟩
  | due u =>
    refine .inl ⟨(sameDriver_loopStepOps _ u _).trace, ?_⟩
    rw [loopStepOps_expander]; rfl
  | loopWritten u job _ hjob hlocked =>
    refine .inr ⟨_, _, _, .paced u job hjob hlocked,
      transacted_of_after (sameDriver_loopStepOps _ u _).trace ?_⟩
    rw [loopStepOps_expander]; rfl
  | loopFailed u job _ hjob hlocked hfail =>
    refine .inr ⟨_, _, (s.writeImage (.loop u) job.write).1, .paced u job hjob hlocked, transacted_of_after rfl ?_⟩
    rw [State.setUnit_expander, failStep_expander, State.writeImage_expander, Memory.after_of_ne_ack _ _ _ hfail]
    rfl
  | channelWritten w fin hport hlocked =>
    refine .inr ⟨_, _, _, .image _ w hport rfl hlocked,
      transacted_of_after (sameDriver_finishWrite _ w.ch fin _).trace ?_⟩
    rw [finishWrite_expander]; rfl
  | generalCalled addr hport =>
    exact .inr ⟨_, _, (s.transact .port (.generalCall 0x06)).1, .generalCall addr hport, transacted_of_after rfl rfl⟩
  | generalCallFailed addr e info hport =>
    exact .inr ⟨_, _, (s.transact .port (.generalCall 0x06)).1, .generalCall addr hport,
      transacted_of_after (by simp [State.transact_trace]) (by simp [State.transact_expander])⟩
  | prescaleDone addr p why => exact .inl ⟨finishPrescale_trace .., finishPrescale_expander ..⟩
  | prescaleWritten addr p stage why t hport hstage ht =>
    subst ht
    exact .inr ⟨_, _, _, .prescale addr p stage why hport hstage, transacted_of_after rfl rfl⟩
  | prescaleFailed addr p stage why t hport hstage ht =>
    subst ht
    refine .inr ⟨_, _, _, .prescale addr p stage why hport hstage,
      transacted_of_after (sameDriver_failPrescale _ stage why _).trace ?_⟩
    rw [failPrescale_expander]; rfl
  | released u why => exact .inl ⟨(sameDriver_afterHold s u why).trace, afterHold_expander s u why⟩
  | stepWritten u job hport hlocked =>
    refine .inr ⟨_, _, _, .image _ job.write hport rfl hlocked,
      transacted_of_after (sameDriver_portStepOps _ u _).trace ?_⟩
    rw [portStepOps_expander]; rfl
  | stepFailed u job hport hlocked =>
    refine .inr ⟨_, _, (s.writeImage .port job.write).1, .image _ job.write hport rfl hlocked, ?_,
      ⟨(s.writeImage .port job.write).2.unitCells u, ?_⟩, fun h => absurd rfl h⟩
    · simp [State.failStep, State.writeImage_trace]
    · rw [State.conclude_expander, failStep_expander]; rfl
  | deEnergizeWritten u why w rest first hport hlocked =>
    obtain ⟨as, has⟩ := (deEnergizeFrom_expander (s.writeImage .port w).2 u why rest
      (firstFailure first (s.writeImage .port w).1)).1
    exact .inr ⟨_, _, _, .image _ w hport rfl hlocked, (sameDriver_deEnergizeFrom _ u why rest _).trace, ⟨as, has⟩,
      fun h => absurd rfl h⟩

theorem bus_of_begun {s t : State} {i : Instr} (hb : Begun s i t) : Untouched s t := by
  refine ⟨(sameDriver_of_begun hb).trace, ?_⟩
  cases hb with
  | setduty => rw [portApply_expander]
  | enable => rw [portApply_expander]; rfl
  | nextstep n dir u => rw [portStepOps_expander]; rfl
  | ended i u why => exact afterHold_expander s u why
  | cfgmotor => simp
  | _ => rfl

/-! ### Every transaction is listed (R53) -/

theorem imageLegal_imageOf (e : Nat) : ImageLegal (imageOf e) := by
  by_cases he : e ≤ 4096
  · exact ⟨e, he, rfl⟩
  · exact ⟨4096, le_rfl, by rw [imageOf_of_ge e (by omega), imageOf_of_ge 4096 le_rfl]⟩

theorem imageLegal_of_runOps {u : UnitId} {ops : List StepOp} {s : State} {job : StepJob}
    (h : (runOps u ops s).1 = some job) : ImageLegal job.write.image := by
  obtain ⟨ch, ratio, hw, -⟩ := runOps_job u ops s job h
  rw [hw]
  exact imageLegal_imageOf _

theorem stageWrite_listed (c : Config) (addr : BitVec 7) {p : Byte} (hp : 3 ≤ p.toNat) (stage : PrescaleStage) :
    BusOp.Listed c (.write addr (BitVec.ofNat 8 (stageWrite c p stage).1) [(stageWrite c p stage).2]) := by
  cases stage with
  | value => exact .prescale addr p hp
  | sleep => exact .mode1 addr _ (.inl rfl)
  | wake => exact .mode1 addr _ (.inr (.inl rfl))
  | restart | done => exact .mode1 addr _ (.inr (.inr rfl))

theorem listed_of_issues {s : State} (h : s.TraceListed) {c : Choice} {a : Agent} {op : BusOp} (hi : Issues s c a op) :
    op.Listed s.cfg := by
  obtain ⟨-, hport, hjobs⟩ := h
  cases hi with
  | generalCall => exact .reset
  | prescale addr p stage why hp =>
    rw [hp] at hport
    exact stageWrite_listed s.cfg addr hport stage
  | image job w hp hw =>
    rw [hp] at hport
    refine .image s.busAddr w.ch w.image ?_
    cases job <;> cases hw <;> exact hport
  | paced u job hjob => exact .image s.busAddr _ _ (hjobs u job hjob)

theorem portListed_of_idle {p : PortState} (h : p = .idle) : p.Listed := by rw [h]; trivial

theorem portListed_deEnergizeFrom (s : State) (u : UnitId) (why : DeEnergizeFor) (chs : List ChannelId)
    (first : Answer) : (s.deEnergizeFrom u why chs first).port.Listed := by
  rcases deEnergizeFrom_port s u why chs first with h | ⟨ch, -, rest, -, h⟩
  · exact portListed_of_idle h
  · rw [h]; exact imageLegal_imageOf (effRatio 0 false)

theorem portListed_afterHold (s : State) (u : UnitId) (why : HoldFor) : (s.afterHold u why).port.Listed := by
  cases why with
  | cancel => trivial
  | stop => exact portListed_deEnergizeFrom s u .stop _ .ack
  | dispose => exact portListed_deEnergizeFrom s u .dispose _ .ack

theorem portListed_portStepOps (s : State) (u : UnitId) (ops : List StepOp) : (s.portStepOps u ops).port.Listed := by
  rcases portStepOps_port s u ops with h | ⟨job, hjob, h⟩
  · exact portListed_of_idle h
  · rw [h]; exact imageLegal_of_runOps hjob

theorem portListed_portApply (s : State) (ch : ChannelId) (ratio : BitVec 13) (inv : Bool) (v : Value) :
    (s.portApply ch ratio inv v).port.Listed := by
  rcases portApply_port s ch ratio inv v with h | h
  · exact portListed_of_idle h
  · rw [h]; exact imageLegal_imageOf _

theorem portListed_of_moved {s t : State} {c : Choice} (h : s.port.Listed) (hm : Moved s c t) : t.port.Listed := by
  cases hm with
  | stays | accum | seen | loopLock => exact h
  | tick =>
    show s.port.tick.Listed
    revert h
    fun_cases PortState.tick s.port <;> exact id
  | due | loopWritten => simpa using h
  | loopFailed => simpa using h
  | portLock job hport =>
    rw [hport] at h
    cases job <;> exact h
  | generalCalled addr hport => simp [PortState.Listed, defaultPrescale]
  | prescaleWritten addr p stage why t hport => rw [hport] at h; exact h
  | released u why => exact portListed_afterHold s u why
  | stepWritten u => exact portListed_portStepOps _ u _
  | deEnergizeWritten u why w rest => exact portListed_deEnergizeFrom _ u why rest _
  | channelWritten | generalCallFailed | prescaleDone | prescaleFailed | stepFailed =>
    exact portListed_of_idle (by simp)

theorem portListed_of_begun {s t : State} {i : Instr} (hb : Begun s i t) : t.port.Listed := by
  cases hb with
  | setfreq hz =>
    have hp := prescaleOf_mem s.cfg.clockHz hz
    show 3 ≤ (BitVec.ofNat 8 (prescaleOf s.cfg.clockHz hz)).toNat
    rw [BitVec.toNat_ofNat]
    omega
  | rel | disable => exact imageLegal_imageOf 0
  | setduty => exact portListed_portApply ..
  | enable => exact portListed_portApply ..
  | nextstep n dir u => exact portListed_portStepOps _ u _
  | ended i u why => exact portListed_afterHold s u why
  | _ => trivial

theorem imageLegal_of_nextJob {s : State} (h : s.TraceListed) {u : UnitId} {job : StepJob} (hn : NextJob s u job) :
    ImageLegal job.write.image := by
  obtain ⟨-, -, hjobs⟩ := h
  cases hn with
  | same _ hj => exact hjobs u job hj
  | locked job hj => exact hjobs u job hj
  | begun dir r _ _ hj => exact imageLegal_of_runOps hj
  | next _ r _ _ hj => exact imageLegal_of_runOps hj

theorem traceListed_of_moved {s t : State} {c : Choice} (h : s.TraceListed) (hm : Moved s c t) : t.TraceListed := by
  have hcfg := cfg_of_moved hm
  refine ⟨?_, portListed_of_moved h.2.1 hm, fun u job hj => imageLegal_of_nextJob h (stepJob_of_moved hm hj)⟩
  rw [hcfg]
  rcases bus_of_moved hm with hq | ⟨a, op, r, hi, ht⟩
  · rw [hq.trace]; exact h.1
  · rw [ht.trace]
    exact List.forall_mem_append.2 ⟨h.1, List.forall_mem_singleton.2 (listed_of_issues h hi)⟩

/-- Settles O19: a turn issues only what it had under way, and what comes under way is listed. -/
theorem everyTransactionIsListed : Obligations.EveryTransactionIsListed := by
  refine step_keeps_of_turns State.TraceListed (fun _ _ h => h) (fun _ _ _ h => h) (fun _ _ h => h)
    (fun _ _ _ h hm => traceListed_of_moved h hm) (fun s e h _ => ?raise) fun s i t h _ _ hb => ?begun
  case raise =>
    obtain ⟨htrace, -, hjobs⟩ := h
    exact ⟨by simpa using htrace, trivial, fun u job hj => hjobs u job (by simpa using hj)⟩
  case begun =>
    obtain ⟨htrace, -, hjobs⟩ := h
    refine ⟨?_, portListed_of_begun hb, fun u job hj => hjobs u job (stepJob_of_begun hb hj)⟩
    rw [(bus_of_begun hb).trace, (sameDriver_of_begun hb).cfg]
    exact htrace

/-! ### The expander replays the trace (R56, R63, R64) -/

/-- Every byte that m knows is m' 's. -/
def KnownIn (m m' : Memory) : Prop := ∀ a, m.read a = none ∨ m.read a = m'.read a

theorem knownIn_write {m m' : Memory} (h : KnownIn m m') (a : Nat) (b : Byte) : KnownIn (m.write a b) (m'.write a b) := by
  intro x
  by_cases hx : a = x
  · subst hx
    exact .inr (by rw [Memory.read_write_self, Memory.read_write_self])
  · rw [Memory.read_write_ne _ _ _ _ hx, Memory.read_write_ne _ _ _ _ hx]
    exact h x

theorem knownIn_storeAt {m m' : Memory} (h : KnownIn m m') (addr : BitVec 7) (reg : Byte) (data : List Byte) (k : Nat) :
    KnownIn (m.storeAt addr reg k data) (m'.storeAt addr reg k data) := by
  induction data generalizing k with
  | nil => exact h
  | cons b bs ih => exact knownIn_write (ih (k + 1)) _ b

theorem knownIn_after {m m' : Memory} (h : KnownIn m m') (op : BusOp) (r : Answer) :
    KnownIn (m.after op r) (m'.after op r) := by
  cases op with
  | generalCall => exact fun _ => .inl rfl
  | write addr reg data =>
    unfold Memory.after
    simp only
    split
    · exact knownIn_storeAt h addr reg data 0
    · exact fun _ => .inl rfl

theorem knownIn_forgetAll {m m' : Memory} (h : KnownIn m m') (as : List Nat) : KnownIn (m.forgetAll as) m' := by
  intro a
  rw [Memory.read_forgetAll]
  split
  · exact .inl rfl
  · exact h a

theorem replay_append (trace : List Transaction) (x : Transaction) :
    replay (trace ++ [x]) = (replay trace).after x.op x.answer := by
  simp [replay, List.foldl_append]

theorem expanderTold_of_moved {s t : State} {c : Choice} (h : s.expander.wf ∧ s.ExpanderReplaysTrace)
    (hm : Moved s c t) : t.expander.wf ∧ t.ExpanderReplaysTrace := by
  obtain ⟨hwf, hreplay⟩ := h
  rcases bus_of_moved hm with hq | ⟨a, op, r, -, ht⟩
  · exact ⟨hq.expander ▸ hwf, by unfold State.ExpanderReplaysTrace; rw [hq.expander, hq.trace]; exact hreplay⟩
  · obtain ⟨as, has⟩ := ht.expander
    refine ⟨has ▸ Memory.forgetAll_wf _ as (Memory.after_wf _ op r hwf), ?_⟩
    unfold State.ExpanderReplaysTrace
    rw [has, ht.trace, replay_append]
    exact knownIn_forgetAll (knownIn_after hreplay op r) as

/-- Settles O20: each transaction does to the expander what replaying it does, and forgetting only loses bytes. -/
theorem expanderReplaysTheTrace : Obligations.ExpanderReplaysTheTrace := by
  refine step_keeps_of_turns (fun s => s.expander.wf ∧ s.ExpanderReplaysTrace) (fun _ _ h => h) (fun _ _ _ h => h)
    (fun _ _ h => h) (fun _ _ _ h hm => expanderTold_of_moved h hm) (fun s e h _ => ?raise) fun s i t h _ _ hb => ?begun
  case raise => simpa [State.ExpanderReplaysTrace] using h
  case begun =>
    obtain ⟨htrace, hexp⟩ := bus_of_begun hb
    unfold State.ExpanderReplaysTrace
    rw [hexp, htrace]
    exact h

end Sys2Proof.BusTrace
end

section
/-! What is under way names its own agent's channels (R92, R110): every turn and every command keeps `JobsOwn`, and with
sound ownership every transaction of a channel image is the channel owner's. -/

namespace Sys2Proof.JobOwners

open Machine StepRelation StepFrames ChannelOwners BusTrace

/-! ### Which units run, and how they are bound -/

theorem running_setUnit {s : State} {u v : UnitId} {y : UnitState} (h : ((s.setUnit v y).unit u).run = .running)
    (hy : y.run = .running → (s.unit v).run = .running) : (s.unit u).run = .running := by
  rw [State.setUnit_unit] at h
  split at h
  case isTrue hv => subst hv; exact hy h
  case isFalse => exact h

theorem running_loopStepOps {s : State} {u v : UnitId} {ops : List StepOp}
    (h : ((s.loopStepOps u ops).unit v).run = .running) : (s.unit v).run = .running := by
  rw [← (runOps_run u ops s v).1]
  rcases s.loopStepOps_cases u ops with ⟨-, he⟩ | ⟨job, -, he⟩ <;> rw [he] at h <;> exact running_setUnit h id

theorem running_failStep {s : State} {u v : UnitId} (h : ((s.failStep u).unit v).run = .running) :
    (s.unit v).run = .running := by
  rw [State.failStep_unit] at h
  split at h <;> exact h

theorem running_advanceIndex {s : State} {u v : UnitId} {dir : Dir}
    (h : ((s.advanceIndex u dir).unit v).run = .running) : (s.unit v).run = .running := by
  rw [State.advanceIndex_unit] at h
  split at h <;> exact h

/-- A unit's registers at the end of DeEnergize (R117, R123, R135). -/
def afterDeEnergize (x : UnitState) (why : DeEnergizeFor) (first : Answer) : UnitState :=
  match why with
  | .stop => { x.deEnergized first with run := if first = .ack then .stopped else .braking }
  | .dispose => UnitState.reset

theorem finishDeEnergize_unit (s : State) (u : UnitId) (why : DeEnergizeFor) (first : Answer) (v : UnitId) :
    (s.finishDeEnergize u why first).unit v = if u = v then afterDeEnergize (s.unit u) why first else s.unit v := by
  rcases s.finishDeEnergize_cases u why first with ⟨rfl, hr, he⟩ | ⟨rfl, hr, he⟩ | ⟨rfl, hr, he⟩ | ⟨rfl, hr, he⟩ <;>
    rw [he] <;> simp only [State.conclude_unit, State.respondOk_unit, State.setUnit_unit, afterDeEnergize, hr] <;>
    split <;> simp

theorem afterDeEnergize_run (x : UnitState) (why : DeEnergizeFor) (first : Answer) :
    (afterDeEnergize x why first).run ≠ .running := by
  unfold afterDeEnergize
  split
  · simp only; split <;> nofun
  · nofun

theorem afterDeEnergize_binding (x : UnitState) (why : DeEnergizeFor) (first : Answer) :
    ((afterDeEnergize x why first).bound = x.bound ∧ (afterDeEnergize x why first).portA = x.portA ∧
      (afterDeEnergize x why first).portB = x.portB) ∨ afterDeEnergize x why first = UnitState.reset := by
  cases why with
  | stop => left; unfold afterDeEnergize UnitState.deEnergized; simp only; split <;> exact ⟨rfl, rfl, rfl⟩
  | dispose => exact .inr rfl

theorem running_finishDeEnergize {s : State} {u v : UnitId} {why : DeEnergizeFor} {first : Answer}
    (h : ((s.finishDeEnergize u why first).unit v).run = .running) : (s.unit v).run = .running := by
  rw [finishDeEnergize_unit] at h
  split at h
  · exact absurd h (afterDeEnergize_run _ why first)
  · exact h

theorem running_deEnergizeFrom {s : State} {u v : UnitId} {why : DeEnergizeFor} {chs : List ChannelId} {first : Answer}
    (h : ((s.deEnergizeFrom u why chs first).unit v).run = .running) : (s.unit v).run = .running :=
  deEnergizeFrom_induction (fun t => (t.unit v).run = .running → (s.unit v).run = .running)
    (fun t => (t.unit v).run = .running → (s.unit v).run = .running)
    (fun _ _ _ ht => by simpa using ht) (fun _ ht hr => ht (running_finishDeEnergize hr))
    (fun _ _ _ ht _ _ _ => by simpa using ht) id h

theorem running_afterHold {s : State} {u v : UnitId} {why : HoldFor}
    (h : ((s.afterHold u why).unit v).run = .running) : (s.unit v).run = .running := by
  cases why with
  | cancel => exact h
  | stop => exact running_deEnergizeFrom h
  | dispose => exact running_deEnergizeFrom h

theorem portStepOps_run (s : State) (u v : UnitId) (ops : List StepOp) :
    ((s.portStepOps u ops).unit v).run = (s.unit v).run := by
  have h := (runOps_run u ops s v).1
  rcases s.portStepOps_cases u ops with ⟨-, he⟩ | ⟨job, -, he⟩ <;> rw [he] <;> exact h

/-- No turn starts a run. -/
theorem running_of_moved {s t : State} {c : Choice} (hm : Moved s c t) {u : UnitId} (h : (t.unit u).run = .running) :
    (s.unit u).run = .running := by
  cases hm with
  | stays | tick => exact h
  | accum v hrun => exact running_setUnit h fun _ => hrun
  | seen v hrun => exact running_setUnit h fun _ => hrun
  | due v => exact running_advanceIndex (running_loopStepOps h)
  | loopLock v job => exact running_setUnit (s := { s with busLock := .loop v }) h id
  | loopWritten v job => simpa using running_loopStepOps h
  | loopFailed v job => simpa using running_failStep (running_setUnit h nofun)
  | prescaleWritten addr p stage why t' _ _ ht => subst ht; simpa using h
  | prescaleFailed addr p stage why t' _ _ ht => subst ht; simpa using h
  | released v why => exact running_afterHold h
  | stepWritten v => simpa [portStepOps_run] using h
  | stepFailed v job => simpa using running_failStep (by simpa using h)
  | deEnergizeWritten v why w => simpa using running_deEnergizeFrom h
  | channelWritten | prescaleDone | portLock | generalCalled | generalCallFailed => simpa using h

/-- After DeEnergize a unit is bound as before, or DISPOSE has reset it (R123). -/
theorem binding_finishDeEnergize (s : State) (u : UnitId) (why : DeEnergizeFor) (first : Answer) (v : UnitId) :
    let y := (s.finishDeEnergize u why first).unit v
    (y.bound = (s.unit v).bound ∧ y.portA = (s.unit v).portA ∧ y.portB = (s.unit v).portB) ∨ y = UnitState.reset := by
  rw [finishDeEnergize_unit]
  split
  case isTrue hv => subst hv; exact afterDeEnergize_binding _ why first
  case isFalse => exact .inl ⟨rfl, rfl, rfl⟩

theorem binding_deEnergizeFrom (s : State) (u : UnitId) (why : DeEnergizeFor) (chs : List ChannelId) (first : Answer)
    (v : UnitId) :
    let y := (s.deEnergizeFrom u why chs first).unit v
    (y.bound = (s.unit v).bound ∧ y.portA = (s.unit v).portA ∧ y.portB = (s.unit v).portB) ∨ y = UnitState.reset :=
  deEnergizeFrom_induction (fun t => t.unit v = s.unit v)
    (fun t => ((t.unit v).bound = (s.unit v).bound ∧ (t.unit v).portA = (s.unit v).portA ∧
      (t.unit v).portB = (s.unit v).portB) ∨ t.unit v = UnitState.reset)
    (fun _ _ _ ht => by simpa using ht) (fun t ht => by rw [← ht]; exact binding_finishDeEnergize t u why first v)
    (fun t ch _ ht _ _ _ => .inl (by rw [← ht]; exact (sameOwners_setSpec t ch 0 false).ports v)) rfl

/-- A turn leaves a unit's binding as it is, but for DISPOSE's reset. -/
theorem binding_of_moved {s t : State} {c : Choice} (hm : Moved s c t) (v : UnitId) :
    ((t.unit v).bound = (s.unit v).bound ∧ (t.unit v).portA = (s.unit v).portA ∧ (t.unit v).portB = (s.unit v).portB) ∨
      t.unit v = UnitState.reset := by
  cases hm with
  | stays | tick | portLock => exact .inl ⟨rfl, rfl, rfl⟩
  | accum u hrun hjob hphase => exact .inl ((sameOwners_of_loop (.accum u hrun hjob hphase)).ports v)
  | seen u hrun hjob hphase hseen => exact .inl ((sameOwners_of_loop (.seen u hrun hjob hphase hseen)).ports v)
  | due u hrun hjob hphase hseen hdue =>
    exact .inl ((sameOwners_of_loop (.due u hrun hjob hphase hseen hdue)).ports v)
  | loopLock u job hrun hjob hfree => exact .inl ((sameOwners_of_loop (.loopLock u job hrun hjob hfree)).ports v)
  | loopWritten u job hrun hjob hl hack =>
    exact .inl ((sameOwners_of_loop (.loopWritten u job hrun hjob hl hack)).ports v)
  | loopFailed u job hrun hjob hl hfail =>
    exact .inl ((sameOwners_of_loop (.loopFailed u job hrun hjob hl hfail)).ports v)
  | prescaleWritten addr p stage why t' _ _ ht => subst ht; exact .inl (by simp)
  | prescaleFailed addr p stage why t' _ _ ht => subst ht; exact .inl (by simp)
  | released u why =>
    cases why with
    | cancel => exact .inl ⟨rfl, rfl, rfl⟩
    | stop => exact binding_deEnergizeFrom s u .stop _ .ack v
    | dispose => exact binding_deEnergizeFrom s u .dispose _ .ack v
  | stepWritten u job =>
    exact .inl (((sameOwners_writeImage s .port job.write).trans (sameOwners_portStepOps _ u _)).ports v)
  | stepFailed u job =>
    exact .inl ((((sameOwners_writeImage s .port job.write).trans (sameOwners_failStep _ u)).trans
      (sameOwners_conclude _ _ 0)).ports v)
  | deEnergizeWritten u why w rest first =>
    have h := binding_deEnergizeFrom (s.writeImage .port w).2 u why rest (firstFailure first (s.writeImage .port w).1) v
    simpa using h
  | channelWritten | generalCalled | generalCallFailed | prescaleDone => exact .inl (by simp)

/-! ### What a pacing loop has under way -/

/-- The pacing loops' part of JobsOwn. -/
structure LoopsOwn (s : State) : Prop where
  running : ∀ u, (s.unit u).run = .running → (s.unit u).bound = true
  jobs : ∀ u job, (s.unit u).stepJob = some job → (s.unit u).bound = true ∧ job.On (s.unitChannels u)

theorem loopsOwn_of_moved {s t : State} {c : Choice} (h : LoopsOwn s) (hm : Moved s c t) : LoopsOwn t := by
  refine ⟨fun u hrun => ?_, fun u job hjob => ?_⟩ <;>
    rcases binding_of_moved hm u with ⟨hbound, ha, hb⟩ | hreset
  · rw [hbound]; exact h.running u (running_of_moved hm hrun)
  · rw [hreset] at hrun; cases hrun
  · rw [hbound, unitChannels_congr (cfg_of_moved hm) ha hb]
    cases stepJob_of_moved hm hjob with
    | same _ hj => exact h.jobs u job hj
    | locked job hj => exact h.jobs u job hj
    | begun dir r _ hrun hj =>
      refine ⟨h.running u hrun, ?_⟩
      rw [← (sameOwners_advanceIndex s u dir).unitChannels u]
      exact runOps_job_on u _ r job _ hj ((s.advanceIndex u dir).stepOps_on u)
    | next job r _ hj hj' =>
      obtain ⟨hbound, -, hrest⟩ := h.jobs u job hj
      exact ⟨hbound, runOps_job_on u _ r _ _ hj' hrest⟩
  · rw [hreset] at hjob; cases hjob

/-! ### What the port has under way -/

theorem PortJobOwn.congr {s t : State} (h : s.PortJobOwn) (hs : SameOwners s t) (hport : t.port = s.port) :
    t.PortJobOwn := by
  unfold State.PortJobOwn at *
  rw [hport]
  split
  · simp_all [(hs.channels _).1]
  · simp_all [(hs.ports _).1]
  · simp_all [(hs.ports _).1, hs.unitChannels]
  · simp_all [(hs.ports _).1, hs.unitChannels]
  · trivial

theorem portJobOwn_of_idle {s : State} (h : s.port = .idle) : s.PortJobOwn := by rw [State.PortJobOwn, h]; trivial

theorem portJobOwn_portStepOps {s : State} {u : UnitId} {ops : List StepOp} (hbound : (s.unit u).bound = true)
    (hops : ∀ w ∈ stepWrites ops, w.1 ∈ s.unitChannels u) : (s.portStepOps u ops).PortJobOwn := by
  have hs := sameOwners_portStepOps s u ops
  rcases portStepOps_port s u ops with h | ⟨job, hjob, h⟩
  · exact portJobOwn_of_idle h
  · rw [State.PortJobOwn, h]
    refine ⟨by rw [(hs.ports u).1]; exact hbound, ?_⟩
    rw [hs.unitChannels]
    exact runOps_job_on u ops s job _ hjob hops

theorem portJobOwn_deEnergizeFrom {s : State} {u : UnitId} {why : DeEnergizeFor} {chs : List ChannelId} {first : Answer}
    (hbound : (s.unit u).bound = true) (hchs : ∀ ch ∈ chs, ch ∈ s.unitChannels u) :
    (s.deEnergizeFrom u why chs first).PortJobOwn := by
  refine deEnergizeFrom_induction (SameOwners s) State.PortJobOwn
    (fun t ch _ ht => ht.trans (sameOwners_setSpec t ch 0 false))
    (fun t _ => portJobOwn_of_idle (finishDeEnergize_port t u why first))
    (fun t ch rest ht hch hrest _ => ?_) (.refl s)
  have hs := ht.trans (sameOwners_setSpec t ch 0 false)
  refine ⟨(hs.ports u).1.trans hbound, ?_⟩
  show ch ∈ (t.setSpec ch 0 false).unitChannels u ∧ ∀ d ∈ rest, d ∈ (t.setSpec ch 0 false).unitChannels u
  rw [hs.unitChannels]
  exact ⟨hchs ch hch, fun d hd => hchs d (hrest hd)⟩

theorem portJobOwn_afterHold {s : State} {u : UnitId} (hbound : (s.unit u).bound = true) (why : HoldFor) :
    (s.afterHold u why).PortJobOwn := by
  cases why with
  | cancel => trivial
  | stop => exact portJobOwn_deEnergizeFrom hbound fun _ h => h
  | dispose => exact portJobOwn_deEnergizeFrom hbound fun _ h => h

theorem portJobOwn_portApply {s : State} {ch : ChannelId} (hhost : (s.channel ch).owner = .host) (ratio : BitVec 13)
    (inv : Bool) (v : Value) : (s.portApply ch ratio inv v).PortJobOwn := by
  rcases s.portApply_cases ch ratio inv v with ⟨-, he⟩ | ⟨-, he⟩ <;> rw [he]
  · trivial
  · exact ((sameOwners_setSpec s ch ratio inv).channels ch).1.trans hhost

theorem portJobOwn_of_moved {s t : State} {c : Choice} (h : s.PortJobOwn) (hm : Moved s c t) : t.PortJobOwn := by
  have loop {u : UnitId} {t : State} (hm : Moved s (.loop u) t) (hp : t.port = s.port) : t.PortJobOwn :=
    PortJobOwn.congr h (sameOwners_of_loop hm) hp
  cases hm with
  | stays => exact h
  | tick =>
    cases hp : s.port with
    | idle => simp [State.PortJobOwn, State.tick, hp, PortState.tick]
    | busy job =>
      cases job <;> simp only [State.PortJobOwn, State.tick, hp, PortState.tick] at h ⊢ <;> exact h
  | accum u hrun hjob hphase => exact loop (.accum u hrun hjob hphase) rfl
  | seen u hrun hjob hphase hseen => exact loop (.seen u hrun hjob hphase hseen) rfl
  | due u hrun hjob hphase hseen hdue => exact loop (.due u hrun hjob hphase hseen hdue) (by simp)
  | loopLock u job hrun hjob hfree => exact loop (.loopLock u job hrun hjob hfree) rfl
  | loopWritten u job hrun hjob hl hack => exact loop (.loopWritten u job hrun hjob hl hack) (by simp)
  | loopFailed u job hrun hjob hl hfail => exact loop (.loopFailed u job hrun hjob hl hfail) (by simp)
  | portLock job hport =>
    rw [State.PortJobOwn, hport] at h
    cases job <;> exact h
  | released u why hport =>
    rw [State.PortJobOwn, hport] at h
    exact portJobOwn_afterHold h why
  | stepWritten u job hport =>
    rw [State.PortJobOwn, hport] at h
    obtain ⟨hbound, -, hrest⟩ := h
    have hs := sameOwners_writeImage s .port job.write
    exact portJobOwn_portStepOps ((hs.ports u).1.trans hbound) (by rw [hs.unitChannels]; exact hrest)
  | deEnergizeWritten u why w rest first hport =>
    rw [State.PortJobOwn, hport] at h
    obtain ⟨hbound, -, hrest⟩ := h
    have hs := sameOwners_writeImage s .port w
    exact portJobOwn_deEnergizeFrom ((hs.ports u).1.trans hbound) (by rw [hs.unitChannels]; exact hrest)
  | generalCalled | prescaleWritten => trivial
  | channelWritten | generalCallFailed | prescaleDone | prescaleFailed | stepFailed =>
    exact portJobOwn_of_idle (by simp)

/-! ### Commands -/

/-- Only STEPFOR of a bound unit starts a run (R133). -/
theorem running_of_begun {s t : State} {i : Instr} (hb : Begun s i t) {u : UnitId} (h : (t.unit u).run = .running) :
    (s.unit u).run = .running ∨ (s.unit u).bound = true := by
  cases hb with
  | nextstep n dir v =>
    rw [portStepOps_run] at h
    refine .inl (running_setUnit (running_advanceIndex h) fun hrun => ?_)
    unfold UnitState.handStep at hrun
    simp only at hrun
    split at hrun
    · cases hrun
    · exact hrun
  | stepfor n dir cont count v hbound =>
    rw [State.respondOk_unit, State.setUnit_unit] at h
    split at h
    case isTrue hv => subst hv; exact .inr hbound
    case isFalse => exact .inl h
  | ended i v why => exact .inl (running_afterHold h)
  | cfgmotor n pa pb spr v =>
    exact .inl (by simpa using running_setUnit h (by simp [UnitState.bind, UnitState.invalidateLast]))
  | selstyle | setpf | setspeed | setpolicy | asked => exact .inl (running_setUnit h id)
  | _ => exact .inl (by simpa using h)

/-- Before its first step point a command changes no binding but by CFGMOTOR's of an unbound unit and DISPOSE's reset. -/
theorem binding_of_begun {s t : State} {i : Instr} (hb : Begun s i t) (v : UnitId) :
    ((t.unit v).bound = (s.unit v).bound ∧ (t.unit v).portA = (s.unit v).portA ∧ (t.unit v).portB = (s.unit v).portB) ∨
      t.unit v = UnitState.reset ∨ (s.unit v).bound = false := by
  cases hb with
  | nextstep n dir u =>
    have hhand : SameOwners s (s.setUnit u (s.unit u).handStep) := sameOwners_setUnit s rfl rfl rfl
    exact .inl (((hhand.trans (sameOwners_advanceIndex _ u dir)).trans (sameOwners_portStepOps _ u _)).ports v)
  | ended i u why =>
    cases why with
    | cancel => exact .inl ⟨rfl, rfl, rfl⟩
    | stop => exact (binding_deEnergizeFrom s u .stop _ .ack v).imp_right .inl
    | dispose => exact (binding_deEnergizeFrom s u .dispose _ .ack v).imp_right .inl
  | cfgmotor n pa pb spr u hinit hbound =>
    rw [State.respondOk_unit, State.setUnit_unit]
    split
    case isTrue hv => subst hv; exact .inr (.inr hbound)
    case isFalse => exact .inl (by simp)
  | selstyle n sty nms u =>
    exact .inl ((sameOwners_setUnit s (u := u) (y := (s.unit u).withStyle sty nms) rfl rfl rfl).ports v)
  | setpf n pf u =>
    exact .inl ((sameOwners_setUnit s (u := u) (y := { s.unit u with pf := BitVec.ofNat 17 pf }) rfl rfl rfl).ports v)
  | setspeed n rpm u tps =>
    exact .inl ((sameOwners_setUnit s (u := u) (y := { s.unit u with tps := BitVec.ofNat 32 tps }) rfl rfl rfl).ports v)
  | setpolicy n e u =>
    exact .inl ((sameOwners_setUnit s (u := u) (y := { s.unit u with endFull := e }) rfl rfl rfl).ports v)
  | stepfor n dir cont count u =>
    exact .inl ((sameOwners_setUnit s (u := u) (y := (s.unit u).startRun s.time dir cont count) rfl rfl rfl).ports v)
  | asked i u why =>
    exact .inl ((sameOwners_setUnit s (u := u) (y := { s.unit u with cancelReq := true }) rfl rfl rfl).ports v)
  | _ => exact .inl (by simp)

theorem loopsOwn_of_begun {s t : State} {i : Instr} (h : LoopsOwn s) (hb : Begun s i t) : LoopsOwn t := by
  have hboundof {u : UnitId} (hrun : (t.unit u).run = .running) : (s.unit u).bound = true :=
    (running_of_begun hb hrun).elim (h.running u) id
  refine ⟨fun u hrun => ?_, fun u job hjob => ?_⟩ <;>
    rcases binding_of_begun hb u with ⟨hbound, ha, hb'⟩ | hreset | hunbound
  · rw [hbound]; exact hboundof hrun
  · rw [hreset] at hrun; cases hrun
  · rw [hboundof hrun] at hunbound; cases hunbound
  · rw [hbound, unitChannels_congr (sameDriver_of_begun hb).cfg ha hb']
    exact h.jobs u job (stepJob_of_begun hb hjob)
  · rw [hreset] at hjob; cases hjob
  · rw [(h.jobs u job (stepJob_of_begun hb hjob)).1] at hunbound; cases hunbound

theorem setDisabled_owner (s : State) (ch : ChannelId) (b : Bool) :
    ((s.setDisabled ch b).channel ch).owner = (s.channel ch).owner := by
  rw [State.setDisabled_channel]
  split <;> rfl

theorem portJobOwn_of_begun {s t : State} {i : Instr} (hb : Begun s i t) : t.PortJobOwn := by
  cases hb with
  | rel ch _ hhost => exact hhost
  | setduty ch frac inv _ hhost => exact portJobOwn_portApply hhost ..
  | disable ch _ hhost =>
    exact (setDisabled_owner s ch true).trans hhost
  | enable ch _ hhost => exact portJobOwn_portApply ((setDisabled_owner s ch false).trans hhost) ..
  | nextstep n dir u hbound => exact portJobOwn_portStepOps (by simpa [UnitState.handStep] using hbound) (State.stepOps_on _ u)
  | asked i u why hbound =>
    show ((s.setUnit u { s.unit u with cancelReq := true }).unit u).bound = true
    simpa using hbound
  | ended i u why hbound => exact portJobOwn_afterHold hbound why
  | _ => trivial

theorem jobsOwn_iff (s : State) : s.JobsOwn ↔ LoopsOwn s ∧ s.PortJobOwn :=
  ⟨fun ⟨hrun, hjobs, hport⟩ => ⟨⟨hrun, hjobs⟩, hport⟩, fun ⟨hl, hport⟩ => ⟨hl.running, hl.jobs, hport⟩⟩

theorem jobsOwn_of_moved {s t : State} {c : Choice} (h : s.JobsOwn) (hm : Moved s c t) : t.JobsOwn := by
  obtain ⟨hl, hport⟩ := (jobsOwn_iff s).1 h
  exact (jobsOwn_iff t).2 ⟨loopsOwn_of_moved hl hm, portJobOwn_of_moved hport hm⟩

theorem jobsOwn_of_begun {s t : State} {i : Instr} (h : s.JobsOwn) (hb : Begun s i t) : t.JobsOwn :=
  (jobsOwn_iff t).2 ⟨loopsOwn_of_begun ((jobsOwn_iff s).1 h).1 hb, portJobOwn_of_begun hb⟩

theorem jobsOwn_raise {s : State} (h : s.JobsOwn) (e : Err) : (s.raise e 0).JobsOwn := by
  obtain ⟨hrun, hjobs, -⟩ := h
  refine ⟨by simpa using hrun, fun u job hj => ?_, portJobOwn_of_idle rfl⟩
  rw [(sameOwners_raise s e 0).unitChannels, State.raise_unit]
  exact hjobs u job (by simpa using hj)

theorem step_keeps_jobsOwn (s t : State) (h : s.JobsOwn) (ht : step s = .next t) : t.JobsOwn :=
  step_keeps_of_turns State.JobsOwn (fun _ _ h => h) (fun _ _ _ h => h) (fun _ _ h => h)
    (fun _ _ _ h hm => jobsOwn_of_moved h hm)
    (fun _ e h _ => jobsOwn_raise h e) (fun _ _ _ h _ _ hb => jobsOwn_of_begun h hb) s t h ht

/-! ### The owner of each transaction -/

/-- The port's channel write under way is a host channel's for a host command, and else its own unit's. -/
theorem owner_of_portWrite {s : State} (h : s.JobsOwn) (ho : s.OwnershipOk) {job : PortJob} {w : PendingWrite}
    (hport : s.port = .busy job) (hw : portWrite? job = some w) :
    (∃ fin, job = .channelWrite w fin ∧ (s.channel w.ch).owner = .host) ∨
      ∃ u, s.port.drives = some u ∧ (s.channel w.ch).owner = .unit u := by
  obtain ⟨-, -, hjob⟩ := h
  rw [State.PortJobOwn, hport] at hjob
  have owner {u : UnitId} (hbound : (s.unit u).bound = true) {ch : ChannelId} (hch : ch ∈ s.unitChannels u) :
      (s.channel ch).owner = .unit u := (ho.1 u hbound).2 ch hch
  cases job with
  | channelWrite w' fin => cases hw; exact .inl ⟨fin, rfl, hjob⟩
  | step u job =>
    cases hw
    obtain ⟨hbound, hch, -⟩ := hjob
    exact .inr ⟨u, by rw [hport]; rfl, owner hbound hch⟩
  | deEnergize u why w' rest first =>
    cases hw
    obtain ⟨hbound, hch, -⟩ := hjob
    exact .inr ⟨u, by rw [hport]; rfl, owner hbound hch⟩
  | _ => cases hw

/-- Settles O57: a turn issues only what its agent has under way, which names the agent's own channels. -/
theorem everyChannelWriteIsItsOwners : Obligations.EveryChannelWriteIsItsOwners := by
  refine ⟨step_keeps_jobsOwn, ?_⟩
  rintro s t c h ho rfl
  rcases bus_of_moved (moved_move s c) with hq | ⟨a, op, r, hi, ht⟩
  · exact .inl hq.trace
  right
  have htrace := ht.trace
  cases hi with
  | generalCall addr hport => exact .inl ⟨_, r, htrace, rfl, .inl ⟨addr, hport⟩⟩
  | prescale addr p stage why hport => exact .inl ⟨_, r, htrace, rfl, .inr ⟨addr, p, stage, why, hport⟩⟩
  | image job w hport hw hlocked =>
    obtain ⟨ch, image, locked⟩ := w
    obtain rfl : locked = true := hlocked
    refine .inr (.inl ⟨ch, image, r, htrace, rfl, ?_⟩)
    rcases owner_of_portWrite h ho hport hw with ⟨fin, rfl, hhost⟩ | hdriven
    · exact .inl ⟨fin, hport, hhost⟩
    · exact .inr hdriven
  | paced u job hjob hlocked =>
    obtain ⟨⟨ch, image, locked⟩, rest⟩ := job
    obtain rfl : locked = true := hlocked
    obtain ⟨-, hjobs, -⟩ := h
    obtain ⟨hbound, hch, -⟩ := hjobs u _ hjob
    exact .inr (.inr ⟨u, ch, image, r, htrace, rfl, ⟨rest, hjob⟩, (ho.1 u hbound).2 ch hch⟩)

end Sys2Proof.JobOwners
end

section
/-! One channel write of a host command, run by the port alone (R66, R91, R98 to R101). -/

namespace Sys2Proof.HostWrites

open Machine StepRelation StepFrames

/-! ### One transaction with its answer queued -/

/-- The state after a channel write that was answered r, with the answers rs left (R63, R91). -/
def written (s : State) (a : Agent) (w : PendingWrite) (r : Answer) (rs : List Answer) : State :=
  { s.setChannel w.ch ((s.channel w.ch).answered w.image r) with
    busLock := .free, trace := s.trace ++ [s.imageTransaction a w.ch w.image r]
    expander := s.expander.after (s.writeOp w) r, answers := rs }

theorem writeImage_of_answers {s : State} {r : Answer} {rs : List Answer} (h : s.answers = r :: rs) (a : Agent)
    (w : PendingWrite) : s.writeImage a w = (r, written s a w r rs) := by
  simp only [State.writeImage, State.transact, State.nextAnswer_cons s r rs h]
  rfl

theorem written_channel (s : State) (a : Agent) (w : PendingWrite) (r : Answer) (rs : List Answer) (ch : ChannelId) :
    (written s a w r rs).channel ch = if w.ch = ch then (s.channel w.ch).answered w.image r else s.channel ch :=
  State.setChannel_channel ..

theorem answered_eq (c : Channel) (image : Value) (r : Answer) :
    c.answered image r =
      { c with image := if r = .ack then image else c.image, imageValid := decide (r = .ack) } := by
  unfold Channel.answered
  by_cases h : r = .ack <;> simp [h]

/-- The written channel's registers hold the image if it was acknowledged, and are unknown if not (R63, R64). -/
theorem imageAnswered_of_after {s t : State} {w : PendingWrite} {r : Answer}
    (h : t.expander = s.expander.after (s.writeOp w) r) : s.ImageAnswered t w.ch w.image r := by
  intro k
  rw [h]
  exact Memory.read_after s.expander s.busAddr _ (imageBytes w.image) r k.val (by simp [imageBytes])
    (by simp [imageBytes])

/-- Every other register reads as before, or no register is known (R64). -/
theorem restAnswered_of_after {s t : State} {w : PendingWrite} {r : Answer}
    (h : t.expander = s.expander.after (s.writeOp w) r) : s.RestAnswered t [w.ch] r := by
  unfold State.RestAnswered
  by_cases hr : r = .ack
  · rw [if_pos hr]
    intro a ha
    subst hr
    rw [h]
    refine Memory.read_after_of_ne _ _ _ _ _ fun j hj he => ?_
    have hj4 : j < 4 := by simpa [imageBytes] using hj
    exact ha w.ch List.mem_cons_self ⟨j, hj4⟩ he.symm
  · rw [if_neg hr]
    intro a
    rw [h, Memory.after_of_ne_ack _ _ _ hr]
    rfl

/-! ### The response -/

/-- With the lock not the port's a command ends with its response only (R140, R141). -/
theorem conclude_of_lock_elsewhere {s : State} (h : s.busLock ≠ .port) (r : Answer) (v : Value) :
    s.conclude r v = { s with responses := s.responses ++ [responseTo r v], port := .idle } := by
  cases r with
  | ack => rfl
  | nack => exact HostChannel.raise_of_lock_elsewhere h .busIO 0
  | err d => exact HostChannel.raise_of_lock_elsewhere h .busIO d

theorem setChannel_self (s : State) (ch : ChannelId) : s.setChannel ch (s.channel ch) = s := by
  simp only [State.setChannel, State.channel, Vector.set_getElem_self]

/-! ### A host command's write -/

/-- The value of the response to a host command whose write is acknowledged (R98 to R101). -/
def endValue : WriteEnd → Value
  | .release => 0
  | .reply v => v

/-- The channel after a host command's write has left it as c (R98). -/
def endChannel (c : Channel) : WriteEnd → Channel
  | .release => { c with owner := .free, disabled := false, specRatio := 0, specInv := false }
  | .reply _ => c

theorem finishWrite_of_unlocked {s : State} (h : s.busLock = .free) (ch : ChannelId) (fin : WriteEnd) (r : Answer) :
    s.finishWrite ch fin r =
      { s.setChannel ch (endChannel (s.channel ch) fin) with
        responses := s.responses ++ [responseTo r (endValue fin)], port := .idle } := by
  have hlock : ∀ t : State, t.busLock = s.busLock → t.busLock ≠ .port := fun t ht => by rw [ht, h]; nofun
  cases fin with
  | release => exact conclude_of_lock_elsewhere (s := s.releaseChannel ch) (hlock _ rfl) r 0
  | reply v =>
    rw [endChannel, setChannel_self]
    exact conclude_of_lock_elsewhere (hlock s rfl) r v

theorem move_port_locked {s : State} {w : PendingWrite} {fin : WriteEnd} {r : Answer} {rs : List Answer}
    (hport : s.port = .busy (.channelWrite w fin)) (hlocked : w.locked = true) (hanswers : s.answers = r :: rs) :
    s.move .port = (written s .port w r rs).finishWrite w.ch fin r := by
  rw [s.move_port_of_busy _ hport, State.portStep, State.portWrite, if_pos hlocked, writeImage_of_answers hanswers]

theorem move_port_lock {s : State} {w : PendingWrite} {fin : WriteEnd} (hport : s.port = .busy (.channelWrite w fin))
    (hunlocked : w.locked = false) (hfree : s.busLock = .free) :
    s.move .port = { s with busLock := .port, port := .busy (.channelWrite w.lock fin) } := by
  rw [s.move_port_of_busy _ hport]
  simp [State.portStep, State.portWrite, hunlocked, State.lockThen, hfree, Agent.lock]

/-- Lock(), then the transaction and the end of the command. -/
theorem drive_channelWrite {s : State} {w : PendingWrite} {fin : WriteEnd} {r : Answer} {cs : List Choice}
    {rs : List Answer} (hport : s.port = .busy (.channelWrite w fin)) (hunlocked : w.locked = false)
    (hfree : s.busLock = .free) (hsched : s.sched = .port :: .port :: cs) (hanswers : s.answers = r :: rs) :
    s.drive = { (written s .port w r rs).setChannel w.ch (endChannel ((s.channel w.ch).answered w.image r) fin) with
      responses := s.responses ++ [responseTo r (endValue fin)], port := .idle, sched := cs } := by
  have htransact := move_port_locked (s := { s with busLock := .port, port := .busy (.channelWrite w.lock fin) })
    rfl rfl hanswers
  rw [State.drive, hsched, State.driveOver_cons_of_busy s _ _ _ hport, move_port_lock hport hunlocked hfree,
    State.driveOver_cons_of_busy _ _ _ _ rfl, htransact,
    finishWrite_of_unlocked rfl, State.driveOver_of_idle _ _ rfl, written_channel, if_pos rfl]
  rfl

/-- What a host command's write, run by the port alone, leaves. -/
structure WriteDone (s t : State) (w : PendingWrite) (fin : WriteEnd) (r : Answer) (cs : List Choice)
    (rs : List Answer) : Prop where
  rest : t = { s with
    channels := t.channels, expander := t.expander
    trace := s.trace ++ [s.imageTransaction .port w.ch w.image r]
    responses := s.responses ++ [responseTo r (endValue fin)]
    port := .idle, sched := cs, answers := rs }
  written : t.channel w.ch = endChannel ((s.channel w.ch).answered w.image r) fin
  others : ∀ d, d ≠ w.ch → t.channel d = s.channel d
  image : s.ImageAnswered t w.ch w.image r
  registers : s.RestAnswered t [w.ch] r

theorem writeDone_drive {s : State} {w : PendingWrite} {fin : WriteEnd} {r : Answer} {cs : List Choice}
    {rs : List Answer} (hport : s.port = .busy (.channelWrite w fin)) (hunlocked : w.locked = false)
    (hfree : s.busLock = .free) (hsched : s.sched = .port :: .port :: cs) (hanswers : s.answers = r :: rs) :
    WriteDone s s.drive w fin r cs rs := by
  have h := drive_channelWrite hport hunlocked hfree hsched hanswers
  have hexp : s.drive.expander = s.expander.after (s.writeOp w) r := by rw [h]; rfl
  have hchannel : ∀ d, s.drive.channel d =
      if w.ch = d then endChannel ((s.channel w.ch).answered w.image r) fin else s.channel d := by
    intro d
    rw [h]
    show State.channel ((written s .port w r rs).setChannel _ _) d = _
    rw [State.setChannel_channel, written_channel]
    split <;> rfl
  refine ⟨?_, by rw [hchannel, if_pos rfl], fun d hd => by rw [hchannel, if_neg (Ne.symm hd)],
    imageAnswered_of_after hexp, restAnswered_of_after hexp⟩
  rw [h, hfree]
  rfl

theorem checked_hostOwn {s k : State} {ch : ChannelId} (hinit : s.initialized = true)
    (hhost : (s.channel ch).owner = .host) (cs : List (Option Err)) :
    s.checked (s.needInit :: s.hostOwn ch :: cs) k = s.checked cs k := by
  rw [HostChannel.checked_of_head_none ((State.needInit_eq_none s).2 hinit),
    HostChannel.checked_of_head_none ((State.hostOwn_eq_none s ch).2 hhost)]

theorem checked_hostChannel {s k : State} {ch : ChannelId} (hinit : s.initialized = true)
    (hhost : (s.channel ch).owner = .host) : s.checked [s.needInit, s.hostOwn ch] k = k :=
  checked_hostOwn hinit hhost []

/-- Settles O30: REL's one write, whose end frees the channel whatever the answer. -/
theorem relFreesTheChannelWhateverTheAnswer : Obligations.RelFreesTheChannelWhateverTheAnswer := by
  intro s ch r cs rs hinit hhost hfree hsched hanswers
  refine ⟨_, congrArg Host.Outcome.next (checked_hostChannel hinit hhost), ?_⟩
  obtain ⟨hrest, hwritten, hothers, himage, hregisters⟩ :=
    writeDone_drive (s := { s with port := .busy (.channelWrite ⟨ch, fullOff, false⟩ .release) })
      (w := ⟨ch, fullOff, false⟩) rfl rfl hfree hsched hanswers
  exact ⟨hrest, hwritten.trans (by rw [answered_eq]; rfl), hothers, himage, hregisters⟩

/-- Settles O32: DISABLE's one write, on the channel with DISABLED set. -/
theorem disableForcesFullOff : Obligations.DisableForcesFullOff := by
  intro s ch r cs rs hinit hhost hfree hsched hanswers
  refine ⟨_, congrArg Host.Outcome.next (checked_hostChannel hinit hhost), ?_⟩
  obtain ⟨hrest, hwritten, hothers, himage, hregisters⟩ :=
    writeDone_drive (s := { s.setDisabled ch true with port := .busy (.channelWrite ⟨ch, fullOff, false⟩ (.reply 0)) })
      (w := ⟨ch, fullOff, false⟩) rfl rfl hfree hsched hanswers
  refine ⟨hrest, ?_, fun d hd => (hothers d hd).trans ?_, himage, hregisters⟩
  · refine hwritten.trans ?_
    rw [answered_eq]
    simp only [State.mk_channel, State.getElem_channels, State.setDisabled_channel, if_true]
    rfl
  · exact (State.setDisabled_channel s ch d true).trans (if_neg (Ne.symm hd))

/-- ApplyChannel by the port, run by the port alone (R91). -/
theorem writeDone_portApply {s : State} {ch : ChannelId} {ratio : BitVec 13} {inv : Bool} {v : Value} {r : Answer}
    {cs : List Choice} {rs : List Answer} (henabled : (s.channel ch).disabled = false) (hfree : s.busLock = .free)
    (hsched : s.sched = .port :: .port :: cs) (hanswers : s.answers = r :: rs) :
    WriteDone { s.setSpec ch ratio inv with port := .busy (.channelWrite (pendingApply ch ratio inv) (.reply v)) }
      (s.portApply ch ratio inv v).drive (pendingApply ch ratio inv) (.reply v) r cs rs := by
  rcases s.portApply_cases ch ratio inv v with ⟨hd, -⟩ | ⟨-, he⟩
  · rw [henabled] at hd
    cases hd
  · rw [he]
    exact writeDone_drive rfl rfl hfree hsched hanswers

theorem setSpec_channel_self (s : State) (ch : ChannelId) (ratio : BitVec 13) (inv : Bool) :
    (s.setSpec ch ratio inv).channel ch = { s.channel ch with specRatio := ratio, specInv := inv } := by
  rw [State.setSpec_channel, if_pos rfl]

/-- Settles O31: SETDUTY's three outcomes, by its last check and by DISABLED. -/
theorem setdutyWritesTheFormattedImage : Obligations.SetdutyWritesTheFormattedImage := by
  have hratio {frac : Nat} (hfrac : frac ≤ 65536) : (BitVec.ofNat 13 (ratioOf frac)).toNat = ratioOf frac := by
    have hle := ratioOf_le frac hfrac
    rw [BitVec.toNat_ofNat]
    omega
  have exec {s : State} {ch : ChannelId} {frac : Nat} (inv : Bool) (hinit : s.initialized = true)
      (hhost : (s.channel ch).owner = .host) (hfrac : frac ≤ 65536) : exec (.setduty ch frac inv) s =
        .next (s.portApply ch (BitVec.ofNat 13 (ratioOf frac)) inv (packValue [(0, ratioOf frac)])).drive :=
    congrArg Host.Outcome.next ((checked_hostOwn hinit hhost _).trans
      (State.checked_of_none s _ _ (by simpa using hfrac)))
  refine ⟨fun s ch frac inv r cs rs hinit hhost hfrac henabled hfree hsched hanswers => ?written,
    fun s ch frac inv hinit hhost hfrac hdisabled => ?stored, fun s ch frac inv hlock hinit hhost hfrac => ?refused⟩
  case written =>
    refine ⟨_, exec inv hinit hhost hfrac, ?_⟩
    obtain ⟨hrest, hwritten, hothers, himage, hregisters⟩ := writeDone_portApply (s := s) (ch := ch)
      (ratio := BitVec.ofNat 13 (ratioOf frac)) (inv := inv) (v := packValue [(0, ratioOf frac)]) henabled hfree hsched
      hanswers
    simp only [pendingApply, hratio hfrac, effRatio, StatusWords.packValue_single]
      at hrest hwritten hothers himage hregisters ⊢
    refine ⟨hrest, ?_, fun d hd => (hothers d hd).trans ?_, himage, hregisters⟩
    · refine hwritten.trans ?_
      rw [answered_eq]
      simp only [State.mk_channel, State.getElem_channels, setSpec_channel_self]
      rfl
    · exact (State.setSpec_channel ..).trans (if_neg (Ne.symm hd))
  case stored =>
    rw [exec inv hinit hhost hfrac]
    rcases s.portApply_cases ch (BitVec.ofNat 13 (ratioOf frac)) inv (packValue [(0, ratioOf frac)]) with
      ⟨-, he⟩ | ⟨henabled, -⟩
    · rw [he, State.drive_of_idle _ rfl, StatusWords.packValue_single]
      rfl
    · rw [hdisabled] at henabled
      cases henabled
  case refused =>
    refine congrArg Host.Outcome.next ((checked_hostOwn hinit hhost _).trans ?_)
    exact ImmediateCommands.checked_refused (e := .configuration) hlock
      (ImmediateCommands.fractionOk_of_gt hfrac)

/-- Settles O33: ENABLE's one write, of the stored spec on the channel with DISABLED clear. -/
theorem enableResumesTheStoredSpec : Obligations.EnableResumesTheStoredSpec := by
  rintro s ch e r cs rs hinit hhost hfree rfl hsched hanswers
  refine ⟨_, congrArg Host.Outcome.next (checked_hostChannel hinit hhost), ?_⟩
  obtain ⟨hrest, hwritten, hothers, himage, hregisters⟩ := writeDone_portApply (s := s.setDisabled ch false) (ch := ch)
    (ratio := (s.channel ch).specRatio) (inv := (s.channel ch).specInv) (v := 0)
    (by rw [State.setDisabled_channel, if_pos rfl]) hfree hsched hanswers
  refine ⟨hrest, ?_, fun d hd => (hothers d hd).trans ?_, himage, hregisters⟩
  · refine hwritten.trans ?_
    rw [answered_eq]
    simp only [State.mk_channel, State.getElem_channels, pendingApply, setSpec_channel_self,
      State.setDisabled_channel, if_true]
    rfl
  · refine (State.setSpec_channel ..).trans ((if_neg (Ne.symm hd)).trans ?_)
    exact (State.setDisabled_channel s ch d false).trans (if_neg (Ne.symm hd))

end Sys2Proof.HostWrites
end

section
/-! INIT and SETFREQ (R90, R95, R96): the sequence ProgramPrescale, transaction by transaction and wait by wait, and what
a failing transaction leaves. -/

namespace Sys2Proof.PrescaleRuns

open Machine StepRelation StepFrames HostWrites

/-! ### One turn of the sequence -/

/-- The state after a transaction that was answered r, with the answers rs left (R63, R67). -/
def transacted (s : State) (op : BusOp) (r : Answer) (rs : List Answer) : State :=
  { s with trace := s.trace ++ [⟨.port, s.time, op, r⟩], expander := s.expander.after op r, answers := rs }

theorem transact_of_answers {s : State} {r : Answer} {rs : List Answer} (h : s.answers = r :: rs) (op : BusOp) :
    s.transact .port op = (r, transacted s op r rs) := by
  simp only [State.transact, State.nextAnswer_cons s r rs h]
  rfl

/-- The transaction of a stage of ProgramPrescale (R90). -/
def stageOp (c : Config) (addr : BitVec 7) (p : Byte) (stage : PrescaleStage) : BusOp :=
  .write addr (BitVec.ofNat 8 (stageWrite c p stage).1) [(stageWrite c p stage).2]

theorem move_port_stage {s : State} {addr : BitVec 7} {p : Byte} {stage : PrescaleStage} {why : PrescaleFor}
    {rs : List Answer} (hport : s.port = .busy (.prescale addr p stage 0 why)) (hstage : stage ≠ .done)
    (hanswers : s.answers = .ack :: rs) :
    s.move .port = { transacted s (stageOp s.cfg addr p stage) .ack rs with
      port := .busy (.prescale addr p stage.next (if stage.settles then settleTicks s.cfg else 0) why) } := by
  rw [s.move_port_of_busy _ hport]
  simp only [State.portStep, if_true]
  rcases s.prescaleStep_cases addr p stage why with ⟨hdone, -⟩ | ⟨-, t, ht, ⟨-, he⟩ | ⟨hfail, -⟩⟩
  · exact absurd hdone hstage
  · rw [he, ht, transact_of_answers hanswers]
    rfl
  · rw [ht, transact_of_answers hanswers] at hfail
    exact absurd rfl hfail

theorem failPrescale_of_unlocked {s : State} (h : s.busLock = .free) (stage : PrescaleStage) (why : PrescaleFor)
    (r : Answer) : s.failPrescale stage why r =
      { s with
        responses := s.responses ++
          [if r = .nack ∧ stage = .sleep ∧ why = .init then responseWord 4 0 else responseTo r 0]
        port := .idle } := by
  have hlock : s.busLock ≠ .port := by rw [h]; nofun
  unfold State.failPrescale
  split
  case h_1 => rw [HostChannel.raise_of_lock_elsewhere hlock, if_pos ⟨rfl, rfl, rfl⟩]; rfl
  case h_2 r _ _ hother =>
    rw [conclude_of_lock_elsewhere hlock, if_neg fun ⟨hr, hs, hw⟩ => hother hr hs hw]

/-- Settles O28: the failing transaction, and the error it ends the command with. -/
theorem prescaleFailureKeepsOldValues : Obligations.PrescaleFailureKeepsOldValues := by
  intro s addr p stage why r rs hport hlock hstage hanswers hfail
  have hmove : s.move .port =
      (transacted s (stageOp s.cfg addr p stage) r rs).unlock.failPrescale stage why r := by
    rw [s.move_port_of_busy _ hport]
    simp only [State.portStep, if_true]
    rcases s.prescaleStep_cases addr p stage why with ⟨hdone, -⟩ | ⟨-, t, ht, ⟨hack, -⟩ | ⟨-, he⟩⟩
    · exact absurd hdone hstage
    · rw [ht, transact_of_answers hanswers] at hack
      exact absurd hack hfail
    · rw [he, ht, transact_of_answers hanswers]
      rfl
  rw [failPrescale_of_unlocked rfl] at hmove
  refine ⟨_, hmove, rfl, fun a => ?_⟩
  exact congrArg (Memory.read · a) (Memory.after_of_ne_ack s.expander (stageOp s.cfg addr p stage) r hfail)

/-! ### Settle waits (R15, R90) -/

theorem move_tick_prescale {s : State} {addr : BitVec 7} {p : Byte} {stage : PrescaleStage} {wait : Nat}
    {why : PrescaleFor} (hport : s.port = .busy (.prescale addr p stage wait why)) :
    s.move .tick = { s with time := s.time + 1, port := .busy (.prescale addr p stage (wait - 1) why) } := by
  rw [State.move_tick, State.tick, hport]
  rfl

theorem driveOver_ticks {s : State} {addr : BitVec 7} {p : Byte} {stage : PrescaleStage} {wait : Nat}
    {why : PrescaleFor} (hport : s.port = .busy (.prescale addr p stage wait why)) (k : Nat) (cs : List Choice) :
    s.driveOver (List.replicate k .tick ++ cs) =
      State.driveOver { s with
        time := s.time + BitVec.ofNat 64 k, port := .busy (.prescale addr p stage (wait - k) why) } cs := by
  induction k generalizing s wait with
  | zero => simp [← hport]
  | succ k ih =>
    rw [List.replicate_succ, List.cons_append, State.driveOver_cons_of_busy s _ _ _ hport, move_tick_prescale hport,
      ih rfl]
    have htime : s.time + 1 + BitVec.ofNat 64 k = s.time + BitVec.ofNat 64 (k + 1) := by
      rw [BitVec.ofNat_add, BitVec.add_assoc, BitVec.ofNat_eq_ofNat, BitVec.add_comm 1#64]
    have hwait : wait - 1 - k = wait - (k + 1) := by omega
    simp only [htime, hwait]

theorem move_port_waiting {s : State} {addr : BitVec 7} {p : Byte} {stage : PrescaleStage} {wait : Nat}
    {why : PrescaleFor} (hport : s.port = .busy (.prescale addr p stage wait why)) (hwait : wait ≠ 0) :
    s.move .port = s := by
  rw [s.move_port_of_busy _ hport]
  simp only [State.portStep, if_neg hwait]

/-- Only a tick lowers a wait, by one, and only a wait that is over lets the port go on. -/
theorem wait_of_foldl {s : State} {addr : BitVec 7} {p : Byte} {stage : PrescaleStage} {wait : Nat}
    {why : PrescaleFor} (hport : s.port = .busy (.prescale addr p stage wait why)) {cs : List Choice}
    (hcs : cs.count .tick < wait) :
    (cs.foldl State.move s).port = .busy (.prescale addr p stage (wait - cs.count .tick) why) := by
  induction cs generalizing s wait with
  | nil => exact hport
  | cons c cs ih =>
    rw [List.foldl_cons]
    cases c with
    | tick =>
      rw [List.count_cons_self] at hcs ⊢
      rw [ih (wait := wait - 1) (by rw [move_tick_prescale hport]) (by omega)]
      congr 2
      omega
    | port =>
      rw [List.count_cons_of_ne (by nofun)] at hcs ⊢
      rw [move_port_waiting hport (by omega)]
      exact ih hport hcs
    | loop u =>
      rw [List.count_cons_of_ne (by nofun)] at hcs ⊢
      exact ih (by rw [State.move_loop, State.loopStep_port, hport]) hcs

theorem stage_after_ack {s : State} {addr : BitVec 7} {p : Byte} {stage : PrescaleStage} {why : PrescaleFor}
    (hport : s.port = .busy (.prescale addr p stage 0 why)) (hack : s.nextAnswer.1 = .ack) (hstage : stage ≠ .done) :
    (s.move .port).port =
      .busy (.prescale addr p stage.next (if stage.settles then settleTicks s.cfg else 0) why) := by
  rw [s.move_port_of_busy _ hport]
  simp only [State.portStep, if_true]
  rcases s.prescaleStep_cases addr p stage why with ⟨hdone, -⟩ | ⟨-, t, ht, ⟨-, he⟩ | ⟨hfail, -⟩⟩
  · exact absurd hdone hstage
  · rw [he]
  · rw [ht] at hfail
    exact absurd hack hfail

theorem keepsSettleWaits (s : State) (why : PrescaleFor) : s.KeepsSettleWaits why := by
  intro addr p stage wait hport
  refine ⟨move_port_waiting hport, by rw [move_tick_prescale hport], fun cs hcs => wait_of_foldl hport hcs, ?_⟩
  rintro rfl hack
  have hnext := stage_after_ack hport hack
  refine ⟨?_, ?_, ?_, ?_⟩ <;> rintro rfl <;> simpa [PrescaleStage.next, PrescaleStage.settles] using hnext

/-! ### The whole sequence -/

/-- The state once a stage's transaction is acknowledged and a wait of k ticks after it is over. -/
def stageDone (s : State) (addr : BitVec 7) (p : Byte) (stage : PrescaleStage) (why : PrescaleFor) (k : Nat)
    (rs : List Answer) : State :=
  { transacted s (stageOp s.cfg addr p stage) .ack rs with
    time := s.time + BitVec.ofNat 64 k, port := .busy (.prescale addr p stage.next 0 why) }

section

variable {s : State} {addr : BitVec 7} {p : Byte} {stage : PrescaleStage} {why : PrescaleFor} {rs : List Answer}

/-- A MODE1 write and the wait after it. -/
theorem driveOver_settles {k : Nat} (hport : s.port = .busy (.prescale addr p stage 0 why))
    (hanswers : s.answers = .ack :: rs) (hsettles : stage.settles = true) (hk : settleTicks s.cfg ≤ k)
    (cs : List Choice) :
    s.driveOver (.port :: (List.replicate k .tick ++ cs)) = (stageDone s addr p stage why k rs).driveOver cs := by
  have hstage : stage ≠ .done := by rintro rfl; cases hsettles
  rw [State.driveOver_cons_of_busy s _ _ _ hport, move_port_stage hport hstage hanswers, if_pos hsettles,
    driveOver_ticks rfl, Nat.sub_eq_zero_of_le hk]
  rfl

/-- The PRESCALE write, after which there is no wait. -/
theorem driveOver_value (hport : s.port = .busy (.prescale addr p .value 0 why)) (hanswers : s.answers = .ack :: rs)
    (cs : List Choice) : s.driveOver (.port :: cs) = (stageDone s addr p .value why 0 rs).driveOver cs := by
  rw [State.driveOver_cons_of_busy s _ _ _ hport, move_port_stage hport nofun hanswers, stageDone,
    BitVec.add_zero]
  rfl

end

/-- The four transactions of ProgramPrescale, with its waits of k1, k2 and k3 ticks (R90). -/
def programmed (s : State) (addr : BitVec 7) (p : Byte) (k1 k2 k3 : Nat) (rs : List Answer) : State :=
  { s with
    time := s.time + BitVec.ofNat 64 (k1 + k2 + k3)
    trace := s.trace ++
      [⟨.port, s.time, stageOp s.cfg addr p .sleep, .ack⟩,
       ⟨.port, s.time + BitVec.ofNat 64 k1, stageOp s.cfg addr p .value, .ack⟩,
       ⟨.port, s.time + BitVec.ofNat 64 k1, stageOp s.cfg addr p .wake, .ack⟩,
       ⟨.port, s.time + BitVec.ofNat 64 (k1 + k2), stageOp s.cfg addr p .restart, .ack⟩]
    expander := (((s.expander.after (stageOp s.cfg addr p .sleep) .ack).after (stageOp s.cfg addr p .value) .ack).after
      (stageOp s.cfg addr p .wake) .ack).after (stageOp s.cfg addr p .restart) .ack
    answers := rs }

theorem driveOver_done {s : State} {addr : BitVec 7} {p : Byte} {why : PrescaleFor}
    (hport : s.port = .busy (.prescale addr p .done 0 why)) (cs : List Choice) :
    s.driveOver (.port :: cs) = { s.finishPrescale addr p why with sched := cs } := by
  have hmove : s.move .port = s.finishPrescale addr p why := by
    rw [s.move_port_of_busy _ hport]
    rfl
  rw [State.driveOver_cons_of_busy s _ _ _ hport, hmove, State.driveOver_of_idle _ _ (BusTrace.finishPrescale_port ..)]

theorem driveOver_program {s : State} {addr : BitVec 7} {p : Byte} {why : PrescaleFor} {k1 k2 k3 : Nat}
    {rs : List Answer} (hport : s.port = .busy (.prescale addr p .sleep 0 why)) (h1 : settleTicks s.cfg ≤ k1)
    (h2 : settleTicks s.cfg ≤ k2) (h3 : settleTicks s.cfg ≤ k3) (hanswers : s.answers = List.replicate 4 .ack ++ rs)
    (cs : List Choice) :
    s.driveOver (.port :: (List.replicate k1 .tick ++ .port :: .port :: (List.replicate k2 .tick ++
      .port :: (List.replicate k3 .tick ++ .port :: cs)))) =
      { (programmed s addr p k1 k2 k3 rs).finishPrescale addr p why with sched := cs } := by
  let s1 := stageDone s addr p .sleep why k1 (.ack :: .ack :: .ack :: rs)
  let s2 := stageDone s1 addr p .value why 0 (.ack :: .ack :: rs)
  let s3 := stageDone s2 addr p .wake why k2 (.ack :: rs)
  have htime : s.time + BitVec.ofNat 64 k1 + BitVec.ofNat 64 k2 = s.time + BitVec.ofNat 64 (k1 + k2) := by
    rw [BitVec.ofNat_add, BitVec.add_assoc]
  have htime' : s.time + BitVec.ofNat 64 (k1 + k2) + BitVec.ofNat 64 k3 = s.time + BitVec.ofNat 64 (k1 + k2 + k3) := by
    rw [BitVec.ofNat_add _ k3, BitVec.add_assoc]
  rw [driveOver_settles (rs := .ack :: .ack :: .ack :: rs) hport hanswers rfl h1, driveOver_value (s := s1) rfl rfl,
    driveOver_settles (s := s2) (stage := .wake) rfl rfl rfl h2,
    driveOver_settles (s := s3) (stage := .restart) rfl rfl rfl h3, driveOver_done rfl]
  cases why <;>
    simp only [s1, s2, s3, stageDone, transacted, programmed, State.finishPrescale, State.respondOk, State.respond,
      State.unlock, List.append_assoc, List.cons_append, List.nil_append, BitVec.add_zero, htime, htime']

/-! ### What the sequence leaves in the expander -/

theorem read_after_byte (m : Memory) (addr : BitVec 7) {reg : Nat} (hreg : reg < 256) (b : Byte) (x : Nat) :
    (m.after (.write addr (BitVec.ofNat 8 reg) [b]) .ack).read x =
      if x = 256 * addr.toNat + reg then some b else m.read x := by
  have hcell : cellAddr addr (BitVec.ofNat 8 reg) 0 = 256 * addr.toNat + reg := cellAddr_ofNat addr reg 0 (by omega)
  show ((m.write (cellAddr addr (BitVec.ofNat 8 reg) 0) b)).read x = _
  rw [hcell]
  split
  case isTrue hx => rw [hx, Memory.read_write_self]
  case isFalse hx => rw [Memory.read_write_ne _ _ _ _ (Ne.symm hx)]

theorem programmed_expander_read {s : State} (hlegal : s.cfg.Legal) (addr : BitVec 7) (p : Byte) (k1 k2 k3 : Nat)
    (rs : List Answer) (x : Nat) :
    (programmed s addr p k1 k2 k3 rs).expander.read x =
      if x = 256 * addr.toNat + s.cfg.mode1Addr then some 0xA1
      else if x = 256 * addr.toNat + s.cfg.prescaleAddr then some p else s.expander.read x := by
  obtain ⟨-, -, -, -, -, hmode1, hprescale, -⟩ := hlegal
  simp only [programmed, stageOp, stageWrite]
  rw [read_after_byte _ _ hmode1, read_after_byte _ _ hmode1, read_after_byte _ _ hprescale,
    read_after_byte _ _ hmode1]
  split_ifs <;> rfl

/-! ### INIT and SETFREQ -/

theorem packValue_freq (f : BitVec 16) : packValue [(0, f.toNat)] = BitVec.setWidth 32 f := by
  rw [StatusWords.packValue_single, BitVec.ofNat_toNat]

theorem exec_init {s : State} (h : s.initialized = false) (a : Nat) : exec (.init a) s =
    .next (State.drive { s with port := .busy (.generalCall (BitVec.ofNat 7 a) false) }) :=
  congrArg Host.Outcome.next (if_neg (by rw [h]; nofun))

theorem drive_of_sched {s : State} {cs : List Choice} (h : s.sched = cs) : s.drive = s.driveOver cs := by
  rw [State.drive, h]

section

variable {s : State} {addr : BitVec 7} {rs : List Answer}

theorem driveOver_generalCall_lock (hport : s.port = .busy (.generalCall addr false)) (hfree : s.busLock = .free)
    (cs : List Choice) : s.driveOver (.port :: cs) =
      State.driveOver { s with busLock := .port, port := .busy (.generalCall addr true) } cs := by
  have hmove : s.move .port = { s with busLock := .port, port := .busy (.generalCall addr true) } := by
    rw [s.move_port_of_busy _ hport]
    simp [State.portStep, State.lockThen, hfree, Agent.lock]
  rw [State.driveOver_cons_of_busy s _ _ _ hport, hmove]

/-- A general call that is acknowledged, and the wait after it (R95). -/
theorem driveOver_generalCall_acked (hport : s.port = .busy (.generalCall addr true)) (hanswers : s.answers = .ack :: rs)
    {k : Nat} (hk : settleTicks s.cfg ≤ k) (cs : List Choice) :
    s.driveOver (.port :: (List.replicate k .tick ++ cs)) =
      State.driveOver { (transacted s (.generalCall 0x06) .ack rs).invalidateImages with
        time := s.time + BitVec.ofNat 64 k
        port := .busy (.prescale addr (BitVec.ofNat 8 defaultPrescale) .sleep 0 .init) } cs := by
  have hmove : s.move .port = { (transacted s (.generalCall 0x06) .ack rs).invalidateImages with
      port := .busy (.prescale addr (BitVec.ofNat 8 defaultPrescale) .sleep (settleTicks s.cfg) .init) } := by
    rw [s.move_port_of_busy _ hport]
    simp only [State.portStep, if_true, State.generalCallStep]
    rw [transact_of_answers hanswers]
  rw [State.driveOver_cons_of_busy s _ _ _ hport, hmove, driveOver_ticks rfl, Nat.sub_eq_zero_of_le hk]
  rfl

theorem driveOver_generalCall_failed (hport : s.port = .busy (.generalCall addr true)) {r : Answer}
    (hanswers : s.answers = r :: rs) (hfail : r ≠ .ack) (cs : List Choice) :
    s.driveOver (.port :: cs) = { (transacted s (.generalCall 0x06) r rs).invalidateImages with
      busLock := .free, responses := s.responses ++ [if r = .nack then responseWord 4 0 else responseTo r 0]
      port := .idle, sched := cs } := by
  have hraise (t : State) (e : Err) (v : Value) : t.unlock.raise e v =
      { t with busLock := .free, responses := t.responses ++ [responseWord e.code v], port := .idle } :=
    HostChannel.raise_of_lock_elsewhere (s := t.unlock) (by simp) e v
  have hmove : s.move .port = { (transacted s (.generalCall 0x06) r rs).invalidateImages with
      busLock := .free, responses := s.responses ++ [if r = .nack then responseWord 4 0 else responseTo r 0]
      port := .idle } := by
    rw [s.move_port_of_busy _ hport]
    simp only [State.portStep, if_true, State.generalCallStep]
    rw [transact_of_answers hanswers]
    cases r with
    | ack => exact absurd rfl hfail
    | nack => exact hraise ..
    | err d => exact hraise ..
  rw [State.driveOver_cons_of_busy s _ _ _ hport, hmove, State.driveOver_of_idle _ _ rfl]

end

/-- Settles O26: a general call that fails ends INIT with its images invalid and nothing known of the expander. -/
theorem initIsIdempotentAndReportsNoDevice : Obligations.InitIsIdempotentAndReportsNoDevice := by
  refine ⟨fun s a hinit => congrArg Host.Outcome.next (if_pos hinit), ?_⟩
  intro s a r cs rs hinit hfree hsched hanswers hfail
  rw [exec_init hinit, drive_of_sched (s := { s with port := .busy (.generalCall (BitVec.ofNat 7 a) false) }) hsched,
    driveOver_generalCall_lock (s := { s with port := .busy (.generalCall (BitVec.ofNat 7 a) false) }) rfl hfree,
    driveOver_generalCall_failed
      (s := { s with busLock := .port, port := .busy (.generalCall (BitVec.ofNat 7 a) true) }) rfl hanswers hfail, hfree]
  rfl

theorem acked_port {s : State} {addr : BitVec 7} (hport : s.port = .busy (.generalCall addr true))
    (hack : s.nextAnswer.1 = .ack) :
    (s.move .port).port = .busy (.prescale addr 30 .sleep (settleTicks s.cfg) .init) := by
  have ht : (s.transact .port (.generalCall 0x06)).1 = .ack := hack
  rw [s.move_port_of_busy _ hport]
  simp only [State.portStep, if_true, State.generalCallStep, ht]
  rfl

/-- Settles O25: Lock(), the general call and the sequence, and the registers it ends with. -/
theorem initProgramsTheExpander : Obligations.InitProgramsTheExpander := by
  refine ⟨?_, fun s addr hport hack => acked_port hport hack, fun s => keepsSettleWaits s .init⟩
  intro s a k1 k2 k3 k4 cs rs hlegal ha hinit hfree h1 h2 h3 h4 hsched hanswers
  let addr := BitVec.ofNat 7 a
  let s1 : State := { s with port := .busy (.generalCall addr false) }
  let s2 : State := { s with busLock := .port, port := .busy (.generalCall addr true) }
  let s3 : State := { (transacted s2 (.generalCall 0x06) .ack (List.replicate 4 .ack ++ rs)).invalidateImages with
    time := s.time + BitVec.ofNat 64 k1
    port := .busy (.prescale addr (BitVec.ofNat 8 defaultPrescale) .sleep 0 .init) }
  have hrun : s1.drive =
      { (programmed s3 addr 30 k2 k3 k4 rs).finishPrescale addr 30 .init with sched := cs } := by
    rw [drive_of_sched (s := s1) hsched]
    simp only [List.append_assoc, List.cons_append, List.nil_append]
    exact (driveOver_generalCall_lock (s := s1) rfl hfree _).trans
      ((driveOver_generalCall_acked (s := s2) rfl hanswers h1 _).trans
        (driveOver_program (s := s3) rfl h2 h3 h4 rfl cs))
  have haddr : addr.toNat = a := by rw [BitVec.toNat_ofNat]; omega
  refine ⟨s1.drive, exec_init hinit a, ?_, fun x => ?_⟩
  · rw [hrun]
    have htime (k : Nat) : s.time + BitVec.ofNat 64 k1 + BitVec.ofNat 64 k = s.time + BitVec.ofNat 64 (k1 + k) := by
      rw [BitVec.ofNat_add, BitVec.add_assoc]
    simp only [State.finishPrescale, programmed, State.unlock, State.respondOk, State.respond, packValue_freq, hfree,
      s3, htime, ← Nat.add_assoc]
    simp only [transacted, State.invalidateImages, s2, List.append_assoc, List.cons_append, List.nil_append]
    rfl
  · have hread := programmed_expander_read (s := s3) hlegal addr 30 k2 k3 k4 rs x
    rw [haddr] at hread
    rw [hrun]
    exact hread

theorem prescaleOf_toNat (clockHz hz : Nat) : (BitVec.ofNat 8 (prescaleOf clockHz hz)).toNat = prescaleOf clockHz hz := by
  obtain ⟨-, hle⟩ := prescaleOf_mem clockHz hz
  rw [BitVec.toNat_ofNat]
  omega

/-- Settles O27: Lock(), the sequence, and the registers it ends with. -/
theorem setfreqProgramsThePrescale : Obligations.SetfreqProgramsThePrescale := by
  have hlock {s : State} {p : Byte} (hport : s.port = .busy (.prescaleLock p)) (hfree : s.busLock = .free) :
      s.move .port = { s with busLock := .port, port := .busy (.prescale s.busAddr p .sleep 0 .setfreq) } := by
    rw [s.move_port_of_busy _ hport]
    simp [State.portStep, State.lockThen, hfree, Agent.lock]
  refine ⟨?_, fun s p hport hfree => by rw [hlock hport hfree], fun s => keepsSettleWaits s .setfreq⟩
  intro s hz k1 k2 k3 cs rs hlegal hinit hfree h1 h2 h3 hsched hanswers
  let p := BitVec.ofNat 8 (prescaleOf s.cfg.clockHz hz)
  let s1 : State := { s with port := .busy (.prescaleLock p) }
  let s2 : State := { s with busLock := .port, port := .busy (.prescale s.busAddr p .sleep 0 .setfreq) }
  have hrun : s1.drive =
      { (programmed s2 s.busAddr p k1 k2 k3 rs).finishPrescale s.busAddr p .setfreq with sched := cs } := by
    have hlock' : s1.move .port = s2 := hlock rfl hfree
    rw [drive_of_sched (s := s1) hsched]
    simp only [List.append_assoc, List.cons_append, List.nil_append]
    rw [State.driveOver_cons_of_busy s1 _ _ _ rfl, hlock']
    exact driveOver_program (s := s2) rfl h1 h2 h3 hanswers cs
  refine ⟨s1.drive, congrArg Host.Outcome.next (State.checked_of_none s _ _ (by simpa using hinit)), ?_, fun x => ?_⟩
  · rw [hrun]
    simp only [State.finishPrescale, programmed, State.unlock, packValue_freq, hfree, p, prescaleOf_toNat]
    rfl
  · rw [hrun]
    exact programmed_expander_read (s := s2) hlegal s.busAddr p k1 k2 k3 rs x

end Sys2Proof.PrescaleRuns
end

section
/-! The pacing loop's turns (R126 to R130, R144): what a turn leaves of the block, of the unit's settings and of the
deadlines, and how a failing write ends the run. -/

namespace Sys2Proof.PacedTurns

open Machine StepRelation StepFrames ChannelOwners BusTrace JobOwners HostWrites

/-! ### Deadlines and INDEX -/

theorem setUnit_deadline {s : State} {u v : UnitId} {y : UnitState} (hy : y.deadline = (s.unit v).deadline) :
    ((s.setUnit v y).unit u).deadline = (s.unit u).deadline := by
  rw [State.setUnit_unit]
  split
  case isTrue hv => subst hv; exact hy
  case isFalse => rfl

theorem advanceIndex_deadline (s : State) (u v : UnitId) (dir : Dir) :
    ((s.advanceIndex u dir).unit v).deadline = (s.unit v).deadline := setUnit_deadline rfl

theorem runOps_deadline (u : UnitId) (ops : List StepOp) (s : State) (v : UnitId) :
    ((runOps u ops s).2.unit v).deadline = (s.unit v).deadline := by
  rw [PacingLoop.runOps_unit]

theorem loopStepOps_deadline (s : State) (u v : UnitId) (ops : List StepOp) :
    ((s.loopStepOps u ops).unit v).deadline = (s.unit v).deadline := by
  rcases s.loopStepOps_cases u ops with ⟨-, he⟩ | ⟨job, -, he⟩ <;> rw [he]
  · exact Eq.trans (setUnit_deadline (by rfl)) (runOps_deadline u ops s v)
  · exact Eq.trans (setUnit_deadline (by rfl)) (runOps_deadline u ops s v)

theorem portStepOps_deadline (s : State) (u v : UnitId) (ops : List StepOp) :
    ((s.portStepOps u ops).unit v).deadline = (s.unit v).deadline := by
  have h := runOps_deadline u ops s v
  rcases s.portStepOps_cases u ops with ⟨-, he⟩ | ⟨job, -, he⟩ <;> rw [he] <;> exact h

theorem failStep_deadline (s : State) (u v : UnitId) : ((s.failStep u).unit v).deadline = (s.unit v).deadline := by
  rw [State.failStep_unit]
  split <;> rfl

theorem deadline_finishDeEnergize (s : State) (u : UnitId) (why : DeEnergizeFor) (first : Answer) (v : UnitId) :
    ((s.finishDeEnergize u why first).unit v).deadline = (s.unit v).deadline ∨
      (s.finishDeEnergize u why first).unit v = UnitState.reset := by
  rw [finishDeEnergize_unit]
  split
  case isTrue hv =>
    subst hv
    cases why with
    | stop => left; unfold afterDeEnergize UnitState.deEnergized; simp only; split <;> rfl
    | dispose => exact .inr rfl
  case isFalse => exact .inl rfl

theorem deadline_deEnergizeFrom (s : State) (u : UnitId) (why : DeEnergizeFor) (chs : List ChannelId) (first : Answer)
    (v : UnitId) : ((s.deEnergizeFrom u why chs first).unit v).deadline = (s.unit v).deadline ∨
      (s.deEnergizeFrom u why chs first).unit v = UnitState.reset :=
  deEnergizeFrom_induction (fun t => t.unit v = s.unit v)
    (fun t => (t.unit v).deadline = (s.unit v).deadline ∨ t.unit v = UnitState.reset)
    (fun _ _ _ ht => by simpa using ht) (fun t ht => by rw [← ht]; exact deadline_finishDeEnergize t u why first v)
    (fun t ch _ ht _ _ _ => .inl (congrArg UnitState.deadline (by simpa using ht))) rfl

/-- A turn moves a deadline only in Accum, by TPS, or by DISPOSE's reset (R123, R126). -/
theorem deadline_of_moved {s t : State} {c : Choice} (hm : Moved s c t) (u : UnitId) :
    (t.unit u).deadline = (s.unit u).deadline ∨
    (c = .loop u ∧ (s.unit u).phase = .accum ∧ (t.unit u).phase = .spin ∧
      (t.unit u).deadline = (s.unit u).deadline + BitVec.setWidth 64 (s.unit u).tps) ∨
    (c = .port ∧ t.unit u = UnitState.reset) := by
  cases hm with
  | stays | tick | portLock => exact .inl rfl
  | accum v _ _ hphase =>
    by_cases hv : v = u
    · subst hv
      rw [State.setUnit_unit_self]
      rcases (s.unit v).accum_cases with he | he | he <;> rw [he]
      · exact .inl rfl
      · exact .inr (.inl ⟨rfl, hphase, rfl, rfl⟩)
      · exact .inr (.inl ⟨rfl, hphase, rfl, rfl⟩)
    · rw [State.setUnit_unit, if_neg hv]; exact .inl rfl
  | seen v =>
    refine .inl (setUnit_deadline ?_)
    split <;> rfl
  | due v => exact .inl ((loopStepOps_deadline _ v u _).trans (advanceIndex_deadline s v u _))
  | loopLock v => exact .inl (setUnit_deadline rfl)
  | loopWritten v job => exact .inl ((loopStepOps_deadline _ v u _).trans (by simp))
  | loopFailed v job =>
    refine .inl ((setUnit_deadline ?_).trans ((failStep_deadline _ v u).trans (by simp)))
    rfl
  | prescaleWritten addr p stage why t' _ _ ht => subst ht; exact .inl (by simp)
  | prescaleFailed addr p stage why t' _ _ ht => subst ht; exact .inl (by simp)
  | released v why =>
    cases why with
    | cancel => exact .inl rfl
    | stop => exact (deadline_deEnergizeFrom s v .stop _ .ack u).imp_right fun h => .inr ⟨rfl, h⟩
    | dispose => exact (deadline_deEnergizeFrom s v .dispose _ .ack u).imp_right fun h => .inr ⟨rfl, h⟩
  | stepWritten v => exact .inl ((portStepOps_deadline _ v u _).trans (by simp))
  | stepFailed v job => exact .inl (by simpa using failStep_deadline (s.writeImage .port job.write).2 v u)
  | deEnergizeWritten v why w rest first =>
    have h := deadline_deEnergizeFrom (s.writeImage .port w).2 v why rest (firstFailure first (s.writeImage .port w).1) u
    rw [State.writeImage_unit] at h
    exact h.imp_right fun h => .inr ⟨rfl, h⟩
  | channelWritten | generalCalled | generalCallFailed | prescaleDone => exact .inl (by simp)

/-- A turn of the loop moves INDEX only in a Step that is due (R127, R128). -/
theorem index_of_loop {s t : State} {u : UnitId} (hm : Moved s (.loop u) t)
    (h : (t.unit u).index ≠ (s.unit u).index) : (s.unit u).run = .running ∧ (s.unit u).deadline ≤ s.time := by
  cases hm with
  | stays => exact absurd rfl h
  | accum _ =>
    rw [State.setUnit_unit_self] at h
    rcases (s.unit u).accum_cases with he | he | he <;> rw [he] at h <;> exact absurd rfl h
  | seen _ =>
    rw [State.setUnit_unit_self] at h
    split at h <;> exact absurd rfl h
  | due _ hrun _ _ _ hdue => exact ⟨hrun, hdue⟩
  | loopLock _ => rw [State.setUnit_unit_self] at h; exact absurd rfl h
  | loopWritten _ => rw [PacingLoop.loopStepOps_index, State.writeImage_unit] at h; exact absurd rfl h
  | loopFailed _ =>
    rw [State.setUnit_unit_self, UnitState.finish, State.failStep_unit, if_pos rfl, State.writeImage_unit] at h
    exact absurd rfl h

/-- Settles O53: INDEX moves in a due Step only, and deadlines in Accum only, or by a reset. -/
theorem pacedStepsKeepTheirDeadlines : Obligations.PacedStepsKeepTheirDeadlines :=
  ⟨fun s u => index_of_loop (moved_move s (.loop u)), fun s c u => deadline_of_moved (moved_move s c) u⟩

/-! ### A bus error (R144) -/

theorem move_loop_write {s : State} {u : UnitId} {job : StepJob} {r : Answer} {rs : List Answer}
    (hrun : (s.unit u).run = .running) (hjob : (s.unit u).stepJob = some job) (hlocked : job.write.locked = true)
    (hanswers : s.answers = r :: rs) :
    s.move (.loop u) = (written s (.loop u) job.write r rs).loopStepAnswered u job.rest r := by
  rw [State.move_loop, State.loopStep]
  simp only [hrun, if_true, hjob, State.loopWrite, hlocked]
  rw [writeImage_of_answers hanswers]

/-- Settles O55: the failing write, then the fail exit of Step and Finish. -/
theorem busErrorEndsThePacedRun : Obligations.BusErrorEndsThePacedRun := by
  intro s u job r rs hrun hjob hlocked _ hanswers hfail
  let w := written s (.loop u) job.write r rs
  have hmove : s.move (.loop u) = (w.failStep u).setUnit u ((w.failStep u).unit u).finish := by
    rw [move_loop_write hrun hjob hlocked hanswers, State.loopStepAnswered, if_neg hfail]
  have hchannel (ch : ChannelId) : (s.move (.loop u)).channel ch =
      if job.write.ch = ch then (s.channel job.write.ch).answered job.write.image r else s.channel ch := by
    rw [hmove, State.setUnit_channel, State.failStep_channel, written_channel]
  refine ⟨s.move (.loop u), rfl, by rw [hmove]; rfl, ?_, fun v hv => ?_, ?_, fun ch hch => ?_, fun a => ?_⟩
  · rw [hmove, State.setUnit_unit_self, State.failStep_unit, if_pos rfl]
    rfl
  · rw [hmove, State.setUnit_unit, if_neg (Ne.symm hv), State.failStep_unit, if_neg (Ne.symm hv)]
    rfl
  · rw [hchannel, if_pos rfl, Channel.answered, if_neg hfail]
  · rw [hchannel, if_neg (Ne.symm hch)]
  · rw [hmove]
    show Memory.read ((s.expander.after (s.writeOp job.write) r).forgetAll (w.unitCells u)) a = none
    rw [Memory.after_of_ne_ack _ _ _ hfail]
    rfl

/-! ### What a loop's turn may touch -/

/-- From s to t only the channels, the units, the lock and the bus may have changed. -/
def OnlyBus (s t : State) : Prop :=
  t = { s with
    channels := t.channels, units := t.units, busLock := t.busLock, expander := t.expander, trace := t.trace
    answers := t.answers, answerDraws := t.answerDraws }

theorem OnlyBus.trans {s t r : State} (h : OnlyBus s t) (g : OnlyBus t r) : OnlyBus s r := by
  unfold OnlyBus at *
  refine g.trans ?_
  rw [h]

theorem onlyBus_setUnit (s : State) (u : UnitId) (y : UnitState) : OnlyBus s (s.setUnit u y) := rfl

theorem onlyBus_runOps (u : UnitId) (ops : List StepOp) (s : State) : OnlyBus s (runOps u ops s).2 := by
  unfold OnlyBus
  rw [runOps_frame]

theorem onlyBus_loopStepOps (s : State) (u : UnitId) (ops : List StepOp) : OnlyBus s (s.loopStepOps u ops) := by
  have h := onlyBus_runOps u ops s
  rcases s.loopStepOps_cases u ops with ⟨-, he⟩ | ⟨job, -, he⟩ <;> rw [he] <;> exact h.trans (onlyBus_setUnit ..)

theorem onlyBus_writeImage (s : State) (a : Agent) (w : PendingWrite) : OnlyBus s (s.writeImage a w).2 := by
  unfold OnlyBus State.writeImage State.transact State.nextAnswer
  simp only
  split <;> rfl

theorem onlyBus_of_loop {s t : State} {u : UnitId} (hm : Moved s (.loop u) t) : OnlyBus s t := by
  cases hm with
  | stays | accum | seen | loopLock => rfl
  | due _ => exact OnlyBus.trans (t := s.advanceIndex u (s.unit u).dir) rfl (onlyBus_loopStepOps ..)
  | loopWritten _ job => exact (onlyBus_writeImage s (.loop u) job.write).trans (onlyBus_loopStepOps ..)
  | loopFailed _ job =>
    exact (onlyBus_writeImage s (.loop u) job.write).trans
      (OnlyBus.trans (t := (s.writeImage (.loop u) job.write).2.failStep u) rfl (onlyBus_setUnit ..))

theorem unit_of_loop_ne {s t : State} {u v : UnitId} (hm : Moved s (.loop u) t) (hv : v ≠ u) : t.unit v = s.unit v := by
  cases hm with
  | stays => rfl
  | accum _ | seen _ => rw [State.setUnit_unit, if_neg (Ne.symm hv)]
  | loopLock _ => rw [State.setUnit_unit, if_neg (Ne.symm hv)]; rfl
  | due _ =>
    rw [RegisterRanges.loopStepOps_unit_of_ne _ hv _, State.advanceIndex_unit, if_neg (Ne.symm hv)]
  | loopWritten _ job => rw [RegisterRanges.loopStepOps_unit_of_ne _ hv _, State.writeImage_unit]
  | loopFailed _ job =>
    rw [State.setUnit_unit, if_neg (Ne.symm hv), State.failStep_unit, if_neg (Ne.symm hv), State.writeImage_unit]

/-- A unit with the settings of x: its binding, style, PF, TPS, and what STEPFOR and SETPOLICY gave it. -/
def SameSettings (x y : UnitState) : Prop :=
  y = { x with
    index := y.index, lastA := y.lastA, lastB := y.lastB, run := y.run, deadline := y.deadline
    remaining := y.remaining, cancelReq := y.cancelReq, cooling := y.cooling, phase := y.phase, busErr := y.busErr
    stepJob := y.stepJob }

theorem SameSettings.trans {x y z : UnitState} (h : SameSettings x y) (g : SameSettings y z) : SameSettings x z := by
  unfold SameSettings at *
  refine g.trans ?_
  rw [h]

theorem sameSettings_loopStepOps (s : State) (u : UnitId) (ops : List StepOp) :
    SameSettings (s.unit u) ((s.loopStepOps u ops).unit u) := by
  have h : SameSettings (s.unit u) ((runOps u ops s).2.unit u) := by
    unfold SameSettings
    rw [PacingLoop.runOps_unit]
  rcases s.loopStepOps_cases u ops with ⟨-, he⟩ | ⟨job, -, he⟩ <;> rw [he, State.setUnit_unit_self] <;>
    exact h.trans rfl

theorem sameSettings_of_loop {s t : State} {u : UnitId} (hm : Moved s (.loop u) t) :
    SameSettings (s.unit u) (t.unit u) := by
  cases hm with
  | stays => rfl
  | accum _ => rw [State.setUnit_unit_self]; rcases (s.unit u).accum_cases with he | he | he <;> rw [he] <;> rfl
  | seen _ => rw [State.setUnit_unit_self]; split <;> rfl
  | due _ =>
    have h := sameSettings_loopStepOps (s.advanceIndex u (s.unit u).dir) u
      ((s.advanceIndex u (s.unit u).dir).stepOps u)
    rw [State.advanceIndex_unit, if_pos rfl] at h
    exact SameSettings.trans (y := { s.unit u with index := nextIndex (s.unit u) (s.unit u).dir }) rfl h
  | loopLock _ => rw [State.setUnit_unit_self]; rfl
  | loopWritten _ job =>
    have h := sameSettings_loopStepOps (s.writeImage (.loop u) job.write).2 u job.rest
    rwa [State.writeImage_unit] at h
  | loopFailed _ job =>
    rw [State.setUnit_unit_self, State.failStep_unit, if_pos rfl, State.writeImage_unit]
    rfl

/-! ### The channels of a loop's turn -/

theorem runOps_channel_of_not_mem {u : UnitId} {ops : List StepOp} {s : State} {ch : ChannelId}
    (h : ∀ w ∈ stepWrites ops, w.1 ≠ ch) : (runOps u ops s).2.channel ch = s.channel ch := by
  refine runOps_induction (fun t => t.channel ch = s.channel ch) (fun t c ratio pol _ ht => by simpa using ht)
    (fun t d ratio hd ht => ?_) rfl
  rw [State.setSpec_channel, if_neg (h (d, ratio) ((mem_stepWrites ops _).2 hd))]
  exact ht

theorem loopStepOps_channel_of_not_mem {s : State} {u : UnitId} {ops : List StepOp} {ch : ChannelId}
    (h : ∀ w ∈ stepWrites ops, w.1 ≠ ch) : (s.loopStepOps u ops).channel ch = s.channel ch := by
  rcases s.loopStepOps_cases u ops with ⟨-, he⟩ | ⟨job, -, he⟩ <;> rw [he, State.setUnit_channel] <;>
    exact runOps_channel_of_not_mem h

/-- A loop's turn changes channels of its own unit only (R110). -/
theorem channel_of_loop {s t : State} {u : UnitId} (hl : LoopsOwn s) (hm : Moved s (.loop u) t) {ch : ChannelId}
    (hch : ch ∉ s.unitChannels u) : t.channel ch = s.channel ch := by
  have hne {ops : List StepOp} (hops : ∀ w ∈ stepWrites ops, w.1 ∈ s.unitChannels u) :
      ∀ w ∈ stepWrites ops, w.1 ≠ ch := fun w hw he => hch (he ▸ hops w hw)
  have hne' {d : ChannelId} (hd : d ∈ s.unitChannels u) : d ≠ ch := fun he => hch (he ▸ hd)
  cases hm with
  | stays | accum | seen | loopLock => rfl
  | due _ =>
    rw [loopStepOps_channel_of_not_mem (hne ?_)]
    · rfl
    · rw [← (sameOwners_advanceIndex s u (s.unit u).dir).unitChannels u]
      exact State.stepOps_on _ u
  | loopWritten _ job _ hjob =>
    obtain ⟨-, hwrite, hrest⟩ := hl.jobs u job hjob
    rw [loopStepOps_channel_of_not_mem (hne hrest), State.writeImage_channel, if_neg (hne' hwrite)]
  | loopFailed _ job _ hjob =>
    obtain ⟨-, hwrite, -⟩ := hl.jobs u job hjob
    rw [State.setUnit_channel, State.failStep_channel, State.writeImage_channel, if_neg (hne' hwrite)]

/-- The one transaction of a loop's turn, if any, is the write that the unit has under way. -/
theorem bus_of_loop {s t : State} {u : UnitId} (hm : Moved s (.loop u) t) :
    (t.trace = s.trace ∧ t.expander = s.expander) ∨ ∃ job r, (s.unit u).stepJob = some job ∧
      t.trace = s.trace ++ [s.imageTransaction (.loop u) job.write.ch job.write.image r] ∧
      t.expander = s.expander.after (s.writeOp job.write) r := by
  rcases bus_of_moved hm with hq | ⟨a, op, r, hi, ht⟩
  · exact .inl ⟨hq.trace, hq.expander⟩
  · cases hi with
    | paced _ job hjob => exact .inr ⟨job, r, hjob, ht.trace, ht.paced nofun⟩

/-- Settles O56: by what each case of a loop's turn writes. -/
theorem loopTouchesOnlyItsUnit : Obligations.LoopTouchesOnlyItsUnit := by
  rintro s t u rfl
  have hm := moved_move s (.loop u)
  refine ⟨onlyBus_of_loop hm, fun v hv => unit_of_loop_ne hm hv, (sameOwners_of_loop hm).channels,
    ⟨_, _, _, _, _, _, _, _, _, _, _, sameSettings_of_loop hm⟩, fun hjobs => ?own, fun hjobs ho => ?owned⟩
  case own =>
    have hl := ((jobsOwn_iff s).1 hjobs).1
    refine ⟨fun ch hch => channel_of_loop hl hm hch, (bus_of_loop hm).imp_right ?_⟩
    rintro ⟨job, r, hjob, htrace, hexp⟩
    obtain ⟨-, hwrite, -⟩ := hl.jobs u job hjob
    exact ⟨job.write.ch, hwrite, job.write.image, r, htrace, imageAnswered_of_after hexp, restAnswered_of_after hexp⟩
  case owned =>
    have hl := ((jobsOwn_iff s).1 hjobs).1
    refine ⟨fun ch hch => ?_, (bus_of_loop hm).imp And.left ?_⟩
    · by_cases hrun : (s.unit u).run = .running
      · exact channel_of_loop hl hm fun hmem => hch ((ho.1 u (hl.running u hrun)).2 ch hmem)
      · rw [State.move_loop, State.loopStep, if_neg hrun]
    · rintro ⟨job, r, hjob, htrace, -⟩
      obtain ⟨hbound, hwrite, -⟩ := hl.jobs u job hjob
      exact ⟨job.write.ch, job.write.image, r, (ho.1 u hbound).2 _ hwrite, htrace⟩

end Sys2Proof.PacedTurns
end

section
/-! The order of a Step's writes (R112 to R115). A coil's writes are some of those it makes when LAST is invalid, in that
order; so they name each of its channels at most once, and a polarity channel is turned off before the other is turned
on. -/

namespace Sys2Proof.StepOrder

open Machine CoilWrites StepTables

/-- A coil's writes with LAST invalid: both polarity channels, then the magnitude (R112, R115). -/
def fullWrites (t : PortTriple) (cur : Int) (pf : Nat) : List (ChannelId × BitVec 13) :=
  fullPolarityWrites t (polOf cur) ++ [(t.pwm, BitVec.ofNat 13 (coilRatio cur pf))]

theorem ite_sublist {α : Type} {p : Prop} [Decidable p] {a b : List α} (h : p → a.Sublist b) :
    (if p then a else []).Sublist b := by
  split
  case isTrue hp => exact h hp
  case isFalse => exact List.nil_sublist b

theorem stepWrites_ite {p : Prop} [Decidable p] (a : List StepOp) :
    stepWrites (if p then a else []) = if p then stepWrites a else [] := by
  split <;> rfl

theorem offWrites_onWrites_sublist (t : PortTriple) (pol : Pol) (old : Option (Bool × Bool)) :
    (stepWrites (offWrites t pol.targets old ++ onWrites t pol.targets old)).Sublist (fullPolarityWrites t pol) := by
  unfold offWrites onWrites
  cases pol <;> simp only [Pol.targets, fullPolarityWrites, stepWrites_append, stepWrites_ite, true_and, false_and,
    reduceCtorEq, if_false, List.append_nil, List.nil_append] <;>
    exact (ite_sublist fun _ => .refl _).append (ite_sublist fun _ => .refl _)

theorem stepWrites_coilOps_sublist (t : PortTriple) (last : Last) (c : Coil) (cur : Int) (pf : Nat) :
    (stepWrites (coilOps t last c cur pf)).Sublist (fullWrites t cur pf) := by
  unfold coilOps
  simp only [stepWrites_append, stepWrites_record, stepWrites_nil, List.append_nil, stepWrites_ite]
  refine (ite_sublist fun _ => ?_).append (ite_sublist fun _ => .refl _)
  rw [← stepWrites_append]
  exact offWrites_onWrites_sublist t (polOf cur) _

theorem fullWrites_channels_perm (t : PortTriple) (cur : Int) (pf : Nat) :
    ((fullWrites t cur pf).map Prod.fst).Perm t.channels := by
  have hrotate (a b c : ChannelId) : [a, b, c].Perm [c, a, b] := List.perm_append_comm (l₁ := [a, b]) (l₂ := [c])
  unfold fullWrites
  cases polOf cur with
  | pos => exact (List.perm_append_comm (l₁ := [t.inN, t.inP]) (l₂ := [t.pwm])).trans (.cons _ (.swap ..))
  | neg => exact hrotate ..
  | off => exact hrotate ..

theorem fullWrites_sublist_five (t : PortTriple) (cur : Int) (pf : Nat) :
    (fullWrites t cur pf).Sublist [(t.inP, 0), (t.inN, 0), (t.inP, 4096), (t.inN, 4096),
      (t.pwm, BitVec.ofNat 13 (coilRatio cur pf))] := by
  unfold fullWrites
  cases polOf cur with
  | pos => exact .cons _ (.cons_cons _ (.cons_cons _ (.cons _ (.refl _))))
  | neg => exact .cons_cons _ (.cons _ (.cons _ (.refl _)))
  | off => exact .cons_cons _ (.cons_cons _ (.cons _ (.cons _ (.refl _))))

/-- The opposite polarity channel is turned off unless LAST has it off already (R112, R114). -/
theorem off_mem_coilOps {t : PortTriple} {last : Last} {cur : Int} (c : Coil) (pf : Nat) :
    (polOf cur = .pos → last.valid = false ∨ last.pol = .neg → (t.inN, 0) ∈ stepWrites (coilOps t last c cur pf)) ∧
    (polOf cur = .neg → last.valid = false ∨ last.pol = .pos → (t.inP, 0) ∈ stepWrites (coilOps t last c cur pf)) := by
  refine ⟨fun hpol hlast => ?_, fun hpol hlast => ?_⟩ <;>
    refine (mem_stepWrites_coilOps ..).2 (.inl ⟨hlast.imp_right fun h => by rw [h, hpol]; nofun, .inl ?_⟩) <;>
    rw [mem_stepWrites_offWrites]
  · exact .inr ⟨rfl, by rw [hpol]; nofun, hlast⟩
  · exact .inl ⟨rfl, by rw [hpol]; nofun, hlast⟩

theorem stepWrites_stepOps (s : State) (u : UnitId) : stepWrites (s.stepOps u) =
    stepWrites (coilOps (s.coilTriple u .b) (s.unit u).lastB .b (entryOf (s.unit u)).2 (s.unit u).pf.toNat) ++
    stepWrites (coilOps (s.coilTriple u .a) (s.unit u).lastA .a (entryOf (s.unit u)).1 (s.unit u).pf.toNat) :=
  stepWrites_append ..

/-- Settles O42: coil B's part and coil A's, each some of its full writes in their order. -/
theorem stepWriteOrder : Obligations.StepWriteOrder := by
  refine ⟨fun s u => ⟨_, _, stepWrites_stepOps s u, ⟨?_, off_mem_coilOps ..⟩, ⟨?_, off_mem_coilOps ..⟩⟩,
    fun s u ha hb => ?_⟩
  · exact (stepWrites_coilOps_sublist ..).trans (fullWrites_sublist_five ..)
  · exact (stepWrites_coilOps_sublist ..).trans (fullWrites_sublist_five ..)
  · rw [stepWrites_stepOps, stepWrites_coilOps_of_invalid _ _ _ _ ha, stepWrites_coilOps_of_invalid _ _ _ _ hb,
      List.map_append]
    exact (fullWrites_channels_perm ..).append (fullWrites_channels_perm ..)

/-! ### A Step writes each channel at most once -/

theorem nodup_coilOps {t : PortTriple} (h : t.channels.Nodup) (last : Last) (c : Coil) (cur : Int) (pf : Nat) :
    ((stepWrites (coilOps t last c cur pf)).map Prod.fst).Nodup :=
  ((stepWrites_coilOps_sublist t last c cur pf).map Prod.fst).nodup
    ((fullWrites_channels_perm t cur pf).nodup_iff.2 h)

/-- The triples of the four ports (R12). -/
def portTriples (m : PortMap) : List PortTriple := [m.port1, m.port2, m.port3, m.port4]

theorem portTriple_eq_getElem (m : PortMap) {p : Nat} (hpos : 1 ≤ p) (hle : p ≤ 4) :
    ∃ h : p - 1 < (portTriples m).length, portTriple m p = (portTriples m)[p - 1] := by
  refine ⟨by simp only [portTriples, List.length_cons, List.length_nil]; omega, ?_⟩
  interval_cases p <;> rfl

/-- The channels of two distinct ports are six distinct channels (R12). -/
theorem nodup_bindingChannels {m : PortMap} (h : m.channels.Nodup) {p q : Nat} (hports : portsOk p q = true) :
    (bindingChannels m p q).Nodup := by
  obtain ⟨hp1, hp4, hq1, hq4, hne⟩ := (ImmediateCommands.portsOk_iff p q).1 hports
  obtain ⟨hp, hpt⟩ := portTriple_eq_getElem m hp1 hp4
  obtain ⟨hq, hqt⟩ := portTriple_eq_getElem m hq1 hq4
  have hflat : ((portTriples m).map PortTriple.channels).flatten.Nodup := by
    simpa [portTriples, PortMap.channels] using h
  obtain ⟨heach, hdisjoint⟩ := List.nodup_flatten.1 hflat
  have hnodup {t : PortTriple} (ht : t ∈ portTriples m) : t.channels.Nodup := heach _ (List.mem_map_of_mem ht)
  have happart {i j : Nat} (hi : i < (portTriples m).length) (hj : j < (portTriples m).length) (hij : i < j) :
      ((portTriples m)[i].channels).Disjoint ((portTriples m)[j].channels) :=
    List.pairwise_iff_getElem.1 (List.pairwise_map.1 hdisjoint) i j hi hj hij
  rw [bindingChannels, hpt, hqt]
  refine List.nodup_append'.2 ⟨hnodup (List.getElem_mem hp), hnodup (List.getElem_mem hq), ?_⟩
  rcases Nat.lt_or_ge p q with hlt | hge
  · exact happart hp hq (by omega)
  · exact (happart hq hp (by omega)).symm

theorem nodup_unitChannels {s : State} (hlegal : s.cfg.Legal) (ho : s.OwnershipOk) {u : UnitId}
    (hbound : (s.unit u).bound = true) : (s.unitChannels u).Nodup := by
  obtain ⟨-, -, hmap, -⟩ := hlegal
  exact List.nodup_append_comm.1 (nodup_bindingChannels hmap (ho.1 u hbound).1)

/-- A Step of a bound unit writes each channel at most once (R12, R110). -/
theorem nodup_stepWrites {s : State} (hlegal : s.cfg.Legal) (ho : s.OwnershipOk) {u : UnitId}
    (hbound : (s.unit u).bound = true) (lastA lastB : Last) (curA curB : Int) (pf : Nat) :
    ((stepWrites (coilOps (s.coilTriple u .b) lastB .b curB pf ++
      coilOps (s.coilTriple u .a) lastA .a curA pf)).map Prod.fst).Nodup := by
  have hall := nodup_unitChannels hlegal ho hbound
  obtain ⟨hb, ha, hdisjoint⟩ := List.nodup_append'.1 hall
  rw [stepWrites_append, List.map_append]
  refine List.nodup_append'.2 ⟨nodup_coilOps hb .., nodup_coilOps ha .., fun ch hchb hcha => ?_⟩
  obtain ⟨w, hw, rfl⟩ := List.mem_map.1 hchb
  obtain ⟨w', hw', he⟩ := List.mem_map.1 hcha
  have hwb := coilOps_on _ _ _ _ _ w hw
  have hwa := coilOps_on _ _ _ _ _ w' hw'
  exact hdisjoint hwb (he ▸ hwa)

end Sys2Proof.StepOrder
end

section
/-! A Step run by one agent alone (R115, R121, R128): each write is a critical section of two turns, and with every write
acknowledged the run comes to the operations left on the state in which those before are done (`opsDone`). -/

namespace Sys2Proof.StepRuns

open Machine StepRelation StepFrames ChannelOwners BusTrace HostWrites PacedTurns

/-! ### The operations of a Step, done -/

/-- The channel write of agent a that puts ratio on ch (R91). -/
def imageOp (s : State) (w : ChannelId × BitVec 13) : BusOp :=
  .write s.busAddr (BitVec.ofNat 8 (baseRegister s.cfg w.1)) (imageBytes (imageOf w.2.toNat))

/-- One operation of agent a's Step of unit u, with its write acknowledged (R91, R115). -/
def opDone (a : Agent) (u : UnitId) (s : State) : StepOp → State
  | .record c ratio pol => s.setUnit u ((s.unit u).setLast c ⟨true, ratio, pol⟩)
  | .apply ch ratio =>
    { s.setChannel ch { s.channel ch with
        specRatio := ratio, specInv := false, image := imageOf ratio.toNat, imageValid := true } with
      trace := s.trace ++ [s.imageTransaction a ch (imageOf ratio.toNat) .ack]
      expander := s.expander.after (imageOp s (ch, ratio)) .ack
      answers := s.answers.tail }

/-- The operations done one after the other. -/
def opsDone (a : Agent) (u : UnitId) (ops : List StepOp) (s : State) : State := ops.foldl (opDone a u) s

section

variable (a : Agent) (u : UnitId) (ops : List StepOp) (s : State)

@[simp] theorem opsDone_nil : opsDone a u [] s = s := rfl

@[simp] theorem opsDone_cons (op : StepOp) : opsDone a u (op :: ops) s = opsDone a u ops (opDone a u s op) := rfl

/-- A Step changes nothing but channels, its unit, the bus and the answers. -/
theorem opsDone_frame : opsDone a u ops s = { s with
    channels := (opsDone a u ops s).channels, units := (opsDone a u ops s).units
    expander := (opsDone a u ops s).expander, trace := (opsDone a u ops s).trace
    answers := (opsDone a u ops s).answers } := by
  induction ops generalizing s with
  | nil => rfl
  | cons op ops ih => cases op <;> exact ih _

@[simp] theorem opsDone_cfg : (opsDone a u ops s).cfg = s.cfg := by rw [opsDone_frame]
@[simp] theorem opsDone_port : (opsDone a u ops s).port = s.port := by rw [opsDone_frame]
@[simp] theorem opsDone_busLock : (opsDone a u ops s).busLock = s.busLock := by rw [opsDone_frame]

theorem opsDone_trace : (opsDone a u ops s).trace =
    s.trace ++ (stepWrites ops).map fun w => s.imageTransaction a w.1 (imageOf w.2.toNat) .ack := by
  induction ops generalizing s with
  | nil => simp
  | cons op ops ih =>
    rw [opsDone_cons, ih]
    cases op with
    | record => rfl
    | apply ch ratio =>
      rw [stepWrites_apply, List.map_cons, ← List.singleton_append, ← List.append_assoc]
      rfl

theorem opsDone_answers {rs : List Answer} (h : s.answers = List.replicate (stepWrites ops).length .ack ++ rs) :
    (opsDone a u ops s).answers = rs := by
  induction ops generalizing s with
  | nil => simpa using h
  | cons op ops ih =>
    rw [opsDone_cons]
    cases op with
    | record => exact ih _ h
    | apply ch ratio =>
      refine ih _ ?_
      rw [stepWrites_apply, List.length_cons, List.replicate_succ, List.cons_append] at h
      simp only [opDone, h, List.tail_cons]

theorem opsDone_unit_of_ne {v : UnitId} (hv : v ≠ u) : (opsDone a u ops s).unit v = s.unit v := by
  induction ops generalizing s with
  | nil => rfl
  | cons op ops ih =>
    rw [opsDone_cons, ih]
    cases op with
    | record => exact State.setUnit_unit_ne _ _ _ _ (Ne.symm hv)
    | apply => rfl

/-- A channel that the Step does not write keeps everything. -/
theorem opsDone_channel_of_not_mem {ch : ChannelId} (h : ch ∉ (stepWrites ops).map Prod.fst) :
    (opsDone a u ops s).channel ch = s.channel ch := by
  induction ops generalizing s with
  | nil => rfl
  | cons op ops ih =>
    rw [opsDone_cons]
    cases op with
    | record => exact (ih _ h).trans (State.setUnit_channel ..)
    | apply d ratio =>
      rw [stepWrites_apply, List.map_cons, List.mem_cons, not_or] at h
      obtain ⟨hne, hrest⟩ := h
      exact (ih _ hrest).trans ((State.setChannel_channel ..).trans (if_neg (Ne.symm hne)))

/-- A channel that the Step writes once holds what it writes. -/
theorem opsDone_channel_of_mem (hnodup : ((stepWrites ops).map Prod.fst).Nodup) {w : ChannelId × BitVec 13}
    (hw : w ∈ stepWrites ops) : (opsDone a u ops s).channel w.1 = { s.channel w.1 with
      specRatio := w.2, specInv := false, image := imageOf w.2.toNat, imageValid := true } := by
  induction ops generalizing s with
  | nil => cases hw
  | cons op ops ih =>
    rw [opsDone_cons]
    cases op with
    | record c ratio pol =>
      rw [ih _ hnodup hw]
      simp [opDone]
    | apply d ratio =>
      rw [stepWrites_apply, List.map_cons, List.nodup_cons] at hnodup
      obtain ⟨hnotmem, hrest⟩ := hnodup
      rw [stepWrites_apply, List.mem_cons] at hw
      rcases hw with rfl | hw
      · rw [opsDone_channel_of_not_mem _ _ _ _ hnotmem]
        exact (State.setChannel_channel ..).trans (if_pos rfl)
      · have hmem : w.1 ∈ (stepWrites ops).map Prod.fst := List.mem_map_of_mem hw
        have hne : d ≠ w.1 := fun he => hnotmem (by rw [he]; exact hmem)
        rw [ih _ hrest hw]
        have hsame : (opDone a u s (.apply d ratio)).channel w.1 = s.channel w.1 :=
          (State.setChannel_channel ..).trans (if_neg hne)
        rw [hsame]

/-! ### The expander after a Step -/

/-- A register of a channel that the Step does not write keeps its content. -/
theorem opsDone_read_of_ne {x : Nat} (h : ∀ w ∈ stepWrites ops, ∀ k : Fin 4, x ≠ s.imageCell w.1 k.val) :
    (opsDone a u ops s).expander.read x = s.expander.read x := by
  induction ops generalizing s with
  | nil => rfl
  | cons op ops ih =>
    rw [opsDone_cons]
    cases op with
    | record => exact ih _ h
    | apply ch ratio =>
      rw [stepWrites_apply, List.forall_mem_cons] at h
      obtain ⟨hhead, hrest⟩ := h
      refine (ih (opDone a u s (.apply ch ratio)) hrest).trans (Memory.read_after_of_ne _ _ _ _ _ fun j hj he => ?_)
      exact hhead ⟨j, by simpa [imageBytes] using hj⟩ he.symm

/-- Registers of different channels are different cells (R54). -/
theorem imageCell_ne {s : State} (hlegal : s.cfg.Legal) {c d : ChannelId} (hne : c ≠ d) (i j : Fin 4) :
    s.imageCell c i.val ≠ s.imageCell d j.val := by
  have hc := baseRegister_lt s.cfg hlegal c
  have hd := baseRegister_lt s.cfg hlegal d
  have hapart := baseRegister_ne s.cfg hlegal c d hne i.val j.val i.isLt j.isLt
  unfold State.imageCell
  rw [cellAddr_ofNat _ _ _ (by omega), cellAddr_ofNat _ _ _ (by omega)]
  omega

/-- A channel that the Step writes has the image's bytes in its registers. -/
theorem opsDone_imageAnswered (hlegal : s.cfg.Legal) (hnodup : ((stepWrites ops).map Prod.fst).Nodup)
    {w : ChannelId × BitVec 13} (hw : w ∈ stepWrites ops) :
    s.ImageAnswered (opsDone a u ops s) w.1 (imageOf w.2.toNat) .ack := by
  induction ops generalizing s with
  | nil => cases hw
  | cons op ops ih =>
    rw [opsDone_cons]
    cases op with
    | record c ratio pol => exact ih _ hlegal hnodup hw
    | apply d ratio =>
      rw [stepWrites_apply, List.map_cons, List.nodup_cons] at hnodup
      obtain ⟨hnotmem, hrest⟩ := hnodup
      rw [stepWrites_apply, List.mem_cons] at hw
      rcases hw with rfl | hw
      · intro k
        rw [opsDone_read_of_ne]
        · exact imageAnswered_of_after (s := s) (t := opDone a u s (.apply d ratio))
            (w := ⟨d, imageOf ratio.toNat, true⟩) (r := .ack) rfl k
        · intro w hw j
          have hmem : w.1 ∈ (stepWrites ops).map Prod.fst := List.mem_map_of_mem hw
          exact imageCell_ne (c := d) hlegal (fun he => hnotmem (by rw [he]; exact hmem)) k j
      · exact ih _ hlegal hrest hw

theorem opsDone_onlyImagesOf : s.OnlyImagesOf (opsDone a u ops s) ((stepWrites ops).map Prod.fst) := fun _ hx =>
  opsDone_read_of_ne a u ops s fun _ hw k => hx _ (List.mem_map_of_mem hw) k

end

/-! ### The run by the port -/

section

variable {u : UnitId} {s : State}

theorem runOps_withPort (u : UnitId) (ops : List StepOp) (s : State) (p : PortState) :
    runOps u ops { s with port := p } = ((runOps u ops s).1, { (runOps u ops s).2 with port := p }) := by
  induction ops generalizing s with
  | nil => rfl
  | cons op ops ih =>
    cases op with
    | record c ratio pol => exact ih (s.setUnit u ((s.unit u).setLast c ⟨true, ratio, pol⟩))
    | apply ch ratio =>
      by_cases hd : (s.channel ch).disabled = true
      · have hd' : (State.channel { s with port := p } ch).disabled = true := hd
        rw [runOps, runOps, if_pos hd, if_pos hd']
        exact ih (s.setSpec ch ratio false)
      · have hd' : ¬(State.channel { s with port := p } ch).disabled = true := hd
        rw [runOps, runOps, if_neg hd, if_neg hd']
        rfl

/-- What NEXTSTEP goes on to does not depend on the write just done. -/
theorem portStepOps_withPort (ops : List StepOp) (p : PortState) :
    State.portStepOps { s with port := p } u ops = s.portStepOps u ops := by
  unfold State.portStepOps
  rw [runOps_withPort]
  rcases runOps u ops s with ⟨_ | job, t⟩ <;> rfl

theorem portStepOps_apply {ch : ChannelId} (henabled : (s.channel ch).disabled = false) (ratio : BitVec 13)
    (ops : List StepOp) : s.portStepOps u (.apply ch ratio :: ops) =
      { s.setSpec ch ratio false with port := .busy (.step u ⟨pendingApply ch ratio false, ops⟩) } := by
  rw [State.portStepOps, runOps, if_neg (by rw [henabled]; nofun)]

theorem move_port_step {job : StepJob} {r : Answer} {rs : List Answer} (hport : s.port = .busy (.step u job))
    (hlocked : job.write.locked = true) (hanswers : s.answers = r :: rs) :
    s.move .port = (written s .port job.write r rs).portStepAnswered u job.rest r := by
  rw [s.move_port_of_busy _ hport, State.portStep, State.portWrite, if_pos hlocked, writeImage_of_answers hanswers]

theorem move_port_step_lock {job : StepJob} (hport : s.port = .busy (.step u job)) (hunlocked : job.write.locked = false)
    (hfree : s.busLock = .free) :
    s.move .port = { s with busLock := .port, port := .busy (.step u ⟨job.write.lock, job.rest⟩) } := by
  rw [s.move_port_of_busy _ hport]
  simp [State.portStep, State.portWrite, hunlocked, State.lockThen, hfree, Agent.lock]

/-- The write that NEXTSTEP has come to, from Lock() to its answer. -/
theorem driveOver_portWrite {ch : ChannelId} (henabled : (s.channel ch).disabled = false) (ratio : BitVec 13)
    (ops : List StepOp) (hfree : s.busLock = .free) {r : Answer} {rs : List Answer} (hanswers : s.answers = r :: rs)
    (cs : List Choice) : (s.portStepOps u (.apply ch ratio :: ops)).driveOver (.port :: .port :: cs) =
      (State.portStepAnswered { written (s.setSpec ch ratio false) .port (pendingApply ch ratio false) r rs with
        port := .busy (.step u ⟨(pendingApply ch ratio false).lock, ops⟩) } u ops r).driveOver cs := by
  let s1 : State := { s.setSpec ch ratio false with port := .busy (.step u ⟨pendingApply ch ratio false, ops⟩) }
  let s2 : State := { s1 with busLock := .port, port := .busy (.step u ⟨(pendingApply ch ratio false).lock, ops⟩) }
  have hlock : s1.move .port = s2 :=
    move_port_step_lock (s := s1) (job := ⟨pendingApply ch ratio false, ops⟩) rfl rfl hfree
  have htransact := move_port_step (s := s2) (job := ⟨(pendingApply ch ratio false).lock, ops⟩) rfl rfl hanswers
  rw [portStepOps_apply henabled, State.driveOver_cons_of_busy s1 _ _ _ rfl, hlock,
    State.driveOver_cons_of_busy s2 _ _ _ rfl, htransact]
  rfl

theorem written_setSpec (ch : ChannelId) (ratio : BitVec 13) (hfree : s.busLock = .free) (a : Agent) {rs : List Answer}
    (hanswers : s.answers = .ack :: rs) :
    written (s.setSpec ch ratio false) a (pendingApply ch ratio false) .ack rs = opDone a u s (.apply ch ratio) := by
  have hset (c d : Channel) : (s.setChannel ch c).setChannel ch d = s.setChannel ch d := by simp [State.setChannel]
  have hchannel : (s.setSpec ch ratio false).setChannel ch
      (((s.setSpec ch ratio false).channel ch).answered (imageOf ratio.toNat) .ack) =
      s.setChannel ch { s.channel ch with
        specRatio := ratio, specInv := false, image := imageOf ratio.toNat, imageValid := true } := by
    rw [setSpec_channel_self, State.setSpec, hset]
    rfl
  simp only [written, pendingApply, effRatio, Bool.false_eq_true, if_false, hchannel, opDone, hanswers, ← hfree]
  rfl

theorem opDone_disabled (a : Agent) (op : StepOp) (d : ChannelId) :
    ((opDone a u s op).channel d).disabled = (s.channel d).disabled := by
  cases op with
  | record => rfl
  | apply ch ratio =>
    refine (congrArg Channel.disabled (State.setChannel_channel ..)).trans ?_
    split
    case isTrue h => rw [h]
    case isFalse => rfl

/-- NEXTSTEP's acknowledged writes, one after the other. -/
theorem driveOver_opsDone {pre : List StepOp} (ops : List StepOp)
    (henabled : ∀ w ∈ stepWrites pre, (s.channel w.1).disabled = false) (hfree : s.busLock = .free) {rs : List Answer}
    (hanswers : s.answers = List.replicate (stepWrites pre).length .ack ++ rs) (cs : List Choice) :
    (s.portStepOps u (pre ++ ops)).driveOver (List.replicate (2 * (stepWrites pre).length) .port ++ cs) =
      ((opsDone .port u pre s).portStepOps u ops).driveOver cs := by
  induction pre generalizing s with
  | nil => rfl
  | cons op pre ih =>
    rw [opsDone_cons]
    cases op with
    | record c ratio pol => exact ih henabled hfree hanswers
    | apply ch ratio =>
      rw [stepWrites_apply, List.forall_mem_cons] at henabled
      rw [stepWrites_apply, List.length_cons, List.replicate_succ, List.cons_append] at hanswers
      have hsched : List.replicate (2 * (stepWrites (.apply ch ratio :: pre)).length) Choice.port ++ cs =
          .port :: .port :: (List.replicate (2 * (stepWrites pre).length) .port ++ cs) := by
        rw [stepWrites_apply, List.length_cons, Nat.mul_succ]
        rfl
      rw [hsched, List.cons_append, driveOver_portWrite henabled.1 ratio _ hfree hanswers, State.portStepAnswered,
        if_pos rfl, portStepOps_withPort, written_setSpec (u := u) ch ratio hfree .port hanswers]
      refine ih (s := opDone .port u s (.apply ch ratio)) (fun w hw => ?_) hfree ?_
      · rw [opDone_disabled]; exact henabled.2 w hw
      · simp only [opDone, hanswers, List.tail_cons]

end

end Sys2Proof.StepRuns
end

section
/-! A Step run by its pacing loop alone, and the operations of one Step (R115, R128). -/

namespace Sys2Proof.LoopRuns

open Machine StepRelation StepFrames ChannelOwners BusTrace HostWrites PacedTurns StepOrder StepRuns

/-! ### The run by the pacing loop -/

section

variable {u : UnitId} {s : State}

theorem setUnit_setUnit (s : State) (u : UnitId) (x y : UnitState) : (s.setUnit u x).setUnit u y = s.setUnit u y := by
  simp [State.setUnit]

/-- The state with job j under way in unit u's loop. -/
def withJob (u : UnitId) (j : Option StepJob) (s : State) : State := s.setUnit u { s.unit u with stepJob := j }

theorem withJob_unit (j : Option StepJob) : (withJob u j s).unit u = { s.unit u with stepJob := j } :=
  State.setUnit_unit_self ..

theorem withJob_withJob (i j : Option StepJob) (l : BusLock) :
    withJob u j { withJob u i s with busLock := l } = withJob u j { s with busLock := l } := by
  have hunit : State.unit { withJob u i s with busLock := l } u = { s.unit u with stepJob := i } :=
    withJob_unit (s := s) i
  unfold withJob
  unfold withJob at hunit
  rw [hunit]
  exact setUnit_setUnit { s with busLock := l } u { s.unit u with stepJob := i } { s.unit u with stepJob := j }

theorem runOps_withJob (u : UnitId) (ops : List StepOp) (s : State) (j : Option StepJob) :
    runOps u ops (withJob u j s) = ((runOps u ops s).1, withJob u j (runOps u ops s).2) := by
  induction ops generalizing s with
  | nil => rfl
  | cons op ops ih =>
    cases op with
    | record c ratio pol =>
      have hset : (withJob u j s).setUnit u (((withJob u j s).unit u).setLast c ⟨true, ratio, pol⟩) =
          withJob u j (s.setUnit u ((s.unit u).setLast c ⟨true, ratio, pol⟩)) := by
        rw [withJob_unit, withJob, withJob, setUnit_setUnit, setUnit_setUnit, State.setUnit_unit_self]
        cases c <;> rfl
      rw [runOps, runOps, hset]
      exact ih _
    | apply ch ratio =>
      by_cases hd : (s.channel ch).disabled = true
      · have hd' : ((withJob u j s).channel ch).disabled = true := hd
        rw [runOps, runOps, if_pos hd, if_pos hd']
        exact ih (s.setSpec ch ratio false)
      · have hd' : ¬((withJob u j s).channel ch).disabled = true := hd
        rw [runOps, runOps, if_neg hd, if_neg hd']
        rfl

/-- What a paced Step goes on to does not depend on the write just done. -/
theorem loopStepOps_withJob (ops : List StepOp) (j : Option StepJob) :
    (withJob u j s).loopStepOps u ops = s.loopStepOps u ops := by
  unfold State.loopStepOps
  rw [runOps_withJob]
  rcases runOps u ops s with ⟨_ | job, t⟩ <;> simp only [withJob_unit] <;> exact setUnit_setUnit ..

theorem loopStepOps_apply {ch : ChannelId} (henabled : (s.channel ch).disabled = false) (ratio : BitVec 13)
    (ops : List StepOp) : s.loopStepOps u (.apply ch ratio :: ops) =
      withJob u (some ⟨pendingApply ch ratio false, ops⟩) (s.setSpec ch ratio false) := by
  rw [State.loopStepOps, runOps, if_neg (by rw [henabled]; nofun)]
  rfl

theorem move_loop_lock {job : StepJob} (hrun : (s.unit u).run = .running) (hjob : (s.unit u).stepJob = some job)
    (hunlocked : job.write.locked = false) (hfree : s.busLock = .free) :
    s.move (.loop u) = withJob u (some ⟨job.write.lock, job.rest⟩) { s with busLock := .loop u } := by
  rw [State.move_loop, State.loopStep]
  simp only [hrun, if_true, hjob, State.loopWrite, hunlocked, State.lockThen, hfree, Agent.lock]
  rfl

/-- The write that a paced Step has come to, from Lock() to its acknowledgement. -/
theorem foldl_loopWrite {ch : ChannelId} (henabled : (s.channel ch).disabled = false) (ratio : BitVec 13)
    (ops : List StepOp) (hfree : s.busLock = .free) (hrun : (s.unit u).run = .running) {rs : List Answer}
    (hanswers : s.answers = .ack :: rs) :
    ((s.loopStepOps u (.apply ch ratio :: ops)).move (.loop u)).move (.loop u) =
      (opDone (.loop u) u s (.apply ch ratio)).loopStepOps u ops := by
  let s1 : State := withJob u (some ⟨pendingApply ch ratio false, ops⟩) (s.setSpec ch ratio false)
  let s2 : State := withJob u (some ⟨(pendingApply ch ratio false).lock, ops⟩)
    { s.setSpec ch ratio false with busLock := .loop u }
  have hs1 : s1.unit u = { s.unit u with stepJob := some ⟨pendingApply ch ratio false, ops⟩ } := by
    simp only [s1, withJob_unit, State.setSpec_unit]
  have hs2 : s2.unit u = { s.unit u with stepJob := some ⟨(pendingApply ch ratio false).lock, ops⟩ } := by
    simp only [s2, withJob_unit]
    rfl
  have hlock : s1.move (.loop u) = s2 := by
    have hmove := move_loop_lock (s := s1) (job := ⟨pendingApply ch ratio false, ops⟩)
      ((congrArg UnitState.run hs1).trans hrun) (congrArg UnitState.stepJob hs1) rfl hfree
    exact hmove.trans (withJob_withJob ..)
  have htransact := move_loop_write (s := s2) ((congrArg UnitState.run hs2).trans hrun)
    (job := ⟨(pendingApply ch ratio false).lock, ops⟩) (congrArg UnitState.stepJob hs2) rfl hanswers
  rw [loopStepOps_apply henabled, hlock, htransact, State.loopStepAnswered, if_pos rfl]
  have hwritten : written s2 (.loop u) (pendingApply ch ratio false).lock .ack rs =
      withJob u (some ⟨(pendingApply ch ratio false).lock, ops⟩)
        (written (s.setSpec ch ratio false) (.loop u) (pendingApply ch ratio false) .ack rs) := rfl
  rw [hwritten, loopStepOps_withJob, written_setSpec (u := u) ch ratio hfree (.loop u) hanswers]

/-- A paced Step's acknowledged writes, one after the other. -/
theorem foldl_opsDone {pre : List StepOp} (ops : List StepOp)
    (henabled : ∀ w ∈ stepWrites pre, (s.channel w.1).disabled = false) (hfree : s.busLock = .free)
    (hrun : (s.unit u).run = .running) {rs : List Answer}
    (hanswers : s.answers = List.replicate (stepWrites pre).length .ack ++ rs) :
    (List.replicate (2 * (stepWrites pre).length) (Choice.loop u)).foldl State.move (s.loopStepOps u (pre ++ ops)) =
      (opsDone (.loop u) u pre s).loopStepOps u ops := by
  induction pre generalizing s with
  | nil => rfl
  | cons op pre ih =>
    rw [opsDone_cons]
    cases op with
    | record c ratio pol =>
      refine ih (s := opDone (.loop u) u s (.record c ratio pol)) henabled hfree ?_ hanswers
      refine (congrArg UnitState.run (State.setUnit_unit_self ..)).trans ?_
      cases c <;> exact hrun
    | apply ch ratio =>
      rw [stepWrites_apply, List.forall_mem_cons] at henabled
      rw [stepWrites_apply, List.length_cons, List.replicate_succ, List.cons_append] at hanswers
      have hsched : List.replicate (2 * (stepWrites (.apply ch ratio :: pre)).length) (Choice.loop u) =
          .loop u :: .loop u :: List.replicate (2 * (stepWrites pre).length) (.loop u) := by
        rw [stepWrites_apply, List.length_cons, Nat.mul_succ]
        rfl
      rw [hsched, List.foldl_cons, List.foldl_cons, List.cons_append,
        foldl_loopWrite henabled.1 ratio _ hfree hrun hanswers]
      refine ih (s := opDone (.loop u) u s (.apply ch ratio)) (fun w hw => ?_) hfree hrun ?_
      · rw [opDone_disabled]; exact henabled.2 w hw
      · simp only [opDone, hanswers, List.tail_cons]

end

/-! ### The operations of one Step -/

/-- The operation that asks for a write. -/
def writeOp (w : ChannelId × BitVec 13) : StepOp := .apply w.1 w.2

@[simp] theorem stepWrites_map_writeOp (ws : List (ChannelId × BitVec 13)) : stepWrites (ws.map writeOp) = ws := by
  induction ws with
  | nil => rfl
  | cons w ws ih => exact congrArg (w :: ·) ih

/-- Operations that only write are those of their writes. -/
def OnlyWrites (ops : List StepOp) : Prop := (stepWrites ops).map writeOp = ops

theorem OnlyWrites.append {a b : List StepOp} (ha : OnlyWrites a) (hb : OnlyWrites b) : OnlyWrites (a ++ b) := by
  unfold OnlyWrites at ha hb ⊢
  rw [stepWrites_append, List.map_append, ha, hb]

theorem OnlyWrites.ite {a : List StepOp} (ha : OnlyWrites a) (p : Prop) [Decidable p] :
    OnlyWrites (if p then a else []) := by
  split
  · exact ha
  · exact rfl

theorem onlyWrites_single (ch : ChannelId) (ratio : BitVec 13) : OnlyWrites [.apply ch ratio] := rfl

/-- A coil's part of a Step is its writes and then its record in LAST (R115). -/
theorem coilOps_eq (t : PortTriple) (last : Last) (c : Coil) (cur : Int) (pf : Nat) : coilOps t last c cur pf =
    (stepWrites (coilOps t last c cur pf)).map writeOp ++
      [.record c (BitVec.ofNat 13 (coilRatio cur pf)) (polOf cur)] := by
  have hoff (pol old) : OnlyWrites (offWrites t pol old) :=
    ((onlyWrites_single ..).ite _).append ((onlyWrites_single ..).ite _)
  have hon (pol old) : OnlyWrites (onWrites t pol old) :=
    ((onlyWrites_single ..).ite _).append ((onlyWrites_single ..).ite _)
  have hwrites := (((hoff (polOf cur).targets (if last.valid then some last.pol.targets else none)).append
    (hon (polOf cur).targets (if last.valid then some last.pol.targets else none))).ite
      (last.valid = false ∨ last.pol ≠ polOf cur)).append
    ((onlyWrites_single t.pwm (BitVec.ofNat 13 (coilRatio cur pf))).ite
      (last.valid = false ∨ last.ratio ≠ BitVec.ofNat 13 (coilRatio cur pf)))
  unfold coilOps
  dsimp only
  rw [stepWrites_append, stepWrites_record, stepWrites_nil, List.append_nil, hwrites]

section

variable (a : Agent) (u : UnitId) (s : State)

theorem opsDone_append (xs ys : List StepOp) : opsDone a u (xs ++ ys) s = opsDone a u ys (opsDone a u xs s) :=
  List.foldl_append ..

/-- Writes leave every unit as it was. -/
theorem opsDone_writes_units (ws : List (ChannelId × BitVec 13)) :
    (opsDone a u (ws.map writeOp) s).units = s.units := by
  induction ws generalizing s with
  | nil => rfl
  | cons w ws ih => exact ih _

theorem opsDone_coilOps_unit (t : PortTriple) (last : Last) (c : Coil) (cur : Int) (pf : Nat) :
    (opsDone a u (coilOps t last c cur pf) s).unit u =
      (s.unit u).setLast c ⟨true, BitVec.ofNat 13 (coilRatio cur pf), polOf cur⟩ := by
  have hunit := congrArg (fun us : Vector UnitState 2 => us[u.val])
    (opsDone_writes_units a u s (stepWrites (coilOps t last c cur pf)))
  rw [coilOps_eq, opsDone_append, opsDone_cons, opsDone_nil]
  refine (State.setUnit_unit_self ..).trans ?_
  exact congrArg (fun x => UnitState.setLast x c _) hunit

end

end Sys2Proof.LoopRuns
end

section
/-! NEXTSTEP and a due paced Step with every write acknowledged, and NEXTSTEP with a write that fails (R115, R121,
R128). -/

namespace Sys2Proof.StepCommands

open Machine StepRelation StepFrames ChannelOwners BusTrace HostWrites PacedTurns StepOrder StepRuns LoopRuns

/-! ### The unit of a Step -/

/-- A unit whose INDEX has moved to idx. -/
def movedTo (x : UnitState) (idx : Nat) (run : RunState) : UnitState :=
  { x with index := BitVec.ofNat 8 idx, run := run }

section

variable {x : UnitState} {idx : Nat}

theorem nextIndex_eq (dir : Dir) (hidx : idx = (x.index.toNat +
    (if dir = .forward then 1 else tableLen x.style x.nms.toNat - 1)) % tableLen x.style x.nms.toNat) :
    nextIndex x dir = BitVec.ofNat 8 idx := by
  rw [hidx]
  cases dir <;> rfl

theorem index_lt (hnms : nmsLegal x.style x.nms.toNat = true) {k : Nat}
    (hidx : idx = (x.index.toNat + k) % tableLen x.style x.nms.toNat) : idx < tableLen x.style x.nms.toNat := by
  have hlen := (tableLen_mem x.style x.nms.toNat hnms).1
  exact hidx ▸ Nat.mod_lt _ (by omega)

theorem index_toNat (hnms : nmsLegal x.style x.nms.toNat = true) (hidx : idx < tableLen x.style x.nms.toNat) :
    (BitVec.ofNat 8 idx).toNat = idx := by
  have hlen := (tableLen_mem x.style x.nms.toNat hnms).2
  rw [BitVec.toNat_ofNat]
  omega

theorem entryOf_movedTo (hready : x.ready = true) (hnms : nmsLegal x.style x.nms.toNat = true)
    (hidx : idx < tableLen x.style x.nms.toNat) (run : RunState) :
    entryOf (movedTo x idx run) = tableEntry x.style x.nms.toNat idx := by
  have htoNat := index_toNat hnms hidx
  have hentry := entryOf_eq (movedTo x idx run) hready hnms (by
    simp only [movedTo, htoNat]
    exact hidx)
  simpa only [movedTo, htoNat] using hentry

end

/-- The operations of a Step of unit u to entry e. -/
def stepTo (s : State) (u : UnitId) (e : Int × Int) : List StepOp :=
  coilOps (s.coilTriple u .b) (s.unit u).lastB .b e.2 (s.unit u).pf.toNat ++
  coilOps (s.coilTriple u .a) (s.unit u).lastA .a e.1 (s.unit u).pf.toNat

section

variable {s : State} {u : UnitId} {idx : Nat} {e : Int × Int}

theorem stepOps_movedTo (run : RunState) (he : entryOf (movedTo (s.unit u) idx run) = e) :
    (s.setUnit u (movedTo (s.unit u) idx run)).stepOps u = stepTo s u e := by
  have hports (c : Coil) : (s.setUnit u (movedTo (s.unit u) idx run)).coilTriple u c = s.coilTriple u c := by
    unfold State.coilTriple
    rw [State.setUnit_unit_self]
    cases c <;> rfl
  rw [State.stepOps, hports, hports, State.setUnit_unit_self, he]
  rfl

theorem stepTo_enabled (ho : s.OwnershipOk) (hbound : (s.unit u).bound = true) :
    ∀ w ∈ stepWrites (stepTo s u e), (s.channel w.1).disabled = false := by
  intro w hw
  refine (owned_of_ownershipOk ho).not_disabled hbound ?_
  rw [stepTo, stepWrites_append, List.mem_append] at hw
  rcases hw with hb | ha
  · exact List.mem_append_left _ (coilOps_on _ _ _ _ _ w hb)
  · exact List.mem_append_right _ (coilOps_on _ _ _ _ _ w ha)

/-- A whole Step records both coils (R115). -/
theorem opsDone_stepTo_unit (a : Agent) (t : State) : (opsDone a u (stepTo s u e) t).unit u =
    { t.unit u with
      lastA := ⟨true, BitVec.ofNat 13 (coilRatio e.1 (s.unit u).pf.toNat), polOf e.1⟩
      lastB := ⟨true, BitVec.ofNat 13 (coilRatio e.2 (s.unit u).pf.toNat), polOf e.2⟩ } := by
  rw [stepTo, opsDone_append, opsDone_coilOps_unit, opsDone_coilOps_unit]
  rfl

end

/-- What a Step's acknowledged writes leave of the other units, the channels and the expander. -/
structure StepWrote (s t : State) (u : UnitId) (ws : List (ChannelId × BitVec 13)) : Prop where
  others : ∀ v, v ≠ u → t.unit v = s.unit v
  written : ∀ w ∈ ws, t.channel w.1 =
      { s.channel w.1 with specRatio := w.2, specInv := false, image := imageOf w.2.toNat, imageValid := true } ∧
    s.ImageAnswered t w.1 (imageOf w.2.toNat) .ack
  kept : ∀ ch, ch ∉ ws.map Prod.fst → t.channel ch = s.channel ch
  only : s.OnlyImagesOf t (ws.map Prod.fst)

theorem stepWrote_opsDone {s : State} {u : UnitId} {ops : List StepOp} (hlegal : s.cfg.Legal)
    (hnodup : ((stepWrites ops).map Prod.fst).Nodup) (a : Agent) (x : UnitState) :
    StepWrote s (opsDone a u ops (s.setUnit u x)) u (stepWrites ops) where
  others _ hv := (opsDone_unit_of_ne a u ops _ hv).trans (State.setUnit_unit_ne _ _ _ _ (Ne.symm hv))
  written _ hw := ⟨opsDone_channel_of_mem a u ops (s.setUnit u x) hnodup hw,
    opsDone_imageAnswered a u ops (s.setUnit u x) hlegal hnodup hw⟩
  kept _ hch := opsDone_channel_of_not_mem a u ops (s.setUnit u x) hch
  only := opsDone_onlyImagesOf a u ops (s.setUnit u x)

/-! ### NEXTSTEP -/

section

variable {s : State} {n : Nat} {u : UnitId} {dir : Dir} {idx : Nat} {e : Int × Int}

/-- NEXTSTEP past its checks: INDEX moves, and the Step runs (R121). -/
theorem exec_nextstep (hlegal : (s.unit u).Legal) (hu : u.val = n) (hlt : n < s.cfg.units.toNat)
    (hbound : (s.unit u).bound = true) (hrun : (s.unit u).run ≠ .running) (hready : (s.unit u).ready = true)
    (hbus : (s.unit u).busErr = false)
    (hidx : idx = ((s.unit u).index.toNat +
      (if dir = .forward then 1 else tableLen (s.unit u).style (s.unit u).nms.toNat - 1)) %
        tableLen (s.unit u).style (s.unit u).nms.toNat)
    (he : e = tableEntry (s.unit u).style (s.unit u).nms.toNat idx) :
    exec (.nextstep n dir) s = .next ((s.setUnit u (movedTo (s.unit u) idx (s.unit u).handStep.run)).portStepOps u
      (stepTo s u e)).drive := by
  obtain ⟨-, -, -, hlegalReady, -, -⟩ := hlegal
  obtain ⟨hnms, -⟩ := hlegalReady hready
  have hmoved : (s.setUnit u (s.unit u).handStep).advanceIndex u dir =
      s.setUnit u (movedTo (s.unit u) idx (s.unit u).handStep.run) := by
    have hnext : nextIndex (s.unit u).handStep dir = BitVec.ofNat 8 idx := nextIndex_eq (x := s.unit u) dir hidx
    rw [State.advanceIndex, State.setUnit_unit_self, hnext, setUnit_setUnit]
    rfl
  have hentry := entryOf_movedTo hready hnms (index_lt hnms hidx) (s.unit u).handStep.run
  rw [exec, execNextstep, ImmediateCommands.withUnit_of_bound hu hlt hbound,
    HostChannel.checked_of_head_none ((s.needIdle_eq_none u).2 hrun),
    HostChannel.checked_of_head_none ((s.needReady_eq_none u).2 hready),
    HostChannel.checked_of_head_none ((s.needNoBusErr_eq_none u).2 hbus), ImmediateCommands.checked_nil]
  simp only [hmoved]
  rw [stepOps_movedTo _ (hentry.trans he.symm)]

theorem portStepOps_nil (s : State) (u : UnitId) :
    s.portStepOps u [] = s.respondOk (packValue [(0, (s.unit u).index.toNat)]) := rfl

/-- Settles O38: the run comes to the state in which every operation is done, and answers its INDEX. -/
theorem nextstepAppliesTheNextEntry : Obligations.NextstepAppliesTheNextEntry := by
  intro s n u dir idx e ws cs rs hcfg ho hlegal hu hlt hbound hrun hready hbus hfree hidx he hws hsched hanswers
  let s1 := s.setUnit u (movedTo (s.unit u) idx (s.unit u).handStep.run)
  let d := opsDone .port u (stepTo s u e) s1
  have hws : stepWrites (stepTo s u e) = ws := hws.symm
  have hexec := exec_nextstep hlegal hu hlt hbound hrun hready hbus hidx he
  have hdrive := driveOver_opsDone (u := u) (s := s1) (pre := stepTo s u e) [] (stepTo_enabled ho hbound) hfree
    (rs := rs) (by rw [hws]; exact hanswers) cs
  have hunit := opsDone_stepTo_unit (s := s) (u := u) (e := e) .port s1
  rw [State.setUnit_unit_self] at hunit
  obtain ⟨-, -, -, hlegalReady, -, -⟩ := hlegal
  obtain ⟨hnms, -⟩ := hlegalReady hready
  have hindex : (d.unit u).index.toNat = idx :=
    (congrArg (fun x => x.index.toNat) hunit).trans (index_toNat hnms (index_lt hnms hidx))
  have hend : (d.portStepOps u []).driveOver cs = { d.respondOk (BitVec.ofNat 32 idx) with sched := cs } := by
    rw [portStepOps_nil, hindex, StatusWords.packValue_single]
    exact State.driveOver_of_idle _ _ rfl
  have hwrote := stepWrote_opsDone (u := u) (ops := stepTo s u e) hcfg (nodup_stepWrites hcfg ho hbound _ _ e.1 e.2 _)
    .port (movedTo (s.unit u) idx (s.unit u).handStep.run)
  rw [List.append_nil, hws] at hdrive
  rw [hws] at hwrote
  refine ⟨_, hexec.trans (congrArg _ ((PrescaleRuns.drive_of_sched ?_).trans (hdrive.trans hend))), ?_, hunit,
    hwrote.others, hwrote.written, hwrote.kept, hwrote.only⟩
  · exact (s1.portStepOps_sameTurns u (stepTo s u e)).1.trans hsched
  · have htrace := opsDone_trace .port u (stepTo s u e) s1
    rw [hws] at htrace
    refine (congrArg (fun t => { State.respondOk t (BitVec.ofNat 32 idx) with sched := cs })
      (opsDone_frame ..)).trans ?_
    have hanswersDone := opsDone_answers .port u (stepTo s u e) s1 (rs := rs) (by rw [hws]; exact hanswers)
    rw [htrace, hanswersDone]
    rfl

/-! ### The paced Step -/

/-- The loop's turn at a due deadline: INDEX moves, and the Step begins (R127, R128). -/
theorem move_loop_due (hlegal : (s.unit u).Legal) (hrun : (s.unit u).run = .running)
    (hjob : (s.unit u).stepJob = none) (hphase : (s.unit u).phase = .spin)
    (hseen : ¬((s.unit u).cancelReq = true ∧ (s.unit u).cooling = false)) (hdue : (s.unit u).deadline ≤ s.time)
    (hidx : idx = ((s.unit u).index.toNat +
      (if (s.unit u).dir = .forward then 1 else tableLen (s.unit u).style (s.unit u).nms.toNat - 1)) %
        tableLen (s.unit u).style (s.unit u).nms.toNat)
    (he : e = tableEntry (s.unit u).style (s.unit u).nms.toNat idx) :
    s.move (.loop u) = (s.setUnit u (movedTo (s.unit u) idx (s.unit u).run)).loopStepOps u (stepTo s u e) := by
  obtain ⟨-, -, -, hlegalReady, hlegalRun, -⟩ := hlegal
  obtain ⟨-, hready, -, -⟩ := hlegalRun hrun
  obtain ⟨hnms, -⟩ := hlegalReady hready
  have hentry := entryOf_movedTo hready hnms (index_lt hnms hidx) (s.unit u).run
  have hmoved : s.advanceIndex u (s.unit u).dir = s.setUnit u (movedTo (s.unit u) idx (s.unit u).run) := by
    rw [State.advanceIndex, nextIndex_eq _ hidx]
    rfl
  rw [PacingLoop.move_loop_spin hrun hjob hphase,
    PacingLoop.spin_of_due (by rw [PacingLoop.cancelSeen_iff]; exact hseen) hdue, State.stepDue, hmoved,
    stepOps_movedTo _ (hentry.trans he.symm)]

theorem loopStepOps_nil (s : State) (u : UnitId) : s.loopStepOps u [] = s.setUnit u (s.unit u).stepDone := rfl

/-- Settles O54: the turn that finds the deadline due, then two turns for each write. -/
theorem pacedStepAppliesTheNextEntry : Obligations.PacedStepAppliesTheNextEntry := by
  intro s t u idx e ws rs hcfg ho hlegal hfree hrun hjob hphase hseen hdue hidx he hws hanswers ht
  let s1 := s.setUnit u (movedTo (s.unit u) idx (s.unit u).run)
  let d := opsDone (.loop u) u (stepTo s u e) s1
  have hws : stepWrites (stepTo s u e) = ws := hws.symm
  obtain ⟨hbound, -⟩ := hlegal.2.2.2.2.1 hrun
  have hdone := foldl_opsDone (u := u) (s := s1) (pre := stepTo s u e) [] (stepTo_enabled ho hbound) hfree
    ((congrArg UnitState.run (State.setUnit_unit_self ..)).trans hrun) (rs := rs) (by rw [hws]; exact hanswers)
  rw [List.append_nil, hws, loopStepOps_nil] at hdone
  rw [List.replicate_succ, List.foldl_cons, move_loop_due hlegal hrun hjob hphase hseen hdue hidx he, hdone] at ht
  have hunit := opsDone_stepTo_unit (s := s) (u := u) (e := e) (.loop u) s1
  rw [State.setUnit_unit_self] at hunit
  have hwrote := stepWrote_opsDone (u := u) (ops := stepTo s u e) hcfg (nodup_stepWrites hcfg ho hbound _ _ e.1 e.2 _)
    (.loop u) (movedTo (s.unit u) idx (s.unit u).run)
  rw [hws] at hwrote
  subst ht
  refine ⟨?_, ?_, fun v hv => (State.setUnit_unit_ne _ _ _ _ (Ne.symm hv)).trans (hwrote.others v hv), hwrote.written,
    hwrote.kept, hwrote.only⟩
  · have htrace := opsDone_trace (.loop u) u (stepTo s u e) s1
    rw [hws] at htrace
    have hanswersDone := opsDone_answers (.loop u) u (stepTo s u e) s1 (rs := rs) (by rw [hws]; exact hanswers)
    refine (congrArg (fun t => State.setUnit t u (d.unit u).stepDone) (opsDone_frame ..)).trans ?_
    rw [htrace, hanswersDone]
    rfl
  · rw [State.setUnit_unit_self, hunit, UnitState.stepDone]
    rw [← hjob]
    rfl

/-! ### NEXTSTEP with a write that fails -/

/-- The operations before a write of the Step: coil B's record is one of them when coil B's writes all are. -/
theorem stepTo_split {wsB wsA done later : List (ChannelId × BitVec 13)} {w : ChannelId × BitVec 13}
    (hB : wsB = stepWrites (coilOps (s.coilTriple u .b) (s.unit u).lastB .b e.2 (s.unit u).pf.toNat))
    (hA : wsA = stepWrites (coilOps (s.coilTriple u .a) (s.unit u).lastA .a e.1 (s.unit u).pf.toNat))
    (h : wsB ++ wsA = done ++ w :: later) :
    ∃ pre rest, stepTo s u e = pre ++ .apply w.1 w.2 :: rest ∧ stepWrites pre = done ∧
      ∀ a t, (opsDone a u pre t).unit u = { t.unit u with
        lastB := if wsB.length ≤ done.length then
            ⟨true, BitVec.ofNat 13 (coilRatio e.2 (s.unit u).pf.toNat), polOf e.2⟩
          else (t.unit u).lastB } := by
  have hopsB := coilOps_eq (s.coilTriple u .b) (s.unit u).lastB .b e.2 (s.unit u).pf.toNat
  have hopsA := coilOps_eq (s.coilTriple u .a) (s.unit u).lastA .a e.1 (s.unit u).pf.toNat
  rw [← hB] at hopsB
  rw [← hA] at hopsA
  have hafterB {dA lA : List (ChannelId × BitVec 13)} (hdone : done = wsB ++ dA) (hlater : wsA = dA ++ w :: lA) :
      ∃ pre rest, stepTo s u e = pre ++ .apply w.1 w.2 :: rest ∧ stepWrites pre = done ∧
        ∀ a t, (opsDone a u pre t).unit u = { t.unit u with
          lastB := if wsB.length ≤ done.length then
              ⟨true, BitVec.ofNat 13 (coilRatio e.2 (s.unit u).pf.toNat), polOf e.2⟩
            else (t.unit u).lastB } := by
    refine ⟨coilOps (s.coilTriple u .b) (s.unit u).lastB .b e.2 (s.unit u).pf.toNat ++ dA.map writeOp,
      lA.map writeOp ++ [.record .a (BitVec.ofNat 13 (coilRatio e.1 (s.unit u).pf.toNat)) (polOf e.1)], ?_, ?_,
      fun a t => ?_⟩
    · rw [stepTo, hopsA, hlater, List.map_append, List.append_assoc, List.append_assoc]
      rfl
    · rw [stepWrites_append, ← hB, stepWrites_map_writeOp, hdone]
    · rw [opsDone_append, if_pos (by rw [hdone, List.length_append]; omega)]
      have hunits := opsDone_writes_units a u (opsDone a u (coilOps (s.coilTriple u .b) (s.unit u).lastB .b e.2
        (s.unit u).pf.toNat) t) dA
      exact (congrArg (fun us : Vector UnitState 2 => us[u.val]) hunits).trans (opsDone_coilOps_unit ..)
  rcases List.append_eq_append_iff.1 h with ⟨dA, hdone, hlater⟩ | ⟨lB, hwsB, hlater⟩
  · exact hafterB hdone hlater
  · cases lB with
    | nil => exact hafterB (dA := []) (by rw [hwsB, List.append_nil, List.append_nil]) hlater.symm
    | cons v lB =>
      obtain ⟨rfl, rfl⟩ := List.cons.inj hlater
      refine ⟨done.map writeOp, lB.map writeOp ++
        .record .b (BitVec.ofNat 13 (coilRatio e.2 (s.unit u).pf.toNat)) (polOf e.2) ::
          coilOps (s.coilTriple u .a) (s.unit u).lastA .a e.1 (s.unit u).pf.toNat, ?_, stepWrites_map_writeOp done,
        fun a t => ?_⟩
      · rw [stepTo, hopsB, hwsB, List.map_append, List.append_assoc, List.append_assoc]
        simp [writeOp]
      · rw [if_neg (by rw [hwsB, List.length_append, List.length_cons]; omega)]
        exact congrArg (fun us : Vector UnitState 2 => us[u.val]) (opsDone_writes_units a u t done)

/-- NEXTSTEP of unit u ended by answer r to the write of ratio to ch. -/
def handStepFailed (s : State) (u : UnitId) (ch : ChannelId) (ratio : BitVec 13) (r : Answer) (rs : List Answer)
    (cs : List Choice) : State :=
  { (s.setChannel ch { s.channel ch with specRatio := ratio, specInv := false, imageValid := false }).setUnit u
      { (s.unit u).invalidateLast with busErr := true } with
    expander := [], trace := s.trace ++ [s.imageTransaction .port ch (imageOf ratio.toNat) r]
    responses := s.responses ++ [responseTo r 0], port := .idle, sched := cs, answers := rs }

theorem driveOver_failedWrite {ch : ChannelId} (henabled : (s.channel ch).disabled = false) (ratio : BitVec 13)
    (ops : List StepOp) (hfree : s.busLock = .free) {r : Answer} {rs : List Answer} (hanswers : s.answers = r :: rs)
    (hr : r ≠ .ack) (cs : List Choice) :
    (s.portStepOps u (.apply ch ratio :: ops)).driveOver (.port :: .port :: cs) =
      handStepFailed s u ch ratio r rs cs := by
  have hset (c d : Channel) : (s.setChannel ch c).setChannel ch d = s.setChannel ch d := by simp [State.setChannel]
  have hchannel : (s.setSpec ch ratio false).setChannel ch
      (((s.setSpec ch ratio false).channel ch).answered (imageOf ratio.toNat) r) =
      s.setChannel ch { s.channel ch with specRatio := ratio, specInv := false, imageValid := false } := by
    rw [setSpec_channel_self, State.setSpec, hset, answered_eq, if_neg hr, decide_eq_false hr]
  rw [driveOver_portWrite henabled ratio ops hfree hanswers, State.portStepAnswered, if_neg hr,
    conclude_of_lock_elsewhere (by nofun), State.driveOver_of_idle _ _ rfl]
  simp only [written, pendingApply, effRatio, Bool.false_eq_true, if_false, hchannel, handStepFailed, ← hfree,
    State.failStep, State.forgetUnit, Memory.after_of_ne_ack _ _ _ hr]
  rfl

/-- Settles O39: the run to the write that fails, and the failure. -/
theorem nextstepWriteFailure : Obligations.NextstepWriteFailure := by
  intro s n u dir idx e wsB wsA done later w r cs rs hcfg ho hlegal hu hlt hbound hrun hready hbus hfree hidx he hwsB
    hwsA hsplit hr hsched hanswers
  obtain ⟨pre, rest, hops, hpre, hunit⟩ := stepTo_split hwsB hwsA hsplit
  let s1 := s.setUnit u (movedTo (s.unit u) idx (s.unit u).handStep.run)
  let d := opsDone .port u pre s1
  have hexec := exec_nextstep hlegal hu hlt hbound hrun hready hbus hidx he
  have henabled := stepTo_enabled (e := e) ho hbound
  have hnodup := nodup_stepWrites hcfg ho hbound (s.unit u).lastA (s.unit u).lastB e.1 e.2 (s.unit u).pf.toNat
  rw [← stepTo, hops, stepWrites_append, hpre, stepWrites_apply, List.map_append, List.map_cons] at hnodup
  rw [hops, stepWrites_append, hpre, stepWrites_apply] at henabled
  obtain ⟨hdone, -, hdisjoint⟩ := List.nodup_append'.1 hnodup
  have hnotmem : w.1 ∉ (stepWrites pre).map Prod.fst := fun hmem =>
    hdisjoint (hpre ▸ hmem) List.mem_cons_self
  have hwkept : d.channel w.1 = s.channel w.1 := opsDone_channel_of_not_mem .port u pre s1 hnotmem
  have hwenabled : (d.channel w.1).disabled = false := by
    rw [hwkept]
    exact henabled w (List.mem_append_right _ List.mem_cons_self)
  have hwritten := driveOver_opsDone (u := u) (s := s1) (pre := pre) (.apply w.1 w.2 :: rest)
    (fun v hv => henabled v (List.mem_append_left _ (hpre ▸ hv))) hfree (rs := r :: rs) (by rw [hpre]; exact hanswers)
    (.port :: .port :: cs)
  have hfailed := driveOver_failedWrite (s := d) (u := u) hwenabled w.2 rest ((opsDone_busLock ..).trans hfree)
    (opsDone_answers .port u pre s1 (by rw [hpre]; exact hanswers)) hr cs
  have hsched1 : (s1.portStepOps u (stepTo s u e)).sched =
      List.replicate (2 * (stepWrites pre).length) .port ++ .port :: .port :: cs := by
    rw [(s1.portStepOps_sameTurns u (stepTo s u e)).1, hpre]
    refine hsched.trans ?_
    rw [Nat.mul_succ, List.replicate_add, List.append_assoc]
    rfl
  refine ⟨_, hexec.trans (congrArg _ ((PrescaleRuns.drive_of_sched hsched1).trans
    ((by rw [hops]; exact hwritten : _ = _).trans hfailed))), ?_, ?_, ?_, ?_, ?_, ?_, ?_⟩
  · have htrace := opsDone_trace .port u pre s1
    rw [hpre] at htrace
    refine (congrArg (fun t => handStepFailed t u w.1 w.2 r rs cs) (opsDone_frame ..)).trans ?_
    simp only [handStepFailed, htrace]
    rfl
  · refine (State.setUnit_unit_self ..).trans ?_
    rw [hunit, State.setUnit_unit_self]
    split <;> rfl
  · intro v hv
    refine (State.setUnit_unit_ne _ _ _ _ (Ne.symm hv)).trans ?_
    exact (opsDone_unit_of_ne .port u pre s1 hv).trans (State.setUnit_unit_ne _ _ _ _ (Ne.symm hv))
  · refine (State.setChannel_channel ..).trans ((if_pos rfl).trans ?_)
    rw [hwkept]
  · intro v hv
    have hne : w.1 ≠ v.1 := fun h => hnotmem (by rw [h, hpre]; exact List.mem_map_of_mem hv)
    refine (State.setChannel_channel ..).trans ((if_neg hne).trans ?_)
    exact opsDone_channel_of_mem .port u pre s1 (hpre ▸ hdone) (hpre ▸ hv)
  · intro ch hne hch
    refine (State.setChannel_channel ..).trans ((if_neg (Ne.symm hne)).trans ?_)
    exact opsDone_channel_of_not_mem .port u pre s1 (hpre ▸ hch)
  · exact fun _ => rfl

end

end Sys2Proof.StepCommands
end

section
/-! DeEnergize run by the port alone, whatever the answers to its six writes, and with it STOP, DISPOSE and CANCEL
(R117, R123, R134, R135). -/

namespace Sys2Proof.DeEnergizeRuns

open Machine StepRelation StepFrames ChannelOwners BusTrace JobOwners HostWrites PacedTurns StepOrder StepRuns

/-! ### The writes of DeEnergize, done -/

/-- One write of DeEnergize with its answer (R91, R117). -/
def offDone (s : State) (p : ChannelId × Answer) : State :=
  { s.setChannel p.1 { s.channel p.1 with
      specRatio := 0, specInv := false, image := if p.2 = .ack then fullOff else (s.channel p.1).image
      imageValid := decide (p.2 = .ack) } with
    trace := s.trace ++ [s.imageTransaction .port p.1 fullOff p.2]
    expander := s.expander.after (imageOp s (p.1, 0)) p.2
    answers := s.answers.tail }

/-- The writes done one after the other. -/
def offsDone (ps : List (ChannelId × Answer)) (s : State) : State := ps.foldl offDone s

section

variable (ps : List (ChannelId × Answer)) (s : State)

@[simp] theorem offsDone_nil : offsDone [] s = s := rfl

@[simp] theorem offsDone_cons (p : ChannelId × Answer) : offsDone (p :: ps) s = offsDone ps (offDone s p) := rfl

/-- DeEnergize's writes change nothing but channels, the bus and the answers. -/
theorem offsDone_frame : offsDone ps s = { s with
    channels := (offsDone ps s).channels, expander := (offsDone ps s).expander, trace := (offsDone ps s).trace
    answers := (offsDone ps s).answers } := by
  induction ps generalizing s with
  | nil => rfl
  | cons p ps ih => exact ih _

theorem offsDone_units : (offsDone ps s).units = s.units := by rw [offsDone_frame]

@[simp] theorem offsDone_busLock : (offsDone ps s).busLock = s.busLock := by rw [offsDone_frame]

theorem offsDone_unit (v : UnitId) : (offsDone ps s).unit v = s.unit v :=
  congrArg (fun us : Vector UnitState 2 => us[v.val]) (offsDone_units ps s)

theorem offsDone_unitChannels (v : UnitId) : (offsDone ps s).unitChannels v = s.unitChannels v := by
  rw [offsDone_frame]
  rfl

theorem offsDone_unitCells (v : UnitId) : (offsDone ps s).unitCells v = s.unitCells v := by
  have hchannels := offsDone_unitChannels ps s v
  unfold State.unitCells
  rw [hchannels, offsDone_frame]
  rfl

theorem offsDone_trace : (offsDone ps s).trace =
    s.trace ++ ps.map fun p => s.imageTransaction .port p.1 fullOff p.2 := by
  induction ps generalizing s with
  | nil => simp
  | cons p ps ih =>
    rw [offsDone_cons, ih, List.map_cons, ← List.singleton_append, ← List.append_assoc]
    rfl

theorem offsDone_answers {rs : List Answer} (h : s.answers = ps.map Prod.snd ++ rs) :
    (offsDone ps s).answers = rs := by
  induction ps generalizing s with
  | nil => exact h
  | cons p ps ih =>
    refine ih _ ?_
    simp only [offDone, h, List.map_cons, List.cons_append, List.tail_cons]

theorem offsDone_channel_of_not_mem {ch : ChannelId} (h : ch ∉ ps.map Prod.fst) :
    (offsDone ps s).channel ch = s.channel ch := by
  induction ps generalizing s with
  | nil => rfl
  | cons p ps ih =>
    rw [List.map_cons, List.mem_cons, not_or] at h
    obtain ⟨hne, hrest⟩ := h
    exact (ih (offDone s p) hrest).trans ((State.setChannel_channel ..).trans (if_neg (Ne.symm hne)))

/-- A channel that DeEnergize writes is forced off, with the shadow that its own answer leaves. -/
theorem offsDone_channel_of_mem (hnodup : (ps.map Prod.fst).Nodup) {p : ChannelId × Answer} (hp : p ∈ ps) :
    (offsDone ps s).channel p.1 = { s.channel p.1 with
      specRatio := 0, specInv := false, image := if p.2 = .ack then fullOff else (s.channel p.1).image
      imageValid := decide (p.2 = .ack) } := by
  induction ps generalizing s with
  | nil => cases hp
  | cons q ps ih =>
    rw [List.map_cons, List.nodup_cons] at hnodup
    obtain ⟨hnotmem, hrest⟩ := hnodup
    rw [offsDone_cons]
    rcases List.mem_cons.1 hp with rfl | hp
    · rw [offsDone_channel_of_not_mem _ _ hnotmem]
      exact (State.setChannel_channel ..).trans (if_pos rfl)
    · have hmem : p.1 ∈ ps.map Prod.fst := List.mem_map_of_mem hp
      have hne : q.1 ≠ p.1 := fun he => hnotmem (by rw [he]; exact hmem)
      have hsame : (offDone s q).channel p.1 = s.channel p.1 := (State.setChannel_channel ..).trans (if_neg hne)
      rw [ih _ hrest hp, hsame]

theorem offsDone_owner (ch : ChannelId) : ((offsDone ps s).channel ch).owner = (s.channel ch).owner := by
  induction ps generalizing s with
  | nil => rfl
  | cons p ps ih =>
    rw [offsDone_cons, ih]
    refine (congrArg Channel.owner (State.setChannel_channel ..)).trans ?_
    split
    case isTrue h => rw [h]
    case isFalse => rfl

/-! ### The expander after DeEnergize -/

/-- Acknowledged writes of DeEnergize are those of a Step. -/
theorem offsDone_eq_opsDone (u : UnitId) (h : ∀ p ∈ ps, p.2 = .ack) :
    offsDone ps s = opsDone .port u (ps.map fun p => .apply p.1 0) s := by
  induction ps generalizing s with
  | nil => rfl
  | cons p ps ih =>
    rw [List.forall_mem_cons] at h
    obtain ⟨hp, hrest⟩ := h
    have hhead : offDone s p = opDone .port u s (.apply p.1 0) := by
      unfold offDone
      rw [hp]
      rfl
    rw [offsDone_cons, hhead, ih _ hrest]
    rfl

/-- A byte that is not known and not in the written registers stays unknown. -/
theorem offsDone_read_of_none {x : Nat} (hx : ∀ p ∈ ps, ∀ k : Fin 4, x ≠ s.imageCell p.1 k.val)
    (hnone : s.expander.read x = none) : (offsDone ps s).expander.read x = none := by
  induction ps generalizing s with
  | nil => exact hnone
  | cons p ps ih =>
    rw [List.forall_mem_cons] at hx
    obtain ⟨hhead, hrest⟩ := hx
    refine ih (offDone s p) hrest ?_
    by_cases hr : p.2 = .ack
    · simp only [offDone, hr, imageOp]
      rw [Memory.read_after_of_ne _ _ _ _ _ fun j hj he => hhead ⟨j, by simpa [imageBytes] using hj⟩ he.symm]
      exact hnone
    · simp only [offDone]
      rw [Memory.after_of_ne_ack _ _ _ hr]
      rfl

/-- After a failed write, nothing outside the written registers is known. -/
theorem offsDone_read_of_failed {x : Nat} (hfailed : ∃ p ∈ ps, p.2 ≠ .ack)
    (hx : ∀ p ∈ ps, ∀ k : Fin 4, x ≠ s.imageCell p.1 k.val) : (offsDone ps s).expander.read x = none := by
  induction ps generalizing s with
  | nil => obtain ⟨p, hp, -⟩ := hfailed; cases hp
  | cons p ps ih =>
    by_cases hr : p.2 = .ack
    · obtain ⟨q, hq, hne⟩ := hfailed
      rcases List.mem_cons.1 hq with rfl | hq
      · exact absurd hr hne
      · exact ih (offDone s p) ⟨q, hq, hne⟩ fun q hq => hx q (List.mem_cons_of_mem _ hq)
    · refine offsDone_read_of_none ps (offDone s p) (fun q hq => hx q (List.mem_cons_of_mem _ hq)) ?_
      simp only [offDone]
      rw [Memory.after_of_ne_ack _ _ _ hr]
      rfl

end

/-! ### The run by the port -/

section

variable {s : State} {u : UnitId}

theorem conclude_withPort (s : State) (p : PortState) (r : Answer) (v : Value) :
    State.conclude { s with port := p } r v = s.conclude r v := by
  have hraise (e : Err) (info : Value) : State.raise { s with port := p } e info = s.raise e info := by
    unfold State.raise State.releasePort
    by_cases h : s.busLock = .port
    · have h' : State.busLock { s with port := p } = .port := h
      rw [if_pos h, if_pos h']
      rfl
    · have h' : ¬State.busLock { s with port := p } = .port := h
      rw [if_neg h, if_neg h']
      rfl
  cases r with
  | ack => rfl
  | nack => exact hraise .busIO 0
  | err d => exact hraise .busIO d

theorem setOwners_withPort (s : State) (p : PortState) (chs : List ChannelId) (o : Owner) :
    State.setOwners { s with port := p } chs o = { s.setOwners chs o with port := p } := by
  induction chs generalizing s with
  | nil => rfl
  | cons ch chs ih => exact ih (s.setOwner ch o)

theorem finishDeEnergize_withPort (s : State) (p : PortState) (u : UnitId) (why : DeEnergizeFor) (first : Answer) :
    State.finishDeEnergize { s with port := p } u why first = s.finishDeEnergize u why first := by
  unfold State.finishDeEnergize
  cases why with
  | stop =>
    refine (congrArg (State.conclude · first 0) ?_).trans (conclude_withPort _ p first 0)
    split <;> rfl
  | dispose =>
    refine (congrArg (State.conclude · first 0) ?_).trans (conclude_withPort _ p first 0)
    split
    · exact congrArg (State.setUnit · u UnitState.reset) (setOwners_withPort s p (s.unitChannels u) .free)
    · exact congrArg (State.setUnit · u UnitState.reset)
        (setOwners_withPort (s.forgetUnit u) p (s.unitChannels u) .free)

/-- What DeEnergize goes on to does not depend on the write just done. -/
theorem deEnergizeFrom_withPort (s : State) (u : UnitId) (why : DeEnergizeFor) (chs : List ChannelId) (first : Answer)
    (p : PortState) : State.deEnergizeFrom { s with port := p } u why chs first = s.deEnergizeFrom u why chs first := by
  induction chs generalizing s with
  | nil =>
    rw [State.deEnergizeFrom_nil, State.deEnergizeFrom_nil]
    exact finishDeEnergize_withPort ..
  | cons ch chs ih =>
    rw [State.deEnergizeFrom_cons, State.deEnergizeFrom_cons]
    by_cases hd : (s.channel ch).disabled = true
    · have hd' : (State.channel { s with port := p } ch).disabled = true := hd
      rw [if_pos hd, if_pos hd']
      exact ih (s.setSpec ch 0 false)
    · have hd' : ¬(State.channel { s with port := p } ch).disabled = true := hd
      rw [if_neg hd, if_neg hd']
      rfl

theorem written_off (ch : ChannelId) (hfree : s.busLock = .free) {r : Answer} {rs : List Answer}
    (hanswers : s.answers = r :: rs) :
    written (s.setSpec ch 0 false) .port (pendingApply ch 0 false) r rs = offDone s (ch, r) := by
  have hset (c d : Channel) : (s.setChannel ch c).setChannel ch d = s.setChannel ch d := by simp [State.setChannel]
  have hchannel : (s.setSpec ch 0 false).setChannel ch
      (((s.setSpec ch 0 false).channel ch).answered fullOff r) =
      s.setChannel ch { s.channel ch with
        specRatio := 0, specInv := false, image := if r = .ack then fullOff else (s.channel ch).image
        imageValid := decide (r = .ack) } := by
    rw [setSpec_channel_self, State.setSpec, hset, answered_eq]
  have himage : (pendingApply ch 0 false).image = fullOff := rfl
  simp only [written, himage, offDone, hanswers, ← hfree]
  rw [show (pendingApply ch 0 false).ch = ch from rfl, hchannel]
  rfl

/-- A write of DeEnergize, from Lock() to its answer, takes two turns of a Busy port. -/
theorem move_off {ch : ChannelId} (henabled : (s.channel ch).disabled = false) (why : DeEnergizeFor)
    (rest : List ChannelId) (first : Answer) (hfree : s.busLock = .free) {r : Answer} {rs : List Answer}
    (hanswers : s.answers = r :: rs) :
    ∃ t, s.deEnergizeFrom u why (ch :: rest) first = t ∧ t.port ≠ .idle ∧ (t.move .port).port ≠ .idle ∧
      (t.move .port).move .port = (offDone s (ch, r)).deEnergizeFrom u why rest (firstFailure first r) := by
  let s1 : State := { s.setSpec ch 0 false with port := .busy (.deEnergize u why (pendingApply ch 0 false) rest first) }
  let s2 : State := { s1 with
    busLock := .port, port := .busy (.deEnergize u why (pendingApply ch 0 false).lock rest first) }
  have hlock : s1.move .port = s2 := by
    rw [State.move_port_of_busy s1 _ rfl, State.portStep, State.portWrite, if_neg (by nofun), State.lockThen]
    exact if_pos hfree
  have htransact : s2.move .port = (offDone s (ch, r)).deEnergizeFrom u why rest (firstFailure first r) := by
    have hwrite := writeImage_of_answers (s := s2) hanswers .port (pendingApply ch 0 false).lock
    rw [State.move_port_of_busy s2 _ rfl, State.portStep, State.portWrite]
    refine (if_pos (show (pendingApply ch 0 false).lock.locked = true from rfl)).trans ?_
    rw [hwrite, ← written_off ch hfree hanswers]
    exact deEnergizeFrom_withPort (written (s.setSpec ch 0 false) .port (pendingApply ch 0 false) r rs) _ _ _ _ _
  refine ⟨s1, ?_, nofun, by rw [hlock]; nofun, by rw [hlock, htransact]⟩
  rw [State.deEnergizeFrom_cons, if_neg (by rw [henabled]; nofun)]

theorem driveOver_cons_of_ne_idle (h : s.port ≠ .idle) (c : Choice) (cs : List Choice) :
    s.driveOver (c :: cs) = (s.move c).driveOver cs := by
  cases hport : s.port with
  | idle => exact absurd hport h
  | busy job => exact State.driveOver_cons_of_busy s job c cs hport

/-- DeEnergize's writes, one after the other, whatever the answers (R117). -/
theorem run_offsDone (why : DeEnergizeFor) {ps : List (ChannelId × Answer)} {rs : List Answer}
    (henabled : ∀ p ∈ ps, (s.channel p.1).disabled = false) (hfree : s.busLock = .free)
    (hanswers : s.answers = ps.map Prod.snd ++ rs) (first : Answer) :
    (List.replicate (2 * ps.length) Choice.port).foldl State.move (s.deEnergizeFrom u why (ps.map Prod.fst) first) =
      (offsDone ps s).finishDeEnergize u why ((ps.map Prod.snd).foldl firstFailure first) ∧
    ∀ cs, (s.deEnergizeFrom u why (ps.map Prod.fst) first).driveOver (List.replicate (2 * ps.length) .port ++ cs) =
      ((offsDone ps s).finishDeEnergize u why ((ps.map Prod.snd).foldl firstFailure first)).driveOver cs := by
  induction ps generalizing s first with
  | nil =>
    exact ⟨State.deEnergizeFrom_nil .., fun cs => congrArg (State.driveOver · cs) (State.deEnergizeFrom_nil ..)⟩
  | cons p ps ih =>
    rw [List.forall_mem_cons] at henabled
    obtain ⟨hhead, hrest⟩ := henabled
    obtain ⟨t, ht, hbusy, hbusy', hmove⟩ := move_off (u := u) hhead why (ps.map Prod.fst) first hfree hanswers
    have hsched : List.replicate (2 * (p :: ps).length) Choice.port =
        .port :: .port :: List.replicate (2 * ps.length) .port := by
      rw [List.length_cons, Nat.mul_succ]
      rfl
    have hstill : ∀ q ∈ ps, ((offDone s p).channel q.1).disabled = false := fun q hq => by
      refine (congrArg Channel.disabled (State.setChannel_channel ..)).trans ?_
      split
      case isTrue h => exact hhead
      case isFalse => exact hrest q hq
    obtain ⟨hfold, hdrive⟩ := ih (s := offDone s p) hstill hfree
      (by simp only [offDone, hanswers, List.map_cons, List.cons_append, List.tail_cons]) (firstFailure first p.2)
    rw [hsched, List.map_cons, ht]
    refine ⟨?_, fun cs => ?_⟩
    · rw [List.foldl_cons, List.foldl_cons, hmove]
      exact hfold
    · rw [List.cons_append, List.cons_append, driveOver_cons_of_ne_idle hbusy, driveOver_cons_of_ne_idle hbusy', hmove]
      exact hdrive cs

end

/-! ### The end of DeEnergize -/

/-- The owner of the six channels once STOP or DISPOSE has ended (R123, R135). -/
def endOwner (u : UnitId) : DeEnergizeFor → Owner
  | .stop => .unit u
  | .dispose => .free

section

variable {s : State} {u : UnitId}

/-- From s to t, nothing but channels, units and the expander changes. -/
def OnlyEnds (s t : State) : Prop := t = { s with channels := t.channels, units := t.units, expander := t.expander }

theorem onlyEnds_setUnit {t : State} (h : OnlyEnds s t) (v : UnitId) (x : UnitState) : OnlyEnds s (t.setUnit v x) :=
  congrArg (State.setUnit · v x) h

theorem onlyEnds_setOwners {t : State} (h : OnlyEnds s t) (chs : List ChannelId) (o : Owner) :
    OnlyEnds s (t.setOwners chs o) := by
  induction chs generalizing t with
  | nil => exact h
  | cons ch chs ih => exact ih (congrArg (State.setOwner · ch o) h)

theorem onlyEnds_forgetUnit (s : State) (v : UnitId) : OnlyEnds s (s.forgetUnit v) := rfl

theorem conclude_frame {t : State} (hlock : s.busLock ≠ .port) (h : OnlyEnds s t) (r : Answer) :
    t.conclude r 0 = { s with
      channels := (t.conclude r 0).channels, units := (t.conclude r 0).units, expander := (t.conclude r 0).expander
      responses := s.responses ++ [responseTo r 0], port := .idle } := by
  have hlock' : t.busLock ≠ .port := by rw [h]; exact hlock
  rw [conclude_of_lock_elsewhere hlock']
  unfold OnlyEnds at h
  generalize t.channels = cs at h ⊢
  generalize t.units = us at h ⊢
  generalize t.expander = m at h ⊢
  subst h
  rfl

theorem finishDeEnergize_frame (hlock : s.busLock ≠ .port) (why : DeEnergizeFor) (first : Answer) :
    s.finishDeEnergize u why first = { s with
      channels := (s.finishDeEnergize u why first).channels, units := (s.finishDeEnergize u why first).units
      expander := (s.finishDeEnergize u why first).expander, responses := s.responses ++ [responseTo first 0]
      port := .idle } := by
  rcases s.finishDeEnergize_cases u why first with ⟨-, hr, he⟩ | ⟨-, -, he⟩ | ⟨-, hr, he⟩ | ⟨-, -, he⟩ <;>
    rw [he]
  · rw [hr]
    exact conclude_frame hlock (onlyEnds_setUnit (t := s) rfl u _) .ack
  · exact conclude_frame hlock (onlyEnds_setUnit (onlyEnds_forgetUnit s u) u _) first
  · rw [hr]
    exact conclude_frame hlock (onlyEnds_setUnit (onlyEnds_setOwners (t := s) rfl _ _) u _) .ack
  · exact conclude_frame hlock (onlyEnds_setUnit (onlyEnds_setOwners (onlyEnds_forgetUnit s u) _ _) u _) first

theorem finishDeEnergize_channel (howned : ∀ ch ∈ s.unitChannels u, (s.channel ch).owner = .unit u)
    (why : DeEnergizeFor) (first : Answer) (ch : ChannelId) : (s.finishDeEnergize u why first).channel ch =
      if ch ∈ s.unitChannels u then { s.channel ch with owner := endOwner u why } else s.channel ch := by
  have hstop : (if ch ∈ s.unitChannels u then { s.channel ch with owner := endOwner u .stop } else s.channel ch) =
      s.channel ch := by
    split
    case isTrue h => rw [endOwner, ← howned ch h]
    case isFalse => rfl
  rcases s.finishDeEnergize_cases u why first with ⟨rfl, -, he⟩ | ⟨rfl, -, he⟩ | ⟨rfl, -, he⟩ | ⟨rfl, -, he⟩ <;>
    rw [he]
  · rw [hstop, State.respondOk_channel, State.setUnit_channel]
  · rw [hstop, State.conclude_channel, State.setUnit_channel, State.forgetUnit_channel]
  · rw [State.respondOk_channel, State.setUnit_channel, State.setOwners_channel, endOwner]
  · rw [State.conclude_channel, State.setUnit_channel, State.setOwners_channel, State.forgetUnit_channel, endOwner]

end

/-- What STOP or DISPOSE of unit u leaves once its six writes are answered. -/
structure DeEnergizeDone (s t : State) (u : UnitId) (why : DeEnergizeFor) (six rs : List Answer) : Prop where
  frame : t = { s with
    channels := t.channels, units := t.units, expander := t.expander
    trace := s.trace ++ List.zipWith (fun ch r => s.imageTransaction .port ch fullOff r) (s.unitChannels u) six
    responses := s.responses ++ [responseTo (firstNotAck six) 0]
    port := .idle, answers := rs }
  unit : t.unit u = afterDeEnergize (s.unit u) why (firstNotAck six)
  channels : s.DeEnergizedBy t u six (endOwner u why)

section

variable {s : State} {u : UnitId} {six rs : List Answer}

theorem zip_unitChannels_fst (hsix : six.length = 6) : ((s.unitChannels u).zip six).map Prod.fst = s.unitChannels u :=
  List.map_fst_zip (le_of_eq hsix.symm)

theorem zip_unitChannels_snd (hsix : six.length = 6) : ((s.unitChannels u).zip six).map Prod.snd = six :=
  List.map_snd_zip (le_of_eq hsix)

theorem firstNotAck_ne (h : firstNotAck six ≠ .ack) : ∃ r ∈ six, r ≠ .ack := by
  by_contra hall
  push Not at hall
  exact h ((firstNotAck_eq_ack six).2 hall)

/-- The expander after DeEnergize: six images of FULL_OFF, or nothing known (R64, R117, items U1 and U5). -/
theorem expander_of_deEnergized {t : State} (hcfg : s.cfg.Legal) (hnodup : (s.unitChannels u).Nodup)
    (hsix : six.length = 6)
    (ht : t.expander = if firstNotAck six = .ack then (offsDone ((s.unitChannels u).zip six) s).expander
      else (offsDone ((s.unitChannels u).zip six) s).expander.forgetAll (s.unitCells u)) :
    (∀ ch ∈ s.unitChannels u, s.ImageAnswered t ch fullOff (firstNotAck six)) ∧
    s.RestAnswered t (s.unitChannels u) (firstNotAck six) := by
  have hfst := zip_unitChannels_fst (s := s) (u := u) hsix
  have hsnd := zip_unitChannels_snd (s := s) (u := u) hsix
  by_cases hfirst : firstNotAck six = .ack
  · let ws := (s.unitChannels u).map fun ch => (ch, (0 : BitVec 13))
    have hall : ∀ p ∈ (s.unitChannels u).zip six, p.2 = .ack := fun p hp =>
      (firstNotAck_eq_ack six).1 hfirst _ (hsnd ▸ List.mem_map_of_mem hp)
    have hops : (((s.unitChannels u).zip six).map fun p => StepOp.apply p.1 0) = ws.map LoopRuns.writeOp := by
      have hws : ws = ((s.unitChannels u).zip six).map fun p => (p.1, 0) := by
        simp only [ws]
        conv_lhs => rw [← hfst]
        exact List.map_map ..
      rw [hws, List.map_map]
      rfl
    have hexp : t.expander = (opsDone .port u (ws.map LoopRuns.writeOp) s).expander := by
      rw [ht, if_pos hfirst, offsDone_eq_opsDone _ s u hall, hops]
    have hwrites := LoopRuns.stepWrites_map_writeOp ws
    have hwrote : (stepWrites (ws.map LoopRuns.writeOp)).map Prod.fst = s.unitChannels u := by
      rw [hwrites, List.map_map]
      exact List.map_id _
    rw [hfirst]
    refine ⟨fun ch hch k => ?_, ?_⟩
    · rw [hexp]
      exact opsDone_imageAnswered .port u _ s hcfg (by rw [hwrote]; exact hnodup) (w := (ch, 0))
        (by rw [hwrites]; exact List.mem_map_of_mem hch) k
    · rw [State.RestAnswered, if_pos rfl]
      intro x hx
      rw [hexp]
      exact opsDone_onlyImagesOf .port u _ s x (by rw [hwrote]; exact hx)
  · rw [if_neg hfirst] at ht
    have hread (x : Nat) : t.expander.read x = none := by
      rw [ht, Memory.read_forgetAll]
      split
      case isTrue => rfl
      case isFalse hx =>
        obtain ⟨r, hr, hne⟩ := firstNotAck_ne hfirst
        obtain ⟨p, hp, rfl⟩ := List.mem_map.1 (hsnd.symm ▸ hr)
        refine offsDone_read_of_failed _ s ⟨p, hp, hne⟩ fun q hq k he => hx ?_
        exact (s.mem_unitCells u x).2 ⟨q.1, hfst ▸ List.mem_map_of_mem hq, k, he⟩
    exact ⟨fun ch _ k => (hread _).trans (if_neg hfirst).symm,
      by rw [State.RestAnswered, if_neg hfirst]; exact hread⟩

theorem finishDeEnergize_done (hcfg : s.cfg.Legal) (ho : s.OwnershipOk) (hbound : (s.unit u).bound = true)
    (hfree : s.busLock = .free) (hsix : six.length = 6) (hanswers : s.answers = six ++ rs) (why : DeEnergizeFor) :
    DeEnergizeDone s ((offsDone ((s.unitChannels u).zip six) s).finishDeEnergize u why (firstNotAck six)) u why six
      rs := by
  let d := offsDone ((s.unitChannels u).zip six) s
  have hfst := zip_unitChannels_fst (s := s) (u := u) hsix
  have hsnd := zip_unitChannels_snd (s := s) (u := u) hsix
  have hlock : d.busLock ≠ .port := by
    rw [offsDone_busLock, hfree]
    nofun
  have hchannels : d.unitChannels u = s.unitChannels u := offsDone_unitChannels ..
  have howned := (ho.1 u hbound).2
  have hnodup := nodup_unitChannels hcfg ho hbound
  have hend (ch : ChannelId) : (d.finishDeEnergize u why (firstNotAck six)).channel ch =
      if ch ∈ s.unitChannels u then { d.channel ch with owner := endOwner u why } else d.channel ch := by
    rw [finishDeEnergize_channel, hchannels]
    intro c hc
    rw [offsDone_owner]
    exact howned c (hchannels ▸ hc)
  have hexp : (d.finishDeEnergize u why (firstNotAck six)).expander =
      if firstNotAck six = .ack then d.expander else d.expander.forgetAll (s.unitCells u) := by
    rw [finishDeEnergize_expander, offsDone_unitCells]
  obtain ⟨himages, hrest⟩ := expander_of_deEnergized hcfg hnodup hsix hexp
  refine ⟨?_, ?_, ?_⟩
  · have htrace := offsDone_trace ((s.unitChannels u).zip six) s
    have hzip : ((s.unitChannels u).zip six).map (fun p => s.imageTransaction .port p.1 fullOff p.2) =
        List.zipWith (fun ch r => s.imageTransaction .port ch fullOff r) (s.unitChannels u) six :=
      List.map_zip_eq_zipWith (f := fun p : ChannelId × Answer => s.imageTransaction .port p.1 fullOff p.2)
    have hanswersDone := offsDone_answers ((s.unitChannels u).zip six) s (rs := rs) (by rw [hsnd]; exact hanswers)
    have hd := offsDone_frame ((s.unitChannels u).zip six) s
    rw [htrace, hanswersDone, hzip] at hd
    refine (finishDeEnergize_frame hlock why _).trans ?_
    generalize State.finishDeEnergize _ u why (firstNotAck six) = t
    exact congrArg (fun r : State => { r with
      channels := t.channels, units := t.units, expander := t.expander
      responses := r.responses ++ [responseTo (firstNotAck six) 0], port := .idle }) hd
  · rw [finishDeEnergize_unit, if_pos rfl, offsDone_unit]
  · refine ⟨fun v hv => ?_, fun x hx => ?_, himages, fun ch hch => ?_, hrest⟩
    · rw [finishDeEnergize_unit, if_neg (Ne.symm hv), offsDone_unit]
    · have hmem : x.1 ∈ s.unitChannels u := hfst ▸ List.mem_map_of_mem hx
      rw [hend, if_pos hmem, offsDone_channel_of_mem _ s (by rw [hfst]; exact hnodup) hx]
    · rw [hend, if_neg hch]
      exact offsDone_channel_of_not_mem _ s (by rw [hfst]; exact hch)

theorem foldl_firstFailure_ack : six.foldl firstFailure .ack = firstNotAck six := by
  rw [foldl_firstFailure, if_pos rfl]

/-- DeEnergize and the end of its command, run by the port alone. -/
theorem deEnergize_runs (hcfg : s.cfg.Legal) (ho : s.OwnershipOk) (hbound : (s.unit u).bound = true)
    (hfree : s.busLock = .free) (hsix : six.length = 6) (hanswers : s.answers = six ++ rs) (why : DeEnergizeFor) :
    ∃ t, DeEnergizeDone s t u why six rs ∧
      (List.replicate 12 Choice.port).foldl State.move (s.deEnergizeFrom u why (s.unitChannels u) .ack) = t ∧
      ∀ cs, (s.deEnergizeFrom u why (s.unitChannels u) .ack).driveOver (List.replicate 12 .port ++ cs) =
        { t with sched := cs } := by
  have hfst := zip_unitChannels_fst (s := s) (u := u) hsix
  have hsnd := zip_unitChannels_snd (s := s) (u := u) hsix
  have hlength : ((s.unitChannels u).zip six).length = 6 := by
    rw [← List.length_map (f := Prod.snd), hsnd, hsix]
  have hdone := finishDeEnergize_done hcfg ho hbound hfree hsix hanswers why
  obtain ⟨hfold, hdrive⟩ := run_offsDone (u := u) why (ps := (s.unitChannels u).zip six) (rs := rs)
    (fun p hp => (owned_of_ownershipOk ho).not_disabled hbound (hfst ▸ List.mem_map_of_mem hp)) hfree
    (by rw [hsnd]; exact hanswers) .ack
  rw [hfst, hsnd, hlength, foldl_firstFailure_ack] at hfold hdrive
  refine ⟨_, hdone, hfold, fun cs => (hdrive cs).trans (State.driveOver_of_idle _ _ ?_)⟩
  rw [hdone.frame]

theorem DeEnergizeDone.unit_stop {t : State} (h : DeEnergizeDone s t u .stop six rs) :
    t.unit u = (s.unit u).afterStop six := h.unit.trans (UnitState.afterStop_eq ..).symm

end

end Sys2Proof.DeEnergizeRuns
end

section
/-! CANCEL, STOP and DISPOSE: of a unit that is not Running, and of a Running one through its hold (R123, R134,
R135). -/

namespace Sys2Proof.RunEnds

open Machine StepRelation JobOwners HostWrites LoopRuns DeEnergizeRuns

/-! ### The commands on a bound unit -/

/-- What a command of this kind does once it goes on (R123, R134, R135). -/
def holdInstr (n : Nat) : HoldFor → Instr
  | .cancel => .cancel n
  | .stop => .stop n
  | .dispose => .dispose n

section

variable {s : State} {n : Nat} {u : UnitId}

theorem exec_holdInstr (hu : u.val = n) (hlt : n < s.cfg.units.toNat) (hbound : (s.unit u).bound = true)
    (why : HoldFor) : exec (holdInstr n why) s = .next (s.endRun u why).drive := by
  have hchecked := ImmediateCommands.withUnit_of_bound hu hlt hbound (fun _ => []) fun u => (s.endRun u why).drive
  cases why <;> exact congrArg Host.Outcome.next hchecked

theorem exec_holdInstr_of_not_running (hu : u.val = n) (hlt : n < s.cfg.units.toNat)
    (hbound : (s.unit u).bound = true) (hrun : (s.unit u).run ≠ .running) (why : HoldFor) :
    exec (holdInstr n why) s = .next (s.afterHold u why).drive := by
  rw [exec_holdInstr hu hlt hbound, State.endRun, if_neg hrun]

theorem exec_holdInstr_of_running (hu : u.val = n) (hlt : n < s.cfg.units.toNat)
    (hbound : (s.unit u).bound = true) (hrun : (s.unit u).run = .running) (why : HoldFor) :
    exec (holdInstr n why) s = .next (State.drive
      { s.setUnit u { s.unit u with cancelReq := true } with port := .busy (.hold u why) }) := by
  rw [exec_holdInstr hu hlt hbound, State.endRun, if_pos hrun]

theorem afterHold_cancel : s.afterHold u .cancel = s.respond 0 (BitVec.setWidth 32 (s.unit u).index) := by
  rw [State.afterHold, StatusWords.packValue_single, BitVec.ofNat_toNat]
  rfl

/-! ### The held port -/

theorem move_hold {why : HoldFor} (hport : s.port = .busy (.hold u why)) :
    s.move .port = if (s.unit u).run = .running then s else s.afterHold u why :=
  s.move_port_of_busy _ hport

theorem move_hold_of_running {why : HoldFor} (hport : s.port = .busy (.hold u why)) (hrun : (s.unit u).run = .running) :
    s.move .port = s := (move_hold hport).trans (if_pos hrun)

theorem move_hold_of_not_running {why : HoldFor} (hport : s.port = .busy (.hold u why))
    (hrun : (s.unit u).run ≠ .running) : s.move .port = s.afterHold u why := (move_hold hport).trans (if_neg hrun)

theorem afterHold_withPort (s : State) (p : PortState) (u : UnitId) (why : HoldFor) :
    State.afterHold { s with port := p } u why = s.afterHold u why := by
  cases why with
  | cancel => rfl
  | stop => exact deEnergizeFrom_withPort ..
  | dispose => exact deEnergizeFrom_withPort ..

/-! ### The loop's turn that ends a cancelled run -/

/-- A loop between Steps that sees a cancellation ends the run, unless the policy applies (R126, R127, R129). -/
theorem move_loop_cancelled (hrun : (s.unit u).run = .running) (hjob : (s.unit u).stepJob = none)
    (hseen : (s.unit u).cancelSeen = true) (hpolicy : ¬(s.unit u).policyApplies = true) :
    s.move (.loop u) = s.setUnit u (s.unit u).finish := by
  cases hphase : (s.unit u).phase with
  | accum => rw [PacingLoop.move_loop_accum hrun hjob hphase, PacingLoop.accum_of_cancelled hseen hpolicy]
  | spin =>
    rw [PacingLoop.move_loop_spin hrun hjob hphase, State.spin]
    simp only [hseen, if_true, if_neg hpolicy]

end

/-- Settles O48: the turn of the loop that ends the run, and the turn of the port that answers. -/
theorem cancelEndsTheRunWithoutAStep : Obligations.CancelEndsTheRunWithoutAStep := by
  intro s n u hu hlt hbound
  refine ⟨fun hrun => ?_, fun hrun hjob hcooling hpolicy cs hsched => ?_⟩
  · refine (exec_holdInstr_of_not_running hu hlt hbound hrun .cancel).trans ?_
    rw [afterHold_cancel]
    exact congrArg _ (State.drive_of_idle _ rfl)
  · let s1 : State := { s.setUnit u { s.unit u with cancelReq := true } with port := .busy (.hold u .cancel) }
    have hunit : s1.unit u = { s.unit u with cancelReq := true } := State.setUnit_unit_self ..
    have hloop : s1.move (.loop u) = s1.setUnit u (s1.unit u).finish := by
      refine move_loop_cancelled (by rw [hunit]; exact hrun) (by rw [hunit]; exact hjob) ?_ ?_
      · rw [hunit, PacingLoop.cancelSeen_iff]
        exact ⟨rfl, hcooling⟩
      · rw [hunit, PacingLoop.policyApplies_iff]
        exact hpolicy
    let s2 := s1.setUnit u (s1.unit u).finish
    have hunit2 : s2.unit u = (s1.unit u).finish := State.setUnit_unit_self ..
    have hport : s2.move .port = s2.respond 0 (BitVec.setWidth 32 (s.unit u).index) := by
      rw [move_hold_of_not_running (u := u) (why := .cancel) rfl (by rw [hunit2]; nofun), afterHold_cancel, hunit2,
        hunit]
      rfl
    refine (exec_holdInstr_of_running hu hlt hbound hrun .cancel).trans (congrArg _ ?_)
    rw [PrescaleRuns.drive_of_sched (s := s1) hsched, State.driveOver_cons_of_busy s1 _ _ _ rfl, hloop,
      State.driveOver_cons_of_busy s2 _ _ _ rfl, hport, State.driveOver_of_idle _ _ rfl]
    have hset : s2 = { s.setUnit u (s1.unit u).finish with port := .busy (.hold u .cancel) } :=
      setUnit_setUnit { s with port := .busy (.hold u .cancel) } u { s.unit u with cancelReq := true }
        (s1.unit u).finish
    rw [hset, hunit]
    rfl

/-- What DeEnergize of a command does, of a unit that is not Running. -/
theorem exec_deEnergize {s : State} {n : Nat} {u : UnitId} {six rs : List Answer} {cs : List Choice} {why : HoldFor}
    {ends : DeEnergizeFor} (hcfg : s.cfg.Legal) (ho : s.OwnershipOk) (hu : u.val = n) (hlt : n < s.cfg.units.toNat)
    (hbound : (s.unit u).bound = true) (hrun : (s.unit u).run ≠ .running) (hfree : s.busLock = .free)
    (hsix : six.length = 6) (hsched : s.sched = List.replicate 12 .port ++ cs) (hanswers : s.answers = six ++ rs)
    (hwhy : s.afterHold u why = s.deEnergizeFrom u ends (s.unitChannels u) .ack) :
    ∃ t, DeEnergizeDone s t u ends six rs ∧ exec (holdInstr n why) s = .next { t with sched := cs } := by
  obtain ⟨t, hdone, -, hdrive⟩ := deEnergize_runs hcfg ho hbound hfree hsix hanswers ends
  refine ⟨t, hdone, (exec_holdInstr_of_not_running hu hlt hbound hrun why).trans (congrArg _ ?_)⟩
  rw [PrescaleRuns.drive_of_sched ((s.afterHold_sameTurns u why).1.trans hsched), hwhy]
  exact hdrive cs

/-- Settles O49: DeEnergize and the end of STOP. -/
theorem stopDeEnergizesEveryChannel : Obligations.StopDeEnergizesEveryChannel := by
  intro s n u six cs rs hcfg ho hu hlt hbound hrun hfree hsix hsched hanswers
  obtain ⟨t, hdone, hexec⟩ :=
    exec_deEnergize (why := .stop) hcfg ho hu hlt hbound hrun hfree hsix hsched hanswers rfl
  exact ⟨_, hexec, congrArg (fun r : State => { r with sched := cs }) hdone.frame, hdone.unit_stop, hdone.channels⟩

/-- Settles O44: DeEnergize and the end of DISPOSE. -/
theorem disposeReleasesWhateverTheAnswers : Obligations.DisposeReleasesWhateverTheAnswers := by
  intro s n u six cs rs hcfg ho hu hlt hbound hrun hfree hsix hsched hanswers
  obtain ⟨t, hdone, hexec⟩ :=
    exec_deEnergize (why := .dispose) hcfg ho hu hlt hbound hrun hfree hsix hsched hanswers rfl
  exact ⟨_, hexec, congrArg (fun r : State => { r with sched := cs }) hdone.frame, hdone.unit, hdone.channels⟩

/-- A held STOP or DISPOSE once the run has ended: its turn begins DeEnergize. -/
theorem held_deEnergize {s : State} {u : UnitId} {six rs : List Answer} {why : HoldFor} {ends : DeEnergizeFor}
    (hcfg : s.cfg.Legal) (ho : s.OwnershipOk) (hport : s.port = .busy (.hold u why))
    (hrun : (s.unit u).run ≠ .running) (hfree : s.busLock = .free) (hsix : six.length = 6) (hanswers : s.answers = six ++ rs)
    (hwhy : s.afterHold u why = s.deEnergizeFrom u ends (s.unitChannels u) .ack) :
    DeEnergizeDone s ((List.replicate 13 Choice.port).foldl State.move s) u ends six rs := by
  have hbound : (s.unit u).bound = true := by
    have howns := ho.2.2.2
    rw [State.PortOwns, hport] at howns
    exact howns
  obtain ⟨t, hdone, hfold, -⟩ := deEnergize_runs hcfg ho hbound hfree hsix hanswers ends
  rw [List.replicate_succ, List.foldl_cons, move_hold_of_not_running hport hrun, hwhy, hfold]
  exact hdone

/-- Settles O50: the hold, the turns of the held port, and the command that goes on after the hold. -/
theorem heldCommandsWaitForTheLoop : Obligations.HeldCommandsWaitForTheLoop := by
  refine ⟨fun s n u hu hlt hbound hrun hsched => ?_, fun s u why hport hrun => move_hold_of_running hport hrun,
    fun s u hport hrun => (move_hold_of_not_running hport hrun).trans afterHold_cancel,
    fun s t u why six rs hcfg ho hport hwhy hrun hfree hsix hanswers ht => ?_, fun s n u hu hlt hbound hrun => ?_⟩
  · have hheld (why : HoldFor) : exec (holdInstr n why) s =
        .next { s.setUnit u { s.unit u with cancelReq := true } with port := .busy (.hold u why) } := by
      let s1 : State := { s.setUnit u { s.unit u with cancelReq := true } with port := .busy (.hold u why) }
      have hrest : { s1 with sched := [] } = s1 := congrArg (fun cs => { s1 with sched := cs }) hsched.symm
      have hdrive : s1.drive = s1 := (PrescaleRuns.drive_of_sched (s := s1) hsched).trans hrest
      exact (exec_holdInstr_of_running hu hlt hbound hrun why).trans (congrArg _ hdrive)
    exact ⟨hheld .cancel, hheld .stop, hheld .dispose⟩
  · subst ht
    rcases hwhy with rfl | rfl
    · have hdone := held_deEnergize hcfg ho hport hrun hfree hsix hanswers rfl
      exact ⟨hdone.frame, fun _ => ⟨hdone.unit_stop, hdone.channels⟩, nofun⟩
    · have hdone := held_deEnergize hcfg ho hport hrun hfree hsix hanswers rfl
      exact ⟨hdone.frame, nofun, fun _ => ⟨hdone.unit, hdone.channels⟩⟩
  · have hgoes (why : HoldFor) (hport : s.port = .busy (.hold u why)) :
        exec (holdInstr n why) { s with port := .idle } = .next (s.move .port).drive := by
      rw [exec_holdInstr_of_not_running (s := { s with port := .idle }) hu hlt hbound hrun, afterHold_withPort,
        move_hold_of_not_running hport hrun]
    exact ⟨hgoes .cancel, hgoes .stop, hgoes .dispose⟩

end Sys2Proof.RunEnds
end

section
/-! What IMAGE says of the expander (R31, R63, R64). `State.shadow` is what IMAGE says: a turn leaves it, blanks it (INIT's
general call), or sets it for the channel it writes (`Shown`), and the expander follows each time. -/

namespace Sys2Proof.ImageShadows

open Machine StepRelation StepFrames LockExclusion BusTrace HostWrites

/-! ### Updates that leave the shadow -/

theorem shadow_of_channel {s t : State} (h : ∀ ch, t.channel ch = s.channel ch) : t.shadow = s.shadow :=
  State.shadow_congr fun ch => by rw [h]; exact ⟨rfl, rfl⟩

theorem runOps_shadow (u : UnitId) (ops : List StepOp) (s : State) : (runOps u ops s).2.shadow = s.shadow :=
  runOps_induction (fun t => t.shadow = s.shadow) (fun _ _ _ _ _ h => (State.setUnit_shadow ..).trans h)
    (fun _ _ _ _ h => (State.setSpec_shadow ..).trans h) rfl

theorem conclude_shadow (s : State) (r : Answer) (v : Value) : (s.conclude r v).shadow = s.shadow :=
  shadow_of_channel (by simp)

theorem respondOk_shadow (s : State) (v : Value) : (s.respondOk v).shadow = s.shadow := rfl

theorem raise_shadow (s : State) (e : Err) (v : Value) : (s.raise e v).shadow = s.shadow := shadow_of_channel (by simp)

theorem setOwner_shadow (s : State) (ch : ChannelId) (o : Owner) : (s.setOwner ch o).shadow = s.shadow := by
  refine State.shadow_congr fun d => ?_
  rw [State.setOwner_channel]
  split <;> exact ⟨rfl, rfl⟩

theorem setDisabled_shadow (s : State) (ch : ChannelId) (b : Bool) : (s.setDisabled ch b).shadow = s.shadow := by
  refine State.shadow_congr fun d => ?_
  rw [State.setDisabled_channel]
  split <;> exact ⟨rfl, rfl⟩

theorem setOwners_shadow (s : State) (chs : List ChannelId) (o : Owner) : (s.setOwners chs o).shadow = s.shadow := by
  refine State.shadow_congr fun d => ?_
  rw [State.setOwners_channel]
  split <;> exact ⟨rfl, rfl⟩

theorem transact_shadow (s : State) (a : Agent) (op : BusOp) : (s.transact a op).2.shadow = s.shadow :=
  shadow_of_channel (by simp)

theorem failStep_shadow (s : State) (u : UnitId) : (s.failStep u).shadow = s.shadow := shadow_of_channel (by simp)

theorem loopStepOps_shadow (s : State) (u : UnitId) (ops : List StepOp) : (s.loopStepOps u ops).shadow = s.shadow := by
  rcases s.loopStepOps_cases u ops with ⟨-, he⟩ | ⟨job, -, he⟩ <;> rw [he] <;>
    exact (State.setUnit_shadow ..).trans (runOps_shadow ..)

theorem portStepOps_shadow (s : State) (u : UnitId) (ops : List StepOp) : (s.portStepOps u ops).shadow = s.shadow := by
  rcases s.portStepOps_cases u ops with ⟨-, he⟩ | ⟨job, -, he⟩ <;> rw [he] <;> exact runOps_shadow ..

theorem portApply_shadow (s : State) (ch : ChannelId) (ratio : BitVec 13) (inv : Bool) (v : Value) :
    (s.portApply ch ratio inv v).shadow = s.shadow := by
  rcases s.portApply_cases ch ratio inv v with ⟨-, he⟩ | ⟨-, he⟩ <;> rw [he] <;> exact State.setSpec_shadow ..

theorem finishWrite_shadow (s : State) (ch : ChannelId) (fin : WriteEnd) (r : Answer) :
    (s.finishWrite ch fin r).shadow = s.shadow := by
  cases fin with
  | reply v => exact conclude_shadow s r v
  | release =>
    refine (conclude_shadow ..).trans (State.shadow_congr fun d => ?_)
    rw [State.releaseChannel_channel]
    split <;> exact ⟨rfl, rfl⟩

theorem finishDeEnergize_shadow (s : State) (u : UnitId) (why : DeEnergizeFor) (first : Answer) :
    (s.finishDeEnergize u why first).shadow = s.shadow := by
  rcases s.finishDeEnergize_cases u why first with ⟨-, -, he⟩ | ⟨-, -, he⟩ | ⟨-, -, he⟩ | ⟨-, -, he⟩ <;> rw [he]
  · exact (respondOk_shadow ..).trans (State.setUnit_shadow ..)
  · exact (conclude_shadow ..).trans (State.setUnit_shadow ..)
  · exact (respondOk_shadow ..).trans ((State.setUnit_shadow ..).trans (setOwners_shadow ..))
  · exact (conclude_shadow ..).trans ((State.setUnit_shadow ..).trans (setOwners_shadow ..))

theorem deEnergizeFrom_shadow (s : State) (u : UnitId) (why : DeEnergizeFor) (chs : List ChannelId) (first : Answer) :
    (s.deEnergizeFrom u why chs first).shadow = s.shadow :=
  deEnergizeFrom_induction (fun t => t.shadow = s.shadow) (fun t => t.shadow = s.shadow)
    (fun _ _ _ h => (State.setSpec_shadow ..).trans h) (fun _ h => (finishDeEnergize_shadow ..).trans h)
    (fun _ _ _ h _ _ _ => (State.setSpec_shadow ..).trans h) rfl

theorem afterHold_shadow (s : State) (u : UnitId) (why : HoldFor) : (s.afterHold u why).shadow = s.shadow := by
  cases why with
  | cancel => rfl
  | stop => exact deEnergizeFrom_shadow ..
  | dispose => exact deEnergizeFrom_shadow ..

theorem finishPrescale_shadow (s : State) (addr : BitVec 7) (p : Byte) (why : PrescaleFor) :
    (s.finishPrescale addr p why).shadow = s.shadow := by
  cases why <;> rfl

theorem failPrescale_shadow (s : State) (stage : PrescaleStage) (why : PrescaleFor) (r : Answer) :
    (s.failPrescale stage why r).shadow = s.shadow := by
  unfold State.failPrescale
  split
  · exact raise_shadow ..
  · exact conclude_shadow ..

theorem invalidateImages_shadow (s : State) (ch : ChannelId) : s.invalidateImages.shadow ch = none := by
  rw [State.shadow, State.invalidateImages_channel]
  rfl

theorem shadow_of_begun {s t : State} {i : Instr} (hb : Begun s i t) : t.shadow = s.shadow := by
  cases hb with
  | acq => exact setOwner_shadow ..
  | setduty => exact portApply_shadow ..
  | disable => exact setDisabled_shadow ..
  | enable => exact (portApply_shadow ..).trans (setDisabled_shadow ..)
  | cfgmotor => exact (respondOk_shadow ..).trans ((State.setUnit_shadow ..).trans (setOwners_shadow ..))
  | nextstep =>
    exact (portStepOps_shadow ..).trans ((State.setUnit_shadow ..).trans (State.setUnit_shadow ..))
  | ended => exact afterHold_shadow ..
  | selstyle | setpf | setspeed | stepfor | setpolicy => exact (respondOk_shadow ..).trans (State.setUnit_shadow ..)
  | asked i u => exact State.setUnit_shadow s u { s.unit u with cancelReq := true }
  | answered | init | setfreq | rel => rfl

/-! ### What a turn shows -/

/-- The shadow after write w is answered r. -/
def shadowAfter (shadow : ChannelId → Option Value) (w : PendingWrite) (r : Answer) (ch : ChannelId) : Option Value :=
  if ch = w.ch then (if r = .ack then some w.image else none) else shadow ch

/-- What a turn does to the images and to the expander together. -/
inductive Shown (s t : State) : Prop
  | kept (hshadow : t.shadow = s.shadow) (hexp : KnownIn t.expander s.expander)
  | blank (hshadow : ∀ ch, t.shadow ch = none)
  | prescaled (addr : BitVec 7) (p : Byte) (stage : PrescaleStage) (r : Answer) (hshadow : t.shadow = s.shadow)
      (hexp : t.expander = s.expander.after
        (.write addr (BitVec.ofNat 8 (stageWrite s.cfg p stage).1) [(stageWrite s.cfg p stage).2]) r)
  | image (w : PendingWrite) (r : Answer) (hshadow : t.shadow = shadowAfter s.shadow w r)
      (hexp : KnownIn t.expander (s.expander.after (s.writeOp w) r))

theorem knownIn_refl (m : Memory) : KnownIn m m := fun _ => .inr rfl

theorem knownIn_of_eq {m m' : Memory} (h : m = m') : KnownIn m m' := h ▸ knownIn_refl m

/-- A turn that answers a channel write. -/
theorem shown_of_written {s t : State} {a : Agent} {w : PendingWrite}
    (hshadow : t.shadow = (s.writeImage a w).2.shadow) (hexp : KnownIn t.expander (s.writeImage a w).2.expander) :
    Shown s t :=
  .image w (s.writeImage a w).1 (hshadow.trans (funext (State.writeImage_shadow s a w))) hexp

/-- While INIT programs the expander no IMAGE is valid (R95). -/
def InitBlank (s : State) : Prop :=
  ∀ addr p stage wait, s.port = .busy (.prescale addr p stage wait .init) → ∀ ch, s.shadow ch = none

theorem shown_of_moved {s t : State} {c : Choice} (hm : Moved s c t) : Shown s t := by
  cases hm with
  | stays | tick | portLock => exact .kept rfl (knownIn_refl _)
  | accum | seen | loopLock => exact .kept (State.setUnit_shadow ..) (knownIn_refl _)
  | due u =>
    exact .kept ((loopStepOps_shadow ..).trans (State.setUnit_shadow ..)) (knownIn_of_eq (loopStepOps_expander ..))
  | loopWritten u job => exact shown_of_written (loopStepOps_shadow ..) (knownIn_of_eq (loopStepOps_expander ..))
  | loopFailed u job =>
    exact shown_of_written ((State.setUnit_shadow ..).trans (failStep_shadow ..)) (knownIn_forgetAll (knownIn_refl _) _)
  | channelWritten w fin =>
    exact shown_of_written (finishWrite_shadow ..) (knownIn_of_eq (finishWrite_expander ..))
  | generalCalled => exact .blank (invalidateImages_shadow _)
  | generalCallFailed addr e info =>
    exact .blank fun ch => (congrFun (raise_shadow ..) ch).trans (invalidateImages_shadow _ ch)
  | prescaleDone addr p why hport =>
    exact .kept (finishPrescale_shadow ..) (knownIn_of_eq (finishPrescale_expander ..))
  | prescaleWritten addr p stage why t hport hstage ht =>
    have hshadow : t.2.shadow = s.shadow := by rw [ht]; exact transact_shadow ..
    exact .prescaled addr p stage t.1 hshadow (by rw [ht]; rfl)
  | prescaleFailed addr p stage why t hport hstage ht =>
    have hshadow : t.2.shadow = s.shadow := by rw [ht]; exact transact_shadow ..
    exact .prescaled addr p stage t.1 ((failPrescale_shadow ..).trans hshadow)
      ((failPrescale_expander ..).trans (by rw [ht]; rfl))
  | released u why => exact .kept (afterHold_shadow ..) (knownIn_of_eq (afterHold_expander ..))
  | stepWritten u job => exact shown_of_written (portStepOps_shadow ..) (knownIn_of_eq (portStepOps_expander ..))
  | stepFailed u job =>
    refine shown_of_written ((conclude_shadow ..).trans (failStep_shadow ..)) ?_
    rw [State.conclude_expander]
    exact knownIn_forgetAll (knownIn_refl _) _
  | deEnergizeWritten u why w rest first =>
    refine shown_of_written (deEnergizeFrom_shadow ..) ?_
    obtain ⟨as, has⟩ := (deEnergizeFrom_expander (s.writeImage .port w).2 u why rest
      (firstFailure first (s.writeImage .port w).1)).1
    rw [has]
    exact knownIn_forgetAll (knownIn_refl _) _

/-- Only the end of INIT changes BUS_ADDR, and no IMAGE is valid then (R95). -/
theorem busAddr_of_moved {s t : State} {c : Choice} (hblank : InitBlank s) (hm : Moved s c t) :
    t.busAddr = s.busAddr ∨ ∀ ch, t.shadow ch = none := by
  cases hm with
  | stays | tick | portLock | accum | seen | loopLock => exact .inl rfl
  | due => exact .inl (sameDriver_loopStepOps ..).busAddr
  | loopWritten => exact .inl ((sameDriver_loopStepOps ..).busAddr.trans (by simp))
  | loopFailed => exact .inl (by simp)
  | channelWritten => exact .inl ((sameDriver_finishWrite ..).busAddr.trans (by simp))
  | generalCalled => exact .inl (by simp)
  | generalCallFailed => exact .inl (by simp)
  | prescaleDone addr p why hport =>
    cases why with
    | init => exact .inr fun ch => hblank addr p .done 0 hport ch
    | setfreq => exact .inl rfl
  | prescaleWritten addr p stage why t' _ _ ht => subst ht; exact .inl (by simp)
  | prescaleFailed addr p stage why t' _ _ ht =>
    subst ht
    exact .inl ((sameDriver_failPrescale ..).busAddr.trans (by simp))
  | released => exact .inl (sameDriver_afterHold ..).busAddr
  | stepWritten => exact .inl ((sameDriver_portStepOps ..).busAddr.trans (by simp))
  | stepFailed => exact .inl ((sameDriver_conclude ..).busAddr.trans (by simp))
  | deEnergizeWritten => exact .inl ((sameDriver_deEnergizeFrom ..).busAddr.trans (by simp))

/-! ### The expander holds the images -/

/-- Every image that the shadow knows is what the expander holds, wherever its content is known. -/
def ShadowHeld (s : State) : Prop :=
  ∀ ch v, s.shadow ch = some v → ∀ k : Fin 4,
    s.expander.read (s.imageCell ch k.val) = none ∨ s.expander.read (s.imageCell ch k.val) = (imageBytes v)[k.val]?

theorem shadow_eq_some {s : State} {ch : ChannelId} {v : Value} :
    s.shadow ch = some v ↔ (s.channel ch).imageValid = true ∧ (s.channel ch).image = v := by
  unfold State.shadow
  split
  case isTrue h => simp [h]
  case isFalse h => simp [h]

theorem shadow_eq_none {s : State} {ch : ChannelId} : s.shadow ch = none ↔ (s.channel ch).imageValid = false := by
  unfold State.shadow
  split
  case isTrue h => simp [h]
  case isFalse h => simpa using h

theorem shadowHeld_iff (s : State) : ShadowHeld s ↔ ∀ ch, (s.channel ch).imageValid = true → s.HoldsImage ch := by
  refine ⟨fun h ch hv => h ch _ (shadow_eq_some.2 ⟨hv, rfl⟩), fun h ch v hv => ?_⟩
  obtain ⟨hvalid, rfl⟩ := shadow_eq_some.1 hv
  exact h ch hvalid

/-- The registers of MODE1 and PRESCALE are no channel's (R54). -/
theorem stageWrite_cell_ne {s : State} (hlegal : s.cfg.Legal) (addr : BitVec 7) (p : Byte) (stage : PrescaleStage)
    (ch : ChannelId) (k : Fin 4) :
    cellAddr addr (BitVec.ofNat 8 (stageWrite s.cfg p stage).1) 0 ≠ s.imageCell ch k.val := by
  obtain ⟨-, -, -, -, hend, hmode1, hprescale, -, hmode1', hprescale'⟩ := id hlegal
  have hch := baseRegister_lt s.cfg hlegal ch
  have hbase : s.cfg.ledBase ≤ baseRegister s.cfg ch ∧ baseRegister s.cfg ch ≤ s.cfg.ledBase + s.cfg.ledStride * 15 := by
    have hstride : s.cfg.ledStride * ch.val ≤ s.cfg.ledStride * 15 := Nat.mul_le_mul_left _ (by omega)
    unfold baseRegister
    omega
  have hreg : (stageWrite s.cfg p stage).1 = s.cfg.mode1Addr ∨ (stageWrite s.cfg p stage).1 = s.cfg.prescaleAddr := by
    cases stage with
    | value => exact .inr rfl
    | sleep | wake | restart | done => exact .inl rfl
  unfold State.imageCell
  rw [cellAddr_ofNat _ _ _ (by omega), cellAddr_ofNat _ _ _ (by omega)]
  omega

theorem shadowHeld_of_shown {s t : State} (hlegal : s.cfg.Legal) (hcfg : t.cfg = s.cfg) (hbus : t.busAddr = s.busAddr)
    (h : ShadowHeld s) (hs : Shown s t) : ShadowHeld t := by
  have hcell (ch : ChannelId) (k : Nat) : t.imageCell ch k = s.imageCell ch k := by
    unfold State.imageCell
    rw [hbus, hcfg]
  intro ch v hv k
  rw [hcell]
  have of_known {m : Memory} (hm : KnownIn t.expander m) (hread : m.read (s.imageCell ch k.val) = none ∨
      m.read (s.imageCell ch k.val) = (imageBytes v)[k.val]?) : t.expander.read (s.imageCell ch k.val) = none ∨
        t.expander.read (s.imageCell ch k.val) = (imageBytes v)[k.val]? := by
    rcases hm (s.imageCell ch k.val) with hnone | heq
    · exact .inl hnone
    · rw [heq]; exact hread
  cases hs with
  | kept hshadow hexp =>
    rw [hshadow] at hv
    exact of_known hexp (h ch v hv k)
  | blank hshadow => rw [hshadow] at hv; cases hv
  | prescaled addr p stage r hshadow hexp =>
    rw [hshadow] at hv
    by_cases hr : r = .ack
    · subst hr
      rw [hexp, Memory.read_after_of_ne]
      · exact h ch v hv k
      · intro j hj
        obtain rfl : j = 0 := by simpa using hj
        exact stageWrite_cell_ne hlegal addr p stage ch k
    · rw [hexp, Memory.after_of_ne_ack _ _ _ hr]
      exact .inl rfl
  | image w r hshadow hexp =>
    rw [hshadow, shadowAfter] at hv
    by_cases hr : r = .ack
    · subst hr
      refine of_known hexp ?_
      by_cases hch : ch = w.ch
      · rw [if_pos hch, if_pos rfl] at hv
        cases hv
        subst hch
        exact .inr ((imageAnswered_of_after (s := s) (t := { s with expander := s.expander.after (s.writeOp w) .ack })
          (w := w) (r := .ack) rfl k).trans (if_pos rfl))
      · rw [if_neg hch] at hv
        have hne := Memory.read_after_of_ne s.expander s.busAddr (BitVec.ofNat 8 (baseRegister s.cfg w.ch))
          (imageBytes w.image) (s.imageCell ch k.val) fun j hj he =>
            StepRuns.imageCell_ne hlegal (Ne.symm hch) ⟨j, by simpa [imageBytes] using hj⟩ k he
        rw [State.writeOp, hne]
        exact h ch v hv k
    · refine of_known hexp (.inl ?_)
      rw [Memory.after_of_ne_ack _ _ _ hr]
      rfl

/-! ### While INIT programs the expander -/

/-- A loop whose write is past Lock() leaves the port outside its critical section (R66). -/
theorem port_out_of_loop {s : State} (hlock : s.LockOk) {u : UnitId} {job : StepJob}
    (hjob : (s.unit u).stepJob = some job) (hlocked : job.write.locked = true) : s.port.inCritical = false := by
  obtain ⟨hport, hloops, -, -⟩ := hlock
  have hloop : s.busLock = .loop u := (hloops u).2 (inCritical_of_job hjob hlocked)
  refine Bool.eq_false_iff.2 fun hin => ?_
  rw [hport.2 hin] at hloop
  cases hloop

theorem initBlank_of_moved {s t : State} {c : Choice} (hlock : s.LockOk) (hblank : InitBlank s) (hm : Moved s c t) :
    InitBlank t := by
  intro addr p stage wait hport ch
  have kept (hp : s.port = .busy (.prescale addr p stage wait .init)) (hshadow : t.shadow = s.shadow) :
      t.shadow ch = none := by
    rw [hshadow]
    exact hblank addr p stage wait hp ch
  cases hm with
  | stays => exact kept hport rfl
  | tick =>
    cases hp : s.port with
    | idle => simp [State.tick, hp, PortState.tick] at hport
    | busy job =>
      cases job <;> simp [State.tick, hp, PortState.tick] at hport
      obtain ⟨-, -, -, -, rfl⟩ := hport
      exact hblank _ _ _ _ hp ch
  | accum | seen | loopLock => exact kept hport (State.setUnit_shadow ..)
  | due u => exact kept (by simpa using hport) ((loopStepOps_shadow ..).trans (State.setUnit_shadow ..))
  | loopWritten u job _ hjob hlocked =>
    have hout := port_out_of_loop hlock hjob hlocked
    rw [show s.port = _ by simpa using hport] at hout
    cases hout
  | loopFailed u job _ hjob hlocked =>
    have hout := port_out_of_loop hlock hjob hlocked
    rw [show s.port = _ by simpa using hport] at hout
    cases hout
  | portLock job hp hout =>
    cases job <;> simp [lockedJob] at hport
    obtain ⟨-, -, -, -, rfl⟩ := hport
    cases hout
  | generalCalled => exact invalidateImages_shadow _ ch
  | prescaleWritten addr' p' stage' why t' hp _ ht =>
    have hshadow : t'.2.shadow = s.shadow := by rw [ht]; exact transact_shadow ..
    simp only [PortState.busy.injEq, PortJob.prescale.injEq] at hport
    obtain ⟨-, -, -, -, rfl⟩ := hport
    exact (congrFun hshadow ch).trans (hblank _ _ _ _ hp ch)
  | channelWritten | generalCallFailed | prescaleDone | prescaleFailed | stepFailed => simp at hport
  | released u why =>
    rcases afterHold_port s u why with h | ⟨_, _, _, _, _, h⟩ <;> rw [h] at hport <;> cases hport
  | stepWritten u job =>
    rcases portStepOps_port (s.writeImage .port job.write).2 u job.rest with h | ⟨_, _, h⟩ <;> rw [h] at hport <;>
      cases hport
  | deEnergizeWritten u why w rest first =>
    rcases deEnergizeFrom_port (s.writeImage .port w).2 u why rest (firstFailure first (s.writeImage .port w).1) with
      h | ⟨_, _, _, _, h⟩ <;> rw [h] at hport <;> cases hport

theorem initBlank_of_begun {s t : State} {i : Instr} (hb : Begun s i t) : InitBlank t := by
  intro addr p stage wait hport
  have hnot : t.port = .idle ∨ ∀ addr p stage wait why, t.port ≠ .busy (.prescale addr p stage wait why) := by
    cases hb with
    | setduty ch frac inv =>
      rcases portApply_port s ch (BitVec.ofNat 13 (ratioOf frac)) inv (packValue [(0, ratioOf frac)]) with h | h
      · exact .inl h
      · exact .inr fun _ _ _ _ _ hp => by rw [h] at hp; cases hp
    | enable ch =>
      rcases portApply_port (s.setDisabled ch false) ch (s.channel ch).specRatio (s.channel ch).specInv 0 with h | h
      · exact .inl h
      · exact .inr fun _ _ _ _ _ hp => by rw [h] at hp; cases hp
    | nextstep n dir u =>
      rcases portStepOps_port ((s.setUnit u (s.unit u).handStep).advanceIndex u dir) u
        (((s.setUnit u (s.unit u).handStep).advanceIndex u dir).stepOps u) with h | ⟨_, _, h⟩
      · exact .inl h
      · exact .inr fun _ _ _ _ _ hp => by rw [h] at hp; cases hp
    | ended i u why =>
      rcases afterHold_port s u why with h | ⟨_, _, _, _, _, h⟩
      · exact .inl h
      · exact .inr fun _ _ _ _ _ hp => by rw [h] at hp; cases hp
    | init | setfreq | rel | disable | asked => exact .inr nofun
    | answered | acq | cfgmotor | selstyle | setpf | setspeed | stepfor | setpolicy => exact .inl rfl
  rcases hnot with hidle | hnot
  · rw [hidle] at hport; cases hport
  · exact absurd hport (hnot addr p stage wait .init)

/-! ### IMAGE stays true -/

theorem imagesTrue_iff (s : State) : s.ImagesTrue ↔ s.cfg.Legal ∧ s.LockOk ∧ ShadowHeld s ∧ InitBlank s := by
  have hblank : InitBlank s ↔ ∀ addr p stage wait, s.port = .busy (.prescale addr p stage wait .init) →
      ∀ ch, (s.channel ch).imageValid = false := by
    simp only [InitBlank, shadow_eq_none]
  rw [State.ImagesTrue, shadowHeld_iff, hblank]

theorem imagesTrue_of_moved {s t : State} {c : Choice} (h : s.ImagesTrue) (hm : Moved s c t) : t.ImagesTrue := by
  obtain ⟨hlegal, hlock, hheld, hblank⟩ := (imagesTrue_iff s).1 h
  have hcfg := cfg_of_moved hm
  refine (imagesTrue_iff t).2 ⟨hcfg ▸ hlegal, lockOk_of_moved hlock hm, ?_, initBlank_of_moved hlock hblank hm⟩
  rcases busAddr_of_moved hblank hm with hbus | hnone
  · exact shadowHeld_of_shown hlegal hcfg hbus hheld (shown_of_moved hm)
  · intro ch v hv
    rw [hnone] at hv
    cases hv

theorem step_keeps_imagesTrue (s t : State) (h : s.ImagesTrue) (ht : step s = .next t) : t.ImagesTrue := by
  refine step_keeps_of_turns State.ImagesTrue (fun _ _ h => h) (fun _ _ _ h => h) (fun _ _ h => h)
    (fun _ _ _ h hm => imagesTrue_of_moved h hm) (fun s e h hidle => ?_) (fun s i t h hidle _ hb => ?_) s t h ht
  · obtain ⟨hlegal, hlock, hheld, -⟩ := (imagesTrue_iff s).1 h
    have hcfg : (s.raise e 0).cfg = s.cfg := by simp
    have hbus : (s.raise e 0).busAddr = s.busAddr := by simp
    refine (imagesTrue_iff _).2 ⟨hcfg ▸ hlegal,
      lockOk_raise (unitsLockOk_of_out hlock (by rw [hidle]; rfl)) e 0, ?_, nofun⟩
    exact shadowHeld_of_shown hlegal hcfg hbus hheld (.kept (raise_shadow ..) (knownIn_of_eq (by simp)))
  · obtain ⟨hlegal, hlock, hheld, -⟩ := (imagesTrue_iff s).1 h
    have hdriver := sameDriver_of_begun hb
    refine (imagesTrue_iff t).2 ⟨hdriver.cfg ▸ hlegal, lockOk_of_begun hlock hidle hb, ?_, initBlank_of_begun hb⟩
    exact shadowHeld_of_shown hlegal hdriver.cfg hdriver.busAddr hheld
      (.kept (shadow_of_begun hb) (knownIn_of_eq (bus_of_begun hb).expander))

end Sys2Proof.ImageShadows
end

section
/-! LAST is true of the coils (R38, R113 to R117, R139, R159). Another agent's turn leaves a unit's two ports, its LAST and
the shadow of its channels (`SameCoils`); a Step goes on to what its operations make true, and DeEnergize to a LAST that
is off. -/

namespace Sys2Proof.TrueLasts

open Machine StepRelation StepFrames LockExclusion ChannelOwners BusTrace JobOwners HostWrites PacedTurns ImageShadows

/-! ### The parts of LastTrue -/

/-- What LAST says of unit u while the port does not drive it. -/
structure UnitTrue (s : State) (u : UnitId) : Prop where
  idle : (s.unit u).stepJob = none → ∀ c, ((s.unit u).last c).TrueOf (s.coilTriple u c) s.shadow
  job : ∀ job, (s.unit u).stepJob = some job → s.JobWillBeTrue u job

/-- Only a bound unit's LAST is valid, and a unit is bound only after INIT. -/
structure LastsBound (s : State) : Prop where
  bound : ∀ u c, ((s.unit u).last c).valid = true → (s.unit u).bound = true
  initialized : ∀ u, (s.unit u).bound = true → s.initialized = true
  calling : ∀ addr locked, s.port = .busy (.generalCall addr locked) → s.initialized = false

/-- Where DeEnergize of unit u has come to (R117). -/
structure OffSoFar (s : State) (u : UnitId) (w : PendingWrite) (rest : List ChannelId) (first : Answer) : Prop where
  image : w.image = fullOff
  done : first = .ack → ∀ ch ∈ s.unitChannels u, ch ≠ w.ch → ch ∉ rest → s.shadow ch = some fullOff

/-- What LAST says of the coils. -/
structure CoilsTrue (s : State) : Prop where
  units : ∀ u, s.port.drives ≠ some u → UnitTrue s u
  step : ∀ u job, s.port = .busy (.step u job) → s.JobWillBeTrue u job
  off : ∀ u why w rest first, s.port = .busy (.deEnergize u why w rest first) → OffSoFar s u w rest first

theorem lastTrue_iff (s : State) : s.LastTrue ↔ LastsBound s ∧ CoilsTrue s := by
  refine ⟨fun ⟨hb, hi, hc, hu, hs, ho⟩ => ⟨⟨hb, hi, hc⟩, ⟨fun u hd => ?_, hs, fun u why w rest first hp => ?_⟩⟩,
    fun ⟨⟨hb, hi, hc⟩, ⟨hu, hs, ho⟩⟩ => ⟨hb, hi, hc, fun u hd => ?_, hs, fun u why w rest first hp => ?_⟩⟩
  · obtain ⟨hidle, hjob⟩ := hu u hd
    exact ⟨hidle, hjob⟩
  · obtain ⟨himage, hdone⟩ := ho u why w rest first hp
    exact ⟨himage, hdone⟩
  · exact ⟨(hu u hd).idle, (hu u hd).job⟩
  · exact ⟨(ho u why w rest first hp).image, (ho u why w rest first hp).done⟩

/-! ### What leaves a unit's coils alone -/

/-- Unit u's ports, its LAST and what is known of its channels are in t as in s. -/
structure SameCoils (s t : State) (u : UnitId) : Prop where
  triple : t.coilTriple u = s.coilTriple u
  last : (t.unit u).last = (s.unit u).last
  shadow : ∀ ch ∈ s.unitChannels u, t.shadow ch = s.shadow ch

theorem mem_unitChannels {s : State} {u : UnitId} {c : Coil} {ch : ChannelId} (h : ch ∈ (s.coilTriple u c).channels) :
    ch ∈ s.unitChannels u := by
  cases c with
  | a => exact List.mem_append_right _ h
  | b => exact List.mem_append_left _ h

section

variable {s t : State} {u : UnitId}

theorem SameCoils.unitChannels (h : SameCoils s t u) : t.unitChannels u = s.unitChannels u := by
  rw [State.unitChannels, h.triple, State.unitChannels]

theorem SameCoils.trans {r : State} (h : SameCoils s t u) (g : SameCoils t r u) : SameCoils s r u where
  triple := g.triple.trans h.triple
  last := g.last.trans h.last
  shadow ch hch := (g.shadow ch (by rw [h.unitChannels]; exact hch)).trans (h.shadow ch hch)

theorem SameCoils.trueOf (h : SameCoils s t u) {c : Coil} (ht : ((s.unit u).last c).TrueOf (s.coilTriple u c) s.shadow) :
    ((t.unit u).last c).TrueOf (t.coilTriple u c) t.shadow := by
  rw [h.last, h.triple]
  exact ht.congr fun ch hch => (h.shadow ch (mem_unitChannels hch)).symm

theorem SameCoils.jobWillBeTrue (h : SameCoils s t u) {job job' : StepJob} (hrest : job'.rest = job.rest)
    (hch : job'.write.ch = job.write.ch) (himage : job'.write.image = job.write.image) (hj : s.JobWillBeTrue u job) :
    t.JobWillBeTrue u job' := by
  unfold State.JobWillBeTrue at hj ⊢
  rw [h.last, h.triple, hrest, hch, himage]
  refine hj.congr fun c ch hmem => ?_
  rw [h.shadow ch (mem_unitChannels hmem)]

theorem SameCoils.unitTrue (h : SameCoils s t u) (hjob : (t.unit u).stepJob = (s.unit u).stepJob) (hu : UnitTrue s u) :
    UnitTrue t u where
  idle hnone c := h.trueOf (hu.idle (hjob ▸ hnone) c)
  job j hj := h.jobWillBeTrue rfl rfl rfl (hu.job j (hjob ▸ hj))

theorem SameCoils.offSoFar (h : SameCoils s t u) {w w' : PendingWrite} {rest : List ChannelId} {first : Answer}
    (hch : w'.ch = w.ch) (himage : w'.image = w.image) (ho : OffSoFar s u w rest first) : OffSoFar t u w' rest first where
  image := himage.trans ho.image
  done hfirst ch hmem hne hrest := by
    rw [h.unitChannels] at hmem
    rw [h.shadow ch hmem]
    exact ho.done hfirst ch hmem (hch ▸ hne) hrest

theorem sameCoils_of_eq (hcfg : t.cfg = s.cfg) (hunit : t.unit u = s.unit u) (hshadow : t.shadow = s.shadow) :
    SameCoils s t u :=
  ⟨State.coilTriple_congr hcfg (by rw [hunit]) (by rw [hunit]), by rw [hunit], fun ch _ => congrFun hshadow ch⟩

theorem sameCoils_setUnit (s : State) {v : UnitId} {y : UnitState} (hlast : y.last = (s.unit v).last)
    (ha : y.portA = (s.unit v).portA) (hb : y.portB = (s.unit v).portB) (u : UnitId) :
    SameCoils s (s.setUnit v y) u := by
  by_cases hv : v = u
  · subst hv
    refine ⟨State.coilTriple_congr rfl ?_ ?_, ?_, fun ch _ => congrFun (State.setUnit_shadow ..) ch⟩ <;>
      rw [State.setUnit_unit_self]
    · exact ha
    · exact hb
    · exact hlast
  · exact sameCoils_of_eq rfl (State.setUnit_unit_ne _ _ _ _ hv) (State.setUnit_shadow ..)

/-- A LAST that is not valid and no Step under way say nothing. -/
theorem unitTrue_of_invalid (hjob : (s.unit u).stepJob = none) (hlast : ∀ c, ((s.unit u).last c).valid = false) :
    UnitTrue s u where
  idle _ c := Last.trueOf_of_invalid _ _ _ (hlast c)
  job j hj := by rw [hjob] at hj; cases hj

end

/-! ### A Step on its way -/

section

variable {s : State} {u : UnitId} {ops : List StepOp}

theorem loopStepOps_unitTrue (henabled : ∀ w ∈ stepWrites ops, (s.channel w.1).disabled = false)
    (h : LastWillBeTrue (s.coilTriple u) ops s.shadow (s.unit u).last) : UnitTrue (s.loopStepOps u ops) u := by
  obtain ⟨hshadow, htriple, hend, hnext⟩ := runOps_lastWillBeTrue u ops s henabled h
  rcases s.loopStepOps_cases u ops with ⟨hnone, he⟩ | ⟨job, hjob, he⟩ <;> rw [he]
  · have hsame := sameCoils_setUnit (runOps u ops s).2 (v := u) (y := ((runOps u ops s).2.unit u).stepDone) rfl rfl rfl u
    refine ⟨fun _ c => hsame.trueOf ?_, fun j hj => ?_⟩
    · rw [htriple, hshadow]
      exact hend hnone c
    · rw [State.setUnit_unit_self] at hj
      cases hj
  · have hsame := sameCoils_setUnit (runOps u ops s).2 (v := u)
      (y := { (runOps u ops s).2.unit u with stepJob := some job }) rfl rfl rfl u
    refine ⟨fun hnone => ?_, fun j hj => hsame.jobWillBeTrue rfl rfl rfl ?_⟩
    · rw [State.setUnit_unit_self] at hnone
      cases hnone
    · rw [State.setUnit_unit_self] at hj
      cases hj
      exact hnext job hjob

/-- NEXTSTEP's Step either goes on, or has ended with LAST true. -/
theorem portStepOps_true (henabled : ∀ w ∈ stepWrites ops, (s.channel w.1).disabled = false)
    (h : LastWillBeTrue (s.coilTriple u) ops s.shadow (s.unit u).last) (hnone : (s.unit u).stepJob = none) :
    ((s.portStepOps u ops).port = .idle ∧ UnitTrue (s.portStepOps u ops) u) ∨
      ∃ job, (s.portStepOps u ops).port = .busy (.step u job) ∧ (s.portStepOps u ops).JobWillBeTrue u job := by
  obtain ⟨hshadow, htriple, hend, hnext⟩ := runOps_lastWillBeTrue u ops s henabled h
  have hstill : ((runOps u ops s).2.unit u).stepJob = none :=
    (congrArg UnitState.stepJob (PacingLoop.runOps_unit u ops s u)).trans hnone
  rcases s.portStepOps_cases u ops with ⟨hdone, he⟩ | ⟨job, hjob, he⟩ <;> rw [he]
  · refine .inl ⟨rfl, fun _ c => ?_, fun j hj => ?_⟩
    · have htrue := hend hdone c
      rw [← htriple, ← hshadow] at htrue
      exact htrue
    · exact absurd (hstill.symm.trans hj) nofun
  · exact .inr ⟨job, rfl, hnext job hjob⟩

/-- The writes of a Step of a bound unit are of enabled channels. -/
theorem enabled_of_on (ho : Owned s) (hbound : (s.unit u).bound = true) (h : ∀ w ∈ stepWrites ops, w.1 ∈ s.unitChannels u) :
    ∀ w ∈ stepWrites ops, (s.channel w.1).disabled = false := fun w hw => ho.not_disabled hbound (h w hw)

/-- The job's write acknowledged, the rest of the Step makes LAST true. -/
theorem lastWillBeTrue_of_written {a : Agent} {job : StepJob} (h : s.JobWillBeTrue u job)
    (hack : (s.writeImage a job.write).1 = .ack) :
    LastWillBeTrue ((s.writeImage a job.write).2.coilTriple u) job.rest (s.writeImage a job.write).2.shadow
      ((s.writeImage a job.write).2.unit u).last := by
  have htriple : (s.writeImage a job.write).2.coilTriple u = s.coilTriple u :=
    State.coilTriple_congr (by simp) (by simp) (by simp)
  rw [htriple, State.writeImage_unit]
  refine h.congr fun c ch hch => ?_
  rw [State.writeImage_shadow, hack, if_pos rfl]

end

/-! ### What a turn of a pacing loop makes true -/

/-- What the rest of a proof about LAST needs of the state before. -/
structure Coupled (s : State) : Prop where
  legal : s.cfg.Legal
  lock : s.LockOk
  owned : s.OwnershipOk
  jobs : s.JobsOwn

section

variable {s t : State} {u : UnitId}

theorem accum_last (x : UnitState) : x.accum.last = x.last ∧ x.accum.portA = x.portA ∧ x.accum.portB = x.portB := by
  rcases x.accum_cases with he | he | he <;> rw [he] <;> exact ⟨rfl, rfl, rfl⟩

/-- A paced Step that begins will make LAST true (R115, R128). -/
theorem due_unitTrue (h : Coupled s) (hrun : (s.unit u).run = .running) (hu : UnitTrue s u)
    (hnone : (s.unit u).stepJob = none) :
    UnitTrue ((s.advanceIndex u (s.unit u).dir).loopStepOps u ((s.advanceIndex u (s.unit u).dir).stepOps u)) u := by
  let s1 := s.advanceIndex u (s.unit u).dir
  have hbound : (s.unit u).bound = true := ((jobsOwn_iff s).1 h.jobs).1.running u hrun
  have hsame : SameCoils s s1 u :=
    sameCoils_setUnit s (y := { s.unit u with index := nextIndex (s.unit u) (s.unit u).dir }) rfl rfl rfl u
  have howners := sameOwners_advanceIndex s u (s.unit u).dir
  have hbound1 : (s1.unit u).bound = true := (howners.ports u).1.trans hbound
  refine loopStepOps_unitTrue (enabled_of_on ((owned_of_ownershipOk h.owned).congr howners) hbound1 (s1.stepOps_on u)) ?_
  refine s1.stepOps_lastWillBeTrue u ?_ fun c => hsame.trueOf (hu.idle hnone c)
  rw [hsame.unitChannels]
  exact StepOrder.nodup_unitChannels h.legal h.owned hbound

theorem unitTrue_of_own_turn (h : Coupled s) (hu : UnitTrue s u) (hm : Moved s (.loop u) t) : UnitTrue t u := by
  obtain ⟨hloops, -⟩ := (jobsOwn_iff s).1 h.jobs
  cases hm with
  | stays => exact hu
  | accum _ hrun hjob =>
    obtain ⟨hlast, ha, hb⟩ := accum_last (s.unit u)
    refine (sameCoils_setUnit s hlast ha hb u).unitTrue ?_ hu
    rw [State.setUnit_unit_self, accum_run_of_job hjob, hjob]
  | seen _ hrun hjob =>
    refine (sameCoils_setUnit s ?_ ?_ ?_ u).unitTrue ?_ hu
    · split <;> rfl
    · split <;> rfl
    · split <;> rfl
    · rw [State.setUnit_unit_self, hjob]
      split
      · exact hjob
      · rfl
  | due _ hrun hjob => exact due_unitTrue h hrun hu hjob
  | loopLock _ job hrun hjob =>
    have hsame := sameCoils_setUnit { s with busLock := .loop u } (v := u)
      (y := { s.unit u with stepJob := some ⟨{ job.write with locked := true }, job.rest⟩ }) rfl rfl rfl u
    refine ⟨fun hnone => ?_, fun j hj => ?_⟩
    · rw [State.setUnit_unit_self] at hnone
      cases hnone
    · rw [State.setUnit_unit_self] at hj
      cases hj
      have hjob' : State.JobWillBeTrue { s with busLock := .loop u } u job := hu.job job hjob
      exact hsame.jobWillBeTrue rfl rfl rfl hjob'
  | loopWritten _ job hrun hjob hlocked hack =>
    obtain ⟨hbound, -, hrest⟩ := hloops.jobs u job hjob
    have howners := sameOwners_writeImage s (.loop u) job.write
    refine loopStepOps_unitTrue (enabled_of_on ((owned_of_ownershipOk h.owned).congr howners)
      ((howners.ports u).1.trans hbound) ?_) (lastWillBeTrue_of_written (hu.job job hjob) hack)
    rw [howners.unitChannels]
    exact hrest
  | loopFailed _ job hrun hjob =>
    refine unitTrue_of_invalid ?_ fun c => ?_ <;> rw [State.setUnit_unit_self]
    · rfl
    · rw [State.failStep_unit, if_pos rfl]
      cases c <;> rfl

/-- A pacing loop's turn leaves another bound unit's coils alone (R66, R110). -/
theorem sameCoils_of_loop (h : Coupled s) {v : UnitId} (hv : v ≠ u) (hbound : (s.unit v).bound = true)
    (hm : Moved s (.loop u) t) : SameCoils s t v := by
  have hunit := unit_of_loop_ne hm hv
  have ho := owned_of_ownershipOk h.owned
  obtain ⟨hloops, -⟩ := (jobsOwn_iff s).1 h.jobs
  refine ⟨State.coilTriple_congr (cfg_of_moved hm) (by rw [hunit]) (by rw [hunit]), by rw [hunit], fun ch hch => ?_⟩
  have hchannel : t.channel ch = s.channel ch := by
    by_cases hu : (s.unit u).bound = true
    · exact channel_of_loop hloops hm fun hmem => hv (ho.disjoint hbound hu hch hmem)
    · have hstopped : (s.unit u).run ≠ .running := fun hr => hu (hloops.running u hr)
      cases hm with
      | stays => rfl
      | accum _ hrun | seen _ hrun | due _ hrun | loopLock _ _ hrun | loopWritten _ _ hrun | loopFailed _ _ hrun =>
        exact absurd hrun hstopped
  unfold State.shadow
  rw [hchannel]

/-- A unit that is not bound in s and whose registers do not change has nothing to say. -/
theorem unitTrue_of_unbound_same (hl : LastsBound s) (hown : s.JobsOwn) {v : UnitId} (hbound : (s.unit v).bound ≠ true)
    (hunit : t.unit v = s.unit v) : UnitTrue t v := by
  obtain ⟨hloops, -⟩ := (jobsOwn_iff s).1 hown
  refine unitTrue_of_invalid ?_ fun c => ?_ <;> rw [hunit]
  · cases hjob : (s.unit v).stepJob with
    | none => rfl
    | some job => exact absurd (hloops.jobs v job hjob).1 hbound
  · exact Bool.eq_false_iff.2 fun hv => hbound (hl.bound v c hv)

/-- A unit that keeps its registers while its coils are left alone goes on as it was. -/
theorem unitTrue_of_same (hl : LastsBound s) (hown : s.JobsOwn) {v : UnitId} (hunit : t.unit v = s.unit v)
    (hsame : (s.unit v).bound = true → SameCoils s t v) (hu : UnitTrue s v) : UnitTrue t v := by
  by_cases hbound : (s.unit v).bound = true
  · exact (hsame hbound).unitTrue (by rw [hunit]) hu
  · exact unitTrue_of_unbound_same hl hown hbound hunit

theorem coilsTrue_of_loop (h : Coupled s) (hl : LastsBound s) (hc : CoilsTrue s) (hm : Moved s (.loop u) t) :
    CoilsTrue t := by
  have hport : t.port = s.port := by rw [onlyBus_of_loop hm]
  obtain ⟨-, hportOwn⟩ := (jobsOwn_iff s).1 h.jobs
  have hundriven {v : UnitId} (hd : s.port.drives = some v) : v = u → t = s := by
    rintro rfl
    have hstopped := h.lock.2.2.2 v hd
    cases hm with
    | stays => rfl
    | accum _ hrun | seen _ hrun | due _ hrun | loopLock _ _ hrun | loopWritten _ _ hrun | loopFailed _ _ hrun =>
      exact absurd hrun hstopped
  have hsame {v : UnitId} (hd : s.port.drives = some v) (hbound : (s.unit v).bound = true) : SameCoils s t v := by
    by_cases hv : v = u
    · rw [hundriven hd hv]
      exact sameCoils_of_eq rfl rfl rfl
    · exact sameCoils_of_loop h hv hbound hm
  refine ⟨fun v hd => ?_, fun v job hp => ?_, fun v why w rest first hp => ?_⟩
  · rw [hport] at hd
    by_cases hv : v = u
    · subst hv
      exact unitTrue_of_own_turn h (hc.units v hd) hm
    · exact unitTrue_of_same hl h.jobs (unit_of_loop_ne hm hv) (fun hb => sameCoils_of_loop h hv hb hm) (hc.units v hd)
  · rw [hport] at hp
    rw [State.PortJobOwn, hp] at hportOwn
    obtain ⟨hbound, -⟩ := hportOwn
    exact (hsame (by rw [hp]; rfl) hbound).jobWillBeTrue rfl rfl rfl (hc.step v job hp)
  · rw [hport] at hp
    rw [State.PortJobOwn, hp] at hportOwn
    obtain ⟨hbound, -⟩ := hportOwn
    exact (hsame (by rw [hp]; rfl) hbound).offSoFar rfl rfl (hc.off v why w rest first hp)

end

/-! ### What a turn of the port makes true -/

section

variable {s t : State} {u : UnitId}

/-- A port that drives no unit and left every unit's registers and coils alone. -/
theorem coilsTrue_of_undriven (h : Coupled s) (hl : LastsBound s) (hc : CoilsTrue s) (hs : s.port.drives = none)
    (ht : t.port.drives = none) (hunits : ∀ v, t.unit v = s.unit v)
    (hsame : ∀ v, (s.unit v).bound = true → SameCoils s t v) : CoilsTrue t where
  units v _ := unitTrue_of_same hl h.jobs (hunits v) (hsame v) (hc.units v (by rw [hs]; nofun))
  step v job hp := by rw [hp] at ht; cases ht
  off v why w rest first hp := by rw [hp] at ht; cases ht

/-- A port whose write was to a channel that unit v does not own leaves v's coils alone. -/
theorem sameCoils_of_written {a : Agent} {w : PendingWrite} {v : UnitId} (ho : Owned s)
    (hbound : (s.unit v).bound = true) (hw : (s.channel w.ch).owner ≠ .unit v) (hcfg : t.cfg = s.cfg)
    (hunit : t.unit v = s.unit v) (hshadow : t.shadow = (s.writeImage a w).2.shadow) : SameCoils s t v := by
  refine ⟨State.coilTriple_congr hcfg (by rw [hunit]) (by rw [hunit]), by rw [hunit], fun ch hch => ?_⟩
  rw [hshadow, State.writeImage_shadow]
  refine if_neg fun he => hw ?_
  rw [← he]
  exact (ho.units v hbound).2 ch hch

/-- The registers of the unit that the port drives say nothing while it does. -/
theorem coilsTrue_of_driven (hunits : ∀ v, v ≠ u → UnitTrue t v)
    (ht : (t.port = .idle ∧ UnitTrue t u) ∨ (∃ job, t.port = .busy (.step u job) ∧ t.JobWillBeTrue u job) ∨
      ∃ why w rest first, t.port = .busy (.deEnergize u why w rest first) ∧ OffSoFar t u w rest first) :
    CoilsTrue t := by
  refine ⟨fun v hd => ?_, fun v job hp => ?_, fun v why w rest first hp => ?_⟩
  · by_cases hv : v = u
    · subst hv
      rcases ht with ⟨-, hu⟩ | ⟨job, hp, -⟩ | ⟨why, w, rest, first, hp, -⟩
      · exact hu
      · rw [hp] at hd; exact absurd rfl hd
      · rw [hp] at hd; exact absurd rfl hd
    · exact hunits v hv
  · rcases ht with ⟨hidle, -⟩ | ⟨job', hp', hj⟩ | ⟨_, _, _, _, hp', -⟩
    · rw [hidle] at hp; cases hp
    · rw [hp'] at hp; cases hp; exact hj
    · rw [hp'] at hp; cases hp
  · rcases ht with ⟨hidle, -⟩ | ⟨_, hp', -⟩ | ⟨_, _, _, _, hp', ho⟩
    · rw [hidle] at hp; cases hp
    · rw [hp'] at hp; cases hp
    · rw [hp'] at hp; cases hp; exact ho

theorem deEnergizeFrom_unit_of_ne {v : UnitId} (hv : v ≠ u) (s : State) (why : DeEnergizeFor) (chs : List ChannelId)
    (first : Answer) : (s.deEnergizeFrom u why chs first).unit v = s.unit v :=
  deEnergizeFrom_induction (fun t => t.unit v = s.unit v) (fun t => t.unit v = s.unit v)
    (fun _ _ _ h => by rw [State.setSpec_unit]; exact h)
    (fun _ h => by rw [finishDeEnergize_unit, if_neg (Ne.symm hv)]; exact h)
    (fun t ch _ h _ _ _ => (State.setSpec_unit t ch 0 false v).trans h) rfl

theorem portStepOps_unit_of_ne {v : UnitId} (hv : v ≠ u) (s : State) (ops : List StepOp) :
    (s.portStepOps u ops).unit v = s.unit v := by
  have hruns := runOps_unit_of_ne u ops s v hv
  rcases s.portStepOps_cases u ops with ⟨-, he⟩ | ⟨job, -, he⟩ <;> rw [he] <;> exact hruns

/-- A turn of the port changes no registers but of the unit it drives or holds for. -/
theorem unit_of_port (hm : Moved s .port t) (v : UnitId) : t.unit v = s.unit v ∨
    (∃ job, s.port = .busy (.step v job)) ∨ (∃ why w rest first, s.port = .busy (.deEnergize v why w rest first)) ∨
      ∃ why, s.port = .busy (.hold v why) := by
  cases hm with
  | stays | portLock => exact .inl rfl
  | channelWritten | generalCalled | generalCallFailed | prescaleDone => exact .inl (by simp)
  | prescaleWritten addr p stage why t' _ _ ht => subst ht; exact .inl (by simp)
  | prescaleFailed addr p stage why t' _ _ ht => subst ht; exact .inl (by simp)
  | released u why hport =>
    by_cases hv : v = u
    · subst hv
      exact .inr (.inr (.inr ⟨why, hport⟩))
    · left
      cases why with
      | cancel => rfl
      | stop => exact deEnergizeFrom_unit_of_ne hv s .stop _ .ack
      | dispose => exact deEnergizeFrom_unit_of_ne hv s .dispose _ .ack
  | stepWritten u job hport =>
    by_cases hv : v = u
    · subst hv
      exact .inr (.inl ⟨job, hport⟩)
    · exact .inl ((portStepOps_unit_of_ne hv _ _).trans (State.writeImage_unit ..))
  | stepFailed u job hport =>
    by_cases hv : v = u
    · subst hv
      exact .inr (.inl ⟨job, hport⟩)
    · left
      rw [State.conclude_unit, State.failStep_unit, if_neg (Ne.symm hv), State.writeImage_unit]
  | deEnergizeWritten u why w rest first hport =>
    by_cases hv : v = u
    · subst hv
      exact .inr (.inr (.inl ⟨why, w, rest, first, hport⟩))
    · exact .inl ((deEnergizeFrom_unit_of_ne hv _ why rest _).trans (State.writeImage_unit ..))

theorem unit_of_moved (h : Coupled s) {c : Choice} (hm : Moved s c t) (v : UnitId) :
    t.unit v = s.unit v ∨ (s.unit v).bound = true := by
  obtain ⟨hloops, hown⟩ := (jobsOwn_iff s).1 h.jobs
  obtain ⟨-, -, -, hports⟩ := h.owned
  cases c with
  | tick =>
    cases hm with
    | stays c hc => exact absurd rfl hc
    | tick => exact .inl rfl
  | loop u =>
    by_cases hv : v = u
    · subst hv
      cases hm with
      | stays => exact .inl rfl
      | accum _ hrun | seen _ hrun | due _ hrun | loopLock _ _ hrun | loopWritten _ _ hrun | loopFailed _ _ hrun =>
        exact .inr (hloops.running v hrun)
    · exact .inl (unit_of_loop_ne hm hv)
  | port =>
    rcases unit_of_port hm v with hsame | ⟨job, hp⟩ | ⟨why, w, rest, first, hp⟩ | ⟨why, hp⟩
    · exact .inl hsame
    · rw [State.PortJobOwn, hp] at hown
      exact .inr hown.1
    · rw [State.PortJobOwn, hp] at hown
      exact .inr hown.1
    · rw [State.PortOwns, hp] at hports
      exact .inr hports

/-! ### LAST is of bound units -/

theorem calling_of_moved {c : Choice} (hl : LastsBound s) (hm : Moved s c t) {addr : BitVec 7} {locked : Bool}
    (hp : t.port = .busy (.generalCall addr locked)) : t.initialized = false := by
  have loop {u : UnitId} (hm : Moved s (.loop u) t) : t.initialized = false := by
    have honly := onlyBus_of_loop hm
    rw [honly] at hp ⊢
    exact hl.calling addr locked hp
  cases c with
  | loop u => exact loop hm
  | tick =>
    cases hm with
    | stays c hc => exact absurd rfl hc
    | tick =>
      cases hp' : s.port with
      | idle => simp [State.tick, hp', PortState.tick] at hp
      | busy job => cases job <;> simp [State.tick, hp', PortState.tick] at hp; exact hl.calling _ _ hp'
  | port =>
    cases hm with
    | stays => exact hl.calling addr locked hp
    | portLock job hp' => cases job <;> simp [lockedJob] at hp; exact hl.calling _ _ hp'
    | generalCalled | prescaleWritten => cases hp
    | channelWritten | generalCallFailed | prescaleDone | prescaleFailed | stepFailed => simp at hp
    | released u why =>
      rcases afterHold_port s u why with h | ⟨_, _, _, _, _, h⟩ <;> rw [h] at hp <;> cases hp
    | stepWritten u job =>
      rcases portStepOps_port (s.writeImage .port job.write).2 u job.rest with h | ⟨_, _, h⟩ <;> rw [h] at hp <;>
        cases hp
    | deEnergizeWritten u why w rest first =>
      rcases deEnergizeFrom_port (s.writeImage .port w).2 u why rest (firstFailure first (s.writeImage .port w).1) with
        h | ⟨_, _, _, _, h⟩ <;> rw [h] at hp <;> cases hp

theorem initialized_of_moved {c : Choice} (hm : Moved s c t) (h : s.initialized = true) : t.initialized = true := by
  by_cases hc : c = .tick
  · subst hc
    cases hm with
    | stays => exact h
    | tick => exact h
  · exact (extends_of_moved hm hc).initialized h

theorem reset_last (c : Coil) : (UnitState.reset.last c).valid = false := by cases c <;> rfl

theorem lastsBound_of_moved (h : Coupled s) (hl : LastsBound s) {c : Choice} (hm : Moved s c t) : LastsBound t where
  bound v d hv := by
    rcases binding_of_moved hm v with ⟨hbound, -, -⟩ | hreset
    · rcases unit_of_moved h hm v with hsame | hb
      · rw [hsame] at hv
        rw [hbound]
        exact hl.bound v d hv
      · rw [hbound]; exact hb
    · rw [hreset, reset_last] at hv
      cases hv
  initialized v hb := by
    rcases binding_of_moved hm v with ⟨hbound, -, -⟩ | hreset
    · exact initialized_of_moved hm (hl.initialized v (hbound ▸ hb))
    · rw [hreset] at hb
      cases hb
  calling _ _ hp := calling_of_moved hl hm hp

end

end Sys2Proof.TrueLasts
end

section
/-! Every step keeps LAST true (R38, R115, R117, R121, R139). -/

namespace Sys2Proof.LastsStayTrue

open Machine StepRelation StepFrames LockExclusion ChannelOwners BusTrace JobOwners HostWrites PacedTurns ImageShadows
  TrueLasts

/-! ### DeEnergize and NEXTSTEP on their way -/

section

variable {s t : State} {u : UnitId}

theorem deEnergized_stepJob (x : UnitState) (first : Answer) : (x.deEnergized first).stepJob = x.stepJob := by
  unfold UnitState.deEnergized
  split <;> rfl

theorem afterDeEnergize_stepJob {x : UnitState} (h : x.stepJob = none) (why : DeEnergizeFor) (first : Answer) :
    (afterDeEnergize x why first).stepJob = none := by
  cases why with
  | stop => exact (deEnergized_stepJob x first).trans h
  | dispose => rfl

/-- LAST off is true of channels that are fully off (R112, R117). -/
theorem off_trueOf {t : PortTriple} {shadow : ChannelId → Option Value}
    (h : ∀ ch ∈ t.channels, shadow ch = some fullOff) : (⟨true, 0, .off⟩ : Last).TrueOf t shadow := by
  intro _ x hx
  rw [h x.1 (Last.images_on _ t x hx)]
  simp only [Last.images, Pol.targets, List.mem_cons, List.not_mem_nil, or_false] at hx
  rcases hx with rfl | rfl | rfl <;> rfl

theorem finishDeEnergize_unitTrue (hnone : (s.unit u).stepJob = none) (why : DeEnergizeFor) (first : Answer)
    (hoff : first = .ack → ∀ ch ∈ s.unitChannels u, s.shadow ch = some fullOff) :
    UnitTrue (s.finishDeEnergize u why first) u := by
  have hunit : (s.finishDeEnergize u why first).unit u = afterDeEnergize (s.unit u) why first := by
    rw [finishDeEnergize_unit, if_pos rfl]
  have hjob := afterDeEnergize_stepJob hnone why first
  by_cases hstop : why = .stop ∧ first = .ack
  · obtain ⟨rfl, rfl⟩ := hstop
    have hlast (c : Coil) : (afterDeEnergize (s.unit u) .stop .ack).last c = ⟨true, 0, .off⟩ := by cases c <;> rfl
    have htriple : (s.finishDeEnergize u .stop .ack).coilTriple u = s.coilTriple u := by
      refine State.coilTriple_congr ?_ ?_ ?_
      · exact (sameDriver_finishDeEnergize s u .stop .ack).cfg
      · rw [hunit]; rfl
      · rw [hunit]; rfl
    refine ⟨fun _ c => ?_, fun j hj => ?_⟩
    · rw [hunit, hlast, htriple, finishDeEnergize_shadow]
      exact off_trueOf fun ch hch => hoff rfl ch (mem_unitChannels hch)
    · rw [hunit, hjob] at hj
      cases hj
  · refine unitTrue_of_invalid (by rw [hunit]; exact hjob) fun c => ?_
    rw [hunit]
    cases why with
    | dispose => exact reset_last c
    | stop =>
      have hfirst : first ≠ .ack := fun hr => hstop ⟨rfl, hr⟩
      unfold afterDeEnergize UnitState.deEnergized
      simp only [if_neg hfirst]
      cases c <;> rfl

/-- DeEnergize goes on to its next write, or ends with LAST true (R117). -/
theorem deEnergizeFrom_true (hnone : (s.unit u).stepJob = none) (why : DeEnergizeFor) {chs : List ChannelId}
    {first : Answer} (henabled : ∀ ch ∈ chs, (s.channel ch).disabled = false)
    (hoff : first = .ack → ∀ ch ∈ s.unitChannels u, ch ∉ chs → s.shadow ch = some fullOff) :
    ((s.deEnergizeFrom u why chs first).port = .idle ∧ UnitTrue (s.deEnergizeFrom u why chs first) u) ∨
      ∃ w rest, (s.deEnergizeFrom u why chs first).port = .busy (.deEnergize u why w rest first) ∧
        OffSoFar (s.deEnergizeFrom u why chs first) u w rest first := by
  cases chs with
  | nil =>
    rw [State.deEnergizeFrom_nil]
    exact .inl ⟨finishDeEnergize_port .., finishDeEnergize_unitTrue hnone why first fun hr ch hch => hoff hr ch hch nofun⟩
  | cons ch rest =>
    rw [State.deEnergizeFrom_cons, if_neg (by rw [henabled ch List.mem_cons_self]; nofun)]
    refine .inr ⟨pendingApply ch 0 false, rest, rfl, rfl, fun hr d hd hne hrest => ?_⟩
    have hd' : d ∈ (s.setSpec ch 0 false).unitChannels u := hd
    rw [State.setSpec_unitChannels] at hd'
    refine (congrFun (State.setSpec_shadow s ch 0 false) d).trans (hoff hr d hd' ?_)
    exact List.not_mem_cons_of_ne_of_not_mem hne hrest

/-- STOP or DISPOSE of a unit that is not Running begins DeEnergize, or has answered (R123, R135). -/
theorem coilsTrue_of_afterHold (h : Coupled s) (hl : LastsBound s) (hc : CoilsTrue s)
    (hdrives : s.port.drives = none) (hbound : (s.unit u).bound = true) (hrun : (s.unit u).run ≠ .running)
    (why : HoldFor) : CoilsTrue (s.afterHold u why) := by
  have hnone := h.lock.2.2.1 u hrun
  have hcfg := (sameDriver_afterHold s u why).cfg
  have hshadow := afterHold_shadow s u why
  have hunits {v : UnitId} (hv : v ≠ u) : (s.afterHold u why).unit v = s.unit v := by
    cases why with
    | cancel => rfl
    | stop => exact deEnergizeFrom_unit_of_ne hv s .stop _ .ack
    | dispose => exact deEnergizeFrom_unit_of_ne hv s .dispose _ .ack
  have henabled : ∀ ch ∈ s.unitChannels u, (s.channel ch).disabled = false := fun ch hch =>
    (owned_of_ownershipOk h.owned).not_disabled hbound hch
  have hothers (v : UnitId) (hv : v ≠ u) : UnitTrue (s.afterHold u why) v :=
    unitTrue_of_same hl h.jobs (hunits hv) (fun _ => sameCoils_of_eq hcfg (hunits hv) hshadow)
      (hc.units v (by rw [hdrives]; nofun))
  cases why with
  | cancel =>
    exact coilsTrue_of_undriven h hl hc hdrives rfl (fun _ => rfl) fun v _ => sameCoils_of_eq rfl rfl rfl
  | stop =>
    refine coilsTrue_of_driven hothers ?_
    rcases deEnergizeFrom_true hnone .stop (first := .ack) henabled fun _ ch hch hnot => absurd hch hnot with
      hidle | ⟨w, rest, hp, ho⟩
    · exact .inl hidle
    · exact .inr (.inr ⟨_, _, _, _, hp, ho⟩)
  | dispose =>
    refine coilsTrue_of_driven hothers ?_
    rcases deEnergizeFrom_true hnone .dispose (first := .ack) henabled fun _ ch hch hnot => absurd hch hnot with
      hidle | ⟨w, rest, hp, ho⟩
    · exact .inl hidle
    · exact .inr (.inr ⟨_, _, _, _, hp, ho⟩)

/-! ### A turn of the port -/

/-- While INIT's general call is under way no unit is bound (R95, R119). -/
theorem coilsTrue_of_calling (hl : LastsBound s) (hown : s.JobsOwn) {addr : BitVec 7} {locked : Bool}
    (hport : s.port = .busy (.generalCall addr locked)) (ht : t.port.drives = none)
    (hunits : ∀ v, t.unit v = s.unit v) : CoilsTrue t where
  units v _ := unitTrue_of_unbound_same hl hown (fun hb => by
    have hinit := hl.initialized v hb
    rw [hl.calling addr locked hport] at hinit
    cases hinit) (hunits v)
  step v job hp := by rw [hp] at ht; cases ht
  off v why w rest first hp := by rw [hp] at ht; cases ht

theorem coilsTrue_of_tick (hc : CoilsTrue s) : CoilsTrue s.tick := by
  have hsame (v : UnitId) : SameCoils s s.tick v := sameCoils_of_eq rfl rfl rfl
  refine ⟨fun v hd => ?_, fun v job hp => ?_, fun v why w rest first hp => ?_⟩
  · exact (hsame v).unitTrue rfl (hc.units v ((tick_drives s.port) ▸ hd))
  · cases hp' : s.port with
    | idle => simp [State.tick, hp', PortState.tick] at hp
    | busy job =>
      cases job <;> simp [State.tick, hp', PortState.tick] at hp
      obtain ⟨rfl, rfl⟩ := hp
      exact (hsame _).jobWillBeTrue rfl rfl rfl (hc.step _ _ hp')
  · cases hp' : s.port with
    | idle => simp [State.tick, hp', PortState.tick] at hp
    | busy job =>
      cases job <;> simp [State.tick, hp', PortState.tick] at hp
      obtain ⟨rfl, rfl, rfl, rfl, rfl⟩ := hp
      exact (hsame _).offSoFar rfl rfl (hc.off _ _ _ _ _ hp')

theorem coilsTrue_of_portLock (hc : CoilsTrue s) {job : PortJob} (hport : s.port = .busy job) :
    CoilsTrue { s with busLock := .port, port := .busy (lockedJob s.busAddr job) } := by
  have hsame (v : UnitId) : SameCoils s { s with busLock := .port, port := .busy (lockedJob s.busAddr job) } v :=
    sameCoils_of_eq rfl rfl rfl
  refine ⟨fun v hd => (hsame v).unitTrue rfl (hc.units v ?_), fun v j hp => ?_, fun v why w rest first hp => ?_⟩
  · rw [hport]
    cases job <;> exact hd
  · cases job <;> simp only [lockedJob, PortState.busy.injEq, PortJob.step.injEq, reduceCtorEq] at hp
    obtain ⟨rfl, rfl⟩ := hp
    have hj := hc.step _ _ hport
    refine (hsame _).jobWillBeTrue ?_ ?_ ?_ hj <;> rfl
  · cases job <;> simp only [lockedJob, PortState.busy.injEq, PortJob.deEnergize.injEq, reduceCtorEq] at hp
    obtain ⟨rfl, rfl, rfl, rfl, rfl⟩ := hp
    have ho := hc.off _ _ _ _ _ hport
    refine (hsame _).offSoFar ?_ ?_ ho <;> rfl

theorem coilsTrue_of_port (h : Coupled s) (hl : LastsBound s) (hc : CoilsTrue s) (hm : Moved s .port t) :
    CoilsTrue t := by
  obtain ⟨-, hown⟩ := (jobsOwn_iff s).1 h.jobs
  have ho := owned_of_ownershipOk h.owned
  have hcfg := cfg_of_moved hm
  have others {u v : UnitId} (hd : s.port.drives = some u) (hv : v ≠ u) (hunit : t.unit v = s.unit v) {w : PendingWrite}
      (hw : (s.channel w.ch).owner = .unit u) (hshadow : t.shadow = (s.writeImage .port w).2.shadow) : UnitTrue t v :=
    unitTrue_of_same hl h.jobs hunit (fun hb => sameCoils_of_written ho hb
      (by rw [hw]; exact fun he => hv (Owner.unit.inj he).symm) hcfg hunit hshadow)
      (hc.units v (by rw [hd]; exact fun he => hv (Option.some.inj he).symm))
  cases hm with
  | stays => exact hc
  | portLock job hport => exact coilsTrue_of_portLock hc hport
  | channelWritten w fin hport =>
    rw [State.PortJobOwn, hport] at hown
    refine coilsTrue_of_undriven h hl hc (by rw [hport]; rfl) (by simp; rfl) (by simp) fun v hb => ?_
    exact sameCoils_of_written ho hb (by rw [hown]; nofun) hcfg (by simp) (finishWrite_shadow ..)
  | generalCalled addr hport => exact coilsTrue_of_calling hl h.jobs hport rfl (by simp)
  | generalCallFailed addr e info hport => exact coilsTrue_of_calling hl h.jobs hport (by simp; rfl) (by simp)
  | prescaleDone addr p why hport =>
    exact coilsTrue_of_undriven h hl hc (by rw [hport]; rfl) (by simp; rfl) (by simp) fun v _ =>
      sameCoils_of_eq hcfg (by simp) (finishPrescale_shadow ..)
  | prescaleWritten addr p stage why t' hport _ ht =>
    have hshadow : t'.2.shadow = s.shadow := by rw [ht]; exact transact_shadow ..
    have hunits (v : UnitId) : t'.2.unit v = s.unit v := by rw [ht]; exact State.transact_unit ..
    exact coilsTrue_of_undriven h hl hc (by rw [hport]; rfl) rfl hunits fun v _ =>
      sameCoils_of_eq hcfg (hunits v) hshadow
  | prescaleFailed addr p stage why t' hport _ ht =>
    have hshadow : t'.2.shadow = s.shadow := by rw [ht]; exact transact_shadow ..
    have hunits (v : UnitId) : t'.2.unit v = s.unit v := by rw [ht]; exact State.transact_unit ..
    exact coilsTrue_of_undriven h hl hc (by rw [hport]; rfl) (by simp; rfl) (by simpa using hunits) fun v _ =>
      sameCoils_of_eq hcfg (by simpa using hunits v) ((failPrescale_shadow ..).trans hshadow)
  | released u why hport hrun =>
    have hbound := h.owned.2.2.2
    rw [State.PortOwns, hport] at hbound
    exact coilsTrue_of_afterHold h hl hc (by rw [hport]; rfl) hbound hrun why
  | stepWritten u job hport hlocked hack =>
    rw [State.PortJobOwn, hport] at hown
    obtain ⟨hbound, hch, hrest⟩ := hown
    have hdrives : s.port.drives = some u := by rw [hport]; rfl
    have howners := sameOwners_writeImage s .port job.write
    have henabled := enabled_of_on (u := u) (ops := job.rest) (ho.congr howners) ((howners.ports u).1.trans hbound)
      (by rw [howners.unitChannels]; exact hrest)
    have hnone : ((s.writeImage .port job.write).2.unit u).stepJob = none := by
      rw [State.writeImage_unit]
      exact h.lock.2.2.1 u (h.lock.2.2.2 u hdrives)
    refine coilsTrue_of_driven (u := u) (fun v hv => ?_) ?_
    · exact others hdrives hv ((portStepOps_unit_of_ne hv _ _).trans (State.writeImage_unit ..))
        ((ho.units u hbound).2 _ hch) (portStepOps_shadow ..)
    · exact (portStepOps_true henabled (lastWillBeTrue_of_written (hc.step u job hport) hack) hnone).imp_right .inl
  | stepFailed u job hport =>
    rw [State.PortJobOwn, hport] at hown
    obtain ⟨hbound, hch, -⟩ := hown
    have hdrives : s.port.drives = some u := by rw [hport]; rfl
    have hnone := h.lock.2.2.1 u (h.lock.2.2.2 u hdrives)
    refine coilsTrue_of_driven (u := u) (fun v hv => ?_) (.inl ⟨by simp, unitTrue_of_invalid ?_ fun c => ?_⟩)
    · refine others hdrives hv ?_ ((ho.units u hbound).2 _ hch) ((conclude_shadow ..).trans (failStep_shadow ..))
      rw [State.conclude_unit, State.failStep_unit, if_neg (Ne.symm hv), State.writeImage_unit]
    · rw [State.conclude_unit, State.failStep_unit, if_pos rfl, State.writeImage_unit]
      exact hnone
    · rw [State.conclude_unit, State.failStep_unit, if_pos rfl]
      cases c <;> rfl
  | deEnergizeWritten u why w rest first hport =>
    rw [State.PortJobOwn, hport] at hown
    obtain ⟨hbound, hch, hrest⟩ := hown
    have hdrives : s.port.drives = some u := by rw [hport]; rfl
    have howners := sameOwners_writeImage s .port w
    have hsofar := hc.off u why w rest first hport
    have hnone : ((s.writeImage .port w).2.unit u).stepJob = none := by
      rw [State.writeImage_unit]
      exact h.lock.2.2.1 u (h.lock.2.2.2 u hdrives)
    refine coilsTrue_of_driven (u := u) (fun v hv => ?_) ?_
    · exact others hdrives hv ((deEnergizeFrom_unit_of_ne hv _ why rest _).trans (State.writeImage_unit ..))
        ((ho.units u hbound).2 _ hch) (deEnergizeFrom_shadow ..)
    · refine (deEnergizeFrom_true hnone why (fun d hd => ?_) fun hfirst d hd hnot => ?_).imp_right
        fun ⟨w', rest', hp, ho⟩ => .inr ⟨why, w', rest', _, hp, ho⟩
      · refine (ho.congr howners).not_disabled (u := u) ((howners.ports u).1.trans hbound) ?_
        rw [howners.unitChannels]
        exact hrest d hd
      · rw [howners.unitChannels] at hd
        unfold firstFailure at hfirst
        rw [State.writeImage_shadow]
        by_cases hack : first = .ack
        · rw [if_pos hack] at hfirst
          by_cases hdw : d = w.ch
          · rw [if_pos hdw, if_pos hfirst, hsofar.image]
          · rw [if_neg hdw]
            exact hsofar.done hack d hd hdw hnot
        · rw [if_neg hack] at hfirst
          exact absurd hfirst hack

end

end Sys2Proof.LastsStayTrue
end

section
/-! IMAGE and LAST stay true: the commands, and the steps (R31, R38, R119 to R123, R139). -/

namespace Sys2Proof.TrueImages

open Machine StepRelation StepFrames LockExclusion ChannelOwners BusTrace JobOwners HostWrites ImageShadows TrueLasts
  LastsStayTrue

section

variable {s t : State} {i : Instr}

/-! ### LAST is of bound units -/

/-- Where it begins, a command changes registers of a bound unit, or binds one whose LAST is then not valid. -/
theorem unit_of_begun (hb : Begun s i t) (v : UnitId) : t.unit v = s.unit v ∨ (s.unit v).bound = true ∨
    (s.initialized = true ∧ ∀ c, ((t.unit v).last c).valid = false) := by
  have updated {u : UnitId} {y : UnitState} (hbound : (s.unit u).bound = true) :
      (s.setUnit u y).unit v = s.unit v ∨ (s.unit v).bound = true := by
    by_cases hv : u = v
    · exact .inr (hv ▸ hbound)
    · exact .inl (State.setUnit_unit_ne _ _ _ _ hv)
  cases hb with
  | answered | init | setfreq | rel => exact .inl rfl
  | acq | setduty | disable | enable => exact .inl (by simp)
  | cfgmotor n pa pb spr u hinit =>
    by_cases hv : u = v
    · subst hv
      refine .inr (.inr ⟨hinit, fun c => ?_⟩)
      rw [State.respondOk_unit, State.setUnit_unit_self]
      cases c <;> rfl
    · left
      rw [State.respondOk_unit, State.setUnit_unit_ne _ _ _ _ hv]
      simp
  | selstyle n sty nms u hbound | setpf n pf u hbound | setspeed n rpm u tps hbound
  | stepfor n dir cont count u hbound | setpolicy n e u hbound | asked i u why hbound =>
    exact (updated hbound).imp_right .inl
  | nextstep n dir u hbound =>
    by_cases hv : v = u
    · exact .inr (.inl (hv ▸ hbound))
    · left
      rw [portStepOps_unit_of_ne hv, State.advanceIndex_unit, if_neg (Ne.symm hv),
        State.setUnit_unit_ne _ _ _ _ (Ne.symm hv)]
  | ended i u why hbound =>
    by_cases hv : v = u
    · exact .inr (.inl (hv ▸ hbound))
    · left
      cases why with
      | cancel => rfl
      | stop => exact deEnergizeFrom_unit_of_ne hv s .stop _ .ack
      | dispose => exact deEnergizeFrom_unit_of_ne hv s .dispose _ .ack

theorem calling_of_begun (hb : Begun s i t) {addr : BitVec 7} {locked : Bool}
    (hp : t.port = .busy (.generalCall addr locked)) : s.initialized = false := by
  cases hb with
  | init a hinit => exact hinit
  | setduty ch frac inv =>
    rcases portApply_port s ch (BitVec.ofNat 13 (ratioOf frac)) inv (packValue [(0, ratioOf frac)]) with h | h <;>
      rw [h] at hp <;> cases hp
  | enable ch =>
    rcases portApply_port (s.setDisabled ch false) ch (s.channel ch).specRatio (s.channel ch).specInv 0 with h | h <;>
      rw [h] at hp <;> cases hp
  | nextstep n dir u =>
    rcases portStepOps_port ((s.setUnit u (s.unit u).handStep).advanceIndex u dir) u
      (((s.setUnit u (s.unit u).handStep).advanceIndex u dir).stepOps u) with h | ⟨_, _, h⟩ <;> rw [h] at hp <;> cases hp
  | ended i u why =>
    rcases afterHold_port s u why with h | ⟨_, _, _, _, _, h⟩ <;> rw [h] at hp <;> cases hp
  | _ => cases hp

theorem lastsBound_of_begun (hl : LastsBound s) (hb : Begun s i t) : LastsBound t := by
  have hinit := (sameDriver_of_begun hb).initialized
  refine ⟨fun v c hv => ?_, fun v hbound => ?_, fun addr locked hp => hinit.trans (calling_of_begun hb hp)⟩
  · rcases unit_of_begun hb v with hsame | hbound | ⟨-, hinvalid⟩
    · rw [hsame] at hv ⊢
      exact hl.bound v c hv
    · rcases binding_of_begun hb v with ⟨hkept, -, -⟩ | hreset | hunbound
      · rw [hkept]; exact hbound
      · rw [hreset, reset_last] at hv
        cases hv
      · rw [hbound] at hunbound
        cases hunbound
    · rw [hinvalid] at hv
      cases hv
  · rw [hinit]
    rcases unit_of_begun hb v with hsame | hbound' | ⟨hinit', -⟩
    · exact hl.initialized v (hsame ▸ hbound)
    · exact hl.initialized v hbound'
    · exact hinit'

/-! ### LAST is true where a command begins -/

/-- A command that changes neither ports, LAST, Steps under way nor images, and leaves the port driving no unit. -/
theorem coilsTrue_of_sameCoils (hc : CoilsTrue s) (hs : s.port.drives = none) (ht : t.port.drives = none)
    (hsame : ∀ v, SameCoils s t v) (hjobs : ∀ v, (t.unit v).stepJob = (s.unit v).stepJob) : CoilsTrue t where
  units v _ := (hsame v).unitTrue (hjobs v) (hc.units v (by rw [hs]; nofun))
  step v job hp := by rw [hp] at ht; cases ht
  off v why w rest first hp := by rw [hp] at ht; cases ht

theorem coilsTrue_of_setUnit (hc : CoilsTrue s) (hs : s.port.drives = none) {u : UnitId} {y : UnitState}
    (hlast : y.last = (s.unit u).last) (ha : y.portA = (s.unit u).portA) (hb : y.portB = (s.unit u).portB)
    (hjob : y.stepJob = (s.unit u).stepJob) : CoilsTrue (s.setUnit u y) := by
  refine coilsTrue_of_sameCoils hc hs hs (sameCoils_setUnit s hlast ha hb) fun v => ?_
  rw [State.setUnit_unit]
  split
  case isTrue hv => subst hv; exact hjob
  case isFalse => rfl

/-- The port's new state drives no unit. -/
theorem coilsTrue_of_port_only (hc : CoilsTrue s) (hs : s.port.drives = none) (ht : t.port.drives = none)
    (hcfg : t.cfg = s.cfg) (hunits : ∀ v, t.unit v = s.unit v) (hshadow : t.shadow = s.shadow) : CoilsTrue t :=
  coilsTrue_of_sameCoils hc hs ht (fun v => sameCoils_of_eq hcfg (hunits v) hshadow) fun v => by rw [hunits]

theorem drives_portApply (s : State) (ch : ChannelId) (ratio : BitVec 13) (inv : Bool) (v : Value) :
    (s.portApply ch ratio inv v).port.drives = none := by
  rcases portApply_port s ch ratio inv v with h | h <;> rw [h] <;> rfl

theorem coilsTrue_of_nextstep (h : Coupled s) (hl : LastsBound s) (hc : CoilsTrue s) (hs : s.port.drives = none)
    {u : UnitId} (hbound : (s.unit u).bound = true) (hrun : (s.unit u).run ≠ .running) (dir : Dir) :
    CoilsTrue (((s.setUnit u (s.unit u).handStep).advanceIndex u dir).portStepOps u
      (((s.setUnit u (s.unit u).handStep).advanceIndex u dir).stepOps u)) := by
  let s1 := (s.setUnit u (s.unit u).handStep).advanceIndex u dir
  have hhand : SameOwners s (s.setUnit u (s.unit u).handStep) := sameOwners_setUnit s rfl rfl rfl
  have howners : SameOwners s s1 := hhand.trans (sameOwners_advanceIndex _ u dir)
  have hsame : SameCoils s s1 u := (sameCoils_setUnit s (y := (s.unit u).handStep) rfl rfl rfl u).trans
    (sameCoils_setUnit _ (y := { (s.setUnit u (s.unit u).handStep).unit u with
      index := nextIndex ((s.setUnit u (s.unit u).handStep).unit u) dir }) rfl rfl rfl u)
  have hnone := h.lock.2.2.1 u hrun
  have hnone1 : (s1.unit u).stepJob = none := by
    rw [State.advanceIndex_unit, if_pos rfl, State.setUnit_unit_self]
    exact hnone
  have henabled := enabled_of_on ((owned_of_ownershipOk h.owned).congr howners) ((howners.ports u).1.trans hbound)
    (s1.stepOps_on u)
  have hwill := s1.stepOps_lastWillBeTrue u
    (by rw [howners.unitChannels]; exact StepOrder.nodup_unitChannels h.legal h.owned hbound)
    fun c => hsame.trueOf ((hc.units u (by rw [hs]; nofun)).idle hnone c)
  refine coilsTrue_of_driven (u := u) (fun v hv => ?_) ((portStepOps_true henabled hwill hnone1).imp_right .inl)
  have hunit : (s1.portStepOps u (s1.stepOps u)).unit v = s.unit v := by
    rw [portStepOps_unit_of_ne hv, State.advanceIndex_unit, if_neg (Ne.symm hv),
      State.setUnit_unit_ne _ _ _ _ (Ne.symm hv)]
  refine unitTrue_of_same hl h.jobs hunit (fun _ => sameCoils_of_eq ?_ hunit ?_) (hc.units v (by rw [hs]; nofun))
  · exact (sameOwners_portStepOps s1 u (s1.stepOps u)).cfg.trans howners.cfg
  · exact (portStepOps_shadow ..).trans ((State.setUnit_shadow ..).trans (State.setUnit_shadow ..))

/-- CFGMOTOR of a unit that is not bound leaves its LAST not valid (R119). -/
theorem coilsTrue_of_bind (h : Coupled s) (hc : CoilsTrue s) (hs : s.port.drives = none) {u : UnitId}
    (hbound : (s.unit u).bound = false) (chs : List ChannelId) (pa pb spr : Nat) :
    CoilsTrue ((s.setOwners chs (.unit u)).setUnit u ((s.unit u).bind pa pb spr)) := by
  have hport : ((s.setOwners chs (.unit u)).setUnit u ((s.unit u).bind pa pb spr)).port = s.port := by simp
  refine ⟨fun v _ => ?_, fun v job hp => ?_, fun v why w rest first hp => ?_⟩
  · by_cases hv : u = v
    · subst hv
      refine unitTrue_of_invalid ?_ fun c => ?_ <;> rw [State.setUnit_unit_self]
      · cases hjob : (s.unit u).stepJob with
        | none => exact hjob
        | some job =>
          have hown := (((jobsOwn_iff s).1 h.jobs).1.jobs u job hjob).1
          rw [hbound] at hown
          cases hown
      · cases c <;> rfl
    · have hunit : ((s.setOwners chs (.unit u)).setUnit u ((s.unit u).bind pa pb spr)).unit v = s.unit v := by
        rw [State.setUnit_unit_ne _ _ _ _ hv]
        simp
      refine (sameCoils_of_eq (by simp) hunit ?_).unitTrue (by rw [hunit]) (hc.units v (by rw [hs]; nofun))
      exact (State.setUnit_shadow ..).trans (setOwners_shadow ..)
  · rw [← hport, hp] at hs; cases hs
  · rw [← hport, hp] at hs; cases hs

theorem coilsTrue_of_begun (h : Coupled s) (hl : LastsBound s) (hc : CoilsTrue s) (hidle : s.port = .idle)
    (hb : Begun s i t) : CoilsTrue t := by
  have hs : s.port.drives = none := by rw [hidle]; rfl
  have hcfg := (sameDriver_of_begun hb).cfg
  have hshadow := shadow_of_begun hb
  have answered {r : State} (hr : CoilsTrue r) (hrd : r.port.drives = none) (v : Value) : CoilsTrue (r.respondOk v) :=
    coilsTrue_of_port_only hr hrd rfl rfl (fun _ => rfl) rfl
  have updated {u : UnitId} {y : UnitState} (v : Value) (hlast : y.last = (s.unit u).last)
      (ha : y.portA = (s.unit u).portA) (hb : y.portB = (s.unit u).portB) (hjob : y.stepJob = (s.unit u).stepJob) :
      CoilsTrue ((s.setUnit u y).respondOk v) := answered (coilsTrue_of_setUnit hc hs hlast ha hb hjob) hs v
  cases hb with
  | answered i v => exact answered hc hs v
  | init | setfreq | rel => exact coilsTrue_of_port_only hc hs rfl rfl (fun _ => rfl) rfl
  | acq | disable => exact coilsTrue_of_port_only hc hs rfl hcfg (by simp) hshadow
  | setduty | enable => exact coilsTrue_of_port_only hc hs (drives_portApply ..) hcfg (by simp) hshadow
  | cfgmotor n pa pb spr u hinit hbound => exact answered (coilsTrue_of_bind h hc hs hbound _ pa pb spr) (by simpa using hs) 0
  | nextstep n dir u hbound hrun => exact coilsTrue_of_nextstep h hl hc hs hbound hrun dir
  | selstyle | setpf | setspeed | setpolicy => refine updated _ ?_ ?_ ?_ ?_ <;> rfl
  | asked i u why =>
    exact coilsTrue_of_port_only (coilsTrue_of_setUnit hc hs (u := u) (y := { s.unit u with cancelReq := true })
      rfl rfl rfl rfl) hs rfl rfl (fun _ => rfl) rfl
  | ended i u why hbound hrun => exact coilsTrue_of_afterHold h hl hc hs hbound hrun why
  | stepfor n dir cont count u hbound hrun =>
    have hnone := h.lock.2.2.1 u hrun
    refine updated _ ?_ ?_ ?_ ?_
    · rfl
    · rfl
    · rfl
    · exact hnone.symm

end

/-! ### Every step -/

/-- LAST is true, with what its proof rests on. -/
def LastHolds (s : State) : Prop := s.cfg.Legal ∧ s.LockOk ∧ s.OwnershipOk ∧ s.JobsOwn ∧ s.LastTrue

theorem lastHolds_iff (s : State) : LastHolds s ↔ Coupled s ∧ LastsBound s ∧ CoilsTrue s := by
  rw [LastHolds, lastTrue_iff]
  exact ⟨fun ⟨hlegal, hlock, ho, hown, hl, hc⟩ => ⟨⟨hlegal, hlock, ho, hown⟩, hl, hc⟩,
    fun ⟨⟨hlegal, hlock, ho, hown⟩, hl, hc⟩ => ⟨hlegal, hlock, ho, hown, hl, hc⟩⟩

theorem lastHolds_of_moved {s t : State} {c : Choice} (h : LastHolds s) (hm : Moved s c t) : LastHolds t := by
  obtain ⟨hs, hl, hc⟩ := (lastHolds_iff s).1 h
  refine (lastHolds_iff t).2 ⟨⟨cfg_of_moved hm ▸ hs.legal, lockOk_of_moved hs.lock hm, ownershipOk_of_moved hs.owned hm,
    jobsOwn_of_moved hs.jobs hm⟩, lastsBound_of_moved hs hl hm, ?_⟩
  cases c with
  | tick =>
    cases hm with
    | stays c hne => exact absurd rfl hne
    | tick => exact coilsTrue_of_tick hc
  | port => exact coilsTrue_of_port hs hl hc hm
  | loop u => exact coilsTrue_of_loop hs hl hc hm

theorem lastHolds_raise {s : State} (h : LastHolds s) (hidle : s.port = .idle) (e : Err) : LastHolds (s.raise e 0) := by
  obtain ⟨hs, hl, hc⟩ := (lastHolds_iff s).1 h
  have hunits (v : UnitId) : (s.raise e 0).unit v = s.unit v := State.raise_unit ..
  have hcfg : (s.raise e 0).cfg = s.cfg := by simp
  refine (lastHolds_iff _).2 ⟨⟨hcfg ▸ hs.legal, lockOk_raise (unitsLockOk_of_out hs.lock (by rw [hidle]; rfl)) e 0,
    ownershipOk_of_idle (owned_of_ownershipOk hs.owned) (sameOwners_raise s e 0) rfl, jobsOwn_raise hs.jobs e⟩,
    ⟨fun v c hv => ?_, fun v hb => ?_, nofun⟩, ?_⟩
  · rw [hunits] at hv ⊢
    exact hl.bound v c hv
  · rw [hunits] at hb
    simpa using hl.initialized v hb
  · exact coilsTrue_of_port_only hc (by rw [hidle]; rfl) rfl hcfg hunits (raise_shadow ..)

theorem lastHolds_of_begun {s t : State} {i : Instr} (h : LastHolds s) (hidle : s.port = .idle) (hb : Begun s i t) :
    LastHolds t := by
  obtain ⟨hs, hl, hc⟩ := (lastHolds_iff s).1 h
  exact (lastHolds_iff t).2 ⟨⟨(sameDriver_of_begun hb).cfg ▸ hs.legal, lockOk_of_begun hs.lock hidle hb,
    ownershipOk_of_begun hs.owned hb, jobsOwn_of_begun hs.jobs hb⟩, lastsBound_of_begun hl hb,
    coilsTrue_of_begun hs hl hc hidle hb⟩

theorem step_keeps_lastHolds (s t : State) (h : LastHolds s) (ht : step s = .next t) : LastHolds t :=
  step_keeps_of_turns LastHolds (fun _ _ h => h) (fun _ _ _ h => h) (fun _ _ h => h)
    (fun _ _ _ h hm => lastHolds_of_moved h hm) (fun _ e h hidle => lastHolds_raise h hidle e)
    (fun _ _ _ h hidle _ hb => lastHolds_of_begun h hidle hb) s t h ht

/-- A polarity's targets, each by the one polarity that turns it on (R111). -/
theorem targets_eq (p : Pol) : p.targets = (decide (p = .pos), decide (p = .neg)) := by cases p <;> rfl

/-- Settles O18: IMAGE and LAST stay true, and together they say what a unit's channels and registers hold. -/
theorem imagesStayTrue : Obligations.ImagesStayTrue := by
  refine ⟨step_keeps_imagesTrue, fun s t hlegal hlock ho hown hlast ht => ?_, ?_⟩
  · obtain ⟨-, -, -, -, hlast'⟩ := step_keeps_lastHolds s t ⟨hlegal, hlock, ho, hown, hlast⟩ ht
    exact hlast'
  · intro s u c l ch v himages hlast hjob hdrives hl hvalid hmem
    obtain ⟨-, hc⟩ := (lastTrue_iff s).1 hlast
    obtain ⟨-, -, hheld, -⟩ := (imagesTrue_iff s).1 himages
    have hlast : l = (s.unit u).last c := by rw [hl]; cases c <;> rfl
    have htrue := (hc.units u hdrives).idle hjob c
    rw [← hlast] at htrue
    have hshadow : s.shadow ch = some v := by
      refine htrue hvalid (ch, v) ?_
      simpa only [Last.images, targets_eq, decide_eq_true_eq] using hmem
    obtain ⟨himage, hv⟩ := shadow_eq_some.1 hshadow
    exact ⟨himage, hv, hheld ch v hshadow⟩

end Sys2Proof.TrueImages
end

section
/-! The scheduler's run (R20, R69, item U7): the turns that lie ahead of a state whose own schedule is used up are those of
its round and of the next one, and they come in that order. -/

namespace Sys2Proof.FairTurns

open Machine StepRelation StepFrames

/-! ### Runs -/

theorem steps_succ {s t : State} (h : step s = .next t) (n : Nat) : s.steps (n + 1) = t.steps n := by
  rw [State.steps, h]

theorem steps_add {s t : State} {n : Nat} (h : s.steps n = .next t) (m : Nat) : s.steps (n + m) = t.steps m := by
  induction n generalizing s with
  | zero =>
    cases h
    rw [Nat.zero_add]
  | succ n ih =>
    obtain ⟨r, hr⟩ := step_next s
    rw [steps_succ hr] at h
    rw [Nat.succ_add, steps_succ hr, ih h]

/-- A run of any length has an outcome. -/
theorem steps_next (s : State) (n : Nat) : ∃ t, s.steps n = .next t := by
  induction n generalizing s with
  | zero => exact ⟨s, rfl⟩
  | succ n ih =>
    obtain ⟨r, hr⟩ := step_next s
    obtain ⟨t, ht⟩ := ih r
    exact ⟨t, (steps_succ hr n).trans ht⟩

/-! ### The turns ahead -/

/-- With the state's own schedule used up, these are the next turns, in this order. -/
def Ahead (s : State) (cs : List Choice) : Prop := s.sched = [] ∧ cs <+: s.round ++ fairRound s.schedDraws

theorem ahead_all {s : State} (h : s.sched = []) : Ahead s (s.round ++ fairRound s.schedDraws) := ⟨h, List.prefix_rfl⟩

theorem ahead_next {s : State} {c : Choice} {cs : List Choice} (h : Ahead s (c :: cs)) :
    s.nextChoice.1 = c ∧ ∀ t, step s = .next t → Ahead t cs := by
  obtain ⟨hsched, hahead⟩ := h
  have hturns (t : State) (ht : step s = .next t) {r : List Choice} {d : Nat} (hr : s.nextChoice.2.round = r)
      (hd : s.nextChoice.2.schedDraws = d) (hs : s.nextChoice.2.sched = []) (hcs : cs <+: r ++ fairRound d) :
      Ahead t cs := by
    obtain ⟨hround, hdraws, hsuffix⟩ := step_turns s t ht
    rw [hs] at hsuffix
    refine ⟨List.suffix_nil.1 hsuffix, ?_⟩
    rw [hround, hdraws, hr, hd]
    exact hcs
  cases hround : s.round with
  | cons c' r =>
    rw [hround, List.cons_append, List.cons_prefix_cons] at hahead
    obtain ⟨rfl, hcs⟩ := hahead
    have hnext := s.nextChoice_of_round c r hsched hround
    rw [hnext]
    exact ⟨rfl, fun t ht => hturns t ht (by rw [hnext]) (by rw [hnext]) (by rw [hnext]; exact hsched) hcs⟩
  | nil =>
    rw [hround, List.nil_append] at hahead
    obtain ⟨more, hmore⟩ := hahead
    have hnext := s.nextChoice_of_draw c (cs ++ more) hsched hround hmore.symm
    rw [hnext]
    refine ⟨rfl, fun t ht => hturns t ht (by rw [hnext]) (by rw [hnext]) (by rw [hnext]; exact hsched) ?_⟩
    rw [List.append_assoc]
    exact List.prefix_append ..

/-- A turn ahead comes once those before it have been taken. -/
theorem steps_to {s : State} {pre post : List Choice} {c : Choice} (h : Ahead s (pre ++ c :: post)) :
    ∃ t, s.steps pre.length = .next t ∧ Ahead t (c :: post) := by
  induction pre generalizing s with
  | nil => exact ⟨s, rfl, h⟩
  | cons d pre ih =>
    obtain ⟨-, hstep⟩ := ahead_next h
    obtain ⟨r, hr⟩ := step_next s
    obtain ⟨t, ht, hahead⟩ := ih (hstep r hr)
    exact ⟨t, (steps_succ hr _).trans ht, hahead⟩

/-- Every agent's turn comes within the present round and the next (item U7). -/
theorem turn_comes {s : State} (h : s.sched = []) (c : Choice) :
    ∃ n t, n < s.round.length + (fairRound s.schedDraws).length ∧ s.steps n = .next t ∧ t.nextChoice.1 = c := by
  have hmem : c ∈ s.round ++ fairRound s.schedDraws := List.mem_append_right _ (mem_fairRound _ c)
  obtain ⟨pre, post, hsplit⟩ := List.append_of_mem hmem
  obtain ⟨t, ht, hahead⟩ := steps_to (hsplit ▸ ahead_all h)
  refine ⟨pre.length, t, ?_, ht, (ahead_next hahead).1⟩
  rw [← List.length_append, hsplit, List.length_append, List.length_cons]
  omega

/-! ### A state's own schedule -/

theorem sched_shrinks {s t : State} {c : Choice} {cs : List Choice} (h : s.sched = c :: cs) (ht : step s = .next t) :
    t.sched.length ≤ cs.length := by
  obtain ⟨-, -, hsuffix⟩ := step_turns s t ht
  rw [s.nextChoice_of_sched c cs h] at hsuffix
  exact hsuffix.length_le

/-- A finite schedule is used up. -/
theorem sched_ends (s : State) : ∃ n t, s.steps n = .next t ∧ t.sched = [] := by
  induction hn : s.sched.length using Nat.strong_induction_on generalizing s with
  | _ n ih =>
    cases hsched : s.sched with
    | nil => exact ⟨0, s, rfl, hsched⟩
    | cons c cs =>
      obtain ⟨r, hr⟩ := step_next s
      have hle := sched_shrinks hsched hr
      rw [hsched, List.length_cons] at hn
      obtain ⟨m, t, ht, hempty⟩ := ih r.sched.length (by omega) r rfl
      exact ⟨m + 1, t, (steps_succ hr m).trans ht, hempty⟩

/-! ### TIME -/

theorem nextChoice_sched {s : State} (h : s.sched = []) : s.nextChoice.2.sched = [] := by
  cases hround : s.round with
  | cons c r => rw [s.nextChoice_of_round c r h hround]; exact h
  | nil =>
    unfold State.nextChoice
    rw [h, hround]

/-- With no schedule of its own a step moves TIME on the environment's turn only. -/
theorem time_of_step {s t : State} {c : Choice} {cs : List Choice} (h : Ahead s (c :: cs)) (ht : step s = .next t) :
    t.time = if c = .tick then s.time + 1 else s.time := by
  obtain ⟨hc, -⟩ := ahead_next h
  obtain ⟨sc, r, n, hframe⟩ := nextChoice_frame s
  have htime : s.nextChoice.2.time = s.time := by rw [hframe]
  rcases step_cases s with ⟨hport, -, he⟩ | ⟨-, he⟩ <;> rw [he] at ht
  · rw [hc] at hport
    rw [hport, if_neg nofun]
    rcases acceptStep_cases ht with ⟨-, rfl⟩ | ⟨w, ws, -, hw⟩
    · exact htime
    · rcases hw with ⟨e, rfl⟩ | ⟨i, -, hexec⟩
      · rw [State.raise_time]
        exact htime
      · exact (timeMovesOnlyByTicks.2.1 i { s.nextChoice.2 with commands := ws } t (nextChoice_sched h.1)
          hexec).trans htime
  · cases ht
    rw [time_move, hc, htime]

theorem time_of_steps {s t : State} {pre post : List Choice} (h : Ahead s (pre ++ post)) (hpre : .tick ∉ pre)
    (ht : s.steps pre.length = .next t) : t.time = s.time := by
  induction pre generalizing s with
  | nil => cases ht; rfl
  | cons c pre ih =>
    rw [List.mem_cons, not_or] at hpre
    obtain ⟨hc, hrest⟩ := hpre
    obtain ⟨r, hr⟩ := step_next s
    rw [List.length_cons, steps_succ hr] at ht
    rw [ih ((ahead_next h).2 r hr) hrest ht, time_of_step h hr, if_neg (Ne.symm hc)]

/-- TIME advances by a tick (R69). -/
theorem tick_comes {s : State} (h : s.sched = []) :
    ∃ n t, s.steps n = .next t ∧ t.sched = [] ∧ t.time = s.time + 1 := by
  have hmem : Choice.tick ∈ s.round ++ fairRound s.schedDraws := List.mem_append_right _ (mem_fairRound _ _)
  obtain ⟨pre, post, hsplit, hpre⟩ := List.eq_append_cons_of_mem hmem
  have hahead := hsplit ▸ ahead_all h
  obtain ⟨r, hr, hahead'⟩ := steps_to hahead
  obtain ⟨t, ht⟩ := step_next r
  have htick := time_of_step hahead' ht
  rw [if_pos rfl, time_of_steps hahead hpre hr] at htick
  exact ⟨pre.length + 1, t, (steps_add hr 1).trans (steps_succ ht 0), ((ahead_next hahead').2 t ht).1, htick⟩

theorem time_advances {s : State} (h : s.sched = []) (k : Nat) :
    ∃ n t, s.steps n = .next t ∧ t.sched = [] ∧ t.time = s.time + BitVec.ofNat 64 k := by
  induction k with
  | zero => exact ⟨0, s, rfl, h, (BitVec.add_zero _).symm⟩
  | succ k ih =>
    obtain ⟨n, r, hr, hempty, htime⟩ := ih
    obtain ⟨m, t, ht, hempty', htime'⟩ := tick_comes hempty
    refine ⟨n + m, t, (steps_add hr m).trans ht, hempty', ?_⟩
    rw [htime', htime, BitVec.ofNat_add, BitVec.add_assoc]
    rfl

/-- Settles O24: the turns ahead are a whole fair round and more. -/
theorem everyAgentsTurnComesAgain : Obligations.EveryAgentsTurnComesAgain := by
  refine ⟨fun s c => ?_, fun s c h => turn_comes h c, fun s k h => ?_, fun _ => rfl, fun r hr => ?_⟩
  · obtain ⟨n, r, hr, hempty⟩ := sched_ends s
    obtain ⟨m, t, -, ht, hc⟩ := turn_comes hempty c
    exact ⟨n + m, t, (steps_add hr m).trans ht, hc⟩
  · obtain ⟨n, t, ht, -, htime⟩ := time_advances h k
    exact ⟨n, t, ht, htime⟩
  · simp [completeRound, hr]

end Sys2Proof.FairTurns
end

section
/-! Cooldowns and holds (R45, R123, R129, R134, R135): a cooldown is one of a cancelled microstepping run, and a Running unit
that a command holds on has been asked to end its run. Every step keeps this (`HoldsOk`). -/

namespace Sys2Proof.Cooldowns

open Machine StepRelation StepFrames LockExclusion RegisterRanges ChannelOwners BusTrace JobOwners PacedTurns TrueLasts

/-! ### A unit's cooldown -/

/-- A cooldown is one of a cancelled microstepping run. -/
def CoolOk (x : UnitState) : Prop :=
  x.cooling = true → x.run = .running ∧ x.style = .micro ∧ x.cancelReq = true

/-- The registers that a cooldown is about. -/
structure SameRun (x y : UnitState) : Prop where
  cooling : y.cooling = x.cooling
  run : y.run = x.run
  style : y.style = x.style
  cancelReq : y.cancelReq = x.cancelReq

theorem SameRun.coolOk {x y : UnitState} (h : SameRun x y) (hx : CoolOk x) : CoolOk y := by
  unfold CoolOk
  rw [h.cooling, h.run, h.style, h.cancelReq]
  exact hx

theorem coolOk_of_not_cooling {x : UnitState} (h : x.cooling = false) : CoolOk x := by
  intro hx
  rw [h] at hx
  cases hx

theorem not_cooling_of_not_running {x : UnitState} (h : CoolOk x) (hrun : x.run ≠ .running) : x.cooling = false :=
  Bool.eq_false_iff.2 fun hx => hrun (h hx).1

/-- Accum ends the run, or goes on to Spin, in a cooldown if a cancellation is overridden (R126, R129). -/
theorem accum_outcome (x : UnitState) : x.accum = x.finish ∨
    ¬(x.cancelSeen = true ∧ ¬x.policyApplies = true) ∧ ¬(x.cooling = true ∧ x.onBoundary = true) ∧
      x.accum = { x with
        cooling := x.cooling || x.cancelReq, deadline := x.deadline + BitVec.setWidth 64 x.tps, phase := .spin } := by
  by_cases hcancel : x.cancelSeen = true ∧ ¬x.policyApplies = true
  · exact .inl (PacingLoop.accum_of_cancelled hcancel.1 hcancel.2)
  · by_cases hcooled : x.cooling = true ∧ x.onBoundary = true
    · exact .inl (PacingLoop.accum_of_cooled hcooled.1 hcooled.2)
    · rw [PacingLoop.accum_of_not_ended hcancel hcooled]
      split
      · exact .inl rfl
      · exact .inr ⟨hcancel, hcooled, rfl⟩

theorem micro_of_policyApplies {x : UnitState} (h : x.policyApplies = true) : x.style = .micro :=
  ((PacingLoop.policyApplies_iff x).1 h).2.1

theorem coolOk_accum {x : UnitState} (h : CoolOk x) (hrun : x.run = .running) : CoolOk x.accum := by
  rcases accum_outcome x with he | ⟨hcancel, -, he⟩ <;> rw [he]
  · exact coolOk_of_not_cooling rfl
  · intro hx
    simp only [Bool.or_eq_true] at hx
    by_cases hcooling : x.cooling = true
    · exact h hcooling
    · have hreq := hx.resolve_left hcooling
      have hseen : x.cancelSeen = true := (PacingLoop.cancelSeen_iff x).2 ⟨hreq, Bool.eq_false_iff.2 hcooling⟩
      have hpolicy : x.policyApplies = true := by
        by_contra hnot
        exact hcancel ⟨hseen, hnot⟩
      exact ⟨hrun, micro_of_policyApplies hpolicy, hreq⟩

theorem coolOk_seen {x : UnitState} (hrun : x.run = .running) (hseen : x.cancelSeen = true) :
    CoolOk (if x.policyApplies then { x with cooling := true } else x.finish) := by
  split
  case isTrue hpolicy => exact fun _ => ⟨hrun, micro_of_policyApplies hpolicy, ((PacingLoop.cancelSeen_iff x).1 hseen).1⟩
  case isFalse => exact coolOk_of_not_cooling rfl

section

variable {s t : State} {u v : UnitId}

/-! ### Turns -/

theorem sameRun_runOps (u : UnitId) (ops : List StepOp) (s : State) (v : UnitId) :
    SameRun (s.unit v) ((runOps u ops s).2.unit v) := by
  rw [PacingLoop.runOps_unit u ops s v]
  exact ⟨rfl, rfl, rfl, rfl⟩

theorem sameRun_loopStepOps (s : State) (u : UnitId) (ops : List StepOp) :
    SameRun (s.unit u) ((s.loopStepOps u ops).unit u) := by
  have h := sameRun_runOps u ops s u
  rcases s.loopStepOps_cases u ops with ⟨-, he⟩ | ⟨job, -, he⟩ <;> rw [he, State.setUnit_unit_self] <;>
    exact ⟨h.cooling, h.run, h.style, h.cancelReq⟩

theorem coolOk_of_own_turn (h : CoolOk (s.unit u)) (hm : Moved s (.loop u) t) : CoolOk (t.unit u) := by
  cases hm with
  | stays => exact h
  | accum _ hrun => rw [State.setUnit_unit_self]; exact coolOk_accum h hrun
  | seen _ hrun _ _ hseen => rw [State.setUnit_unit_self]; exact coolOk_seen hrun hseen
  | due _ =>
    refine (sameRun_loopStepOps _ u _).coolOk ?_
    rw [State.advanceIndex_unit, if_pos rfl]
    exact h
  | loopLock _ job => rw [State.setUnit_unit_self]; exact h
  | loopWritten _ job =>
    refine (sameRun_loopStepOps _ u _).coolOk ?_
    rw [State.writeImage_unit]
    exact h
  | loopFailed _ job => rw [State.setUnit_unit_self]; exact coolOk_of_not_cooling rfl

theorem finishDeEnergize_cooling (why : DeEnergizeFor) (first : Answer) (h : (s.unit v).cooling = false) :
    ((s.finishDeEnergize u why first).unit v).cooling = false := by
  rw [finishDeEnergize_unit]
  split
  case isFalse => exact h
  case isTrue hv =>
    subst hv
    cases why with
    | dispose => rfl
    | stop =>
      unfold afterDeEnergize UnitState.deEnergized
      dsimp only
      split <;> exact h

theorem deEnergizeFrom_cooling (why : DeEnergizeFor) (chs : List ChannelId) (first : Answer)
    (h : (s.unit v).cooling = false) : ((s.deEnergizeFrom u why chs first).unit v).cooling = false :=
  deEnergizeFrom_induction (fun t => (t.unit v).cooling = false) (fun t => (t.unit v).cooling = false)
    (fun _ _ _ ht => by rw [State.setSpec_unit]; exact ht) (fun _ ht => finishDeEnergize_cooling why first ht)
    (fun t ch _ ht _ _ _ => (congrArg UnitState.cooling (State.setSpec_unit t ch 0 false v)).trans ht) h

theorem afterHold_cooling (why : HoldFor) (h : (s.unit v).cooling = false) :
    ((s.afterHold u why).unit v).cooling = false := by
  cases why with
  | cancel => exact h
  | stop => exact deEnergizeFrom_cooling .stop _ .ack h
  | dispose => exact deEnergizeFrom_cooling .dispose _ .ack h

theorem portStepOps_cooling (s : State) (u : UnitId) (ops : List StepOp) (v : UnitId) :
    ((s.portStepOps u ops).unit v).cooling = (s.unit v).cooling := by
  have h := (sameRun_runOps u ops s v).cooling
  rcases s.portStepOps_cases u ops with ⟨-, he⟩ | ⟨job, -, he⟩ <;> rw [he] <;> exact h

/-- A turn of the port leaves a unit's registers, or the unit is not Running and in no cooldown. -/
theorem coolOk_of_port (hlegal : s.RegistersLegal) (h : CoolOk (s.unit v)) (hm : Moved s .port t) :
    CoolOk (t.unit v) := by
  obtain ⟨-, -, -, -, hdriven⟩ := hlegal
  have stopped (hrun : (s.unit v).run ≠ .running) : (s.unit v).cooling = false := not_cooling_of_not_running h hrun
  by_cases hsame : t.unit v = s.unit v
  · rw [hsame]; exact h
  · refine coolOk_of_not_cooling ?_
    have hdrives := (unit_of_port hm v).resolve_left hsame
    have hcool : (∃ u why, s.port = .busy (.hold u why)) ∨ (s.unit v).cooling = false := by
      rcases hdrives with ⟨job, hp⟩ | ⟨why, w, rest, first, hp⟩ | ⟨why, hp⟩
      · exact .inr (stopped (hdriven v (by rw [hp]; rfl)))
      · exact .inr (stopped (hdriven v (by rw [hp]; rfl)))
      · exact .inl ⟨v, why, hp⟩
    cases hm with
    | stays | portLock => exact absurd rfl hsame
    | channelWritten | generalCalled | generalCallFailed | prescaleDone => exact absurd (by simp) hsame
    | prescaleWritten addr p stage why t' _ _ ht => subst ht; exact absurd (by simp) hsame
    | prescaleFailed addr p stage why t' _ _ ht => subst ht; exact absurd (by simp) hsame
    | released u why hport hrun =>
      refine afterHold_cooling why (stopped ?_)
      rcases hdrives with ⟨job, hp⟩ | ⟨why, w, rest, first, hp⟩ | ⟨why, hp⟩ <;> rw [hport] at hp <;> cases hp
      exact hrun
    | stepWritten u job hport =>
      rcases hcool with ⟨_, _, hp⟩ | hcool
      · rw [hport] at hp; cases hp
      · rw [portStepOps_cooling, State.writeImage_unit]; exact hcool
    | stepFailed u job hport =>
      rcases hcool with ⟨_, _, hp⟩ | hcool
      · rw [hport] at hp; cases hp
      · rw [State.conclude_unit, State.failStep_unit, State.writeImage_unit]
        split <;> exact hcool
    | deEnergizeWritten u why w rest first hport =>
      rcases hcool with ⟨_, _, hp⟩ | hcool
      · rw [hport] at hp; cases hp
      · exact deEnergizeFrom_cooling why rest _ (by rw [State.writeImage_unit]; exact hcool)

theorem coolOk_of_moved {c : Choice} (hlegal : s.RegistersLegal) (h : ∀ v, CoolOk (s.unit v)) (hm : Moved s c t)
    (v : UnitId) : CoolOk (t.unit v) := by
  cases c with
  | tick =>
    cases hm with
    | stays c hc => exact absurd rfl hc
    | tick => exact h v
  | port => exact coolOk_of_port hlegal (h v) hm
  | loop u =>
    by_cases hv : v = u
    · subst hv
      exact coolOk_of_own_turn (h v) hm
    · rw [unit_of_loop_ne hm hv]
      exact h v

/-! ### The hold -/

/-- A Running unit that the port holds for has been asked to end its run. -/
def HeldAsked (s : State) : Prop :=
  ∀ u why, s.port = .busy (.hold u why) → (s.unit u).run = .running → (s.unit u).cancelReq = true

/-- A run that goes on keeps CANCEL_REQ (R130). -/
theorem cancelReq_of_own_turn (hm : Moved s (.loop u) t) (hrun : (t.unit u).run = .running) :
    (t.unit u).cancelReq = (s.unit u).cancelReq := by
  cases hm with
  | stays => rfl
  | accum _ =>
    rw [State.setUnit_unit_self] at hrun ⊢
    rcases accum_outcome (s.unit u) with he | ⟨-, -, he⟩ <;> rw [he] at hrun ⊢
    cases hrun
  | seen _ =>
    rw [State.setUnit_unit_self] at hrun ⊢
    by_cases hpolicy : (s.unit u).policyApplies = true
    · rw [if_pos hpolicy]
    · rw [if_neg hpolicy] at hrun
      cases hrun
  | due _ =>
    rw [(sameRun_loopStepOps _ u _).cancelReq, State.advanceIndex_unit, if_pos rfl]
  | loopLock _ job => rw [State.setUnit_unit_self]
  | loopWritten _ job => rw [(sameRun_loopStepOps _ u _).cancelReq, State.writeImage_unit]
  | loopFailed _ job =>
    rw [State.setUnit_unit_self] at hrun
    cases hrun

/-- A turn of the port puts no hold. -/
theorem hold_of_port (hm : Moved s .port t) {why : HoldFor} (hp : t.port = .busy (.hold u why)) : t = s := by
  cases hm with
  | stays => rfl
  | portLock job _ _ hhold =>
    cases job <;> simp [lockedJob] at hp
    exact absurd trivial hhold
  | generalCalled | prescaleWritten => cases hp
  | channelWritten | generalCallFailed | prescaleDone | prescaleFailed | stepFailed => simp at hp
  | released u why =>
    rcases afterHold_port s u why with h | ⟨_, _, _, _, _, h⟩ <;> rw [h] at hp <;> cases hp
  | stepWritten u job =>
    rcases portStepOps_port (s.writeImage .port job.write).2 u job.rest with h | ⟨_, _, h⟩ <;> rw [h] at hp <;> cases hp
  | deEnergizeWritten u why w rest first =>
    rcases deEnergizeFrom_port (s.writeImage .port w).2 u why rest (firstFailure first (s.writeImage .port w).1) with
      h | ⟨_, _, _, _, h⟩ <;> rw [h] at hp <;> cases hp

theorem hold_of_tick {p : PortState} {why : HoldFor} (hp : p.tick = .busy (.hold u why)) : p = .busy (.hold u why) := by
  cases p with
  | idle => cases hp
  | busy job => cases job <;> first | exact hp | cases hp

theorem heldAsked_of_moved {c : Choice} (h : HeldAsked s) (hm : Moved s c t) : HeldAsked t := by
  intro u why hp hrun
  cases c with
  | tick =>
    cases hm with
    | stays c hc => exact absurd rfl hc
    | tick => exact h u why (hold_of_tick hp) hrun
  | port =>
    have hsame := hold_of_port hm hp
    subst hsame
    exact h u why hp hrun
  | loop v =>
    have hport : t.port = s.port := by rw [onlyBus_of_loop hm]
    rw [hport] at hp
    by_cases hv : u = v
    · subst hv
      rw [cancelReq_of_own_turn hm hrun]
      exact h u why hp (running_of_moved hm hrun)
    · rw [unit_of_loop_ne hm hv] at hrun ⊢
      exact h u why hp hrun

/-! ### Commands -/

theorem hold_of_begun {i : Instr} (hb : Begun s i t) {why : HoldFor} (hp : t.port = .busy (.hold u why)) :
    (t.unit u).cancelReq = true := by
  cases hb with
  | asked i v =>
    cases hp
    exact congrArg UnitState.cancelReq (State.setUnit_unit_self s u { s.unit u with cancelReq := true })
  | setduty ch frac inv =>
    rcases portApply_port s ch (BitVec.ofNat 13 (ratioOf frac)) inv (packValue [(0, ratioOf frac)]) with h | h <;>
      rw [h] at hp <;> cases hp
  | enable ch =>
    rcases portApply_port (s.setDisabled ch false) ch (s.channel ch).specRatio (s.channel ch).specInv 0 with h | h <;>
      rw [h] at hp <;> cases hp
  | nextstep n dir v =>
    rcases portStepOps_port ((s.setUnit v (s.unit v).handStep).advanceIndex v dir) v
      (((s.setUnit v (s.unit v).handStep).advanceIndex v dir).stepOps v) with h | ⟨_, _, h⟩ <;> rw [h] at hp <;> cases hp
  | ended i v why =>
    rcases afterHold_port s v why with h | ⟨_, _, _, _, _, h⟩ <;> rw [h] at hp <;> cases hp
  | _ => cases hp

theorem coolOk_of_begun {i : Instr} (h : ∀ v, CoolOk (s.unit v)) (hb : Begun s i t) (v : UnitId) :
    CoolOk (t.unit v) := by
  have updated {u : UnitId} {y : UnitState} (hy : CoolOk y) : CoolOk ((s.setUnit u y).unit v) := by
    rw [State.setUnit_unit]
    split
    case isTrue => exact hy
    case isFalse => exact h v
  have stopped {u : UnitId} (hrun : (s.unit u).run ≠ .running) : (s.unit u).cooling = false :=
    not_cooling_of_not_running (h u) hrun
  cases hb with
  | answered | init | setfreq | rel => exact h v
  | acq | setduty | disable | enable => simpa using h v
  | cfgmotor n pa pb spr u =>
    rw [State.respondOk_unit, State.setUnit_unit]
    split
    case isTrue hv =>
      subst hv
      exact SameRun.coolOk ⟨rfl, rfl, rfl, rfl⟩ (h u)
    case isFalse => simpa using h v
  | selstyle n sty nms u hbound hrun => exact updated (coolOk_of_not_cooling (stopped hrun))
  | nextstep n dir u hbound hrun =>
    by_cases hv : v = u
    · subst hv
      refine coolOk_of_not_cooling ?_
      rw [portStepOps_cooling, State.advanceIndex_unit, if_pos rfl, State.setUnit_unit_self]
      exact stopped hrun
    · rw [portStepOps_unit_of_ne hv, State.advanceIndex_unit, if_neg (Ne.symm hv),
        State.setUnit_unit_ne _ _ _ _ (Ne.symm hv)]
      exact h v
  | setpf n pf u | setspeed n rpm u | setpolicy n e u => exact updated (SameRun.coolOk ⟨rfl, rfl, rfl, rfl⟩ (h u))
  | asked i u =>
    refine updated (u := u) fun hc => ?_
    obtain ⟨hrun, hstyle, -⟩ := h u hc
    exact ⟨hrun, hstyle, rfl⟩
  | stepfor n dir cont count u => exact updated (coolOk_of_not_cooling rfl)
  | ended i u why hbound hrun =>
    by_cases hv : v = u
    · subst hv
      exact coolOk_of_not_cooling (afterHold_cooling why (stopped hrun))
    · have hsame : (s.afterHold u why).unit v = s.unit v := by
        cases why with
        | cancel => rfl
        | stop => exact deEnergizeFrom_unit_of_ne hv s .stop _ .ack
        | dispose => exact deEnergizeFrom_unit_of_ne hv s .dispose _ .ack
      rw [hsame]
      exact h v

theorem holdsOk_of_moved {c : Choice} (hlegal : s.RegistersLegal) (h : s.HoldsOk) (hm : Moved s c t) : t.HoldsOk :=
  ⟨coolOk_of_moved hlegal h.1 hm, heldAsked_of_moved h.2 hm⟩

/-- Every step keeps the cooldowns and the holds as they should be. -/
theorem step_keeps_holdsOk (s t : State) (hlegal : s.RegistersLegal) (h : s.HoldsOk) (ht : step s = .next t) :
    t.HoldsOk := by
  refine (step_keeps_of_turns (fun s => s.RegistersLegal ∧ s.HoldsOk) (fun _ _ h => h) (fun _ _ _ h => h)
    (fun _ _ h => h) (fun s c t h hm => ⟨registersLegal_of_moved h.1 hm, holdsOk_of_moved h.1 h.2 hm⟩)
    (fun s e h _ => ⟨(regsOk_of_registersLegal h.1).raise e 0, ?_, nofun⟩)
    (fun s i t h _ hwf hb => ⟨registersLegal_of_begun h.1 hwf hb, coolOk_of_begun h.2.1 hb,
      fun u why hp _ => hold_of_begun hb hp⟩) s t ⟨hlegal, h⟩ ht).2
  intro u hc
  rw [State.raise_unit] at hc ⊢
  exact h.2.1 u hc

end

end Sys2Proof.Cooldowns
end

section
/-! The turns that a cancelled run has left (R126 to R131). Each turn that its loop takes makes them fewer, until the run
ends. -/

namespace Sys2Proof.TurnsLeft

open Machine StepRelation StepFrames RegisterRanges Cooldowns

/-! ### Steps to the next full-step boundary -/

/-- The Steps, at least one, from INDEX to the next full-step boundary in the run's direction (R129). -/
def stepsToBoundary (x : UnitState) : Nat :=
  match x.dir with
  | .forward => x.nms.toNat - x.index.toNat % x.nms.toNat
  | .backward => (x.index.toNat + x.nms.toNat - 1) % x.nms.toNat + 1

/-- A microstepping unit has a legal NMS and its LEN is four times that (R34, R35). -/
def MicroLegal (x : UnitState) : Prop := x.style = .micro ∧ nmsLegal .micro x.nms.toNat = true

theorem MicroLegal.nms {x : UnitState} (h : MicroLegal x) :
    x.nms.toNat = 4 ∨ x.nms.toNat = 8 ∨ x.nms.toNat = 16 ∨ x.nms.toNat = 32 := by
  simpa [nmsLegal, microstepSet] using h.2

theorem microLegal_of_running {x : UnitState} (h : x.Legal) (hrun : x.run = .running) (hmicro : x.style = .micro) :
    MicroLegal x := by
  obtain ⟨-, -, -, hready, hrunning, -⟩ := h
  obtain ⟨-, hisReady, -, -⟩ := hrunning hrun
  exact ⟨hmicro, hmicro ▸ (hready hisReady).1⟩

theorem stepsToBoundary_mem {x : UnitState} (h : MicroLegal x) :
    1 ≤ stepsToBoundary x ∧ stepsToBoundary x ≤ x.nms.toNat := by
  have hpos : 0 < x.nms.toNat := by
    rcases h.nms with hn | hn | hn | hn <;> omega
  have hlt (i : Nat) : i % x.nms.toNat < x.nms.toNat := Nat.mod_lt _ hpos
  unfold stepsToBoundary
  cases x.dir with
  | forward =>
    have := hlt x.index.toNat
    dsimp only
    omega
  | backward =>
    have := hlt (x.index.toNat + x.nms.toNat - 1)
    dsimp only
    omega

/-- A Step ends on the boundary or comes nearer to it. -/
theorem stepsToBoundary_step {x y : UnitState} (h : MicroLegal x) (hy : y = { x with index := nextIndex x x.dir })
    (hoff : ¬y.onBoundary = true) : stepsToBoundary y + 1 ≤ stepsToBoundary x := by
  have hindex : y.index.toNat = (x.index.toNat +
      (match x.dir with | .forward => 1 | .backward => 4 * x.nms.toNat - 1)) % (4 * x.nms.toNat) := by
    rw [hy]
    refine (nextIndex_toNat x x.dir ?_).trans ?_
    · rw [h.1]; exact h.2
    · rw [h.1]; rfl
  have hdir : y.dir = x.dir := by rw [hy]
  have hnms : y.nms = x.nms := by rw [hy]
  rw [PacingLoop.onBoundary_iff, hnms] at hoff
  unfold stepsToBoundary
  rw [hdir, hnms]
  cases hd : x.dir with
  | forward =>
    rw [hd] at hindex
    dsimp only at hindex ⊢
    rcases h.nms with hn | hn | hn | hn <;> rw [hn] at hindex hoff ⊢ <;> omega
  | backward =>
    rw [hd] at hindex
    dsimp only at hindex ⊢
    rcases h.nms with hn | hn | hn | hn <;> rw [hn] at hindex hoff ⊢ <;> omega

/-! ### The measure -/

/-- The turns that are left from Accum: fourteen for each Step of the cooldown, and the one that ends the run (R131). -/
def turnsFromAccum (x : UnitState) : Nat :=
  if (x.cooling = true ∨ x.policyApplies = true) ∧ ¬x.onBoundary = true then 14 * stepsToBoundary x + 1 else 1

/-- The turns that are left from Spin: in a cooldown the next one is a Step's (R127). -/
def turnsFromSpin (x : UnitState) : Nat := if x.cooling = true then 14 * stepsToBoundary x else turnsFromAccum x

/-- The turns of a Step under way: two for each write, less the one that took the lock (R66). -/
def jobTurns (job : StepJob) : Nat :=
  2 * (1 + (stepWrites job.rest).length) - if job.write.locked = true then 1 else 0

/-- The turns that a run, asked to end, has left at most. -/
def turnsLeft (x : UnitState) : Nat :=
  match x.stepJob with
  | some job => jobTurns job + turnsFromAccum x
  | none =>
    match x.phase with
    | .accum => turnsFromAccum x
    | .spin => turnsFromSpin x

theorem turnsLeft_of_job {x : UnitState} {job : StepJob} (h : x.stepJob = some job) :
    turnsLeft x = jobTurns job + turnsFromAccum x := by rw [turnsLeft, h]

theorem turnsLeft_of_accum {x : UnitState} (hjob : x.stepJob = none) (hphase : x.phase = .accum) :
    turnsLeft x = turnsFromAccum x := by rw [turnsLeft, hjob, hphase]

theorem turnsLeft_of_spin {x : UnitState} (hjob : x.stepJob = none) (hphase : x.phase = .spin) :
    turnsLeft x = turnsFromSpin x := by rw [turnsLeft, hjob, hphase]

theorem turnsLeft_of_cooling {x : UnitState} (hjob : x.stepJob = none) (hphase : x.phase = .spin)
    (hcooling : x.cooling = true) : turnsLeft x = 14 * stepsToBoundary x := by
  rw [turnsLeft_of_spin hjob hphase, turnsFromSpin, if_pos hcooling]

theorem turnsFromAccum_pos (x : UnitState) : 1 ≤ turnsFromAccum x := by
  unfold turnsFromAccum
  split <;> omega

/-- A run in a cooldown, or with a cancellation that the policy overrides, is a legal microstepping one. -/
theorem microLegal_of_cooling {x : UnitState} (h : x.Legal) (hc : CoolOk x) (hrun : x.run = .running)
    (hcool : x.cooling = true ∨ x.policyApplies = true) : MicroLegal x :=
  microLegal_of_running h hrun (hcool.elim (fun hcooling => (hc hcooling).2.1) micro_of_policyApplies)

theorem turnsFromAccum_le {x : UnitState} (h : x.Legal) (hc : CoolOk x) (hrun : x.run = .running) :
    turnsFromAccum x ≤ 14 * x.nms.toNat + 1 := by
  unfold turnsFromAccum
  split
  case isTrue hcool =>
    have := stepsToBoundary_mem (microLegal_of_cooling h hc hrun hcool.1)
    omega
  case isFalse => omega

theorem turnsLeft_pos {x : UnitState} (h : x.Legal) (hc : CoolOk x) (hrun : x.run = .running) : 1 ≤ turnsLeft x := by
  have haccum := turnsFromAccum_pos x
  unfold turnsLeft
  split
  · omega
  · split
    · exact haccum
    · unfold turnsFromSpin
      split
      case isTrue hcooling =>
        have := stepsToBoundary_mem (microLegal_of_cooling h hc hrun (.inl hcooling))
        omega
      case isFalse => exact haccum

/-- The turns that are left are within the obligation's bound (R131). -/
theorem turnsLeft_le {x : UnitState} (h : x.Legal) (hc : CoolOk x) (hrun : x.run = .running) :
    turnsLeft x ≤ x.turnsToEnd := by
  have haccum := turnsFromAccum_le h hc hrun
  unfold turnsLeft UnitState.turnsToEnd
  cases x.stepJob with
  | some job =>
    have : jobTurns job ≤ 2 * (1 + (stepWrites job.rest).length) := Nat.sub_le ..
    dsimp only
    omega
  | none =>
    dsimp only
    rw [Nat.zero_add]
    split
    · exact haccum
    · unfold turnsFromSpin
      split
      case isTrue hcooling =>
        have := stepsToBoundary_mem (microLegal_of_cooling h hc hrun (.inl hcooling))
        omega
      case isFalse => exact haccum

/-! ### Between Steps -/

theorem turnsLeft_accum {x : UnitState} (hreq : x.cancelReq = true) (hjob : x.stepJob = none)
    (hphase : x.phase = .accum) (hrun : x.accum.run = .running) : turnsLeft x.accum < turnsLeft x := by
  rcases accum_outcome x with he | ⟨hcancel, hcooled, he⟩ <;> rw [he] at hrun ⊢
  · cases hrun
  · have hcool : x.cooling = true ∨ x.policyApplies = true := by
      by_contra hnot
      push Not at hnot
      exact hcancel ⟨(PacingLoop.cancelSeen_iff x).2 ⟨hreq, Bool.eq_false_iff.2 hnot.1⟩, hnot.2⟩
    have hoff : ¬x.onBoundary = true := by
      rcases hcool with hcooling | hpolicy
      · exact fun hb => hcooled ⟨hcooling, hb⟩
      · rw [PacingLoop.onBoundary_of_policyApplies hpolicy]; nofun
    rw [turnsLeft_of_accum hjob hphase, turnsFromAccum, if_pos ⟨hcool, hoff⟩]
    refine Eq.trans_lt (b := 14 * stepsToBoundary x) (turnsLeft_of_cooling ?_ ?_ ?_) (Nat.lt_succ_self _)
    · exact hjob
    · rfl
    · rw [hreq, Bool.or_true]

theorem turnsLeft_seen {x : UnitState} (hjob : x.stepJob = none) (hphase : x.phase = .spin)
    (hseen : x.cancelSeen = true) (hpolicy : x.policyApplies = true) :
    turnsLeft { x with cooling := true } < turnsLeft x := by
  obtain ⟨-, hcooling⟩ := (PacingLoop.cancelSeen_iff x).1 hseen
  have hoff : ¬x.onBoundary = true := by rw [PacingLoop.onBoundary_of_policyApplies hpolicy]; nofun
  rw [turnsLeft_of_spin hjob hphase, turnsFromSpin, if_neg (by rw [hcooling]; nofun), turnsFromAccum,
    if_pos ⟨.inr hpolicy, hoff⟩]
  exact (turnsLeft_of_cooling (x := { x with cooling := true }) hjob hphase rfl).trans_lt (Nat.lt_succ_self _)

/-! ### A Step -/

section

variable {s : State} {u : UnitId}

/-- A Step that goes on has a write behind it, out of those it had. -/
theorem runOps_job_writes {ops : List StepOp} {job : StepJob} (h : (runOps u ops s).1 = some job) :
    job.write.locked = false ∧ (stepWrites job.rest).length + 1 ≤ (stepWrites ops).length := by
  induction ops generalizing s with
  | nil => cases h
  | cons op ops ih =>
    cases op with
    | record c ratio pol => exact ih h
    | apply ch ratio =>
      unfold runOps at h
      rw [stepWrites_apply, List.length_cons]
      split at h
      case isTrue =>
        obtain ⟨hlocked, hle⟩ := ih h
        exact ⟨hlocked, hle.trans (Nat.le_succ _)⟩
      case isFalse =>
        cases h
        exact ⟨rfl, Nat.le_refl _⟩

/-- Carrying a Step on leaves two turns for each write to come, and those from the Accum after it. -/
theorem turnsLeft_loopStepOps (s : State) (u : UnitId) (ops : List StepOp) :
    turnsLeft ((s.loopStepOps u ops).unit u) ≤ 2 * (stepWrites ops).length + turnsFromAccum (s.unit u) := by
  have hunit := PacingLoop.runOps_unit u ops s u
  rcases s.loopStepOps_cases u ops with ⟨-, he⟩ | ⟨job, hjob, he⟩ <;> rw [he, State.setUnit_unit_self, hunit]
  · rw [turnsLeft_of_accum rfl rfl]
    exact Nat.le_add_left ..
  · obtain ⟨hlocked, hle⟩ := runOps_job_writes hjob
    rw [turnsLeft_of_job rfl, jobTurns, hlocked]
    refine Nat.add_le_add ?_ (Nat.le_refl (turnsFromAccum (s.unit u)))
    simp only [Bool.false_eq_true, if_false]
    omega

theorem stepWrites_coilOps_length (t : PortTriple) (last : Last) (c : Coil) (cur : Int) (pf : Nat) :
    (stepWrites (coilOps t last c cur pf)).length ≤ 3 := by
  refine (StepOrder.stepWrites_coilOps_sublist t last c cur pf).length_le.trans ?_
  rw [← List.length_map (f := Prod.fst), (StepOrder.fullWrites_channels_perm t cur pf).length_eq]
  exact Nat.le_refl _

/-- A Step makes at most six writes (R115). -/
theorem stepWrites_stepOps_length (s : State) (u : UnitId) : (stepWrites (s.stepOps u)).length ≤ 6 := by
  rw [StepOrder.stepWrites_stepOps, List.length_append]
  exact Nat.add_le_add (stepWrites_coilOps_length ..) (stepWrites_coilOps_length ..)

/-- A Step of a cooldown, its writes and the Accum after it are fourteen turns nearer to the boundary. -/
theorem turnsLeft_due (hlegal : (s.unit u).Legal) (hc : CoolOk (s.unit u)) (hrun : (s.unit u).run = .running)
    (hjob : (s.unit u).stepJob = none) (hphase : (s.unit u).phase = .spin) (hcooling : (s.unit u).cooling = true) :
    turnsLeft ((s.stepDue u).unit u) < turnsLeft (s.unit u) := by
  have hmicro := microLegal_of_cooling hlegal hc hrun (.inl hcooling)
  have hmem := stepsToBoundary_mem hmicro
  have hle := turnsLeft_loopStepOps (s.advanceIndex u (s.unit u).dir) u
    ((s.advanceIndex u (s.unit u).dir).stepOps u)
  have hsix := stepWrites_stepOps_length (s.advanceIndex u (s.unit u).dir) u
  have hunit := State.advanceIndex_unit s u u (s.unit u).dir
  rw [if_pos rfl] at hunit
  have haccum : turnsFromAccum ((s.advanceIndex u (s.unit u).dir).unit u) + 13 ≤ 14 * stepsToBoundary (s.unit u) := by
    unfold turnsFromAccum
    split
    case isTrue hoff =>
      have := stepsToBoundary_step hmicro hunit hoff.2
      omega
    case isFalse => omega
  rw [turnsLeft_of_cooling hjob hphase hcooling, State.stepDue]
  omega

/-! ### A turn -/

theorem loopEnabled_of_job {job : StepJob} (hrun : (s.unit u).run = .running) (hjob : (s.unit u).stepJob = some job) :
    s.loopEnabled u = (job.write.locked || decide (s.busLock = .free)) := by
  simp only [State.loopEnabled, hrun, hjob, decide_true, Bool.true_and]

theorem loopEnabled_of_no_job (hrun : (s.unit u).run = .running) (hjob : (s.unit u).stepJob = none) :
    s.loopEnabled u = (decide ((s.unit u).phase = .accum) || (s.unit u).cancelSeen ||
      decide ((s.unit u).deadline ≤ s.time)) := by
  simp only [State.loopEnabled, hrun, hjob, decide_true, Bool.true_and, UnitState.cancelSeen]

theorem move_loop_of_job {job : StepJob} (hrun : (s.unit u).run = .running) (hjob : (s.unit u).stepJob = some job) :
    s.move (.loop u) = s.loopWrite u job := by
  simp [State.loopStep, hrun, hjob]

/-- An enabled turn of a run that has been asked to end brings it nearer to its end (R126 to R131). -/
theorem turnsLeft_of_enabled (hlegal : (s.unit u).Legal) (hc : CoolOk (s.unit u))
    (hreq : (s.unit u).cancelReq = true) (hen : s.loopEnabled u = true)
    (hrun : ((s.move (.loop u)).unit u).run = .running) :
    turnsLeft ((s.move (.loop u)).unit u) < turnsLeft (s.unit u) := by
  have hrunning : (s.unit u).run = .running := JobOwners.running_of_moved (moved_move s (.loop u)) hrun
  cases hjob : (s.unit u).stepJob with
  | some job =>
    rw [loopEnabled_of_job hrunning hjob] at hen
    rw [move_loop_of_job hrunning hjob] at hrun ⊢
    rw [turnsLeft_of_job hjob, jobTurns]
    rcases s.loopWrite_cases u job with ⟨hlocked, he⟩ | ⟨hlocked, -, he⟩ | ⟨hlocked, hheld, he⟩
    · rw [he, State.loopStepAnswered] at hrun ⊢
      by_cases hack : (s.writeImage (.loop u) job.write).1 = .ack
      · rw [if_pos hack]
        have hle := turnsLeft_loopStepOps (s.writeImage (.loop u) job.write).2 u job.rest
        rw [State.writeImage_unit] at hle
        rw [hlocked, if_pos rfl]
        omega
      · rw [if_neg hack, State.setUnit_unit_self] at hrun
        cases hrun
    · rw [he, State.setUnit_unit_self, turnsLeft_of_job rfl, jobTurns, hlocked, if_pos rfl]
      simp only [Bool.false_eq_true, if_false]
      change _ + turnsFromAccum (s.unit u) < _
      omega
    · simp [hlocked, hheld] at hen
  | none =>
    cases hphase : (s.unit u).phase with
    | accum =>
      rw [PacingLoop.move_loop_accum hrunning hjob hphase, State.setUnit_unit_self] at hrun ⊢
      exact turnsLeft_accum hreq hjob hphase hrun
    | spin =>
      rw [PacingLoop.move_loop_spin hrunning hjob hphase] at hrun ⊢
      by_cases hcooling : (s.unit u).cooling = true
      · have hseen : ¬(s.unit u).cancelSeen = true := by rw [PacingLoop.cancelSeen_of_cooling hcooling]; nofun
        have hdue : (s.unit u).deadline ≤ s.time := by
          rw [loopEnabled_of_no_job hrunning hjob] at hen
          simpa [hphase, hseen] using hen
        rw [PacingLoop.spin_of_due hseen hdue]
        exact turnsLeft_due hlegal hc hrunning hjob hphase hcooling
      · have hseen := (PacingLoop.cancelSeen_iff _).2 ⟨hreq, Bool.eq_false_iff.2 hcooling⟩
        rw [PacingLoop.spin_of_seen hseen, State.setUnit_unit_self] at hrun ⊢
        by_cases hpolicy : (s.unit u).policyApplies = true
        · rw [if_pos hpolicy]
          exact turnsLeft_seen hjob hphase hseen hpolicy
        · rw [if_neg hpolicy] at hrun
          cases hrun

/-- A turn that finds the loop without a step changes nothing (R20). -/
theorem move_of_not_enabled (h : ¬s.loopEnabled u = true) : s.move (.loop u) = s := by
  by_cases hrun : (s.unit u).run = .running
  · cases hjob : (s.unit u).stepJob with
    | some job =>
      rw [loopEnabled_of_job hrun hjob] at h
      rw [move_loop_of_job hrun hjob]
      rcases s.loopWrite_cases u job with ⟨hlocked, -⟩ | ⟨-, hfree, -⟩ | ⟨-, -, he⟩
      · simp [hlocked] at h
      · simp [hfree] at h
      · exact he
    | none =>
      rw [loopEnabled_of_no_job hrun hjob] at h
      cases hphase : (s.unit u).phase with
      | accum => simp [hphase] at h
      | spin =>
        rw [PacingLoop.move_loop_spin hrun hjob hphase]
        exact PacingLoop.spin_of_not_due (fun hseen => h (by simp [hseen])) fun hdue => h (by simp [hdue])
  · simp [State.loopStep, hrun]

end

end Sys2Proof.TurnsLeft
end

section
/-! A hold ends (R123, R131, R134, R135): the turns that the held unit's loop has left bound those that find it with a
step, so the loop's turns find it without one from some time on, or the hold is over. -/

namespace Sys2Proof.HeldRuns

open Machine StepRelation StepFrames LockExclusion RegisterRanges JobOwners Cooldowns TurnsLeft FairTurns

/-- The port holds for unit u, in a state that meets what every step keeps. -/
structure Held (u : UnitId) (why : HoldFor) (s : State) : Prop where
  legal : s.RegistersLegal
  holds : s.HoldsOk
  port : s.port = .busy (.hold u why)

section

variable {s t : State} {u : UnitId} {why : HoldFor} {c : Choice}

theorem Held.unit_legal (h : Held u why s) : (s.unit u).Legal := (h.legal.1 u).1

theorem Held.cool (h : Held u why s) : CoolOk (s.unit u) := h.holds.1 u

/-! ### A turn -/

theorem port_of_move (hport : s.port = .busy (.hold u why)) (hrun : (s.unit u).run = .running) (c : Choice) :
    (s.move c).port = .busy (.hold u why) := by
  cases c with
  | tick => exact congrArg PortState.tick hport
  | port => rw [RunEnds.move_hold_of_running hport hrun]; exact hport
  | loop v => rw [PacedTurns.onlyBus_of_loop (moved_move s (.loop v))]; exact hport

theorem held_of_move (h : Held u why s) (hrun : (s.unit u).run = .running) (c : Choice) : Held u why (s.move c) where
  legal := registersLegal_of_moved h.legal (moved_move s c)
  holds := holdsOk_of_moved h.legal h.holds (moved_move s c)
  port := port_of_move h.port hrun c

theorem unit_of_move_ne (hport : s.port = .busy (.hold u why)) (hrun : (s.unit u).run = .running)
    (hc : c ≠ .loop u) : (s.move c).unit u = s.unit u := by
  cases c with
  | tick => rfl
  | port => rw [RunEnds.move_hold_of_running hport hrun]
  | loop v => exact PacedTurns.unit_of_loop_ne (moved_move s (.loop v)) fun hv => hc (by rw [hv])

/-- A turn of a held unit's loop that finds it with a step is one fewer that is left; no turn adds to them. -/
theorem turnsLeft_of_move (h : Held u why s) (hrun : ((s.move c).unit u).run = .running) :
    (if c = .loop u ∧ s.loopEnabled u = true then 1 else 0) + turnsLeft ((s.move c).unit u) ≤ turnsLeft (s.unit u) := by
  have hrunning := running_of_moved (moved_move s c) hrun
  by_cases hc : c = .loop u
  · subst hc
    by_cases hen : s.loopEnabled u = true
    · have := turnsLeft_of_enabled h.unit_legal h.cool (h.holds.2 u why h.port hrunning) hen hrun
      rw [if_pos ⟨rfl, hen⟩]
      omega
    · rw [if_neg fun h => hen h.2, move_of_not_enabled hen, Nat.zero_add]
  · rw [if_neg fun h => hc h.1, unit_of_move_ne h.port hrunning hc, Nat.zero_add]

/-! ### A schedule -/

theorem running_of_foldl {cs : List Choice} (h : ((cs.foldl State.move s).unit u).run = .running) :
    (s.unit u).run = .running := by
  induction cs generalizing s with
  | nil => exact h
  | cons c cs ih => exact running_of_moved (moved_move s c) (ih h)

theorem enabledTurns_lt {cs : List Choice} (h : Held u why s)
    (hrun : ((cs.foldl State.move s).unit u).run = .running) : s.enabledTurns u cs < turnsLeft (s.unit u) := by
  induction cs generalizing s with
  | nil => exact turnsLeft_pos h.unit_legal h.cool hrun
  | cons c cs ih =>
    have hmoved : ((s.move c).unit u).run = .running := running_of_foldl hrun
    have hrest := ih (held_of_move h (running_of_moved (moved_move s c) hmoved) c) hrun
    have := turnsLeft_of_move h hmoved
    rw [State.enabledTurns]
    omega

/-! ### The scheduler's run -/

/-- Along the scheduler's run the hold is over at some time. -/
def Ends (u : UnitId) (why : HoldFor) (s : State) : Prop :=
  ∃ n t, s.steps n = .next t ∧ t.port ≠ .busy (.hold u why)

theorem ends_of_steps {n : Nat} (h : s.steps n = .next t) : Ends u why t → Ends u why s := by
  rintro ⟨m, r, hr, hport⟩
  exact ⟨n + m, r, (steps_add h m).trans hr, hport⟩

theorem ends_of_step (h : step s = .next t) (hport : t.port ≠ .busy (.hold u why)) : Ends u why s :=
  ⟨1, t, steps_succ h 0, hport⟩

/-- While the port is Busy a step is the turn of the agent that is chosen. -/
theorem step_of_hold (hport : s.port = .busy (.hold u why)) :
    step s = .next (s.nextChoice.2.move s.nextChoice.1) := by
  rcases step_cases s with ⟨-, hidle, -⟩ | ⟨-, he⟩
  · rw [hport] at hidle
    cases hidle
  · exact he

theorem held_nextChoice (h : Held u why s) : Held u why s.nextChoice.2 := by
  obtain ⟨sc, r, n, hframe⟩ := nextChoice_frame s
  rw [hframe]
  exact ⟨h.legal, h.holds, h.port⟩

theorem nextChoice_unit (s : State) (v : UnitId) : s.nextChoice.2.unit v = s.unit v := by
  obtain ⟨sc, r, n, hframe⟩ := nextChoice_frame s
  rw [hframe]
  rfl

theorem nextChoice_loopEnabled (s : State) (v : UnitId) : s.nextChoice.2.loopEnabled v = s.loopEnabled v := by
  obtain ⟨sc, r, n, hframe⟩ := nextChoice_frame s
  rw [hframe]
  rfl

theorem hold_over {n : Nat} (hport : s.port = .busy (.hold u why)) (hrun : (s.unit u).run ≠ .running)
    (hsteps : s.steps n = .next t) (hturn : t.nextChoice.1 = .port) : Ends u why s := by
  induction n generalizing s with
  | zero =>
    cases hsteps
    obtain ⟨sc, r, n, hframe⟩ := nextChoice_frame t
    refine ends_of_step (step_of_hold hport) ?_
    rw [hturn, hframe,
      RunEnds.move_hold_of_not_running (s := { t with sched := sc, round := r, schedDraws := n }) hport hrun]
    intro hp
    rcases BusTrace.afterHold_port { t with sched := sc, round := r, schedDraws := n } u why with
      h | ⟨_, _, _, _, _, h⟩ <;> rw [h] at hp <;> cases hp
  | succ n ih =>
    have hstep := step_of_hold hport
    rw [steps_succ hstep] at hsteps
    by_cases hnext : (s.nextChoice.2.move s.nextChoice.1).port = .busy (.hold u why)
    · refine ends_of_steps (steps_succ hstep 0) (ih hnext (fun h => hrun ?_) hsteps)
      rw [← nextChoice_unit s u]
      exact running_of_moved (moved_move s.nextChoice.2 s.nextChoice.1) h
    · exact ends_of_step hstep hnext

/-- The hold of a unit that is not Running is over on the port's next turn (R123, R134, R135). -/
theorem ends_of_not_running (hport : s.port = .busy (.hold u why)) (hrun : (s.unit u).run ≠ .running) :
    Ends u why s := by
  obtain ⟨n, t, hsteps, hturn⟩ := everyAgentsTurnComesAgain.1 s .port
  exact hold_over hport hrun hsteps hturn

/-- What every turn keeps while the held unit runs, holds for as long as the hold lasts. -/
theorem ends_or_kept {P : State → Prop} (hsched : ∀ s, P s → P s.nextChoice.2)
    (hmove : ∀ s c, P s → Held u why s → ((s.move c).unit u).run = .running → P (s.move c)) {n : Nat}
    (h : Held u why s) (hp : P s) (hsteps : s.steps n = .next t) : Ends u why s ∨ Held u why t ∧ P t := by
  induction n generalizing s with
  | zero =>
    cases hsteps
    exact .inr ⟨h, hp⟩
  | succ n ih =>
    have hstep := step_of_hold h.port
    rw [steps_succ hstep] at hsteps
    by_cases hrun : ((s.nextChoice.2.move s.nextChoice.1).unit u).run = .running
    · have hchosen := held_nextChoice h
      have hrunning := running_of_moved (moved_move s.nextChoice.2 s.nextChoice.1) hrun
      exact (ih (held_of_move hchosen hrunning _) (hmove _ _ (hsched s hp) hchosen hrun) hsteps).imp_left
        (ends_of_steps (steps_succ hstep 0))
    · refine .inl ?_
      by_cases hport : (s.nextChoice.2.move s.nextChoice.1).port = .busy (.hold u why)
      · exact ends_of_steps (steps_succ hstep 0) (ends_of_not_running hport hrun)
      · exact ends_of_step hstep hport

theorem turnsLeft_along {n k : Nat} (h : Held u why s) (hk : turnsLeft (s.unit u) ≤ k) (hsteps : s.steps n = .next t) :
    Ends u why s ∨ Held u why t ∧ turnsLeft (t.unit u) ≤ k := by
  refine ends_or_kept (P := fun s => turnsLeft (s.unit u) ≤ k) (fun s hs => ?_) (fun s c hs hheld hrun => ?_) h hk hsteps
  · rw [nextChoice_unit]
    exact hs
  · have := turnsLeft_of_move hheld hrun
    omega

/-- The hold is over at some time, or from some time on the loop's turns find it without a step. -/
def EndsOrWaits (u : UnitId) (why : HoldFor) (s : State) : Prop :=
  Ends u why s ∨
    ∃ n, ∀ m t, n ≤ m → s.steps m = .next t → t.nextChoice.1 = .loop u → t.loopEnabled u = false

theorem endsOrWaits_of_steps {n : Nat} (h : s.steps n = .next t) : EndsOrWaits u why t → EndsOrWaits u why s := by
  rintro (hends | ⟨k, hwaits⟩)
  · exact .inl (ends_of_steps h hends)
  · refine .inr ⟨n + k, fun m r hm hr hturn => hwaits (m - n) r (by omega) ?_ hturn⟩
    rw [← steps_add h (m - n), Nat.add_sub_cancel' (by omega)]
    exact hr

theorem endsOrWaits (h : Held u why s) : EndsOrWaits u why s := by
  induction hk : turnsLeft (s.unit u) using Nat.strong_induction_on generalizing s with
  | _ k ih =>
    by_cases hwaits : ∀ n t, s.steps n = .next t → t.nextChoice.1 = .loop u → t.loopEnabled u = false
    · exact .inr ⟨0, fun m t _ => hwaits m t⟩
    · push Not at hwaits
      obtain ⟨n, t, hsteps, hturn, hen⟩ := hwaits
      replace hen := Bool.eq_true_of_not_eq_false hen
      rcases turnsLeft_along h hk.le hsteps with hends | ⟨hheld, hle⟩
      · exact .inl hends
      · have hstep := step_of_hold hheld.port
        refine endsOrWaits_of_steps hsteps (endsOrWaits_of_steps (steps_succ hstep 0) ?_)
        by_cases hrun : ((t.nextChoice.2.move t.nextChoice.1).unit u).run = .running
        · have hchosen := held_nextChoice hheld
          have hrunning := running_of_moved (moved_move t.nextChoice.2 t.nextChoice.1) hrun
          have hfewer := turnsLeft_of_move hchosen hrun
          rw [if_pos ⟨hturn, (nextChoice_loopEnabled t u).trans hen⟩, nextChoice_unit] at hfewer
          exact ih _ (by omega) (held_of_move hchosen hrunning _) rfl
        · by_cases hport : (t.nextChoice.2.move t.nextChoice.1).port = .busy (.hold u why)
          · exact .inl (ends_of_not_running hport hrun)
          · exact .inl ⟨0, _, rfl, hport⟩

/-! ### The held unit alone -/

/-- No other unit is Running, and unit u neither is in a cooldown nor can begin one (R129). -/
structure Alone (u : UnitId) (s : State) : Prop where
  lock : s.LockOk
  others : ∀ v, v ≠ u → (s.unit v).run ≠ .running
  cooling : (s.unit u).cooling = false
  noPolicy : (s.unit u).endFull = false ∨ (s.unit u).style ≠ .micro

theorem not_policyApplies {x : UnitState} (h : x.endFull = false ∨ x.style ≠ .micro) : ¬x.policyApplies = true := by
  intro hpolicy
  obtain ⟨hendFull, hmicro, -⟩ := (PacingLoop.policyApplies_iff x).1 hpolicy
  rcases h with h | h
  · rw [hendFull] at h
    cases h
  · exact h hmicro

/-- Between its Steps a run that has been asked to end, with no policy against it, is ended by its loop's next turn. -/
theorem not_running_of_asked {t : State} (hm : Moved s (.loop u) t) (hjob : (s.unit u).stepJob = none)
    (hreq : (s.unit u).cancelReq = true) (hcool : (s.unit u).cooling = false)
    (hpolicy : ¬(s.unit u).policyApplies = true) (hmoved : t ≠ s) : (t.unit u).run ≠ .running := by
  have hseen : (s.unit u).cancelSeen = true := (PacingLoop.cancelSeen_iff _).2 ⟨hreq, hcool⟩
  cases hm with
  | stays => exact absurd rfl hmoved
  | accum _ => rw [State.setUnit_unit_self, PacingLoop.accum_of_cancelled hseen hpolicy]; nofun
  | seen _ => rw [State.setUnit_unit_self, if_neg hpolicy]; nofun
  | due _ _ _ _ hnot => rw [hseen] at hnot; cases hnot
  | loopLock _ _ _ hsome | loopWritten _ _ _ hsome | loopFailed _ _ _ hsome => rw [hjob] at hsome; cases hsome

theorem cooling_of_own_turn {t : State} (hm : Moved s (.loop u) t) (hreq : (s.unit u).cancelReq = true)
    (hcool : (s.unit u).cooling = false) (hpolicy : ¬(s.unit u).policyApplies = true)
    (hrun : (t.unit u).run = .running) : (t.unit u).cooling = false := by
  by_cases hsame : t = s
  · rw [hsame]
    exact hcool
  · cases hjob : (s.unit u).stepJob with
    | none => exact absurd hrun (not_running_of_asked hm hjob hreq hcool hpolicy hsame)
    | some job =>
      cases hm with
      | stays => exact hcool
      | accum _ _ hnone | seen _ _ hnone | due _ _ hnone => rw [hjob] at hnone; cases hnone
      | loopLock _ => rw [State.setUnit_unit_self]; exact hcool
      | loopWritten _ =>
        rw [(sameRun_loopStepOps _ u _).cooling, State.writeImage_unit]
        exact hcool
      | loopFailed _ => rw [State.setUnit_unit_self]; rfl

theorem alone_of_move (h : Alone u s) (hheld : Held u why s) (hrun : ((s.move c).unit u).run = .running) :
    Alone u (s.move c) := by
  have hrunning := running_of_moved (moved_move s c) hrun
  have hlock := lockOk_of_moved h.lock (moved_move s c)
  have hothers (v : UnitId) (hv : v ≠ u) : ((s.move c).unit v).run ≠ .running := fun hr =>
    h.others v hv (running_of_moved (moved_move s c) hr)
  by_cases hc : c = .loop u
  · subst hc
    have hreq := hheld.holds.2 u why hheld.port hrunning
    have hsettings := PacedTurns.sameSettings_of_loop (moved_move s (.loop u))
    refine ⟨hlock, hothers,
      cooling_of_own_turn (moved_move s (.loop u)) hreq h.cooling (not_policyApplies h.noPolicy) hrun, ?_⟩
    rw [hsettings]
    exact h.noPolicy
  · have hsame := unit_of_move_ne hheld.port hrunning hc
    exact ⟨hlock, hothers, by rw [hsame]; exact h.cooling, by rw [hsame]; exact h.noPolicy⟩

theorem alone_nextChoice (h : Alone u s) : Alone u s.nextChoice.2 := by
  obtain ⟨sc, r, n, hframe⟩ := nextChoice_frame s
  rw [hframe]
  exact ⟨h.lock, h.others, h.cooling, h.noPolicy⟩

/-- Outside every critical section the lock is Free (R66). -/
theorem busLock_free (hlock : s.LockOk) (hport : s.port.inCritical = false)
    (hunits : ∀ v, (s.unit v).inCritical = false) : s.busLock = .free := by
  cases h : s.busLock with
  | free => rfl
  | port =>
    have hin := hlock.1.1 h
    rw [hport] at hin
    cases hin
  | loop v =>
    have hin := (hlock.2.1 v).1 h
    rw [hunits v] at hin
    cases hin

/-- With no other run and no cooldown a held unit's loop always has a step (R20, R66). -/
theorem loopEnabled_of_alone (h : Alone u s) (hheld : Held u why s) (hrun : (s.unit u).run = .running) :
    s.loopEnabled u = true := by
  have hreq := hheld.holds.2 u why hheld.port hrun
  cases hjob : (s.unit u).stepJob with
  | none =>
    rw [loopEnabled_of_no_job hrun hjob, (PacingLoop.cancelSeen_iff _).2 ⟨hreq, h.cooling⟩, Bool.or_true, Bool.true_or]
  | some job =>
    rw [loopEnabled_of_job hrun hjob]
    cases hlocked : job.write.locked with
    | true => rfl
    | false =>
      have hfree : s.busLock = .free := by
        refine busLock_free h.lock (by rw [hheld.port]; rfl) fun v => ?_
        by_cases hv : v = u
        · subst hv
          rw [UnitState.inCritical, hjob]
          exact hlocked
        · exact inCritical_of_no_job (h.lock.2.2.1 v (h.others v hv))
      rw [hfree]
      rfl

theorem ends_of_alone (h : Alone u s) (hheld : Held u why s) : Ends u why s := by
  rcases endsOrWaits hheld with hends | ⟨n, hwaits⟩
  · exact hends
  · obtain ⟨t, ht⟩ := steps_next s n
    obtain ⟨m, r, hr, hturn⟩ := everyAgentsTurnComesAgain.1 t (.loop u)
    have hsteps := (steps_add ht m).trans hr
    have hdisabled := hwaits (n + m) r (Nat.le_add_right ..) hsteps hturn
    rcases ends_or_kept (fun _ => alone_nextChoice) (fun _ _ ha hl hrun => alone_of_move ha hl hrun) hheld h hsteps with
      hends | ⟨hr', halone⟩
    · exact hends
    · by_cases hrun : (r.unit u).run = .running
      · rw [loopEnabled_of_alone halone hr' hrun] at hdisabled
        cases hdisabled
      · exact ends_of_steps hsteps (ends_of_not_running hr'.port hrun)

end

/-- Settles O51: the turns left bound the loop's own, along any schedule and along the scheduler's run. -/
theorem heldCommandsEnd : Obligations.HeldCommandsEnd := by
  refine ⟨fun s u why cs hlegal hholds hport hrun => ?_, fun s u why hlegal hholds hport => ?_,
    fun s u why hlegal hholds hlock hport hothers hcool hpolicy => ?_, step_keeps_holdsOk⟩
  · have h : Held u why s := ⟨hlegal, hholds, hport⟩
    exact (enabledTurns_lt h hrun).trans_le (turnsLeft_le h.unit_legal h.cool (running_of_foldl hrun))
  · exact endsOrWaits ⟨hlegal, hholds, hport⟩
  · exact ends_of_alone ⟨hlock, hothers, hcool, hpolicy⟩ ⟨hlegal, hholds, hport⟩

end Sys2Proof.HeldRuns
end
